-- ==== Sys2Proof/Word.lean ====
section
/-! DEFINITION. The widths the data sheet fixes: bytes, register words, and the numbers of nodes, records, frames and slots. -/

namespace Sys2Proof

/-- A link byte or half of a register word (R200). -/
abbrev Byte := BitVec 8

/-- A word of the supervisor register window (R168). -/
abbrev Word := BitVec 16

/-- A node, 0 to 11. -/
abbrev Node := Fin 12

/-- A lease record's handle, 0 to 95 (R1). -/
abbrev Handle := Fin 96

/-- A frame of the superframe, 0 to 15. -/
abbrev Frame := Fin 16

/-- A slot column of the slot map, 0 to 63 (R27). -/
abbrev Slot := Fin 64

/-- A frame set: bit f stands for frame f (R200). -/
abbrev FrameSet := BitVec 16

/-- A notice set: one bit for each kind (R200). -/
abbrev NoticeSet := BitVec 8

/-- A link sequence number, 0 to 15 (R149). -/
abbrev SeqNo := BitVec 4

end Sys2Proof
end

