-- ==== Sys2Proof/Config.lean ====
section
/-! DEFINITION. The fixed sizes of the part. The spec leaves no result undefined, so there is no free value here. -/

namespace Sys2Proof.Config

/-- The claim queue holds at most sixteen entries (R46). -/
abbrev queueRoom : Nat := 16

/-- A record has at most four live children (R69). -/
abbrev maxChildren : Nat := 4

/-- The INIT clear makes 125 steps (R185). -/
abbrev clearSteps : Nat := 125

/-- The last audit step's position (R197). -/
abbrev lastAuditStep : Nat := 111

end Sys2Proof.Config
end

