-- ==== Sys2Proof/Syntax.lean ====
section
/-! DEFINITION. The stored items of the Lease Store and the commands and events of the part: one constructor of Instr for each row of the table. -/

namespace Sys2Proof

/-- A record's state (R1, codes in R200). -/
inductive RecState where
  | free | waiting | held | draining | suspended | displaced | closed | corrupt
deriving DecidableEq, Repr

/-- A root comes from CLAIM or PLACE, a child from SUBLET (R1). -/
inductive Kind where
  | root | child
deriving DecidableEq, Repr

/-- Why a record closed (section 1.6; codes in R200). -/
inductive CloseReason where
  | released | expired | idle | revoked | recalled | cascade | lost | waitOver | left | barred
deriving DecidableEq, Repr

/-- The notice kinds (R8; bits in R200). -/
inductive NoticeKind where
  | placed | granted | expiring | displaced | reinstated | suspended | resumed | closed
deriving DecidableEq, Repr

/-- The suspension reasons a record holds (R1). -/
structure Reasons where
  supervisor    : Bool
  ownerBarred   : Bool
  granteeBarred : Bool
deriving DecidableEq, Repr

/-- One lease record with the fields of R1. A field that is present on a condition is an Option. The ranges of the counted fields are R1's and are stated by WellFormed. -/
structure LeaseRecord where
  state          : RecState
  generation     : BitVec 8
  kind           : Kind
  owner          : Node
  grantee        : Node
  isProtected    : Bool
  firstSlot      : Option Slot
  width          : Nat
  frameSet       : FrameSet
  rank           : Nat
  yields         : Bool
  term           : Nat
  waitLimit      : Option Nat
  waitAge        : Option Nat
  parent         : Option Handle
  depth          : Nat
  children       : List Handle
  reasons        : Reasons
  closeReason    : Option CloseReason
  closeAge       : Option Nat
  used           : Bool
  idleCount      : Nat
  ownerNotices   : NoticeSet
  granteeNotices : NoticeSet
  /-- The stored check code exclusive-or the code computed over the fields above: 0 exactly when they match (R188; log 5, DESIGN CHOICE). -/
  check          : BitVec 16
deriving DecidableEq, Repr

/-- A node's state as stored (R155). R185 names stored patterns that are none of the three states: `invalid`. -/
inductive NodeState where
  | absent | joined | barred | invalid
deriving DecidableEq, Repr

/-- One node record (R155). The check field is as in LeaseRecord. -/
structure NodeRecord where
  state       : NodeState
  quota       : Nat
  rankCeiling : Nat
  strikes     : Nat
  liveOwned   : Nat
  check       : BitVec 16
deriving DecidableEq, Repr

/-- A cell of the slot map: empty or the handle of a root (R27), and whether its parity matches. -/
structure Cell where
  names    : Option Handle
  parityOk : Bool
deriving DecidableEq, Repr

/-- An entry of the claim queue (R46). -/
structure QueueEntry where
  handle   : Handle
  parityOk : Bool
deriving DecidableEq, Repr

/-- A stored item and the contents it holds once it is damaged (R188): the operand of ITEM_DAMAGED. -/
inductive Damage where
  | record (h : Handle) (contents : LeaseRecord)
  | node (n : Node) (contents : NodeRecord)
  | cell (f : Frame) (s : Slot) (contents : Cell)
  | queueEntry (position : Nat) (contents : QueueEntry)
deriving DecidableEq, Repr

/-- The six configuration words (R179). -/
inductive ConfigWord where
  | slotLength | integrityMode | warningThreshold | idleLimit | strikeLimit | reinstatementWait
deriving DecidableEq, Repr

/-- The commands and events, one constructor for each row of spec/opcode_table.json. An engine operation reads its arguments from the engine's pending set (R88), so it carries only the link, record or node the row is about. -/
inductive Instr where
  | deviceReset
  | slotStart
  | firstFrameStart
  | linkFrameArrival (link : Node) (frame : List Byte)
  | partialFrameTimeout (link : Node)
  | lineBreakBegin (link : Node)
  | lineBreakEnd (link : Node)
  | responseSent (link : Node)
  | claim (link : Node)
  | renew (link : Node)
  | release (link : Node)
  | sublet (link : Node)
  | recall (link : Node)
  | join (link : Node)
  | leave (link : Node)
  | poll (link : Node)
  | query (link : Node)
  | status (link : Node)
  | sweep
  | closeAgeFree (handle : Handle)
  | idleReclaim (handle : Handle)
  | termExpiry (handle : Handle)
  | drainCompletion
  | waitOver (handle : Handle)
  | sweepWithdrawn
  | planBuild
  | fold
  | strike
  | barring (node : Node)
  | quarantine
  | initClearStep
  | auditStep
  | auditInconclusive
  | place
  | setframe
  | fence
  | amend
  | revoke
  | suspend
  | resume
  | discard
  | fetch
  | fetchq
  | bar
  | unbar
  | setnode
  | fetchnode
  | start
  | stop
  | thaw
  | cleartable
  | audit
  | unknownCommand
  | eventFlagClear (value : Word)
  | enableMaskWrite (value : Word)
  | writeIgnoredClear (value : Word)
  | configurationWrite (word : ConfigWord) (value : Word)
  | violationClear (value : Word)
  | integrityClear (value : Word)
  | registerWrite (address : BitVec 6) (value : Word)
  | commandWordWrite (value : Word)
  | talkSenseCodePresented (code : BitVec 5)
  | linkByteReceived (link : Node) (byte : Byte)
  | resetRelease
  | itemDamaged (damage : Damage)
deriving DecidableEq, Repr

end Sys2Proof
end

