-- ==== Sys2Proof/WellFormed.lean ====
section
/-! DEFINITION. Which commands are well formed: the checks on operands that the types do not make. -/

namespace Sys2Proof

/-- The ranges of R1 for the counted fields ("the full range the field can hold"). -/
def LeaseRecord.inRange (r : LeaseRecord) : Bool :=
  decide (1 ≤ r.width ∧ r.width ≤ 16) && decide (r.rank ≤ 3) && decide (r.term ≤ 4095) &&
  (r.waitLimit.all fun n => decide (1 ≤ n ∧ n ≤ 255)) && (r.waitAge.all fun n => decide (n ≤ 255)) &&
  decide (r.depth ≤ 2) && decide (r.children.length ≤ 4) &&
  (r.closeAge.all fun n => decide (n ≤ 4)) && decide (r.idleCount ≤ 15)

/-- The ranges a stored node record can hold: those of R155, but for the quota, of which R185 says that a stored one may stand above 16 (SETNODE's field has five bits, R205). -/
def NodeRecord.inRange (r : NodeRecord) : Bool :=
  decide (r.quota ≤ 31) && decide (r.rankCeiling ≤ 3) && decide (r.strikes ≤ 7) && decide (r.liveOwned ≤ 96)

/-- Damage is contents that do not match their check (R188), within what the item's fields can hold. -/
def Damage.wellFormed : Damage → Bool
  | .record _ r => r.check != 0 && r.inRange
  | .node _ r => r.check != 0 && r.inRange
  | .cell _ _ c => !c.parityOk
  | .queueEntry p e => !e.parityOk && decide (p < Config.queueRoom)

/-- A complete frame: a length byte from 2 to 16, that many counted bytes, and the CRC byte (R147, R201). -/
def frameComplete (bytes : List Byte) : Bool :=
  match bytes with
  | [] => false
  | len :: rest => decide (2 ≤ len.toNat ∧ len.toNat ≤ 16 ∧ rest.length = len.toNat + 1)

/-- The commands whose operands are what their row is about. -/
def Instr.wellFormed : Instr → Bool
  | .linkFrameArrival _ bytes => frameComplete bytes
  | .itemDamaged d => d.wellFormed
  | .deviceReset | .slotStart | .firstFrameStart | .partialFrameTimeout _ | .lineBreakBegin _ | .lineBreakEnd _
  | .responseSent _ | .claim _ | .renew _ | .release _ | .sublet _ | .recall _ | .join _ | .leave _ | .poll _
  | .query _ | .status _ | .sweep | .closeAgeFree _ | .idleReclaim _ | .termExpiry _ | .drainCompletion
  | .waitOver _ | .sweepWithdrawn | .planBuild | .fold | .strike | .barring _ | .quarantine | .initClearStep
  | .auditStep | .auditInconclusive | .place | .setframe | .fence | .amend | .revoke | .suspend | .resume
  | .discard | .fetch | .fetchq | .bar | .unbar | .setnode | .fetchnode | .start | .stop | .thaw | .cleartable
  | .audit | .unknownCommand | .eventFlagClear _ | .enableMaskWrite _ | .writeIgnoredClear _
  | .configurationWrite _ _ | .violationClear _ | .integrityClear _ | .registerWrite _ _ | .commandWordWrite _
  | .talkSenseCodePresented _ | .linkByteReceived _ _ | .resetRelease => true

end Sys2Proof
end

