-- ==== Sys2Proof/Decode.lean ====
section
/-! DEFINITION. The opcode table gives no row any bits, so no word spells a command (log 28). -/

namespace Sys2Proof

/-- The command a word spells by the table's bits: no row of the table has any. -/
def decodeTableWord (_nbits _w : Nat) : Option Instr := none

end Sys2Proof
end

