-- ==== Sys2Proof/Machine/Types.lean ====
section
/-! DEFINITION. The parts of the state, block by block: Lease Store, Lease Engine, Frame Sequencer, Bus Monitor, node links, supervisor port, Device Control. -/

namespace Sys2Proof.Machine

/-- A lease's tag: handle and generation (R3). -/
structure Tag where
  handle     : Handle
  generation : BitVec 8
deriving DecidableEq, Repr

/-- A tag as a request or command carries it: the handle byte may be above 95 (R4). -/
structure RawTag where
  handle     : Byte
  generation : Byte
deriving DecidableEq, Repr

/-- The Lease Store. -/
structure Store where
  records     : Vector LeaseRecord 96
  nodes       : Vector NodeRecord 12
  cells       : Vector (Vector Cell 64) 16
  queue       : List QueueEntry
  fence       : Nat
  frameLength : Nat
deriving DecidableEq, Repr

/-- A stored item, as a failed check names it (R188). -/
inductive Item where
  | record (h : Handle)
  | node (n : Node)
  | cell (f : Frame) (s : Slot)
  | queueEntry (position : Nat)
deriving DecidableEq, Repr

/-- The arguments of CLAIM as they arrive (R201). -/
structure ClaimArgs where
  width     : Byte
  firstSlot : Byte
  frames    : FrameSet
  term      : Word
  rank      : Byte
  yields    : Bool
  waitLimit : Byte
deriving DecidableEq, Repr

/-- The ten node requests with their arguments as they arrive (R201). -/
inductive Request where
  | claim (args : ClaimArgs)
  | renew (tag : RawTag) (term : Word)
  | release (tag : RawTag)
  | sublet (parent : RawTag) (target : Byte) (frames : FrameSet) (term : Word)
  | recall (tag : RawTag)
  | join
  | leave
  | poll
  | query (tag : RawTag)
  | status
deriving DecidableEq, Repr

/-- The result codes of node responses (R158, R203). -/
inductive ResultCode where
  | accepted | queued | nothing | busy
  | notReady | notRunning | frozen | notJoined | barred | unknown | range | rank | fenced | quota | tableFull
  | queueFull | occupied | noSuchLease | notOwner | wrongState | protectedLease | depth | overlap | term | fault
deriving DecidableEq, Repr

/-- What an accepted QUERY reports (R163). -/
structure QueryReport where
  tag         : Tag
  asOwner     : Bool
  asGrantee   : Bool
  state       : RecState
  kind        : Kind
  isProtected : Bool
  yields      : Bool
  owner       : Node
  grantee     : Node
  firstSlot   : Option Slot
  width       : Nat
  frameSet    : FrameSet
  term        : Nat
  rank        : Nat
  depth       : Nat
  parent      : Option Handle
  childCount  : Nat
  reasons     : Reasons
  waitAge     : Option Nat
  waitLimit   : Option Nat
  closeReason : Option CloseReason
deriving DecidableEq, Repr

/-- What an accepted STATUS reports (R162). -/
structure StatusReport where
  state       : NodeState
  quota       : Nat
  rankCeiling : Nat
  strikes     : Nat
  liveOwned   : Nat
  superframe  : Word
  fence       : Nat
  frameLength : Nat
deriving DecidableEq, Repr

/-- The role of the notice set a POLL took (R165). -/
inductive Role where
  | owner | grantee
deriving DecidableEq, Repr

/-- The results a response carries beside its code (R203). -/
inductive Results where
  | none
  | claimed (tag : Tag) (firstSlot : Nat)
  | queued (tag : Tag) (position : Nat)
  | renewed (tag : Tag) (term : Nat)
  | released (tag : Tag) (state : RecState)
  | sublet (tag : Tag)
  | recalled (tag : Tag) (state : RecState)
  | joined (quota rankCeiling strikes : Nat)
  | left (count : Nat)
  | polled (tag : Tag) (state : RecState) (closeReason : Option CloseReason) (role : Role) (notices : NoticeSet)
  | queried (report : QueryReport)
  | status (report : StatusReport)
deriving DecidableEq, Repr

/-- A response frame's contents (R151, R203). -/
structure Response where
  seq     : SeqNo
  kind    : Byte
  code    : ResultCode
  results : Results
deriving DecidableEq, Repr

/-- A node request as posted to the engine, with the link's sequence number (R89, R93). -/
structure Posted where
  seq     : SeqNo
  request : Request
deriving DecidableEq, Repr

/-- A supervisor command: the code and the argument captured with it (R170). -/
structure Command where
  code : Byte
  arg  : Word
deriving DecidableEq, Repr

/-- The pending quarantine's items (R88, R100). -/
structure QuarantineSet where
  records   : List Handle
  cells     : List (Frame × Slot)
  queueMark : Bool
deriving DecidableEq, Repr

/-- The frame and superframe a plan is built for (R101). -/
structure BuildName where
  frame      : Frame
  superframe : Word
deriving DecidableEq, Repr

/-- The INIT clear's next step, and whether CLEARTABLE's kept values apply (R109, R185). -/
structure ClearProgress where
  step : Nat
  keep : Bool
deriving DecidableEq, Repr

/-- The result of an audit (R197). -/
inductive AuditResult where
  | none | clean | mismatches | inconclusive | aborted
deriving DecidableEq, Repr

/-- The audit progress (R110, R197). -/
structure AuditProgress where
  running    : Bool
  position   : Nat
  restarts   : Nat
  disturbed  : Bool
  mismatches : Nat
  result     : AuditResult
deriving DecidableEq, Repr

/-- One visit of the sweep's stages (R104). -/
inductive Visit where
  | closeAge (h : Handle)
  | idle (h : Handle)
  | term (h : Handle)
  | drain (h : Handle)
  | queueEntry (h : Handle)
  | clearUsed
deriving DecidableEq, Repr

/-- A sweep in progress: the store at its taking, the visits still to make, the configuration values found at its taking (R179), and whether close aging has dropped a notice. -/
structure SweepProgress where
  before       : Store
  todo         : List Visit
  idleLimit    : Nat
  warning      : Nat
  closeDropped : Bool
deriving DecidableEq, Repr

/-- A strike operation in progress: the nodes still to treat with their counts (R99), the limit found at its taking, and whether it has barred a node. -/
structure StrikeProgress where
  before : Store
  todo   : List (Node × Nat)
  limit  : Nat
  barred : Bool
deriving DecidableEq, Repr

/-- The device states (R183). -/
inductive DeviceState where
  | init | config | run | frozen
deriving DecidableEq, Repr

/-- The integrity mode (R190). -/
inductive IntegrityMode where
  | quarantine | halt
deriving DecidableEq, Repr

/-- The sequencer's states (R113). -/
inductive SeqState where
  | stopped | priming | running | stopping
deriving DecidableEq, Repr

/-- A request as the engine takes it (R88). A strike operation is taken with the nodes it treats and their counts (R99). -/
inductive Taking where
  | quarantine (q : QuarantineSet)
  | sweep (abandoned : Nat)
  | planBuild (name : BuildName)
  | fold (tags : List Tag)
  | strike (todo : List (Node × Nat))
  | command (c : Command)
  | request (n : Node) (p : Posted)
  | auditStep
  | clearStep (p : ClearProgress)
deriving DecidableEq, Repr

/-- What an operation finds at its taking and goes on with: the device state (R103, R108), the sequencer's state and superframe counter (R103, R162), and the configuration values (R179). -/
structure Conditions where
  device            : DeviceState
  seqState          : SeqState
  superframe        : Word
  integrityMode     : IntegrityMode
  warningThreshold  : Nat
  idleLimit         : Nat
  strikeLimit       : Nat
  reinstatementWait : Nat
deriving DecidableEq, Repr

/-- The operation in progress between two steps (R88, R90; log 2). -/
inductive InProgress where
  /-- A sweep within its visits (log 3). -/
  | sweep (p : SweepProgress)
  /-- A strike operation within its nodes (log 3). -/
  | strike (p : StrikeProgress)
  /-- An operation that has been taken and has yet to read its items, with what it found at its taking (R90, R94; log 38). -/
  | taken (t : Taking) (k : Conditions)
deriving DecidableEq, Repr

/-- The Lease Engine's own state: the pending set, the operation in progress, the link chain and the audit progress (R88). -/
structure Engine where
  quarantine : Option QuarantineSet
  sweep      : Option Nat
  build      : Option BuildName
  fold       : Option (List Tag)
  strikes    : Vector Nat 12
  command    : Option Command
  requests   : Vector (Option Posted) 12
  auditStep  : Bool
  clearStep  : Option ClearProgress
  inProgress : Option InProgress
  highest    : Node
  audit      : AuditProgress
deriving DecidableEq, Repr

/-- The kinds of operation that a failed check's report names (R189, R206). -/
inductive OpKind where
  | request (code : Byte)
  | command (code : Byte)
  | planBuild | sweep | fold | strike | quarantine | auditStep
deriving DecidableEq, Repr

/-- A grant to a node: the grantee and the final record's tag (R76). -/
structure Grant where
  node : Node
  tag  : Tag
deriving DecidableEq, Repr

/-- A plan: the grant of each slot, `none` where the grantee is NONE. Slots from S upward hold none (R117; log 16). -/
abbrev Plan := Vector (Option Grant) 64

/-- A plan as the engine delivers it (R117). -/
structure NamedPlan where
  plan : Plan
  name : BuildName
deriving DecidableEq, Repr

/-- The grant word on the grant lines (R116, R204). -/
structure GrantWord where
  frame   : Frame
  slot    : Slot
  mark    : Bool
  grantee : Option Node
deriving DecidableEq, Repr

/-- The Frame Sequencer (R113); the slot timer of R114 beside it. -/
structure Sequencer where
  state       : SeqState
  slot        : Slot
  frame       : Frame
  superframe  : Word
  current     : Plan
  next        : Option NamedPlan
  planReady   : Bool
  timerLength : Nat
  timerCount  : Nat
  grantLines  : GrantWord
  gstbPulses  : Nat
deriving DecidableEq, Repr

/-- The slot classification (R129). -/
inductive Talk where
  | silent
  | talker (n : Node)
  | garbled
deriving DecidableEq, Repr

/-- A valid violation record; talker none is UNKNOWN (R138). -/
structure Violation where
  superframe : Word
  frame      : Frame
  slot       : Slot
  granted    : Option Node
  talker     : Option Node
  further    : Bool
deriving DecidableEq, Repr

/-- The Bus Monitor (R129). -/
structure Monitor where
  active    : Bool
  slotEntry : Option Grant
  talk      : Talk
  talked    : List Tag
  violation : Option Violation
deriving DecidableEq, Repr

/-- The receiver's states (R146). -/
inductive RxState where
  | hunt | receiving | lineBreak
deriving DecidableEq, Repr

/-- The transmitter's states, with the response being sent (R146, R151). -/
inductive TxState where
  | idle
  | sending (r : Response)
  | lineBreak
deriving DecidableEq, Repr

/-- The holding slot's contents: a response, and whether it is a completion response (R151). -/
structure Held where
  response   : Response
  completion : Bool
deriving DecidableEq, Repr

/-- One node link (R146). idleTicks counts the slot timer's ticks since the last byte, up to two (R147; log 19). -/
structure Link where
  rx           : RxState
  partialFrame : Option (List Byte)
  idleTicks    : Nat
  tx           : TxState
  holding      : Option Held
  inFlight     : Option SeqNo
  lastSeq      : Option SeqNo
  cached       : Option Response
  attention    : Bool
deriving DecidableEq, Repr

/-- The outcomes that commands report (R174, R205). -/
inductive CmdOutcome where
  | none | accepted | notReady | notConfig | wrongState | range | noSuchLease | notJoined | barred | tableFull
  | occupied | term | fault | unknown
deriving DecidableEq, Repr

/-- An image of the write window, stored as written (R173, R205). -/
structure LeaseImage where
  owner     : Byte
  firstSlot : Byte
  width     : Byte
  force     : Bool
  frames    : FrameSet
  term      : Word
  rank      : Byte
  yields    : Bool
deriving DecidableEq, Repr

/-- An image of the read window: the code of the command that filled it, and its sixteen words (R175, R205). -/
structure ReadImage where
  code  : Byte
  words : Vector Word 16
deriving DecidableEq, Repr

/-- The supervisor port (R168, R182). -/
structure Port where
  inFlight      : Option Command
  waiting       : Option Command
  argument      : Word
  resultCode    : Byte
  resultOutcome : CmdOutcome
  resultHandle  : Word
  writeFront    : LeaseImage
  writeBack     : LeaseImage
  readFront     : ReadImage
  readBack      : ReadImage
  readCount     : BitVec 8
  flags         : BitVec 11
  enables       : BitVec 11
  writeIgnored  : Bool
deriving DecidableEq, Repr

/-- A valid integrity record (R189). -/
structure IntegrityRecord where
  item      : Item
  operation : OpKind
  further   : Bool
deriving DecidableEq, Repr

/-- Device Control: the device state, the configuration values of R179 and the integrity record. -/
structure Control where
  device            : DeviceState
  slotLength        : Nat
  integrityMode     : IntegrityMode
  warningThreshold  : Nat
  idleLimit         : Nat
  strikeLimit       : Nat
  reinstatementWait : Nat
  integrity         : Option IntegrityRecord
deriving DecidableEq, Repr

end Sys2Proof.Machine
end

