-- ==== Sys2Proof/Machine/ResetValues.lean ====
section
/-! DEFINITION. The values each block takes at device reset, and the cleared values of the stored items. -/

namespace Sys2Proof

/-- A record in FREE: its generation and the cleared values of R2. -/
def LeaseRecord.cleared (generation : BitVec 8) : LeaseRecord where
  state := .free
  generation := generation
  kind := .root
  owner := 0
  grantee := 0
  isProtected := false
  firstSlot := none
  width := 1
  frameSet := 0
  rank := 0
  yields := false
  term := 0
  waitLimit := none
  waitAge := none
  parent := none
  depth := 0
  children := []
  reasons := ⟨false, false, false⟩
  closeReason := none
  closeAge := none
  used := false
  idleCount := 0
  ownerNotices := 0
  granteeNotices := 0
  check := 0

/-- A node record after the clear that follows device reset (R155, R185). -/
def NodeRecord.cleared : NodeRecord where
  state := .absent
  quota := 4
  rankCeiling := 1
  strikes := 0
  liveOwned := 0
  check := 0

/-- An empty cell with good parity (R27). -/
def Cell.cleared : Cell := ⟨none, true⟩

end Sys2Proof

namespace Sys2Proof.Machine

/-- The store with the values the INIT clear gives it (R185). -/
def Store.cleared : Store where
  records := Vector.replicate 96 (LeaseRecord.cleared 0)
  nodes := Vector.replicate 12 NodeRecord.cleared
  cells := Vector.replicate 16 (Vector.replicate 64 Cell.cleared)
  queue := []
  fence := 0
  frameLength := 32

/-- The audit progress after device reset (R197). -/
def AuditProgress.atReset : AuditProgress := ⟨false, 0, 0, false, 0, .none⟩

/-- The engine after device reset: only the first INIT clear step is pending (R112). -/
def Engine.atReset : Engine where
  quarantine := none
  sweep := none
  build := none
  fold := none
  strikes := Vector.replicate 12 0
  command := none
  requests := Vector.replicate 12 none
  auditStep := false
  clearStep := some ⟨1, false⟩
  inProgress := none
  highest := 0
  audit := AuditProgress.atReset

/-- An all-NONE plan (R117). -/
def allNonePlan : Plan := Vector.replicate 64 none

/-- The idle word of the grant lines (R116). -/
def idleWord : GrantWord := ⟨0, 0, false, none⟩

/-- The slot length at device reset, in CLK periods (R114). -/
def resetSlotLength : Nat := 256

/-- The sequencer after device reset (R113, R127). The count of GSTB pulses is the model's own (log 17). -/
def Sequencer.atReset : Sequencer where
  state := .stopped
  slot := 0
  frame := 0
  superframe := 0
  current := allNonePlan
  next := none
  planReady := false
  timerLength := resetSlotLength
  timerCount := 0
  grantLines := idleWord
  gstbPulses := 0

/-- The monitor after device reset (R129). -/
def Monitor.atReset : Monitor := ⟨false, none, .silent, [], none⟩

/-- A link after device reset (R146). -/
def Link.atReset : Link := ⟨.hunt, none, 0, .idle, none, none, none, none, false⟩

/-- A write window image of zeros (R173). -/
def LeaseImage.zeros : LeaseImage := ⟨0, 0, 0, false, 0, 0, 0, false⟩

/-- A read window image of zeros (R175). -/
def ReadImage.zeros : ReadImage := ⟨0, Vector.replicate 16 0⟩

/-- The port after device reset (R182). -/
def Port.atReset : Port where
  inFlight := none
  waiting := none
  argument := 0
  resultCode := 0
  resultOutcome := .none
  resultHandle := 0
  writeFront := LeaseImage.zeros
  writeBack := LeaseImage.zeros
  readFront := ReadImage.zeros
  readBack := ReadImage.zeros
  readCount := 0
  flags := 0
  enables := 0
  writeIgnored := false

/-- Device Control after device reset (R179, R183, R189). -/
def Control.atReset : Control where
  device := .init
  slotLength := resetSlotLength
  integrityMode := .quarantine
  warningThreshold := 2
  idleLimit := 0
  strikeLimit := 3
  reinstatementWait := 8
  integrity := none

end Sys2Proof.Machine
end

