-- ==== Sys2Proof/Machine/State.lean ====
section
/-! DEFINITION. The machine's state, its reset, and the reasons a step can stop. -/

namespace Sys2Proof.Machine

/-- The whole state of the part, with the queue of commands that are waiting. -/
structure State where
  store         : Store
  engine        : Engine
  seq           : Sequencer
  monitor       : Monitor
  links         : Vector Link 12
  port          : Port
  control       : Control
  resetAsserted : Bool
  pending       : List Instr
deriving DecidableEq, Repr

/-- The spec names no behaviour that stops the part, so no fault exists (log 35). -/
inductive Fault where
deriving DecidableEq, Repr

/-- Why a command has no meaning here. -/
inductive Refusal where
  /-- Raised by Dispatch alone, for a row without a meaning yet. Safe: the model stops where the part goes on. -/
  | notModelled (mnemonic : String)
deriving DecidableEq, Repr

/-- The machine right after device reset: INIT, with the first clear step pending (R112, R184). The store holds the cleared values, which the clear is about to write (log 7), and RESET has been released (log 8). -/
def State.reset : State where
  store := Store.cleared
  engine := Engine.atReset
  seq := Sequencer.atReset
  monitor := Monitor.atReset
  links := Vector.replicate 12 Link.atReset
  port := Port.atReset
  control := Control.atReset
  resetAsserted := false
  pending := []

end Sys2Proof.Machine
end

