-- ==== Sys2Proof/Machine/Ops.lean ====
section
/-! DEFINITION. The shared operations on the Lease Store: accessors, notices, cells, the queue, closing, freeing, and what an operation reads. -/

namespace Sys2Proof

/-- The live states (section 1.3). -/
def RecState.isLive : RecState → Bool
  | .waiting | .held | .draining | .suspended | .displaced => true
  | .free | .closed | .corrupt => false

/-- The occupying states of a root (R28). -/
def RecState.isOccupying : RecState → Bool
  | .held | .draining | .suspended => true
  | .free | .waiting | .displaced | .closed | .corrupt => false

/-- The granting states (R5). -/
def RecState.isGranting : RecState → Bool
  | .held | .draining => true
  | .free | .waiting | .suspended | .displaced | .closed | .corrupt => false

/-- The states in which a record is named by the claim queue (R46). -/
def RecState.isQueued : RecState → Bool
  | .waiting | .displaced => true
  | .free | .held | .draining | .suspended | .closed | .corrupt => false

/-- The bit of a notice kind in a notice set (R200). -/
def NoticeKind.bit : NoticeKind → NoticeSet
  | .placed => 0x01
  | .granted => 0x02
  | .expiring => 0x04
  | .displaced => 0x08
  | .reinstated => 0x10
  | .suspended => 0x20
  | .resumed => 0x40
  | .closed => 0x80

/-- No suspension reason. -/
def Reasons.empty : Reasons := ⟨false, false, false⟩

/-- Whether a record holds no suspension reason. -/
def Reasons.isEmpty (r : Reasons) : Bool := !(r.supervisor || r.ownerBarred || r.granteeBarred)

/-- A root that occupies cells (R28). -/
def LeaseRecord.isOccupyingRoot (r : LeaseRecord) : Bool := decide (r.kind = .root) && r.state.isOccupying

/-- Whether a record covers the cell (f, s) by its frame set and slots (R28). -/
def LeaseRecord.covers (r : LeaseRecord) (f : Frame) (s : Slot) : Bool :=
  r.frameSet.getLsbD f.val &&
    match r.firstSlot with
    | some a => decide (a.val ≤ s.val ∧ s.val < a.val + r.width)
    | none => false

/-- The notices a record holds for node n as its owner (R166): none in FREE and CORRUPT. -/
def LeaseRecord.ownerNoticesFor (r : LeaseRecord) (n : Node) : NoticeSet :=
  if r.owner = n ∧ r.state ≠ .free ∧ r.state ≠ .corrupt then r.ownerNotices else 0

/-- The notices a child holds for node n as its grantee (R166). -/
def LeaseRecord.granteeNoticesFor (r : LeaseRecord) (n : Node) : NoticeSet :=
  if r.kind = .child ∧ r.grantee = n ∧ r.state ≠ .free ∧ r.state ≠ .corrupt then r.granteeNotices else 0

/-- A CLOSED record that has no notice left to tell (R11). A damaged record is not judged. -/
def LeaseRecord.isSettled (r : LeaseRecord) : Bool :=
  decide (r.state = .closed ∧ r.ownerNotices = 0 ∧ r.granteeNotices = 0 ∧ r.check = 0)

/-- A record just taken out of FREE: cleared values, generation increased by one, wrapping (R3, R6). -/
def LeaseRecord.allocated (r : LeaseRecord) : LeaseRecord := LeaseRecord.cleared (r.generation + 1)

end Sys2Proof

namespace Sys2Proof.Machine

/-- The handles in ascending order. -/
def allHandles : List Handle := List.finRange 96

/-- The nodes in ascending order. -/
def allNodes : List Node := List.finRange 12

/-- The frames in ascending order. -/
def allFrames : List Frame := List.finRange 16

/-- The slots in ascending order. -/
def allSlots : List Slot := List.finRange 64

namespace Store

/-- The record at a handle. -/
def record (st : Store) (h : Handle) : LeaseRecord := st.records[h]

/-- The store with one record replaced. -/
def putRecord (st : Store) (h : Handle) (r : LeaseRecord) : Store := { st with records := st.records.set h r }

/-- The store with one record changed. -/
def modifyRecord (st : Store) (h : Handle) (f : LeaseRecord → LeaseRecord) : Store := st.putRecord h (f (st.record h))

/-- A node's record. -/
def node (st : Store) (n : Node) : NodeRecord := st.nodes[n]

/-- The store with one node record replaced. -/
def putNode (st : Store) (n : Node) (r : NodeRecord) : Store := { st with nodes := st.nodes.set n r }

/-- The store with one node record changed; its check verdict is the changed function's; the operations have read it before (R94, R155; log 12). -/
def modifyNode (st : Store) (n : Node) (f : NodeRecord → NodeRecord) : Store := st.putNode n (f (st.node n))

/-- The cell at (f, s). -/
def cell (st : Store) (f : Frame) (s : Slot) : Cell := st.cells[f][s]

/-- The store with one cell replaced. -/
def putCell (st : Store) (f : Frame) (s : Slot) (c : Cell) : Store :=
  { st with cells := st.cells.set f (st.cells[f].set s c) }

/-- The tag of the record at a handle (R3). -/
def tagOf (st : Store) (h : Handle) : Tag := ⟨h, (st.record h).generation⟩

end Store

/-- The cells of slots `first` to `first + width - 1` in every frame of the set, in ascending frame and slot order (R34). -/
def coverCells (frames : FrameSet) (first width : Nat) : List (Frame × Slot) :=
  (allFrames.filter fun f => frames.getLsbD f.val).flatMap fun f =>
    (allSlots.filter fun s => decide (first ≤ s.val ∧ s.val < first + width)).map fun s => (f, s)

/-- The cells a record covers (R28). -/
def recordCells (r : LeaseRecord) : List (Frame × Slot) :=
  match r.firstSlot with
  | some a => coverCells r.frameSet a.val r.width
  | none => []

namespace Store

/-- Every cell of the list names the record from now on (R29). -/
def writeCells (st : Store) (h : Handle) (cells : List (Frame × Slot)) : Store :=
  cells.foldl (fun st c => st.putCell c.1 c.2 ⟨some h, true⟩) st

/-- Every cell naming the record becomes empty (R9, R29). A cell whose parity has failed is left as it is: only a quarantine or a DISCARD in FROZEN meets one (R188, R192; log 11). -/
def emptyCellsOf (st : Store) (h : Handle) : Store :=
  { st with cells := st.cells.map fun row => row.map fun c =>
      if c.parityOk && decide (c.names = some h) then Cell.cleared else c }

/-- The record's queue entry is removed; the others keep their order (R48). An entry is known by its stored handle, also where it was damaged within the sweep or strike in progress (R49; log 44). -/
def dropFromQueue (st : Store) (h : Handle) : Store :=
  { st with queue := st.queue.filter fun e => decide (e.handle ≠ h) }

/-- The record joins the queue at the tail (R47). -/
def joinQueue (st : Store) (h : Handle) : Store := { st with queue := st.queue ++ [⟨h, true⟩] }

/-- Whether the queue has room (R46). -/
def queueHasRoom (st : Store) : Bool := decide (st.queue.length < Config.queueRoom)

/-- Posts a kind to the owner notices, unless the owner is ABSENT (R8). -/
def postOwner (st : Store) (h : Handle) (k : NoticeKind) : Store :=
  if (st.node (st.record h).owner).state = .absent then st
  else st.modifyRecord h fun r => { r with ownerNotices := r.ownerNotices ||| k.bit }

/-- Posts a kind to a child's grantee notices, unless the grantee is ABSENT (R8). A root's stay empty. -/
def postGrantee (st : Store) (h : Handle) (k : NoticeKind) : Store :=
  if (st.record h).kind = .root ∨ (st.node (st.record h).grantee).state = .absent then st
  else st.modifyRecord h fun r => { r with granteeNotices := r.granteeNotices ||| k.bit }

/-- Posts a kind to the owner and, for a child, to the grantee (R8). -/
def postParties (st : Store) (h : Handle) (k : NoticeKind) : Store := (st.postOwner h k).postGrantee h k

/-- One more live record owned by the node (R7). -/
def countUp (st : Store) (n : Node) : Store := st.modifyNode n fun r => { r with liveOwned := r.liveOwned + 1 }

/-- One live record fewer owned by the node (R7). -/
def countDown (st : Store) (n : Node) : Store := st.modifyNode n fun r => { r with liveOwned := r.liveOwned - 1 }

/-- The live records in the record's children list (R69). A record whose check fails is not judged by its contents: a quarantine treats it at its own turn (R192; log 25). So a child damaged between two visit rows of a sweep or a strike is passed over by the cascade of its closing parent, and stays live and listed under the CLOSED record: the model's choice (log 44). -/
def liveChildren (st : Store) (h : Handle) : List Handle :=
  (st.record h).children.filter fun c => (st.record c).state.isLive && decide ((st.record c).check = 0)

/-- The record leaves its parent's children list (step 4 of R9). -/
def leaveParent (st : Store) (h : Handle) : Store :=
  match (st.record h).parent with
  | some p => st.modifyRecord p fun r => { r with children := r.children.filter fun c => decide (c ≠ h) }
  | none => st

/-- Steps 1 to 4 of R9: the reason and close age, the cells of an occupying root, the queue entry, the parent's list. -/
def closeEntry (st : Store) (why : CloseReason) (h : Handle) : Store :=
  let r := st.record h
  let st := st.modifyRecord h fun r => { r with closeReason := some why, closeAge := some 0 }
  let st := if r.isOccupyingRoot then st.emptyCellsOf h else st
  let st := if r.state.isQueued then
      (st.dropFromQueue h).modifyRecord h fun r => { r with waitLimit := none, waitAge := none }
    else st
  if r.kind = .child then st.leaveParent h else st

/-- Steps 6 to 8 of R9, and the owner's count of R7. The used mark and the idle count stay as they stood (log 43). -/
def closeExit (st : Store) (h : Handle) : Store :=
  let st := st.modifyRecord h fun r => { r with reasons := Reasons.empty, state := .closed }
  (st.postParties h .closed).countDown (st.record h).owner

/-- Closes a record and, down to the given number of levels below it, its live descendants with CASCADE (R9, R10), but for damaged ones (logs 25, 44). A record whose closing has begun is not closed again within it. -/
def closeLevels : Nat → List Handle → CloseReason → Handle → Store → Store
  | 0, _, why, h, st => (st.closeEntry why h).closeExit h
  | levels + 1, closing, why, h, st =>
    let st := st.closeEntry why h
    let targets := (st.liveChildren h).filter fun c => decide (c ∉ closing)
    (targets.foldl (fun st c => closeLevels levels (c :: closing) .cascade c st) st).closeExit h

/-- Closes a live record with a reason (R9). No record is deeper than two levels below a root (R69). -/
def close (st : Store) (why : CloseReason) (h : Handle) : Store := closeLevels 2 [h] why h st

/-- Closes every live descendant with CASCADE, the record itself staying as it is (R10, R55). -/
def closeDescendants (st : Store) (h : Handle) : Store :=
  ((st.liveChildren h).filter fun c => decide (c ≠ h)).foldl (fun st c => closeLevels 1 [c, h] .cascade c st) st

/-- The record becomes FREE, keeping its generation (R2). -/
def free (st : Store) (h : Handle) : Store := st.modifyRecord h fun r => LeaseRecord.cleared r.generation

/-- Every CLOSED record with both notice sets empty becomes FREE: the end of an operation that closed or emptied (R11). -/
def settle (st : Store) : Store :=
  { st with records := st.records.map fun r => if r.isSettled then LeaseRecord.cleared r.generation else r }

/-- The lowest-numbered FREE record (R6; log 14). -/
def lowestFree (st : Store) : Option Handle := allHandles.find? fun h => decide ((st.record h).state = .free)

/-- The lowest-numbered occupying root that covers the cell (R194). -/
def coverer (st : Store) (f : Frame) (s : Slot) : Option Handle :=
  allHandles.find? fun h => (st.record h).isOccupyingRoot && (st.record h).covers f s

/-- The number of live records a node owns (R7). -/
def liveOwnedBy (st : Store) (n : Node) : Nat :=
  (allHandles.filter fun h => (st.record h).state.isLive && decide ((st.record h).owner = n)).length

/-- Sets every node's live owned count to the number of live records it owns (R192). -/
def recount (st : Store) : Store :=
  { st with nodes := Vector.ofFn fun n => { st.node n with liveOwned := st.liveOwnedBy n } }

/-- Whether some notice set addressed to the node is non-empty (R166). -/
def hasNoticeFor (st : Store) (n : Node) : Bool :=
  allHandles.any fun h =>
    decide ((st.record h).ownerNoticesFor n ≠ 0) || decide ((st.record h).granteeNoticesFor n ≠ 0)

/-- Whether a change from `old` to `new` changed a notice set addressed to the node (R166). -/
def noticesChanged (old new : Store) (n : Node) : Bool :=
  allHandles.any fun h =>
    decide ((old.record h).ownerNoticesFor n ≠ (new.record h).ownerNoticesFor n) ||
    decide ((old.record h).granteeNoticesFor n ≠ (new.record h).granteeNoticesFor n)

/-- Whether a change put good contents in the place of a damaged record's: whose notice sets that record held before it was damaged is not known (R191, R192; log 15). -/
def treats (old new : Store) : Bool :=
  allHandles.any fun h => decide ((old.record h).check ≠ 0 ∧ (new.record h).check = 0)

/-- Whether a change wrote a cell or took a root into or out of the occupying states (R110). A damaged record counts by its stored contents (log 41). -/
def occupancyChanged (old new : Store) : Bool :=
  (allHandles.any fun h => (old.record h).isOccupyingRoot != (new.record h).isOccupyingRoot) ||
  (allFrames.any fun f => allSlots.any fun s => decide (old.cell f s ≠ new.cell f s))

/-! What operations read, and the checks made on it (R94, R188). -/

/-- Whether the item's stored check disagrees with its contents (R188). -/
def fails (st : Store) : Item → Bool
  | .record h => decide ((st.record h).check ≠ 0)
  | .node n => decide ((st.node n).check ≠ 0)
  | .cell f s => !(st.cell f s).parityOk
  | .queueEntry p =>
    match st.queue[p]? with
    | some e => !e.parityOk
    | none => false

/-- The first item of a reading whose check fails: there the operation stops (R94). -/
def firstFailing (st : Store) (items : List Item) : Option Item := items.find? st.fails

/-- All lease records, as items. -/
def recordItems : List Item := allHandles.map .record

/-- Every entry of the queue, as items (R49). -/
def queueItems (st : Store) : List Item := (List.range st.queue.length).map .queueEntry

/-- Cells, as items. -/
def cellItems (cells : List (Frame × Slot)) : List Item := cells.map fun c => .cell c.1 c.2

/-- All cells, or those below a slot number, in every frame. -/
def cellItemsBelow (limit : Nat) : List Item :=
  allFrames.flatMap fun f => (allSlots.filter fun s => decide (s.val < limit)).map fun s => .cell f s

/-- The whole store: lease records, node records, cells, queue entries (R191). -/
def allItems (st : Store) : List Item := recordItems ++ allNodes.map .node ++ cellItemsBelow 64 ++ st.queueItems

/-- The records listed below a record: its children and their children. -/
def listedBelow (st : Store) (h : Handle) : List Handle :=
  (st.record h).children.flatMap fun c => c :: (st.record c).children

/-- The node records of a record's owner and, for a child, of its grantee: they decide its notices, and the owner's holds the count (R7, R8). -/
def partyItems (st : Store) (h : Handle) : List Item :=
  .node (st.record h).owner :: if (st.record h).kind = .child then [.node (st.record h).grantee] else []

/-- The node records that closing a record uses: those of its parties and of the parties of every record listed below it (R7, R8, R10; log 12). -/
def closingNodes (st : Store) (h : Handle) : List Item := (h :: st.listedBelow h).flatMap st.partyItems

/-- The cells of an occupying root, which a closing or a displacement empties (R9, R55; log 11). -/
def ownCells (st : Store) (h : Handle) : List Item :=
  if (st.record h).isOccupyingRoot then cellItems (recordCells (st.record h)) else []

/-- What closing a record reads: the record, its parent, the records listed below it, the queue if it waits there, its cells, and the node records it uses (R49, R54, R78, R94, R142, R155, R160). -/
def closeItems (st : Store) (h : Handle) : List Item :=
  [.record h] ++ ((st.record h).parent.toList.map .record) ++ ((st.listedBelow h).map .record) ++
    (if (st.record h).state.isQueued then st.queueItems else []) ++ st.ownCells h ++ st.closingNodes h

end Store

/-- Why an operation ends without its effect: it is refused with a code, or a check failed on an item it read. -/
inductive Stop (code : Type) where
  | refused (c : code)
  | failed (i : Item)
deriving DecidableEq, Repr

/-- Reads the items in order: the operation goes on only if every check agrees (R94). -/
def readItems {code : Type} (st : Store) (items : List Item) : Except (Stop code) Unit :=
  match st.firstFailing items with
  | some i => .error (.failed i)
  | none => .ok ()

/-- A check of a request or command: refuses with the code unless the condition holds. -/
def need {code : Type} (condition : Bool) (c : code) : Except (Stop code) Unit :=
  if condition then .ok () else .error (.refused c)

/-- The handle of a raw tag, if its byte is at most 95. -/
def RawTag.handle? (t : RawTag) : Option Handle :=
  if h : t.handle.toNat < 96 then some ⟨t.handle.toNat, h⟩ else none

/-- The node of a byte, if it is at most 11. -/
def nodeOf? (n : Nat) : Option Node := if h : n < 12 then some ⟨n, h⟩ else none

/-- Reads the record a tag names and compares the tag with it (R4), for a node request or command with the given refusal: a handle above 95, a FREE record or another generation is NO-SUCH-LEASE. -/
def namedRecord {code : Type} (st : Store) (t : RawTag) (noSuchLease : code) : Except (Stop code) Handle :=
  match t.handle? with
  | none => .error (.refused noSuchLease)
  | some h => do
    readItems st [.record h]
    need (decide ((st.record h).state ≠ .free ∧ (st.record h).generation = t.generation)) noSuchLease
    return h

end Sys2Proof.Machine
end

