-- ==== Sys2Proof/Machine/Flags.lean ====
section
/-! DEFINITION. Event flags, the interrupt line, and the clamping of configuration values. -/

namespace Sys2Proof.Machine

/-- The eleven event flags (R177). -/
inductive EventFlag where
  | commandDone | commandOverrun | violation | barred | integrity | frozen | auditDone | closeDropped
  | darkFrame | sweepSkipped | stopped
deriving DecidableEq, Repr

/-- A flag's position in the event flag word: the order of R177 (R206). -/
def EventFlag.bit : EventFlag → BitVec 11
  | .commandDone => 0x001
  | .commandOverrun => 0x002
  | .violation => 0x004
  | .barred => 0x008
  | .integrity => 0x010
  | .frozen => 0x020
  | .auditDone => 0x040
  | .closeDropped => 0x080
  | .darkFrame => 0x100
  | .sweepSkipped => 0x200
  | .stopped => 0x400

namespace State

/-- Raises an event flag; a flag already set stays set (R177). -/
def raise (s : State) (f : EventFlag) : State :=
  { s with port := { s.port with flags := s.port.flags ||| f.bit } }

/-- Raises a flag if the condition holds. -/
def raiseIf (s : State) (b : Bool) (f : EventFlag) : State := if b then s.raise f else s

/-- The interrupt line: asserted while an enabled flag is set (R178). -/
def sint (s : State) : Bool := decide (s.port.flags &&& s.port.enables ≠ 0)

/-- One link changed; the links are independent (R146). -/
def modifyLink (s : State) (n : Node) (f : Link → Link) : State := { s with links := s.links.set n (f s.links[n]) }

end State

/-- A value clamped to the nearer end of a range (R179). -/
def clampTo (low high v : Nat) : Nat := if v < low then low else if high < v then high else v

/-- The audit's mismatch count, stopping at 255 (R197). -/
def capMismatches (n : Nat) : Nat := min n 255

end Sys2Proof.Machine
end

