-- ==== Sys2Proof/Machine/Integrity.lean ====
section
/-! DEFINITION. What a failed check does: the report, the integrity policy, entering FROZEN, and the completion of an operation that changed the store. -/

namespace Sys2Proof.Machine

/-- An item joins the pending quarantine's set, once (R100). A node record has no place in the set: its quarantine names nothing and finds it by reading (R88, R191; log 13). -/
def QuarantineSet.add (q : QuarantineSet) : Item → QuarantineSet
  | .record h => if h ∈ q.records then q else { q with records := q.records ++ [h] }
  | .cell f s => if (f, s) ∈ q.cells then q else { q with cells := q.cells ++ [(f, s)] }
  | .queueEntry _ => { q with queueMark := true }
  | .node _ => q

namespace State

/-- Posts a quarantine request for an item, merged with the pending one (R94, R100). -/
def postQuarantine (s : State) (i : Item) : State :=
  { s with engine := { s.engine with
      quarantine := some ((s.engine.quarantine.getD ⟨[], [], false⟩).add i) } }

/-- Reports a failed check: latches an empty integrity record and raises INTEGRITY, or marks a further failure (R189). -/
def report (s : State) (op : OpKind) (i : Item) : State :=
  match s.control.integrity with
  | none => ({ s with control := { s.control with integrity := some ⟨i, op, false⟩ } } : State).raise .integrity
  | some r => { s with control := { s.control with integrity := some { r with further := true } } }

/-- The device enters FROZEN: the grantee turns NONE, the plans are emptied, the monitor goes inactive, FROZEN is raised (R116, R124, R130, R184). -/
def enterFrozen (s : State) : State :=
  ({ s with
      control := { s.control with device := .frozen }
      seq := { s.seq with
        current := allNonePlan
        next := none
        planReady := false
        grantLines := { s.seq.grantLines with grantee := none } }
      monitor := { s.monitor with active := false, talked := [], talk := .silent } } : State).raise .frozen

/-- The integrity policy: a quarantine is posted, or in HALT mode a device in RUN freezes (R190; log 45). -/
def applyPolicy (s : State) (mode : IntegrityMode) (i : Item) : State :=
  match mode with
  | .quarantine => s.postQuarantine i
  | .halt => if s.control.device = .run then s.enterFrozen else s

/-- A failed check met by an operation: report and policy, by the mode the operation found at its taking (R179, R188, R190; log 45). -/
def failedCheck (s : State) (mode : IntegrityMode) (op : OpKind) (i : Item) : State := (s.report op i).applyPolicy mode i

/-- The attention line of each node whose notice sets changed since `old` follows whether a set addressed to it remains; where a damaged record was treated, every line does (R166, R191; log 15). -/
def driveAttention (s : State) (old : Store) : State :=
  { s with links := Vector.ofFn fun n : Node =>
      if old.noticesChanged s.store n || old.treats s.store then { s.links[n] with attention := s.store.hasNoticeFor n } else s.links[n] }

/-- Sets the audit's disturbed mark if an audit runs and the operation changed a cell or an occupancy (R110). -/
def markDisturbed (s : State) (old : Store) : State :=
  if s.engine.audit.running && old.occupancyChanged s.store then
    { s with engine := { s.engine with audit := { s.engine.audit with disturbed := true } } }
  else s

/-- The completion of an operation that leaves the store as `new`: attention lines and the disturbed mark follow (R93). -/
def commit (s : State) (new : Store) : State :=
  (({ s with store := new } : State).driveAttention s.store).markDisturbed s.store

end State

end Sys2Proof.Machine
end

