-- ==== Sys2Proof/Machine/Operands.lean ====
section
/-! DEFINITION. Reading operands: link frames and their CRC, the ten request layouts, argument words, and the words of the write window. -/

namespace Sys2Proof.Machine

/-- The low byte of a word (R200). -/
def lowByte (w : Word) : Byte := w.extractLsb' 0 8

/-- The high byte of a word (R200). -/
def highByte (w : Word) : Byte := w.extractLsb' 8 8

/-- A word from its high and low bytes (R200). -/
def wordOf (high low : Byte) : Word := high ++ low

/-! Link frames (R201, R202). -/

/-- The start byte of a frame (R201). -/
def startByte : Byte := 0xA5

/-- One shift of the CRC register (R202). -/
def crcShift (reg : Byte) : Byte := if reg.msb then (reg <<< 1) ^^^ 0x07 else reg <<< 1

/-- The CRC register after one byte (R202). -/
def crcByte (reg b : Byte) : Byte := (List.range 8).foldl (fun r _ => crcShift r) (reg ^^^ b)

/-- The CRC-8 of a frame's bytes from the length to the last counted byte (R202). -/
def crc8 (bytes : List Byte) : Byte := bytes.foldl crcByte 0xFF

/-- The fixed length of each of the ten request kinds (R201). -/
def requestLength (kind : Byte) : Option Nat :=
  match kind.toNat with
  | 0x01 => some 11
  | 0x02 => some 6
  | 0x03 => some 4
  | 0x04 => some 9
  | 0x05 => some 4
  | 0x06 => some 2
  | 0x07 => some 2
  | 0x08 => some 2
  | 0x09 => some 4
  | 0x0A => some 2
  | _ => none

/-- The request of a kind code and its argument bytes (R201). -/
def parseRequest (kind : Byte) (args : List Byte) : Option Request :=
  match kind.toNat, args with
  | 0x01, [width, first, fh, fl, th, tl, rank, yld, wait] =>
    some (.claim ⟨width, first, wordOf fh fl, wordOf th tl, rank, yld.getLsbD 0, wait⟩)
  | 0x02, [h, g, th, tl] => some (.renew ⟨h, g⟩ (wordOf th tl))
  | 0x03, [h, g] => some (.release ⟨h, g⟩)
  | 0x04, [h, g, target, fh, fl, th, tl] => some (.sublet ⟨h, g⟩ target (wordOf fh fl) (wordOf th tl))
  | 0x05, [h, g] => some (.recall ⟨h, g⟩)
  | 0x06, [] => some .join
  | 0x07, [] => some .leave
  | 0x08, [] => some .poll
  | 0x09, [h, g] => some (.query ⟨h, g⟩)
  | 0x0A, [] => some .status
  | _, _ => none

/-- The kind code of a request (R201). -/
def Request.code : Request → Byte
  | .claim _ => 0x01
  | .renew _ _ => 0x02
  | .release _ => 0x03
  | .sublet _ _ _ _ => 0x04
  | .recall _ => 0x05
  | .join => 0x06
  | .leave => 0x07
  | .poll => 0x08
  | .query _ => 0x09
  | .status => 0x0A

/-- A frame that passed the checks of R148: sequence number, kind, arguments. -/
structure GoodFrame where
  seq  : SeqNo
  kind : Byte
  args : List Byte
deriving DecidableEq, Repr

/-- The check of a complete frame, from the length byte to the CRC byte (R148). The high four bits of the sequence byte are ignored (R201). -/
def checkFrame (bytes : List Byte) : Option GoodFrame :=
  match bytes with
  | len :: seqByte :: kind :: more =>
    let args := more.dropLast
    let fixedLength := match requestLength kind with
      | some n => decide (len.toNat = n)
      | none => true
    if frameComplete bytes && decide (more.getLast? = some (crc8 (len :: seqByte :: kind :: args))) && fixedLength then
      some ⟨seqByte.extractLsb' 0 4, kind, args⟩
    else none
  | _ => none

/-- The argument bytes of a request, in order (R201). -/
def Request.args : Request → List Byte
  | .claim a =>
    [a.width, a.firstSlot, highByte a.frames, lowByte a.frames, highByte a.term, lowByte a.term, a.rank,
      if a.yields then 1 else 0, a.waitLimit]
  | .renew t term => [t.handle, t.generation, highByte term, lowByte term]
  | .release t | .recall t | .query t => [t.handle, t.generation]
  | .sublet t target frames term =>
    [t.handle, t.generation, target, highByte frames, lowByte frames, highByte term, lowByte term]
  | .join | .leave | .poll | .status => []

/-- The frame of a request after its start byte: length, sequence byte, kind, arguments, CRC (R201, R202). -/
def Request.frame (r : Request) (seq : SeqNo) : List Byte :=
  let body : List Byte := BitVec.ofNat 8 (r.args.length + 2) :: seq.setWidth 8 :: r.code :: r.args
  body ++ [crc8 body]

/-! Commands (R180, R205). -/

/-- The command codes of R205, in the order of the table of R180. -/
inductive CommandName where
  | place | setframe | fence | amend | revoke | suspend | resume | discard | fetch | fetchq | bar | unbar
  | setnode | fetchnode | start | stop | thaw | cleartable | audit
deriving DecidableEq, Repr

/-- The command a code names; codes 00h and 14h to FFh name none (R205). -/
def commandName (code : Byte) : Option CommandName :=
  match code.toNat with
  | 0x01 => some .place
  | 0x02 => some .setframe
  | 0x03 => some .fence
  | 0x04 => some .amend
  | 0x05 => some .revoke
  | 0x06 => some .suspend
  | 0x07 => some .resume
  | 0x08 => some .discard
  | 0x09 => some .fetch
  | 0x0A => some .fetchq
  | 0x0B => some .bar
  | 0x0C => some .unbar
  | 0x0D => some .setnode
  | 0x0E => some .fetchnode
  | 0x0F => some .start
  | 0x10 => some .stop
  | 0x11 => some .thaw
  | 0x12 => some .cleartable
  | 0x13 => some .audit
  | _ => none

namespace Command

/-- The command's name, if its code names one. -/
def name? (c : Command) : Option CommandName := commandName c.code

/-- The tag in the argument word: handle in the low byte, generation in the high byte (R205). -/
def tag (c : Command) : RawTag := ⟨lowByte c.arg, highByte c.arg⟩

/-- The value, position or handle in bits 7 to 0 (R205). -/
def value (c : Command) : Nat := (lowByte c.arg).toNat

/-- The node in bits 3 to 0, if it is at most 11 (R205). -/
def node? (c : Command) : Option Node := nodeOf? (c.arg.extractLsb' 0 4).toNat

/-- SETNODE's quota, bits 8 to 4 (R205). -/
def quota (c : Command) : Nat := (c.arg.extractLsb' 4 5).toNat

/-- SETNODE's rank ceiling, bits 10 to 9 (R205). -/
def rankCeiling (c : Command) : Nat := (c.arg.extractLsb' 9 2).toNat

/-- SETNODE's strike count, bits 13 to 11 (R205). -/
def strikes (c : Command) : Nat := (c.arg.extractLsb' 11 3).toNat

/-- The handle or node a command's argument names within range, and zero otherwise: the handle field of a refused command (R174; log 29). -/
def namedField (c : Command) : Word :=
  match c.name? with
  | some .amend | some .revoke | some .suspend | some .resume | some .discard | some .fetch =>
    match c.tag.handle? with
    | some h => BitVec.ofNat 16 h.val
    | none => 0
  | some .bar | some .unbar | some .setnode | some .fetchnode =>
    match c.node? with
    | some n => BitVec.ofNat 16 n.val
    | none => 0
  | some .place | some .setframe | some .fence | some .fetchq | some .start | some .stop | some .thaw
  | some .cleartable | some .audit | none => 0

/-- PLACE and AMEND take the write window (R172). -/
def usesWindow (c : Command) : Bool := decide (c.name? = some .place ∨ c.name? = some .amend)

end Command

/-! The write window's words (R205). -/

/-- The front image after a write of one of its words, 20h to 24h; bits the table does not assign are discarded (R205). -/
def LeaseImage.write (im : LeaseImage) (address : BitVec 6) (v : Word) : LeaseImage :=
  match address.toNat with
  | 0x20 => { im with owner := lowByte v, firstSlot := highByte v }
  | 0x21 => { im with width := lowByte v, force := v.getLsbD 8 }
  | 0x22 => { im with frames := v }
  | 0x23 => { im with term := v }
  | 0x24 => { im with rank := lowByte v, yields := v.getLsbD 8 }
  | _ => im

end Sys2Proof.Machine
end

