-- ==== Sys2Proof/Machine/Completion.lean ====
section
/-! DEFINITION. How outcomes leave the engine: responses to the links, results to the port, and the abandonment of each. -/

namespace Sys2Proof.Machine

namespace Link

/-- A response given to the transmitter (R151): it starts in IDLE, and waits in the holding slot otherwise. A completion response takes the slot; a BUSY or replay takes it only when it is empty. A completion response that finds another one there replaces it: the rule's table leaves that case empty (log 36, DESIGN CHOICE). -/
def give (l : Link) (r : Response) (completion : Bool) : Link :=
  match l.tx with
  | .idle => { l with tx := .sending r }
  | .sending _ | .lineBreak =>
    if completion || l.holding.isNone then { l with holding := some ⟨r, completion⟩ } else l

/-- A request's completion: the response is cached, the last sequence number set, the in-flight mark cleared, and the response given to the transmitter (R150). -/
def complete (l : Link) (r : Response) : Link :=
  { l with cached := some r, lastSeq := some r.seq, inFlight := none }.give r true

end Link

/-- What a node request that passed its checks leaves: the store, the response, and whether unread notices were discarded (R161). -/
structure RequestDone where
  store        : Store
  code         : ResultCode
  results      : Results
  closeDropped : Bool := false

/-- The outcome of a node request's operation. -/
abbrev RequestResult := Except (Stop ResultCode) RequestDone

/-- What a command that passed its checks leaves: the store, the handle field where it is not the one the argument names, the image for the read window, and whether it barred a node (R143). -/
structure CommandDone where
  store  : Store
  handle : Option Handle := none
  image  : Option (Vector Word 16) := none
  barred : Bool := false

/-- The outcome of a command's operation. -/
abbrev CommandResult := Except (Stop CmdOutcome) CommandDone

namespace State

/-- Hands a response to the link of a request (R93, R150). -/
def answer (s : State) (n : Node) (p : Posted) (code : ResultCode) (results : Results) : State :=
  s.modifyLink n fun l => l.complete ⟨p.seq, p.request.code, code, results⟩

/-- The completion of a node request's operation (R93, R95). -/
def finishRequest (s : State) (mode : IntegrityMode) (n : Node) (p : Posted) (result : RequestResult) : State :=
  match result with
  | .ok d => ((s.commit d.store).raiseIf d.closeDropped .closeDropped).answer n p d.code d.results
  | .error (.refused code) => s.answer n p code .none
  | .error (.failed i) => (s.failedCheck mode (.request p.request.code) i).answer n p .fault .none

/-- A command goes in flight: the write window's images are exchanged for PLACE and AMEND, the slot is occupied, and the command is posted to the engine (R172, R173). -/
def goInFlight (s : State) (c : Command) : State :=
  let port := if c.usesWindow then { s.port with writeFront := s.port.writeBack, writeBack := s.port.writeFront } else s.port
  { s with
    port := { port with inFlight := some c }
    engine := { s.engine with command := some c } }

/-- The read window's exchange: the front shows what was fetched, the back holds the previous front, the count rises by one (R175). -/
def exchangeRead (s : State) (im : ReadImage) : State :=
  { s with port := { s.port with readFront := im, readBack := s.port.readFront, readCount := s.port.readCount + 1 } }

/-- The slot's step 4 of R174: the in-flight position empties, and a pending command goes in flight. -/
def advanceSlot (s : State) : State :=
  match s.port.waiting with
  | none => { s with port := { s.port with inFlight := none } }
  | some c => ({ s with port := { s.port with inFlight := none, waiting := none } } : State).goInFlight c

/-- The completion of a command at the port, in the order of R174. -/
def completeCommand (s : State) (c : Command) (outcome : CmdOutcome) (handle : Word) (image : Option (Vector Word 16)) : State :=
  let s : State := { s with port := { s.port with resultCode := c.code, resultOutcome := outcome, resultHandle := handle } }
  let s := match image with
    | some words => s.exchangeRead ⟨c.code, words⟩
    | none => s
  (s.raise .commandDone).advanceSlot

/-- A command that completes ACCEPTED at its taking without touching the store (R181). -/
def acceptCommand (s : State) (c : Command) : State := s.completeCommand c .accepted c.namedField none

/-- The completion of a command's operation (R93, R95, R174). -/
def finishCommand (s : State) (mode : IntegrityMode) (c : Command) (result : CommandResult) : State :=
  match result with
  | .ok d =>
    ((s.commit d.store).raiseIf d.barred .barred).completeCommand c .accepted
      (match d.handle with
        | some h => BitVec.ofNat 16 h.val
        | none => c.namedField) d.image
  | .error (.refused outcome) => s.completeCommand c outcome c.namedField none
  | .error (.failed i) => (s.failedCheck mode (.command c.code) i).completeCommand c .fault c.namedField none

end State

end Sys2Proof.Machine
end

