-- ==== Sys2Proof/Machine/Engine.lean ====
section
/-! DEFINITION. The arbiter: which pending request the engine takes next, and what taking each one removes. -/

namespace Sys2Proof.Machine

/-- The nodes in the order of the link chain, from the highest (R91). -/
def chainFrom (highest : Node) : List Node := allNodes.map fun k => highest + k

namespace Engine

/-- The node request that the link chain puts first (R91). -/
def firstRequest (e : Engine) : Option (Node × Posted) :=
  (chainFrom e.highest).findSome? fun n => (e.requests[n]).map fun p => (n, p)

/-- Whether a strike is pending for some node (R99). -/
def strikePending (e : Engine) : Bool := allNodes.any fun n => decide (0 < e.strikes[n])

/-- The nodes a strike operation treats, in ascending order, with their counts (R99). -/
def strikeTodo (e : Engine) : List (Node × Nat) :=
  (allNodes.filter fun n => decide (0 < e.strikes[n])).map fun n => (n, e.strikes[n])

/-- The request of the highest place in the pending set; audit and clear steps are taken only when nothing else is pending (R90, R111). -/
def highestPlace (e : Engine) : Option Taking :=
  match e.quarantine with
  | some q => some (.quarantine q)
  | none =>
  match e.sweep with
  | some k => some (.sweep k)
  | none =>
  match e.build with
  | some b => some (.planBuild b)
  | none =>
  match e.fold with
  | some tags => some (.fold tags)
  | none =>
  if e.strikePending then some (.strike e.strikeTodo) else
  match e.command with
  | some c => some (.command c)
  | none =>
  match e.firstRequest with
  | some (n, p) => some (.request n p)
  | none =>
  if e.auditStep then some .auditStep else
  match e.clearStep with
  | some p => some (.clearStep p)
  | none => none

/-- The operation the engine performs next: the one it has taken, or else the request it takes (R90). None within a sweep's or a strike's visits. -/
def taking (e : Engine) : Option Taking :=
  match e.inProgress with
  | some (.taken t _) => some t
  | some (.sweep _) | some (.strike _) => none
  | none => e.highestPlace

/-- Whether the engine is idle: nothing is pending and nothing in progress (R90). -/
def isIdle (e : Engine) : Bool := e.inProgress.isNone && e.highestPlace.isNone

/-- The pending set without a request that is taken out of it. A command, a node request, an audit step and a clear step keep their place until they are performed: no other of the kind is posted meanwhile (R109, R110, R149, R170). -/
def without (e : Engine) (t : Taking) : Engine :=
  match t with
  | .quarantine _ => { e with quarantine := none }
  | .sweep _ => { e with sweep := none }
  | .planBuild _ => { e with build := none }
  | .fold _ => { e with fold := none }
  | .strike _ => { e with strikes := Vector.replicate 12 0 }
  | .command _ | .request _ _ | .auditStep | .clearStep _ => e

/-- The command taken next, if it has the given name. -/
def takenCommand (e : Engine) (name : CommandName) : Option Command :=
  match e.taking with
  | some (.command c) => if c.name? = some name then some c else none
  | _ => none

/-- The node request taken next, if it is the given link's. -/
def takenRequest (e : Engine) (n : Node) : Option Posted :=
  match e.taking with
  | some (.request m p) => if m = n then some p else none
  | _ => none

end Engine

namespace State

/-- What an operation taken now finds. -/
def conditions (s : State) : Conditions :=
  { device := s.control.device
    seqState := s.seq.state
    superframe := s.seq.superframe
    integrityMode := s.control.integrityMode
    warningThreshold := s.control.warningThreshold
    idleLimit := s.control.idleLimit
    strikeLimit := s.control.strikeLimit
    reinstatementWait := s.control.reinstatementWait }

/-- What the operation the engine performs next found at its taking (R108, R179). -/
def atTaking (s : State) : Conditions :=
  match s.engine.inProgress with
  | some (.taken _ k) => k
  | some (.sweep _) | some (.strike _) | none => s.conditions

/-- The operation performed is in progress no more, nor pending if it is taken just now; a request of its kind posted since its taking stays (R92). -/
def take (s : State) (t : Taking) : State :=
  match s.engine.inProgress with
  | some _ => { s with engine := { s.engine with inProgress := none } }
  | none => { s with engine := s.engine.without t }

/-- The taking of a node request: it leaves the pending set, its node becomes lowest in the chain and the next one highest (R91). -/
def takeRequest (s : State) (n : Node) : State :=
  { s with engine := { s.engine with requests := s.engine.requests.set n none, highest := n + 1, inProgress := none } }

/-- The taking of the command (R88). -/
def takeCommand (s : State) : State := { s with engine := { s.engine with command := none, inProgress := none } }

/-- The device-state check of a node request (R158). -/
def deviceRefusal (d : DeviceState) (r : Request) : Option ResultCode :=
  match d, r with
  | .init, _ => some .notReady
  | .config, .claim _ | .config, .renew _ _ | .config, .release _ | .config, .sublet _ _ _ _ | .config, .recall _ => some .notRunning
  | .config, .join | .config, .leave | .config, .poll | .config, .query _ | .config, .status => none
  | .frozen, .claim _ | .frozen, .renew _ _ | .frozen, .release _ | .frozen, .sublet _ _ _ _ | .frozen, .recall _ => some .frozen
  | .frozen, .join | .frozen, .leave => some .frozen
  | .frozen, .poll | .frozen, .query _ | .frozen, .status => none
  | .run, _ => none

/-- A node request refused by the device state completes with its refusal, and the link chain moves (R91, R108). -/
def refuseRequest (s : State) (n : Node) (p : Posted) (code : ResultCode) : State := (s.takeRequest n).answer n p code .none

/-- A command refused by the device state completes with its refusal at the port (R108, R174). -/
def refuseCommand (s : State) (c : Command) (outcome : CmdOutcome) : State :=
  s.takeCommand.completeCommand c outcome c.namedField none

/-- Performs a node request the engine has taken: the device-state check, then the request's own operation on the store (R108, R158). -/
def performRequest (s : State) (n : Node) (p : Posted) (operation : Store → RequestResult) : State :=
  (s.takeRequest n).finishRequest s.atTaking.integrityMode n p
    (match deviceRefusal s.atTaking.device p.request with
      | some code => .error (.refused code)
      | none => operation s.store)

/-- The device-state check of a command that does not act at its taking: NOT-READY in INIT (R180), and SETFRAME outside CONFIG (check 1 of R45). -/
def commandRefusal (d : DeviceState) (c : Command) : Option CmdOutcome :=
  match d with
  | .init => some .notReady
  | .config => none
  | .run | .frozen => if c.name? = some .setframe then some .notConfig else none

/-- Performs a command the engine has taken: the device-state check, then the command's own operation on the store (R108, R180). -/
def performCommand (s : State) (c : Command) (operation : Store → CommandResult) : State :=
  s.takeCommand.finishCommand s.atTaking.integrityMode c
    (match commandRefusal s.atTaking.device c with
      | some outcome => .error (.refused outcome)
      | none => operation s.store)

end State

end Sys2Proof.Machine
end

