-- ==== Sys2Proof/Machine/Placement.lean ====
section
/-! DEFINITION. The placement searches, displacement, and the records that CLAIM and PLACE make. -/

namespace Sys2Proof.Machine

/-- The slot of a number, if it is at most 63. -/
def slotOf? (n : Nat) : Option Slot := if h : n < 64 then some ⟨n, h⟩ else none

namespace Store

/-- Whether every cell of the list is empty. A cell with bad parity is not treated as empty by any search (R30). The searches have read their cells before, so only a cell damaged while a sweep is in progress is met here (log 39). -/
def cellsEmpty (st : Store) (cells : List (Frame × Slot)) : Bool :=
  cells.all fun c => (st.cell c.1 c.2).names.isNone && (st.cell c.1 c.2).parityOk

/-- The distinct records the cells name, in ascending handle order (R43, R53). -/
def occupants (st : Store) (cells : List (Frame × Slot)) : List Handle :=
  allHandles.filter fun h => cells.any fun c => decide ((st.cell c.1 c.2).names = some h)

/-- A fixed placement succeeds: at or above the fence unless protected, within S, every cell empty (R34). -/
def fixedFits (st : Store) (isProtected : Bool) (first : Slot) (width : Nat) (frames : FrameSet) : Bool :=
  (isProtected || decide (st.fence ≤ first.val)) && decide (first.val + width ≤ st.frameLength) &&
    st.cellsEmpty (coverCells frames first.val width)

/-- The first slot an ANY placement finds: the lowest candidate from the fence whose cells are all empty (R35). -/
def anySlot (st : Store) (width : Nat) (frames : FrameSet) : Option Slot :=
  (allSlots.filter fun s => decide (st.fence ≤ s.val ∧ s.val + width ≤ st.frameLength)).find? fun s =>
    st.cellsEmpty (coverCells frames s.val width)

/-- The cells an ANY search reads: every cell of the set's frames from the fence to S - 1 (R35). -/
def anyCells (st : Store) (frames : FrameSet) : List (Frame × Slot) :=
  coverCells frames st.fence (st.frameLength - st.fence)

/-- A root becomes HELD with these contents and its cells name it (R29). -/
def occupy (st : Store) (h : Handle) (r : LeaseRecord) : Store := (st.putRecord h r).writeCells h (recordCells r)

/-- One victim of a displacement, in the steps of R55 to R57: descendants closed, cells emptied, suspension and use cleared; then it waits, or closes BARRED or LOST. -/
def displaceVictim (wait : Nat) (st : Store) (v : Handle) : Store :=
  let st := (st.closeDescendants v).emptyCellsOf v
  let st := st.modifyRecord v fun r => { r with reasons := Reasons.empty, used := false, idleCount := 0 }
  if (st.node (st.record v).owner).state = .barred then st.close .barred v
  else if st.queueHasRoom then
    let st := st.modifyRecord v fun r => { r with state := .displaced, waitLimit := some wait, waitAge := some 0 }
    (st.joinQueue v).postOwner v .displaced
  else st.close .lost v

/-- The victims, in ascending handle order, displaced one after another (R55). -/
def displaceAll (st : Store) (wait : Nat) (victims : List Handle) : Store := victims.foldl (displaceVictim wait) st

/-- What a displacement reads of its victims' chains: every record listed below each, the victim's cells, and the node records that its notices, its owner's state and the closings use (R54, R55, R57, R94, R155; logs 11 and 12). -/
def chainItems (st : Store) (victims : List Handle) : List Item :=
  victims.flatMap (fun v => (st.listedBelow v).map .record) ++ victims.flatMap st.ownCells ++
    victims.flatMap st.closingNodes

end Store

/-- The conditions of R53 on one victim of a claim of the given rank. -/
def displaceable (rank : Nat) (v : LeaseRecord) : Bool :=
  !v.isProtected && v.yields && decide (v.state = .held ∨ v.state = .suspended) && decide (v.rank < rank)

/-- The record of a claim, over an allocated record: the fields common to R39 and R50. -/
def claimRecord (base : LeaseRecord) (n : Node) (args : ClaimArgs) (first : Option Slot) : LeaseRecord :=
  { base with
    kind := .root
    owner := n
    grantee := n
    firstSlot := first
    width := args.width.toNat
    frameSet := args.frames
    rank := args.rank.toNat
    yields := args.yields
    term := args.term.toNat }

/-- A claim placed: its record is HELD over its cells, the count rises, the response carries tag and first slot (R39, R58). -/
def claimPlaced (st : Store) (n : Node) (args : ClaimArgs) (h : Handle) (base : LeaseRecord) (first : Slot) : RequestDone :=
  let st := (st.occupy h { claimRecord base n args (some first) with state := .held }).countUp n
  { store := st, code := .accepted, results := .claimed ⟨h, base.generation⟩ first.val }

/-- A claim that is not placed: it waits, or is refused QUEUE-FULL or OCCUPIED (R38, R50). -/
def claimWaits (st : Store) (n : Node) (args : ClaimArgs) (h : Handle) (base : LeaseRecord) (first : Option Slot) : RequestResult :=
  if args.waitLimit = 0 then .error (.refused .occupied)
  else if st.queueHasRoom then
    let r := { claimRecord base n args first with
      state := .waiting, waitLimit := some args.waitLimit.toNat, waitAge := some 0 }
    .ok { store := ((st.putRecord h r).joinQueue h).countUp n
          code := .queued
          results := .queued ⟨h, base.generation⟩ st.queue.length }
  else .error (.refused .queueFull)

/-- The outcome of a checked fixed claim (R34, R38, R53, R54, R58). -/
def claimFixed (st : Store) (n : Node) (args : ClaimArgs) (wait : Nat) (h : Handle) (first : Slot) : RequestResult := do
  let base := (st.record h).allocated
  let cells := coverCells args.frames first.val args.width.toNat
  readItems st (Store.cellItems cells)
  if st.cellsEmpty cells then return claimPlaced st n args h base first
  let victims := st.occupants cells
  readItems st (victims.map .record)
  if victims.all fun v => displaceable args.rank.toNat (st.record v) then
    readItems st (st.chainItems victims)
    return claimPlaced (st.displaceAll wait victims).settle n args h base first
  claimWaits st n args h base (some first)

/-- The outcome of a checked ANY claim: placed, or waiting; never tried for displacement (R35, R38). -/
def claimAny (st : Store) (n : Node) (args : ClaimArgs) (h : Handle) : RequestResult := do
  let base := (st.record h).allocated
  readItems st (Store.cellItems (st.anyCells args.frames))
  match st.anySlot args.width.toNat args.frames with
  | some first => return claimPlaced st n args h base first
  | none => claimWaits st n args h base none

/-- Reads the requester's node record and refuses unless it is JOINED (R158). -/
def joinedRequester (st : Store) (n : Node) : Except (Stop ResultCode) Unit := do
  readItems st [.node n]
  match (st.node n).state with
  | .joined => return ()
  | .barred => .error (.refused .barred)
  | .absent | .invalid => .error (.refused .notJoined)

/-- Reads the requester's node record and refuses an ABSENT node only (R158: POLL and QUERY). -/
def presentRequester (st : Store) (n : Node) : Except (Stop ResultCode) Unit := do
  readItems st [.node n]
  match (st.node n).state with
  | .joined | .barred => return ()
  | .absent | .invalid => .error (.refused .notJoined)

/-- The lowest FREE record, read; TABLE-FULL if there is none (R6, R72). -/
def allocate {code : Type} (st : Store) (tableFull : code) : Except (Stop code) Handle :=
  match st.lowestFree with
  | none => .error (.refused tableFull)
  | some h => do
    readItems st [.record h]
    return h

/-- The first slot a claim asks for: FFh is ANY; a number above 63 is outside every frame (R201). -/
def claimTarget (args : ClaimArgs) : Option (Option Slot) :=
  if args.firstSlot = 0xFF then some none else (slotOf? args.firstSlot.toNat).map some

/-- A slot a claim names, or RANGE. -/
def claimTargetOrRange (args : ClaimArgs) : Except (Stop ResultCode) (Option Slot) :=
  match claimTarget args with
  | some t => .ok t
  | none => .error (.refused .range)

/-- Whether a claim at a fixed first slot ends within S; an ANY claim does not name a slot (check 3 of R37). -/
def endsInFrame (st : Store) (target : Option Slot) (width : Nat) : Bool :=
  match target with
  | some a => decide (a.val + width ≤ st.frameLength)
  | none => true

/-- Whether a claim stays at or above the fence: its first slot, or an ANY claim's only room (check 5 of R37). -/
def aboveFence (st : Store) (target : Option Slot) (width : Nat) : Bool :=
  match target with
  | some a => decide (st.fence ≤ a.val)
  | none => decide (st.fence + width ≤ st.frameLength)

/-- CLAIM on the store: the checks of R37 in order, then the outcome of R38. -/
def claimOperation (n : Node) (args : ClaimArgs) (wait : Nat) (st : Store) : RequestResult := do
  joinedRequester st n
  let target ← claimTargetOrRange args
  need (decide (1 ≤ args.width.toNat ∧ args.width.toNat ≤ 16)) .range
  need (endsInFrame st target args.width.toNat) .range
  need (decide (args.frames ≠ 0)) .range
  need (decide (1 ≤ args.term.toNat ∧ args.term.toNat ≤ 4095)) .range
  need (decide (args.rank.toNat ≤ 3)) .range
  need (decide (args.rank.toNat ≤ (st.node n).rankCeiling)) .rank
  need (aboveFence st target args.width.toNat) .fenced
  need (decide ((st.node n).liveOwned < (st.node n).quota)) .quota
  let h ← allocate st .tableFull
  match target with
  | some first => claimFixed st n args wait h first
  | none => claimAny st n args h

end Sys2Proof.Machine
end

