-- ==== Sys2Proof/Machine/NodeRequests.lean ====
section
/-! DEFINITION. The ten node requests: each one's operation on the store, and its taking by the engine. -/

namespace Sys2Proof.Machine

/-- The named record's parent, read, for the TERM check of a child: the bound on its term, or none (R82). -/
def termBound {code : Type} (st : Store) (r : LeaseRecord) : Except (Stop code) (Option Nat) :=
  match r.kind, r.parent with
  | .child, some p => do
    readItems st [.record p]
    return if (st.record p).term = 0 then none else some (st.record p).term
  | .child, none | .root, _ => .ok none

/-- Whether a term respects a bound (R82). -/
def withinBound (bound : Option Nat) (term : Nat) : Bool :=
  match bound with
  | some b => decide (term ≤ b)
  | none => true

/-- A node request's named record: CORRUPT is NO-SUCH-LEASE like the failures of the tag (R4). -/
def requestedRecord (st : Store) (t : RawTag) : Except (Stop ResultCode) Handle := do
  let h ← namedRecord st t .noSuchLease
  need (decide ((st.record h).state ≠ .corrupt)) .noSuchLease
  return h

/-- RENEW (R12, R13). -/
def renewOperation (n : Node) (t : RawTag) (term : Word) (st : Store) : RequestResult := do
  joinedRequester st n
  need (decide (1 ≤ term.toNat ∧ term.toNat ≤ 4095)) .range
  let h ← requestedRecord st t
  let r := st.record h
  need (decide (r.owner = n)) .notOwner
  need (decide (r.state = .waiting ∨ r.state = .held ∨ r.state = .suspended)) .wrongState
  need (!r.isProtected) .protectedLease
  let bound ← termBound st r
  need (withinBound bound term.toNat) .term
  return {
    store := st.modifyRecord h fun r => { r with term := term.toNat }
    code := .accepted
    results := .renewed (st.tagOf h) term.toNat }

/-- Whether the node is the record's owner, or a child's grantee (R14, R163). -/
def isParty (r : LeaseRecord) (n : Node) : Bool := decide (r.owner = n ∨ (r.kind = .child ∧ r.grantee = n))

/-- RELEASE: by the record's state (R14). -/
def releaseOperation (n : Node) (t : RawTag) (st : Store) : RequestResult := do
  joinedRequester st n
  let h ← requestedRecord st t
  let r := st.record h
  need (isParty r n) .notOwner
  need (decide (r.state ≠ .closed)) .wrongState
  need (!r.isProtected) .protectedLease
  match r.state with
  | .waiting | .displaced | .suspended =>
    readItems st (st.closeItems h)
    return { store := (st.close .released h).settle, code := .accepted, results := .released (st.tagOf h) .closed }
  | .held =>
    return {
      store := st.modifyRecord h fun r => { r with state := .draining }
      code := .accepted
      results := .released (st.tagOf h) .draining }
  | .draining | .free | .closed | .corrupt =>
    return { store := st, code := .accepted, results := .released (st.tagOf h) .draining }

/-- The child a SUBLET makes, over an allocated record (R70). -/
def childRecord (base parent : LeaseRecord) (parentHandle : Handle) (n target : Node) (frames : FrameSet) (term : Nat) : LeaseRecord :=
  { base with
    state := .held
    kind := .child
    owner := n
    grantee := target
    firstSlot := parent.firstSlot
    width := parent.width
    frameSet := frames
    rank := parent.rank
    yields := parent.yields
    term := term
    parent := some parentHandle
    depth := parent.depth + 1 }

/-- A target node of SUBLET, or RANGE (R71). -/
def targetOrRange (target : Byte) : Except (Stop ResultCode) Node :=
  match nodeOf? target.toNat with
  | some m => .ok m
  | none => .error (.refused .range)

/-- Whether a frame subset lies within a parent's frames and meets no listed child's frames (check 8 of R71). -/
def frameSubsetFree (st : Store) (parent : LeaseRecord) (frames : FrameSet) : Bool :=
  decide (frames &&& ~~~parent.frameSet = 0) &&
    parent.children.all fun c => decide (frames &&& (st.record c).frameSet = 0)

/-- The child is created: record, parent's list, count, and GRANTED to the target (R73). -/
def createChild (st : Store) (p h : Handle) (child : LeaseRecord) : Store :=
  let st := (st.putRecord h child).modifyRecord p fun r => { r with children := r.children ++ [h] }
  (st.countUp child.owner).postGrantee h .granted

/-- SUBLET (R71 to R73). The whole children list is read with the parent, before any check of the parent's fields: a damaged listed child fails every SUBLET from that parent (R72). -/
def subletOperation (n : Node) (t : RawTag) (target : Byte) (frames : FrameSet) (term : Word) (st : Store) : RequestResult := do
  joinedRequester st n
  let p ← requestedRecord st t
  let parent := st.record p
  readItems st (parent.children.map .record)
  need (decide (parent.grantee = n)) .notOwner
  need (decide (parent.state = .held)) .wrongState
  need (decide (parent.depth < 2 ∧ parent.children.length < Config.maxChildren)) .depth
  need (decide (frames ≠ 0)) .range
  need (decide (1 ≤ term.toNat ∧ term.toNat ≤ 4095)) .range
  let m ← targetOrRange target
  need (frameSubsetFree st parent frames) .overlap
  need (decide (parent.term = 0 ∨ term.toNat ≤ parent.term)) .term
  joinedRequester st m
  need (decide ((st.node n).liveOwned < (st.node n).quota)) .quota
  let h ← allocate st .tableFull
  let base := (st.record h).allocated
  return {
    store := createChild st p h (childRecord base parent p n m frames term.toNat)
    code := .accepted
    results := .sublet ⟨h, base.generation⟩ }

/-- RECALL (R78, R79). -/
def recallOperation (n : Node) (t : RawTag) (st : Store) : RequestResult := do
  joinedRequester st n
  let h ← requestedRecord st t
  let r := st.record h
  need (decide (r.kind = .child ∧ r.state ≠ .closed)) .wrongState
  need (decide (r.owner = n)) .notOwner
  readItems st (st.closeItems h)
  return { store := (st.close .recalled h).settle, code := .accepted, results := .recalled (st.tagOf h) .closed }

/-- JOIN (R159). -/
def joinOperation (n : Node) (st : Store) : RequestResult := do
  readItems st [.node n]
  let r := st.node n
  need (decide (r.state ≠ .barred)) .barred
  return {
    store := if r.state = .joined then st else st.modifyNode n fun r => { r with state := .joined }
    code := .accepted
    results := .joined r.quota r.rankCeiling r.strikes }

namespace Store

/-- The live records that a LEAVE by n closes: those it owns, and the children granted to it (step 2 of R161). -/
def leaving (st : Store) (n : Node) : List Handle :=
  allHandles.filter fun h =>
    (st.record h).state.isLive && isParty (st.record h) n

/-- What a LEAVE reads: all records, the cells of each root it closes, the queue if a record it closes waits there, and the node records the closings use (R94, R155, R160; log 12). -/
def leaveItems (st : Store) (n : Node) : List Item :=
  recordItems ++ (st.leaving n).flatMap st.ownCells ++
    (if (st.leaving n).any fun h => (st.record h).state.isQueued then st.queueItems else []) ++
    (st.leaving n).flatMap st.closingNodes

/-- Closes each record of the list with the reason, passing over one that is no longer live; counts the closings (R161). -/
def closeEach (why : CloseReason) (hs : List Handle) (st : Store) : Store × Nat :=
  hs.foldl (fun a h => if (a.1.record h).state.isLive then (a.1.close why h, a.2 + 1) else a) (st, 0)

/-- Empties every notice set addressed to n (step 3 of R161). -/
def dropNoticesOf (st : Store) (n : Node) : Store :=
  { st with records := st.records.map fun r =>
      { r with
        ownerNotices := if r.owner = n then 0 else r.ownerNotices
        granteeNotices := if r.kind = .child ∧ r.grantee = n then 0 else r.granteeNotices } }

/-- Whether a CLOSED record of n still holds a notice (step 4 of R161). -/
def closedOfHoldsNotice (st : Store) (n : Node) : Bool :=
  allHandles.any fun h =>
    decide ((st.record h).state = .closed ∧ (st.record h).owner = n) &&
    decide ((st.record h).ownerNotices ≠ 0 ∨ (st.record h).granteeNotices ≠ 0)

/-- Frees every CLOSED record of n (step 4 of R161). -/
def freeClosedOf (st : Store) (n : Node) : Store :=
  { st with records := st.records.map fun r =>
      if r.state = .closed ∧ r.owner = n then LeaseRecord.cleared r.generation else r }

end Store

/-- A JOINED node's LEAVE, in the steps of R161. -/
def leaveNode (st : Store) (n : Node) : RequestDone :=
  let hs := st.leaving n
  let closed := Store.closeEach .left hs (st.modifyNode n fun r => { r with state := .absent })
  let st := closed.1.dropNoticesOf n
  { store := ((st.freeClosedOf n).settle).modifyNode n fun r => { r with liveOwned := 0 }
    code := .accepted
    results := .left closed.2
    closeDropped := st.closedOfHoldsNotice n }

/-- LEAVE (R160, R161). -/
def leaveOperation (n : Node) (st : Store) : RequestResult := do
  readItems st [.node n]
  match (st.node n).state with
  | .barred => .error (.refused .barred)
  | .absent | .invalid => return { store := st, code := .accepted, results := .left 0 }
  | .joined =>
    readItems st (st.leaveItems n)
    return leaveNode st n

/-- Whether a record holds a non-empty notice set addressed to n (R164). -/
def holdsNoticeFor (r : LeaseRecord) (n : Node) : Bool :=
  decide (r.ownerNoticesFor n ≠ 0) || decide (r.granteeNoticesFor n ≠ 0)

/-- POLL's reading, in ascending handle order: it stops at the first record that holds a set addressed to n (R164). -/
def pollSearch (st : Store) (n : Node) : List Handle → Except (Stop ResultCode) (Option Handle)
  | [] => .ok none
  | h :: rest => do
    readItems st [.record h]
    if holdsNoticeFor (st.record h) n then return some h
    pollSearch st n rest

/-- The role of the set that a POLL takes: the owner set if it holds any, else the grantee set (R165). -/
def pollRole (r : LeaseRecord) (n : Node) : Role := if r.ownerNoticesFor n ≠ 0 then .owner else .grantee

/-- The set taken (R165). -/
def noticesOf (r : LeaseRecord) : Role → NoticeSet
  | .owner => r.ownerNotices
  | .grantee => r.granteeNotices

/-- The record with the set taken emptied; FREE if it is CLOSED and holds no other (R165, R11). -/
def afterPoll (r : LeaseRecord) (role : Role) : LeaseRecord :=
  let r := match role with
    | .owner => { r with ownerNotices := 0 }
    | .grantee => { r with granteeNotices := 0 }
  if r.isSettled then LeaseRecord.cleared r.generation else r

/-- POLL (R164, R165). -/
def pollOperation (n : Node) (st : Store) : RequestResult := do
  presentRequester st n
  let found ← pollSearch st n allHandles
  match found with
  | none => return { store := st, code := .nothing, results := .none }
  | some h =>
    let r := st.record h
    let role := pollRole r n
    return {
      store := st.modifyRecord h fun r => afterPoll r role
      code := .accepted
      results := .polled (st.tagOf h) r.state r.closeReason role (noticesOf r role) }

/-- The report of a QUERY (R163). A root's grantee equals its owner (R1), so a root's owner is reported in both roles (R203). -/
def queryReport (st : Store) (h : Handle) (n : Node) : QueryReport :=
  let r := st.record h
  { tag := st.tagOf h
    asOwner := decide (r.owner = n)
    asGrantee := decide (r.grantee = n)
    state := r.state
    kind := r.kind
    isProtected := r.isProtected
    yields := r.yields
    owner := r.owner
    grantee := r.grantee
    firstSlot := r.firstSlot
    width := r.width
    frameSet := r.frameSet
    term := r.term
    rank := r.rank
    depth := r.depth
    parent := r.parent
    childCount := r.children.length
    reasons := r.reasons
    waitAge := r.waitAge
    waitLimit := r.waitLimit
    closeReason := r.closeReason }

/-- QUERY (R163). -/
def queryOperation (n : Node) (t : RawTag) (st : Store) : RequestResult := do
  presentRequester st n
  let h ← requestedRecord st t
  need (isParty (st.record h) n) .notOwner
  return { store := st, code := .accepted, results := .queried (queryReport st h n) }

/-- STATUS, with the superframe counter as the sequencer holds it at the taking (R162). -/
def statusOperation (n : Node) (superframe : Word) (st : Store) : RequestResult := do
  readItems st [.node n]
  let r := st.node n
  return {
    store := st
    code := .accepted
    results := .status ⟨r.state, r.quota, r.rankCeiling, r.strikes, r.liveOwned, superframe, st.fence, st.frameLength⟩ }

/-! The takings. A request that is not the one the engine takes next changes nothing (log 1). -/

/-- CLAIM taken for a link (R37 to R39, R50, R53 to R58). -/
def execClaim (n : Node) (s : State) : Host.Outcome State Fault Refusal :=
  match s.engine.takenRequest n with
  | some ⟨q, .claim args⟩ =>
    .next (s.performRequest n ⟨q, .claim args⟩ (claimOperation n args s.atTaking.reinstatementWait))
  | _ => .next s

/-- RENEW taken for a link (R12). -/
def execRenew (n : Node) (s : State) : Host.Outcome State Fault Refusal :=
  match s.engine.takenRequest n with
  | some ⟨q, .renew t term⟩ => .next (s.performRequest n ⟨q, .renew t term⟩ (renewOperation n t term))
  | _ => .next s

/-- RELEASE taken for a link (R14). -/
def execRelease (n : Node) (s : State) : Host.Outcome State Fault Refusal :=
  match s.engine.takenRequest n with
  | some ⟨q, .release t⟩ => .next (s.performRequest n ⟨q, .release t⟩ (releaseOperation n t))
  | _ => .next s

/-- SUBLET taken for a link (R71). -/
def execSublet (n : Node) (s : State) : Host.Outcome State Fault Refusal :=
  match s.engine.takenRequest n with
  | some ⟨q, .sublet t target frames term⟩ =>
    .next (s.performRequest n ⟨q, .sublet t target frames term⟩ (subletOperation n t target frames term))
  | _ => .next s

/-- RECALL taken for a link (R78). -/
def execRecall (n : Node) (s : State) : Host.Outcome State Fault Refusal :=
  match s.engine.takenRequest n with
  | some ⟨q, .recall t⟩ => .next (s.performRequest n ⟨q, .recall t⟩ (recallOperation n t))
  | _ => .next s

/-- JOIN taken for a link (R159). -/
def execJoin (n : Node) (s : State) : Host.Outcome State Fault Refusal :=
  match s.engine.takenRequest n with
  | some ⟨q, .join⟩ => .next (s.performRequest n ⟨q, .join⟩ (joinOperation n))
  | _ => .next s

/-- LEAVE taken for a link (R161). -/
def execLeave (n : Node) (s : State) : Host.Outcome State Fault Refusal :=
  match s.engine.takenRequest n with
  | some ⟨q, .leave⟩ => .next (s.performRequest n ⟨q, .leave⟩ (leaveOperation n))
  | _ => .next s

/-- POLL taken for a link (R164). -/
def execPoll (n : Node) (s : State) : Host.Outcome State Fault Refusal :=
  match s.engine.takenRequest n with
  | some ⟨q, .poll⟩ => .next (s.performRequest n ⟨q, .poll⟩ (pollOperation n))
  | _ => .next s

/-- QUERY taken for a link (R163). -/
def execQuery (n : Node) (s : State) : Host.Outcome State Fault Refusal :=
  match s.engine.takenRequest n with
  | some ⟨q, .query t⟩ => .next (s.performRequest n ⟨q, .query t⟩ (queryOperation n t))
  | _ => .next s

/-- STATUS taken for a link (R162). -/
def execStatus (n : Node) (s : State) : Host.Outcome State Fault Refusal :=
  match s.engine.takenRequest n with
  | some ⟨q, .status⟩ => .next (s.performRequest n ⟨q, .status⟩ (statusOperation n s.atTaking.superframe))
  | _ => .next s

end Sys2Proof.Machine
end

