-- ==== Sys2Proof/Machine/Sweep.lean ====
section
/-! DEFINITION. The sweep: its reading, the visits of its six stages, its taking, and the rows that name one visit or one outcome of it. -/

namespace Sys2Proof.Machine

/-- Whether a record has a SUSPENDED ancestor: its parent or its parent's parent (R86). -/
def Store.hasSuspendedAncestor (st : Store) (h : Handle) : Bool :=
  match (st.record h).parent with
  | none => false
  | some p =>
    decide ((st.record p).state = .suspended) ||
    match (st.record p).parent with
    | none => false
    | some g => decide ((st.record g).state = .suspended)

/-! The visits. Each gives the store after it; `closeAge` also says whether it dropped a notice. -/

/-- Whether a visit of close aging frees the record: it is CLOSED and its age reaches 4 (R20). -/
def ageReachesFour (r : LeaseRecord) : Bool := decide (r.state = .closed ∧ 4 ≤ r.closeAge.getD 0 + 1)

/-- Whether a record holds an unread notice (R20). -/
def hasNotices (r : LeaseRecord) : Bool := decide (r.ownerNotices ≠ 0 ∨ r.granteeNotices ≠ 0)

/-- Close aging's visit of a record (R20). -/
def visitCloseAge (st : Store) (h : Handle) : Store :=
  let r := st.record h
  if r.state = .closed then
    if ageReachesFour r then st.free h
    else st.modifyRecord h fun r => { r with closeAge := some (r.closeAge.getD 0 + 1) }
  else st

/-- Whether idle accounting counts the record: HELD, not protected, no SUSPENDED ancestor, idle accounting on (R136, R86). -/
def isCounted (limit : Nat) (st : Store) (h : Handle) : Bool :=
  let r := st.record h
  decide (limit ≠ 0) && decide (r.state = .held) && !r.isProtected && !st.hasSuspendedAncestor h

/-- Whether a counted record goes idle at this visit (R136). -/
def goesIdle (limit : Nat) (r : LeaseRecord) : Bool := !r.used && decide (limit ≤ min (r.idleCount + 1) 15)

/-- Idle accounting's visit of a record (R136). -/
def visitIdle (limit : Nat) (st : Store) (h : Handle) : Store :=
  let r := st.record h
  if isCounted limit st h then
    if r.used then st.modifyRecord h fun r => { r with idleCount := 0 }
    else
      let counted := st.modifyRecord h fun r => { r with idleCount := min (r.idleCount + 1) 15 }
      if goesIdle limit r then counted.close .idle h else counted
  else st

/-- Whether the countdown decreases the record's term (R16). -/
def countsDown (r : LeaseRecord) : Bool := r.state.isOccupying && decide (r.term ≠ 0)

/-- Whether the countdown brings the record's term to the warning threshold (R17). -/
def postsExpiring (warning : Nat) (r : LeaseRecord) : Bool := decide (warning ≠ 0 ∧ r.term = warning + 1)

/-- Term countdown's visit of a record (R16 to R18). -/
def visitTerm (warning : Nat) (st : Store) (h : Handle) : Store :=
  let r := st.record h
  if countsDown r then
    let st := st.modifyRecord h fun r => { r with term := r.term - 1 }
    if r.term = 1 then st.close .expired h
    else if postsExpiring warning r then st.postParties h .expiring
    else st
  else st

/-- Drain completion's visit of a record (R19). -/
def visitDrain (st : Store) (h : Handle) : Store :=
  if (st.record h).state = .draining then st.close .released h else st

/-- A queue entry's record becomes HELD at a first slot and leaves the queue, with its notice (R64, R65). -/
def placeEntry (st : Store) (h : Handle) (first : Slot) (k : NoticeKind) : Store :=
  let r := { st.record h with state := .held, firstSlot := some first, waitLimit := none, waitAge := none }
  (((st.dropFromQueue h).occupy h r)).postOwner h k

/-- The first slot at which an entry can be placed now: its own, or for an ANY claim the one the search finds (R64, R65). -/
def entrySlot (st : Store) (h : Handle) : Option Slot :=
  let r := st.record h
  match r.firstSlot with
  | some a => if st.fixedFits r.isProtected a r.width r.frameSet then some a else none
  | none => st.anySlot r.width r.frameSet

/-- Whether an entry that is not placed reaches its limit at this visit (R66). -/
def waitEnds (r : LeaseRecord) : Bool := decide (r.waitLimit = some (r.waitAge.getD 0 + 1))

/-- An entry not placed ages by one, and closes when its age equals its limit (R66). The age stays within its field's 255 (R1). -/
def ageEntry (st : Store) (h : Handle) : Store :=
  let r := st.record h
  let aged := st.modifyRecord h fun r => { r with waitAge := some (min (r.waitAge.getD 0 + 1) 255) }
  if waitEnds r then
    aged.close (if r.state = .waiting then .waitOver else .lost) h
  else aged

/-- The queue pass's visit of an entry (R63 to R66). -/
def visitEntry (st : Store) (h : Handle) : Store :=
  let r := st.record h
  if r.state.isQueued then
    match entrySlot st h with
    | some first => placeEntry st h first (if r.state = .waiting then .placed else .reinstated)
    | none => ageEntry st h
  else st

/-- Stage 6: every used mark is set to no (R105). -/
def clearUsedMarks (st : Store) : Store :=
  { st with records := st.records.map fun r => { r with used := false } }

/-- One visit of the sweep on the store (R104). -/
def visit (idleLimit warning : Nat) (st : Store) : Visit → Store
  | .closeAge h => visitCloseAge st h
  | .idle h => visitIdle idleLimit st h
  | .term h => visitTerm warning st h
  | .drain h => visitDrain st h
  | .queueEntry h => visitEntry st h
  | .clearUsed => clearUsedMarks st

/-- Whether a visit drops an unread notice with a record (R20). -/
def dropsNotice (st : Store) : Visit → Bool
  | .closeAge h => ageReachesFour (st.record h) && hasNotices (st.record h)
  | .idle _ | .term _ | .drain _ | .queueEntry _ | .clearUsed => false

/-- The visits of a sweep in order: four stages over the records, the queue's entries from the head, the used marks (R104). -/
def sweepVisits (st : Store) : List Visit :=
  allHandles.map .closeAge ++ allHandles.map .idle ++ allHandles.map .term ++ allHandles.map .drain ++
    st.queue.map (fun e => .queueEntry e.handle) ++ [.clearUsed]

/-- The node records that a visit uses: those of a closing, of a notice's parties, or of a placed entry's owner (R7, R8). -/
def visitNodes (idleLimit warning : Nat) (st : Store) : Visit → List Item
  | .closeAge _ | .clearUsed => []
  | .idle h => if isCounted idleLimit st h && goesIdle idleLimit (st.record h) then st.closingNodes h else []
  | .term h =>
    if countsDown (st.record h) then
      if (st.record h).term = 1 then st.closingNodes h
      else if postsExpiring warning (st.record h) then st.partyItems h else []
    else []
  | .drain h => if (st.record h).state = .draining then st.closingNodes h else []
  | .queueEntry h =>
    if (st.record h).state.isQueued then
      if (entrySlot st h).isSome then [.node (st.record h).owner]
      else if waitEnds (st.record h) then st.closingNodes h else []
    else []

/-- The node records that a sweep's visits use, each visit on the store that the visits before it leave (R94, R155; log 12). -/
def sweepNodes (idleLimit warning : Nat) (st : Store) : List Item :=
  ((sweepVisits st).foldl
    (fun a v => (visit idleLimit warning a.1 v, a.2 ++ visitNodes idleLimit warning a.1 v)) (st, ([] : List Item))).2

/-- What a sweep reads before its first stage: all records, the queue, every cell below S, and the node records its visits use (R94, R103, R155; log 12). -/
def sweepItems (idleLimit warning : Nat) (st : Store) : List Item :=
  Store.recordItems ++ st.queueItems ++ Store.cellItemsBelow st.frameLength ++ sweepNodes idleLimit warning st

namespace State

/-- Makes visits of a sweep in progress, in order; the store and the dropped-notice mark follow. -/
def makeVisits (p : SweepProgress) (st : Store) (visits : List Visit) : Store × Bool :=
  visits.foldl (fun a v => (visit p.idleLimit p.warning a.1 v, a.2 || dropsNotice a.1 v)) (st, p.closeDropped)

/-- Whether a sweep can be performed: taken in RUN, with the sequencer RUNNING or STOPPING (R103). -/
def canSweep (s : State) : Bool :=
  decide (s.atTaking.device = .run) && decide (s.atTaking.seqState = .running ∨ s.atTaking.seqState = .stopping)

/-- The progress of a sweep at its taking (R103, R179). -/
def sweepAtTaking (s : State) : SweepProgress :=
  ⟨s.store, sweepVisits s.store, s.atTaking.idleLimit, s.atTaking.warningThreshold, false⟩

/-- The first item whose check fails of those the sweep taken now reads (R94, R103). -/
def sweepFailure (s : State) : Option Item :=
  s.store.firstFailing (sweepItems s.atTaking.idleLimit s.atTaking.warningThreshold s.store)

/-- The sweep under way is out of the pending set; a request posted while it is in progress stays (R88, R92). -/
def enterSweep (s : State) : State :=
  match s.engine.inProgress with
  | some (.sweep _) => s
  | some (.strike _) | some (.taken _ _) | none => s.take (.sweep 0)

/-- A sweep's completion: flags, attention lines and the disturbed mark appear (R104, R110). Damage that fell while it was in progress is part of the change it is judged by (log 44). -/
def completeSweep (s : State) (before after : Store) (closeDropped : Bool) : State :=
  let s : State := { s with store := before, engine := { s.engine with inProgress := none } }
  (s.commit after.settle).raiseIf closeDropped .closeDropped

/-- Makes the visits a sweep in progress still has to make, and completes it. -/
def finishSweep (s : State) (p : SweepProgress) : State :=
  let done := makeVisits p s.store p.todo
  s.completeSweep p.before done.1 done.2

/-- A sweep that met a failed check: back to the pending set with its count raised, withdrawn at the fourth abandonment, or dropped in HALT mode (R95, R195). Where a newer sweep has become pending since its taking, the two merge into one, and the returned count replaces the pending one's: the model's choice (log 46). -/
def abandonSweep (s : State) (mode : IntegrityMode) (count : Nat) (i : Item) : State :=
  match mode with
  | .halt => (s.failedCheck mode .sweep i).raise .sweepSkipped
  | .quarantine =>
    let s := s.failedCheck mode .sweep i
    if count + 1 < 4 then { s with engine := { s.engine with sweep := some (count + 1) } }
    else s.raise .sweepSkipped

/-- A sweep taken outside RUN is dropped without effect on the store, and SWEEP-SKIPPED is raised (R103). -/
def dropSweep (s : State) (count : Nat) : State := (s.take (.sweep count)).raise .sweepSkipped

/-- A sweep taken (R103). -/
def performSweep (s : State) (count : Nat) : State :=
  if s.canSweep then
    match s.sweepFailure with
    | some i => (s.take (.sweep count)).abandonSweep s.atTaking.integrityMode count i
    | none => (s.take (.sweep count)).finishSweep s.sweepAtTaking
  else s.dropSweep count

/-- The sweep a visit belongs to: the one in progress, or the one the engine takes next, if it is performed at all. -/
def sweepUnderWay (s : State) : Option SweepProgress :=
  match s.engine.inProgress with
  | some (.sweep p) => some p
  | some (.strike _) | some (.taken _ _) | none =>
    match s.engine.taking with
    | some (.sweep _) =>
      if s.canSweep && s.sweepFailure.isNone then some s.sweepAtTaking else none
    | _ => none

/-- The sweep goes on up to and through the visits that `mine` picks out, if `fires` holds when the first of them is reached; the rest of it stays in progress (log 3). -/
def sweepThrough (s : State) (mine : Visit → Bool) (fires : SweepProgress → Store → Bool) : State :=
  match s.sweepUnderWay with
  | none => s
  | some p =>
    let before := p.todo.takeWhile fun v => !mine v
    let rest := p.todo.dropWhile fun v => !mine v
    let reached := makeVisits p s.store before
    if rest.isEmpty || !fires p reached.1 then s
    else
      let done := makeVisits { p with closeDropped := reached.2 } reached.1 (rest.takeWhile mine)
      { s.enterSweep with
        store := done.1
        engine := { s.enterSweep.engine with
          inProgress := some (.sweep { p with todo := rest.dropWhile mine, closeDropped := done.2 }) } }

end State

/-- SWEEP: the sweep in progress is completed, or the one taken next is performed whole, dropped or abandoned (R103, R104). -/
def execSweep (s : State) : Host.Outcome State Fault Refusal :=
  match s.engine.inProgress, s.engine.taking with
  | some (.sweep p), _ => .next (s.finishSweep p)
  | _, some (.sweep count) => .next (s.performSweep count)
  | _, _ => .next s

/-- CLOSE_AGE_FREE: the sweep's close aging reaches a record whose age reaches 4, and the record becomes FREE (R20). -/
def execCloseAgeFree (h : Handle) (s : State) : Host.Outcome State Fault Refusal :=
  .next (s.sweepThrough (fun v => decide (v = .closeAge h)) fun _ st => ageReachesFour (st.record h))

/-- IDLE_RECLAIM: idle accounting reaches a record whose idle count reaches the limit, and it closes IDLE (R136). -/
def execIdleReclaim (h : Handle) (s : State) : Host.Outcome State Fault Refusal :=
  .next (s.sweepThrough (fun v => decide (v = .idle h)) fun p st =>
    isCounted p.idleLimit st h && goesIdle p.idleLimit (st.record h))

/-- TERM_EXPIRY: the countdown brings a record's term to 0, and it closes EXPIRED (R18). -/
def execTermExpiry (h : Handle) (s : State) : Host.Outcome State Fault Refusal :=
  .next (s.sweepThrough (fun v => decide (v = .term h)) fun _ st =>
    countsDown (st.record h) && decide ((st.record h).term = 1))

/-- Whether a visit is one of drain completion's. -/
def isDrainVisit : Visit → Bool
  | .drain _ => true
  | .closeAge _ | .idle _ | .term _ | .queueEntry _ | .clearUsed => false

/-- DRAIN_COMPLETION: the sweep's stage 4, at which each DRAINING record closes RELEASED (R19). -/
def execDrainCompletion (s : State) : Host.Outcome State Fault Refusal :=
  .next (s.sweepThrough isDrainVisit fun _ _ => true)

/-- WAIT_OVER: the queue pass reaches an entry it cannot place and whose age reaches its limit, and it closes WAIT-OVER or LOST (R66). -/
def execWaitOver (h : Handle) (s : State) : Host.Outcome State Fault Refusal :=
  .next (s.sweepThrough (fun v => decide (v = .queueEntry h)) fun _ st =>
    (st.record h).state.isQueued && (entrySlot st h).isNone && waitEnds (st.record h))

/-- SWEEP_WITHDRAWN: a sweep taken with three abandonments meets a failed check in QUARANTINE mode, and is withdrawn (R195). -/
def execSweepWithdrawn (s : State) : Host.Outcome State Fault Refusal :=
  match s.engine.taking with
  | some (.sweep count) =>
    if 3 ≤ count ∧ s.atTaking.integrityMode = .quarantine ∧ s.canSweep ∧ s.sweepFailure.isSome then
      .next (s.performSweep count)
    else .next s
  | _ => .next s

end Sys2Proof.Machine
end

