-- ==== Sys2Proof/Machine/EngineOps.lean ====
section
/-! DEFINITION. The engine operations no requester waits for: plan build, fold, strike and barring, quarantine, INIT clear step, audit step. -/

namespace Sys2Proof.Machine

/-! Plan build (R75 to R77, R96, R118). -/

/-- The walk from a granting record: its whole children list is read, the child holding the frame goes on, at most twice (step 3 and 4 of R75). -/
def resolveFrom : Nat → Store → Frame → Handle → Except Item (Option Grant)
  | 0, st, _, h => .ok (some ⟨(st.record h).grantee, st.tagOf h⟩)
  | levels + 1, st, f, h =>
    match st.firstFailing ((st.record h).children.map .record) with
    | some i => .error i
    | none =>
      match (st.record h).children.find? fun c => (st.record c).frameSet.getLsbD f.val with
      | none => .ok (some ⟨(st.record h).grantee, st.tagOf h⟩)
      | some c => if (st.record c).state.isGranting then resolveFrom levels st f c else .ok none

/-- The grant of a slot, or the first item of its walk whose check fails (R75, R77). -/
def resolveSlot (st : Store) (f : Frame) (s : Slot) : Except Item (Option Grant) :=
  if st.fails (.cell f s) then .error (.cell f s)
  else match (st.cell f s).names with
    | none => .ok none
    | some h =>
      if st.fails (.record h) then .error (.record h)
      else if (st.record h).state.isGranting then resolveFrom 2 st f h
      else .ok none

/-- The plan of a frame: a slot from S upward, or whose walk fails, holds NONE (R77, R117). -/
def buildPlan (st : Store) (f : Frame) : Plan :=
  Vector.ofFn fun s : Slot =>
    if s.val < st.frameLength then
      match resolveSlot st f s with
      | .ok g => g
      | .error _ => none
    else none

/-- The failed checks a plan build reports, one for each slot that meets one (R96). -/
def planFailures (st : Store) (f : Frame) : List Item :=
  (allSlots.filter fun s => decide (s.val < st.frameLength)).filterMap fun s =>
    match resolveSlot st f s with
    | .ok _ => none
    | .error i => some i

/-- The name of the plan that follows a frame: the next frame, or frame 0 of the next superframe (R101, R118). -/
def followingName (f : Frame) (superframe : Word) : BuildName :=
  if f = 15 then ⟨0, superframe + 1⟩ else ⟨f + 1, superframe⟩

namespace State

/-- The name under which the sequencer accepts a plan now, if it accepts any (R118). -/
def wantedPlan (s : State) : Option BuildName :=
  if s.control.device = .frozen then none
  else match s.seq.state with
    | .stopped => none
    | .priming => some ⟨0, s.seq.superframe + 1⟩
    | .running | .stopping => some (followingName s.seq.frame s.seq.superframe)

/-- A delivered plan becomes the next plan, or is discarded (R118). -/
def deliverPlan (s : State) (p : NamedPlan) : State :=
  if s.wantedPlan = some p.name then { s with seq := { s.seq with next := some p, planReady := true } } else s

/-- Failed checks met one after another by one operation (R96). -/
def failedChecks (s : State) (mode : IntegrityMode) (op : OpKind) (items : List Item) : State :=
  items.foldl (fun s i => s.failedCheck mode op i) s

end State

/-- PLAN_BUILD: every slot of the named frame is resolved and the plan delivered (R75, R96). -/
def execPlanBuild (s : State) : Host.Outcome State Fault Refusal :=
  match s.engine.taking with
  | some (.planBuild name) =>
    .next (((s.take (.planBuild name)).failedChecks s.atTaking.integrityMode .planBuild
      (planFailures s.store name.frame)).deliverPlan ⟨buildPlan s.store name.frame, name⟩)
  | _ => .next s

/-! Fold (R85, R98, R135). -/

/-- The pending fold after a later set joins an earlier one: a later tag replaces one of the same handle (R98). -/
def mergeTags (earlier later : List Tag) : List Tag :=
  (earlier.filter fun t => later.all fun u => decide (u.handle ≠ t.handle)) ++ later

/-- A fold set's tags in ascending handle order (R135). -/
def tagsByHandle (tags : List Tag) : List Tag := allHandles.filterMap fun h => tags.find? fun t => decide (t.handle = h)

/-- A record's ancestors, up to the root (R85). -/
def Store.ancestors (st : Store) (h : Handle) : List Handle :=
  match (st.record h).parent with
  | none => []
  | some p =>
    match (st.record p).parent with
    | none => [p]
    | some g => [p, g]

/-- Whether a fold credits a tag: the record has that generation and is HELD or DRAINING (R85). -/
def credits (st : Store) (t : Tag) : Bool :=
  decide ((st.record t.handle).generation = t.generation) && (st.record t.handle).state.isGranting

/-- What a fold reads: each tag's record and, where it credits the tag, the ancestors (R135). -/
def foldItems (st : Store) (tags : List Tag) : List Item :=
  (tagsByHandle tags).flatMap fun t =>
    .record t.handle :: (if credits st t then (st.ancestors t.handle).map .record else [])

/-- The used marks a fold sets for one tag (R85). -/
def foldTag (st : Store) (t : Tag) : Store :=
  if credits st t then
    (t.handle :: st.ancestors t.handle).foldl (fun st h => st.modifyRecord h fun r => { r with used := true }) st
  else st

namespace State

/-- The tags of an abandoned fold go back into the pending fold, in which a later frame's tag replaces one of its handle (R95, R98). -/
def returnFold (s : State) (tags : List Tag) : State :=
  { s with engine := { s.engine with
      fold := some (match s.engine.fold with
        | some later => mergeTags (tagsByHandle tags) later
        | none => tagsByHandle tags) } }

/-- A fold that met a failed check: its tags return to the pending fold, or are dropped in HALT mode, by the mode found at its taking (R95; log 45). -/
def abandonFold (s : State) (mode : IntegrityMode) (tags : List Tag) (i : Item) : State :=
  match mode with
  | .halt => s.failedCheck mode .fold i
  | .quarantine => (s.returnFold tags).failedCheck mode .fold i

end State

/-- FOLD: used marks are set for every tag, or the fold is abandoned (R135, R95). -/
def execFold (s : State) : Host.Outcome State Fault Refusal :=
  match s.engine.taking with
  | some (.fold tags) =>
    match s.store.firstFailing (foldItems s.store tags) with
    | none => .next ((s.take (.fold tags)).commit ((tagsByHandle tags).foldl foldTag s.store))
    | some i => .next ((s.take (.fold tags)).abandonFold s.atTaking.integrityMode tags i)
  | _ => .next s

/-! Strikes and barring (R99, R140 to R142). -/

/-- Strikes applied one after another to a JOINED node's count, until one reaches the limit: the count left, and whether it bars (R140). -/
def applyStrikes (limit : Nat) : Nat → Nat → Nat × Bool
  | 0, count => (count, false)
  | k + 1, count =>
    let count := min (count + 1) 7
    if limit ≤ count then (count, true) else applyStrikes limit k count

/-- The reasons a record gains when node n is barred (R141). -/
def barredReasons (r : LeaseRecord) (n : Node) : Reasons :=
  { r.reasons with
    ownerBarred := r.reasons.ownerBarred || decide (r.owner = n)
    granteeBarred := r.reasons.granteeBarred || decide (r.kind = .child ∧ r.grantee = n) }

/-- A barring's treatment of one record, by its state at its turn (R141). -/
def barRecord (n : Node) (st : Store) (h : Handle) : Store :=
  let r := st.record h
  match r.state with
  | .waiting | .displaced | .draining => st.close .barred h
  | .held => (st.modifyRecord h fun r => { r with reasons := barredReasons r n, state := .suspended }).postParties h .suspended
  | .suspended => st.modifyRecord h fun r => { r with reasons := barredReasons r n }
  | .free | .closed | .corrupt => st

namespace Store

/-- The records, not FREE, in which node n is owner or a child's grantee (R142). -/
def rolesOf (st : Store) (n : Node) : List Handle :=
  allHandles.filter fun h => decide ((st.record h).state ≠ .free) && isParty (st.record h) n

/-- Whether a barring closes a record in this state (R141). -/
def barCloses (r : LeaseRecord) : Bool := r.state.isQueued || decide (r.state = .draining)

/-- What barring node n reads beside its node record: the records, what its closings read, and the node records that its notices and closings use (R94, R142, R155; log 12). -/
def barItems (st : Store) (n : Node) : List Item :=
  let roles := st.rolesOf n
  let closing := roles.filter fun h => barCloses (st.record h)
  roles.map .record ++
    closing.flatMap (fun h => (st.record h).parent.toList.map .record ++ (st.listedBelow h).map .record) ++
    closing.flatMap st.ownCells ++
    (if closing.any fun h => (st.record h).state.isQueued then st.queueItems else []) ++
    (roles.filter fun h => decide ((st.record h).state = .held)).flatMap st.partyItems ++ closing.flatMap st.closingNodes

/-- Barring node n: its state, then each record in which it has a role, in ascending handle order (R141). -/
def barNode (st : Store) (n : Node) : Store :=
  (st.rolesOf n).foldl (barRecord n) (st.modifyNode n fun r => { r with state := .barred })

/-- One node's pending strikes on the store (R140). -/
def strikeNode (limit : Nat) (st : Store) (n : Node) (count : Nat) : Store :=
  if (st.node n).state = .joined then
    let out := applyStrikes limit count (st.node n).strikes
    let st := st.modifyNode n fun r => { r with strikes := out.1 }
    if out.2 then st.barNode n else st
  else st

/-- Whether a node's pending strikes bar it (R140). -/
def strikesBar (limit : Nat) (st : Store) (n : Node) (count : Nat) : Bool :=
  decide ((st.node n).state = .joined) && (applyStrikes limit count (st.node n).strikes).2

/-- What a strike operation reads: the nodes it treats, and what each barring needs (R99, R142). -/
def strikeItems (st : Store) (limit : Nat) (todo : List (Node × Nat)) : List Item :=
  todo.map (fun t => .node t.1) ++ (todo.filter fun t => st.strikesBar limit t.1 t.2).flatMap fun t => st.barItems t.1

end Store

namespace State

/-- The progress of a strike operation at its taking (R140, R179). -/
def strikeAtTaking (s : State) (todo : List (Node × Nat)) : StrikeProgress := ⟨s.store, todo, s.atTaking.strikeLimit, false⟩

/-- The strike operation under way is out of the pending set; strikes posted while it is in progress stay (R92, R99). -/
def enterStrikes (s : State) : State :=
  match s.engine.inProgress with
  | some (.strike _) => s
  | some (.sweep _) | some (.taken _ _) | none => s.take (.strike [])

/-- Treats nodes one after another; the store and whether one was barred follow (R99). -/
def treatNodes (p : StrikeProgress) (st : Store) (todo : List (Node × Nat)) : Store × Bool :=
  todo.foldl (fun a t => (a.1.strikeNode p.limit t.1 t.2, a.2 || a.1.strikesBar p.limit t.1 t.2)) (st, p.barred)

/-- Treats the nodes a strike operation still has to treat, and completes it; BARRED is raised once (R99, R141). Damage that fell while it was in progress is part of the change it is judged by (log 44). -/
def finishStrikes (s : State) (p : StrikeProgress) : State :=
  let done := treatNodes p s.store p.todo
  let s : State := { s with store := p.before, engine := { s.engine with inProgress := none } }
  (s.commit done.1.settle).raiseIf done.2 .barred

/-- The counts of an abandoned strike operation go back into the pending counts, each stopping at 7 (R95, R99). -/
def returnStrikes (s : State) (todo : List (Node × Nat)) : State :=
  { s with engine := { s.engine with
      strikes := todo.foldl (fun counts t => counts.set t.1 (min (counts[t.1] + t.2) 7)) s.engine.strikes } }

/-- A strike operation that met a failed check: its counts return to the pending counts, or are dropped in HALT mode, by the mode found at its taking (R95; log 45). -/
def abandonStrikes (s : State) (mode : IntegrityMode) (todo : List (Node × Nat)) (i : Item) : State :=
  match mode with
  | .halt => s.failedCheck mode .strike i
  | .quarantine => (s.returnStrikes todo).failedCheck mode .strike i

/-- The first item whose check fails of those a strike operation reads (R94, R99). -/
def strikeFailure (s : State) (todo : List (Node × Nat)) : Option Item :=
  s.store.firstFailing (s.store.strikeItems s.atTaking.strikeLimit todo)

/-- The strike operation under way: the one within its nodes, or the one the engine performs next and that reads cleanly. -/
def strikeUnderWay (s : State) : Option StrikeProgress :=
  match s.engine.inProgress with
  | some (.strike p) => some p
  | some (.sweep _) | some (.taken _ _) | none =>
    match s.engine.taking with
    | some (.strike todo) => if (s.strikeFailure todo).isNone then some (s.strikeAtTaking todo) else none
    | _ => none

/-- A strike operation taken (R140). -/
def performStrikes (s : State) (todo : List (Node × Nat)) : State :=
  match s.strikeFailure todo with
  | some i => (s.take (.strike todo)).abandonStrikes s.atTaking.integrityMode todo i
  | none => (s.take (.strike todo)).finishStrikes (s.strikeAtTaking todo)

end State

/-- STRIKE: the strike operation in progress is completed, or the one taken is performed whole or abandoned (R140). -/
def execStrike (s : State) : Host.Outcome State Fault Refusal :=
  match s.engine.inProgress, s.engine.taking with
  | some (.strike p), _ => .next (s.finishStrikes p)
  | _, some (.strike todo) => .next (s.performStrikes todo)
  | _, _ => .next s

/-- BARRING: the strike operation treats the nodes up to and through node n, whose strikes reach the limit; the rest of it stays in progress (R141; log 3). -/
def execBarring (n : Node) (s : State) : Host.Outcome State Fault Refusal :=
  match s.strikeUnderWay with
  | none => .next s
  | some p =>
    let before := p.todo.takeWhile fun t => decide (t.1 ≠ n)
    let reached := State.treatNodes p s.store before
    match p.todo.dropWhile fun t => decide (t.1 ≠ n) with
    | [] => .next s
    | t :: rest =>
      if reached.1.strikesBar p.limit t.1 t.2 then
        .next { s.enterStrikes with
          store := reached.1.strikeNode p.limit t.1 t.2
          engine := { s.enterStrikes.engine with inProgress := some (.strike { p with todo := rest, barred := true }) } }
      else .next s

/-! Quarantine (R191 to R194). -/

namespace Store

/-- What refers to a record that is isolated: its cells, its queue entry unless the queue is rebuilt anyway, its place in children lists, and the live records whose parent it is (R192). Records still damaged are not judged by their contents (log 25). -/
def isolate (h : Handle) (rebuilding : Bool) (st : Store) : Store :=
  let st := st.emptyCellsOf h
  let st := if rebuilding then st else st.dropFromQueue h
  let orphans := allHandles.filter fun k =>
    decide (k ≠ h) && (st.record k).state.isLive && decide ((st.record k).parent = some h ∧ (st.record k).check = 0)
  let st : Store := { st with records := st.records.map fun r =>
    if r.check = 0 then { r with children := r.children.filter fun c => decide (c ≠ h) } else r }
  orphans.foldl (fun st k => if (st.record k).state.isLive then st.close .cascade k else st) st

/-- A damaged record made CORRUPT: its fields are kept with the exceptions of R192. -/
def corrupted (r : LeaseRecord) : LeaseRecord :=
  { r with
    state := .corrupt
    children := []
    reasons := Reasons.empty
    ownerNotices := 0
    granteeNotices := 0
    waitLimit := none
    waitAge := none
    closeReason := none
    closeAge := none
    check := 0 }

/-- The treatment of a damaged lease record (R192). -/
def quarantineRecord (rebuilding : Bool) (st : Store) (h : Handle) : Store :=
  (st.modifyRecord h corrupted).isolate h rebuilding

/-- A damaged node record rebuilt from the lease records (R193). -/
def rebuildNode (st : Store) (n : Node) : Store :=
  let holds (p : LeaseRecord → Bool) : Bool := allHandles.any fun h => (st.record h).state.isLive && p (st.record h)
  let state : NodeState :=
    if holds fun r => (decide (r.owner = n) && r.reasons.ownerBarred) ||
        (decide (r.kind = .child ∧ r.grantee = n) && r.reasons.granteeBarred) then .barred
    else if holds fun r => isParty r n then .joined
    else .absent
  st.putNode n ⟨state, 4, 1, 0, st.liveOwnedBy n, 0⟩

/-- A cell rewritten from the lease records (R194). -/
def rewriteCell (st : Store) (f : Frame) (s : Slot) : Store :=
  st.putCell f s ⟨if s.val < st.frameLength then st.coverer f s else none, true⟩

/-- The claim queue rebuilt in ascending handle order; the records beyond its room close (R194). -/
def rebuildQueue (st : Store) : Store :=
  let waiting := allHandles.filter fun h => (st.record h).state.isQueued
  let st : Store := { st with queue := (waiting.take Config.queueRoom).map fun h => ⟨h, true⟩ }
  (waiting.drop Config.queueRoom).foldl
    (fun st h => st.close (if (st.record h).state = .waiting then .waitOver else .lost) h) st

/-- The treatments of a quarantine in their order (R191). -/
def quarantined (st : Store) (queueMark : Bool) : Store :=
  let records := allHandles.filter fun h => st.fails (.record h)
  let nodes := allNodes.filter fun n => st.fails (.node n)
  let cells := allFrames.flatMap fun f => (allSlots.filter fun s => st.fails (.cell f s)).map fun s => (f, s)
  let rebuilding := queueMark || st.queue.any fun e => !e.parityOk
  let st := records.foldl (quarantineRecord rebuilding) st
  let st := if records.isEmpty then st else st.recount
  let st := nodes.foldl rebuildNode st
  let st := cells.foldl (fun st c => st.rewriteCell c.1 c.2) st
  (if rebuilding then st.rebuildQueue else st).settle

end Store

namespace State

/-- Reports without policy: a quarantine treats what it finds, and changes no device state (R191). -/
def reports (s : State) (op : OpKind) (items : List Item) : State := items.foldl (fun s i => s.report op i) s

end State

/-- QUARANTINE: the whole store is read, every failed check reported, every damaged item treated (R191). -/
def execQuarantine (s : State) : Host.Outcome State Fault Refusal :=
  match s.engine.taking with
  | some (.quarantine q) =>
    .next (((s.take (.quarantine q)).commit (s.store.quarantined q.queueMark)).reports .quarantine (s.store.allItems.filter s.store.fails))
  | _ => .next s

/-! INIT clear steps (R109, R185). -/

/-- A node record after its clear step. CLEARTABLE's keeps state, quota, rank ceiling and strike count as stored, with the limits of R185. -/
def clearedNode (keep : Bool) (r : NodeRecord) : NodeRecord :=
  if keep then
    { r with
      state := if r.state = .invalid then .absent else r.state
      quota := min r.quota 16
      liveOwned := 0
      check := 0 }
  else NodeRecord.cleared

/-- A lease record after its clear step (R26, R185). -/
def clearedRecord (keep : Bool) (r : LeaseRecord) : LeaseRecord := LeaseRecord.cleared (if keep then r.generation else 0)

/-- The part of the store one clear step writes (R185). -/
def clearPart (keep : Bool) (step : Nat) (st : Store) : Store :=
  if step ≤ 12 then
    match nodeOf? (step - 1) with
    | some n => st.modifyNode n (clearedNode keep)
    | none => st
  else if h : step - 13 < 96 then
    st.modifyRecord ⟨step - 13, h⟩ (clearedRecord keep)
  else if h : step - 109 < 16 then
    { st with cells := st.cells.set (step - 109) (Vector.replicate 64 Cell.cleared) h }
  else if keep then { st with queue := [] }
  else { st with queue := [], fence := 0, frameLength := 32 }

namespace State

/-- A clear step lowers the attention line of a node whose set it emptied, if no other set addressed to the node remains; the clearing of a damaged record looks at every line (R185; log 15). -/
def lowerAttention (s : State) (old : Store) : State :=
  { s with links := Vector.ofFn fun n : Node =>
      if old.noticesChanged s.store n || old.treats s.store then
        { s.links[n] with attention := s.links[n].attention && s.store.hasNoticeFor n }
      else s.links[n] }

/-- The end of the clear: the device enters CONFIG, and a CLEARTABLE completes (R181, R184, R185). -/
def endClear (s : State) (keep : Bool) : State :=
  let s : State := { s with control := { s.control with device := .config } }
  match keep, s.port.inFlight with
  | true, some c => s.acceptCommand c
  | true, none | false, _ => s

end State

/-- INIT_CLEAR_STEP: one clear step; the last one ends the clear (R185). -/
def execInitClearStep (s : State) : Host.Outcome State Fault Refusal :=
  match s.engine.taking with
  | some (.clearStep p) =>
    let cleared : State := { s with store := clearPart p.keep p.step s.store }
    let cleared := cleared.lowerAttention s.store
    if p.step < Config.clearSteps then
      .next { cleared with engine := { cleared.engine with clearStep := some ⟨p.step + 1, p.keep⟩, inProgress := none } }
    else
      .next (({ cleared with engine := { cleared.engine with clearStep := none, inProgress := none } } : State).endClear p.keep)
  | _ => .next s

/-! Audit steps (R110, R197 to R199). -/

/-- The frame of a frame step's position, 96 to 111 (R197). -/
def frameOfStep (position : Nat) : Option Frame :=
  if h : position - 96 < 16 then some ⟨position - 96, h⟩ else none

namespace Store

/-- What an audit step reads (R198). -/
def auditItems (st : Store) (position : Nat) : List Item :=
  if h : position < 96 then
    let h : Handle := ⟨position, h⟩
    .record h :: (if (st.record h).isOccupyingRoot then cellItems (recordCells (st.record h)) else [])
  else match frameOfStep position with
    | some f =>
      allSlots.map (fun s => .cell f s) ++
        allSlots.filterMap fun s => ((st.cell f s).names.map fun k => Item.record k)
    | none => []

/-- Whether an occupied cell disagrees with the record it names (R198). -/
def cellDisagrees (st : Store) (f : Frame) (s : Slot) : Bool :=
  match (st.cell f s).names with
  | none => false
  | some k => decide (st.frameLength ≤ s.val) || !((st.record k).isOccupyingRoot && (st.record k).covers f s)

/-- The mismatched cells of an audit step (R198). -/
def auditMismatches (st : Store) (position : Nat) : List (Frame × Slot) :=
  if h : position < 96 then
    let h : Handle := ⟨position, h⟩
    if (st.record h).isOccupyingRoot then
      (recordCells (st.record h)).filter fun c => decide ((st.cell c.1 c.2).names ≠ some h)
    else []
  else match frameOfStep position with
    | some f => (allSlots.filter fun s => st.cellDisagrees f s).map fun s => (f, s)
    | none => []

/-- The occupying roots that cover a cell beside the one its rewriting names (R198). -/
def losers (st : Store) (f : Frame) (s : Slot) : List Handle :=
  let covering := allHandles.filter fun h => (st.record h).isOccupyingRoot && (st.record h).covers f s
  let named := if s.val < st.frameLength then st.coverer f s else none
  if 1 < covering.length then covering.filter fun h => decide (some h ≠ named) else []

/-- What the repair of mismatched cells reads: all records, each losing root's cells, and the node records its closing uses, its owner's first (R155, R198; log 12). -/
def repairItems (st : Store) (cells : List (Frame × Slot)) : List Item :=
  recordItems ++ cells.flatMap fun c => (st.losers c.1 c.2).flatMap fun h => st.ownCells h ++ st.closingNodes h

/-- One mismatched cell repaired: rewritten, and each other covering root closed LOST (R194, R198). -/
def repairCell (st : Store) (c : Frame × Slot) : Store :=
  (st.losers c.1 c.2).foldl (fun st h => if (st.record h).state.isLive then st.close .lost h else st) (st.rewriteCell c.1 c.2)

end Store

namespace State

/-- The audit progress changed. -/
def modifyAudit (s : State) (f : AuditProgress → AuditProgress) : State :=
  { s with engine := { s.engine with audit := f s.engine.audit } }

/-- An audit ends with a result; AUDIT-DONE is raised (R198, R199). -/
def endAudit (s : State) (result : AuditResult) : State :=
  (({ s with engine := { s.engine with auditStep := false } } : State).modifyAudit
    fun a => { a with running := false, result := result }).raise .auditDone

/-- The audit step at the present position is posted (R110). -/
def postAuditStep (s : State) : State := { s with engine := { s.engine with auditStep := true } }

/-- A step that completes without being repeated: the next one is posted, or the audit ends CLEAN or MISMATCHES (R198). -/
def advanceAudit (s : State) : State :=
  if s.engine.audit.position < Config.lastAuditStep then
    (s.modifyAudit fun a => { a with position := a.position + 1 }).postAuditStep
  else s.endAudit (if s.engine.audit.mismatches = 0 then .clean else .mismatches)

/-- Mismatches counted, up to 255 (R198). -/
def countMismatches (s : State) (n : Nat) : State :=
  s.modifyAudit fun a => { a with mismatches := capMismatches (a.mismatches + n) }

/-- A step that met a failed check: repeated behind the quarantine, or counted and passed in HALT mode (R198). -/
def abandonAuditStep (s : State) (mode : IntegrityMode) (i : Item) : State :=
  match mode with
  | .quarantine => (s.failedCheck mode .auditStep i).postAuditStep
  | .halt => ((s.failedCheck mode .auditStep i).countMismatches 1).advanceAudit

/-- The audit step at the present position (R198). Its own writes leave the disturbed mark. -/
def performAuditStep (s : State) (mode : IntegrityMode) : State :=
  let position := s.engine.audit.position
  match s.store.firstFailing (s.store.auditItems position) with
  | some i => s.abandonAuditStep mode i
  | none =>
    let cells := s.store.auditMismatches position
    if cells.isEmpty || decide (mode = .halt) then (s.countMismatches cells.length).advanceAudit
    else match s.store.firstFailing (s.store.repairItems cells) with
      | some i => s.abandonAuditStep mode i
      | none =>
        let repaired : State := { s with store := (cells.foldl Store.repairCell s.store).settle }
        ((repaired.driveAttention s.store).countMismatches cells.length).advanceAudit

/-- The taking of an audit step: it leaves the pending set (R88). -/
def takeAuditStep (s : State) : State := { s with engine := { s.engine with auditStep := false, inProgress := none } }

/-- Whether an audit step taken now finds the audit disturbed after its third restart (R199). -/
def isInconclusive (s : State) : Bool := s.engine.audit.disturbed && decide (3 ≤ s.engine.audit.restarts)

/-- An audit step taken then ends the audit INCONCLUSIVE without reading anything (R199). -/
def endInconclusive (s : State) : State := s.takeAuditStep.endAudit .inconclusive

/-- The restart of a disturbed audit (R199). -/
def restartAudit (s : State) : State :=
  s.modifyAudit fun a => { a with disturbed := false, restarts := a.restarts + 1, position := 0 }

end State

/-- AUDIT_STEP: performed at its position, after a restart if the audit was disturbed, or ended INCONCLUSIVE (R198, R199). -/
def execAuditStep (s : State) : Host.Outcome State Fault Refusal :=
  match s.engine.taking with
  | some .auditStep =>
    if s.isInconclusive then .next s.endInconclusive
    else if s.engine.audit.disturbed then .next (s.takeAuditStep.restartAudit.performAuditStep s.atTaking.integrityMode)
    else .next (s.takeAuditStep.performAuditStep s.atTaking.integrityMode)
  | _ => .next s

/-- AUDIT_INCONCLUSIVE: an audit step taken with the disturbed mark set after the third restart (R199). -/
def execAuditInconclusive (s : State) : Host.Outcome State Fault Refusal :=
  match s.engine.taking with
  | some .auditStep =>
    if s.isInconclusive then .next s.endInconclusive else .next s
  | _ => .next s

end Sys2Proof.Machine
end

