-- ==== Sys2Proof/Machine/Formats.lean ====
section
/-! DEFINITION. The encodings of chapter 11 that the part puts out: shared codes, response frames, the grant word, the read window images. -/

namespace Sys2Proof

/-- The state codes (R200). -/
def RecState.code : RecState → Byte
  | .free => 0
  | .waiting => 1
  | .held => 2
  | .draining => 3
  | .suspended => 4
  | .displaced => 5
  | .closed => 6
  | .corrupt => 7

/-- The close reason codes (R200). -/
def CloseReason.code : CloseReason → Byte
  | .released => 1
  | .expired => 2
  | .idle => 3
  | .revoked => 4
  | .recalled => 5
  | .cascade => 6
  | .lost => 7
  | .waitOver => 8
  | .left => 9
  | .barred => 10

/-- The suspension reasons as one byte (R200). -/
def Reasons.byte (r : Reasons) : Byte :=
  (if r.supervisor then 1 else 0) ||| (if r.ownerBarred then 2 else 0) ||| (if r.granteeBarred then 4 else 0)

/-- The node state codes (R200). The code of a stored pattern that is none of the three never leaves the part (log 6). -/
def NodeState.code : NodeState → Byte
  | .absent => 0
  | .joined => 1
  | .barred => 2
  | .invalid => 3

end Sys2Proof

namespace Sys2Proof.Machine

/-- A number as a byte. -/
def byteOf (n : Nat) : Byte := BitVec.ofNat 8 n

/-- A number as a word. -/
def wordOfNat (n : Nat) : Word := BitVec.ofNat 16 n

/-- A number that may be absent, as a byte: an absent field is 0 (R203). -/
def byteOf? (n : Option Nat) : Byte := byteOf (n.getD 0)

/-- A mark as one bit of a word. -/
def bitAt (b : Bool) (position : Nat) : Word := if b then wordOfNat (2 ^ position) else 0

/-- The flags byte of QUERY (R203) and, with the used mark in bit 3, of the record image (R205). -/
def flagsByte (child isProtected yields used firstSlot parent wait reason : Bool) : Byte :=
  lowByte (bitAt child 0 ||| bitAt isProtected 1 ||| bitAt yields 2 ||| bitAt used 3 ||| bitAt firstSlot 4 |||
    bitAt parent 5 ||| bitAt wait 6 ||| bitAt reason 7)

/-- A close reason that may be absent (R200). -/
def reasonByte (r : Option CloseReason) : Byte :=
  match r with
  | some why => why.code
  | none => 0

/-- The result codes (R203). -/
def ResultCode.code : ResultCode → Byte
  | .accepted => 0x00
  | .queued => 0x01
  | .nothing => 0x02
  | .busy => 0x03
  | .notReady => 0x81
  | .notRunning => 0x82
  | .frozen => 0x83
  | .notJoined => 0x84
  | .barred => 0x85
  | .unknown => 0x86
  | .range => 0x87
  | .rank => 0x88
  | .fenced => 0x89
  | .quota => 0x8A
  | .tableFull => 0x8B
  | .queueFull => 0x8C
  | .occupied => 0x8D
  | .noSuchLease => 0x8E
  | .notOwner => 0x8F
  | .wrongState => 0x90
  | .protectedLease => 0x91
  | .depth => 0x92
  | .overlap => 0x93
  | .term => 0x94
  | .fault => 0x95

/-- A tag as two bytes, the handle and then the generation (R200). -/
def Tag.bytes (t : Tag) : List Byte := [byteOf t.handle.val, t.generation]

/-- A field of two bytes on a link, most significant byte first (R200). -/
def wordBytes (w : Word) : List Byte := [highByte w, lowByte w]

/-- The role byte of a POLL (R203). -/
def Role.byte : Role → Byte
  | .owner => 1
  | .grantee => 2

/-- The 21 result bytes of QUERY (R203). Bit 3 of the flags byte, which R203 does not assign, is 0 (log 42). -/
def QueryReport.bytes (q : QueryReport) : List Byte :=
  q.tag.bytes ++
  [(if q.asOwner then 1 else 0) ||| (if q.asGrantee then 2 else 0), q.state.code,
   flagsByte (decide (q.kind = .child)) q.isProtected q.yields false q.firstSlot.isSome q.parent.isSome
     q.waitLimit.isSome q.closeReason.isSome,
   byteOf q.owner.val, byteOf q.grantee.val, byteOf? (q.firstSlot.map Fin.val), byteOf q.width] ++
  wordBytes q.frameSet ++ wordBytes (wordOfNat q.term) ++
  [byteOf q.rank, byteOf q.depth, byteOf? (q.parent.map Fin.val), byteOf q.childCount, q.reasons.byte,
   byteOf? q.waitAge, byteOf? q.waitLimit, reasonByte q.closeReason]

/-- The nine result bytes of STATUS (R203). -/
def StatusReport.bytes (r : StatusReport) : List Byte :=
  [r.state.code, byteOf r.quota, byteOf r.rankCeiling, byteOf r.strikes, byteOf r.liveOwned] ++
  wordBytes r.superframe ++ [byteOf r.fence, byteOf r.frameLength]

/-- The result bytes of a response (R203). -/
def Results.bytes : Results → List Byte
  | .none => []
  | .claimed t first => t.bytes ++ [byteOf first]
  | .queued t position => t.bytes ++ [byteOf position]
  | .renewed t term => t.bytes ++ wordBytes (wordOfNat term)
  | .released t state => t.bytes ++ [state.code]
  | .sublet t => t.bytes
  | .recalled t state => t.bytes ++ [state.code]
  | .joined quota rankCeiling strikes => [byteOf quota, byteOf rankCeiling, byteOf strikes]
  | .left count => [byteOf count]
  | .polled t state reason role notices => t.bytes ++ [state.code, reasonByte reason, role.byte, notices]
  | .queried report => report.bytes
  | .status report => report.bytes

/-- The bytes of a response frame as sent: start byte, length, sequence byte, kind, result code, results, CRC (R203). -/
def Response.bytes (r : Response) : List Byte :=
  let counted : List Byte := [r.seq.setWidth 8, r.kind, r.code.code] ++ r.results.bytes
  let body := byteOf counted.length :: counted
  startByte :: body ++ [crc8 body]

/-- The fifteen grant lines (R204). -/
def GrantWord.lines (g : GrantWord) : BitVec 15 :=
  let grantee : Nat := match g.grantee with
    | some n => n.val
    | none => 15
  BitVec.ofNat 15 (g.frame.val + 16 * g.slot.val + 1024 * grantee + (if g.mark then 16384 else 0))

/-! The read window's images (R205): in each word the first item is the low byte. -/

/-- A word of two bytes, the first item low (R205). -/
def pair (low high : Byte) : Word := wordOf high low

/-- A tag as a word: handle low, generation high (R205). -/
def Tag.word (t : Tag) : Word := pair (byteOf t.handle.val) t.generation

/-- The tag of child k of a record's children list, or 0 (R205). -/
def childTagWord (st : Store) (r : LeaseRecord) (k : Nat) : Word :=
  match r.children[k]? with
  | some c => (st.tagOf c).word
  | none => 0

/-- The record image of FETCH (R176, R205). -/
def recordImage (st : Store) (h : Handle) : Vector Word 16 :=
  let r := st.record h
  #v[(st.tagOf h).word,
     pair r.state.code (flagsByte (decide (r.kind = .child)) r.isProtected r.yields r.used r.firstSlot.isSome
       r.parent.isSome r.waitLimit.isSome r.closeReason.isSome),
     pair (byteOf r.owner.val) (byteOf r.grantee.val),
     pair (byteOf? (r.firstSlot.map Fin.val)) (byteOf r.width),
     r.frameSet,
     wordOfNat r.term,
     pair (byteOf r.rank) (byteOf r.depth),
     pair (byteOf? (r.parent.map Fin.val)) (byteOf r.children.length),
     pair (byteOf? r.waitLimit) (byteOf? r.waitAge),
     pair (reasonByte r.closeReason) (byteOf? r.closeAge),
     pair r.reasons.byte (byteOf r.idleCount),
     pair r.ownerNotices r.granteeNotices,
     childTagWord st r 0, childTagWord st r 1, childTagWord st r 2, childTagWord st r 3]

/-- The queue-entry image of FETCHQ (R68, R205). -/
def queueImage (st : Store) (h : Handle) : Vector Word 16 :=
  let r := st.record h
  #v[(st.tagOf h).word, pair r.state.code 0, pair (byteOf? r.waitLimit) (byteOf? r.waitAge),
     pair (byteOf st.queue.length) 0, 0, 0, 0, 0, 0, 0, 0, 0, 0, 0, 0, 0]

/-- The node image of FETCHNODE (R157, R205). -/
def nodeImage (st : Store) (n : Node) : Vector Word 16 :=
  let r := st.node n
  #v[pair (byteOf n.val) r.state.code, pair (byteOf r.quota) (byteOf r.rankCeiling),
     pair (byteOf r.strikes) (byteOf r.liveOwned), pair (byteOf st.frameLength) (byteOf st.fence),
     0, 0, 0, 0, 0, 0, 0, 0, 0, 0, 0, 0]

end Sys2Proof.Machine
end

