-- ==== Sys2Proof/Machine/Commands.lean ====
section
/-! DEFINITION. The supervisor commands: each one's operation, and its taking by the engine. -/

namespace Sys2Proof.Machine

/-- A value a command's argument gives within its range, or RANGE. -/
def orRange {value : Type} (v : Option value) : Except (Stop CmdOutcome) value :=
  match v with
  | some x => .ok x
  | none => .error (.refused .range)

/-! PLACE (R42 to R44). -/

/-- The owner's node record, read: NOT-JOINED if ABSENT, BARRED if BARRED (check 2 of R42). -/
def placeOwner (st : Store) (n : Node) : Except (Stop CmdOutcome) Unit := do
  readItems st [.node n]
  match (st.node n).state with
  | .joined => return ()
  | .barred => .error (.refused .barred)
  | .absent | .invalid => .error (.refused .notJoined)

/-- The record of a PLACE, over an allocated record (R44). -/
def placedRecord (base : LeaseRecord) (n : Node) (first : Slot) (im : LeaseImage) : LeaseRecord :=
  { base with
    state := .held
    kind := .root
    owner := n
    grantee := n
    isProtected := true
    firstSlot := some first
    width := im.width.toNat
    frameSet := im.frames
    rank := 3
    yields := false
    term := im.term.toNat
    depth := 0 }

/-- Whether a forced PLACE may displace an occupant (R43). -/
def forceable (v : LeaseRecord) : Bool := !v.isProtected && decide (v.state = .held ∨ v.state = .suspended)

/-- The lease of a PLACE whose checks passed (R44). -/
def placeDone (st : Store) (n : Node) (first : Slot) (im : LeaseImage) (h : Handle) (base : LeaseRecord) : CommandDone :=
  { store := (st.occupy h (placedRecord base n first im)).countUp n, handle := some h }

/-- PLACE (R42, R43). -/
def placeOperation (im : LeaseImage) (wait : Nat) (st : Store) : CommandResult := do
  let n ← orRange (nodeOf? im.owner.toNat)
  need (decide (1 ≤ im.width.toNat ∧ im.width.toNat ≤ 16)) .range
  need (decide (im.firstSlot.toNat + im.width.toNat ≤ st.frameLength)) .range
  let first ← orRange (slotOf? im.firstSlot.toNat)
  need (decide (im.frames ≠ 0)) .range
  need (decide (im.term.toNat ≤ 4095)) .range
  placeOwner st n
  let h ← allocate st .tableFull
  let base := (st.record h).allocated
  let cells := coverCells im.frames first.val im.width.toNat
  readItems st (Store.cellItems cells)
  let occupants := st.occupants cells
  readItems st (occupants.map .record)
  if occupants.isEmpty then return placeDone st n first im h base
  need im.force .occupied
  need (occupants.all fun v => forceable (st.record v)) .occupied
  readItems st (st.chainItems occupants)
  return placeDone (st.displaceAll wait occupants).settle n first im h base

/-- PLACE taken (R42). -/
def execPlace (s : State) : Host.Outcome State Fault Refusal :=
  match s.engine.takenCommand .place with
  | some c => .next (s.performCommand c (placeOperation s.port.writeBack s.atTaking.reinstatementWait))
  | none => .next s

/-! SETFRAME and FENCE (R33, R45). -/

/-- Whether a live root's first slot and width exceed a frame length (check 3 of R45). -/
def exceedsFrame (value : Nat) (r : LeaseRecord) : Bool :=
  r.state.isLive && decide (r.kind = .root) &&
    match r.firstSlot with
    | some a => decide (value < a.val + r.width)
    | none => false

/-- SETFRAME after check 1, which the device-state check makes (R45, R108). Its last sentence does not lift check 2: the present value below the fence is RANGE (log 40). -/
def setframeOperation (value : Nat) (st : Store) : CommandResult := do
  need (decide (8 ≤ value ∧ value ≤ 64)) .range
  need (decide (st.fence ≤ value)) .range
  readItems st Store.recordItems
  need (allHandles.all fun h => !exceedsFrame value (st.record h)) .occupied
  return { store := { st with frameLength := value } }

/-- SETFRAME taken (R45). -/
def execSetframe (s : State) : Host.Outcome State Fault Refusal :=
  match s.engine.takenCommand .setframe with
  | some c => .next (s.performCommand c (setframeOperation c.value))
  | none => .next s

/-- The cells a FENCE reads: from the present fence to one below the value, and below S, in every frame (R33). -/
def fenceCells (st : Store) (value : Nat) : List (Frame × Slot) :=
  coverCells 0xFFFF st.fence (min value st.frameLength - st.fence)

/-- FENCE (R33). -/
def fenceOperation (value : Nat) (st : Store) : CommandResult := do
  need (decide (value ≤ 64)) .range
  if value ≤ st.fence then return { store := { st with fence := value } }
  let cells := fenceCells st value
  readItems st (Store.cellItems cells)
  let occupants := st.occupants cells
  readItems st (occupants.map .record)
  need (occupants.all fun v => (st.record v).isProtected) .occupied
  return { store := { st with fence := value } }

/-- FENCE taken (R33). -/
def execFence (s : State) : Host.Outcome State Fault Refusal :=
  match s.engine.takenCommand .fence with
  | some c => .next (s.performCommand c (fenceOperation c.value))
  | none => .next s

/-! AMEND, REVOKE, SUSPEND, RESUME (R21 to R24). -/

/-- The record after an AMEND: rank and yield are written for a root that is not protected (R21). -/
def amendedRecord (im : LeaseImage) (r : LeaseRecord) : LeaseRecord :=
  if r.kind = .root ∧ r.isProtected = false then
    { r with term := im.term.toNat, rank := im.rank.toNat, yields := im.yields }
  else { r with term := im.term.toNat }

/-- AMEND (R21). -/
def amendOperation (t : RawTag) (im : LeaseImage) (st : Store) : CommandResult := do
  let h ← namedRecord st t .noSuchLease
  let r := st.record h
  need (decide (r.state = .waiting ∨ r.state = .held ∨ r.state = .suspended)) .wrongState
  need (decide (im.rank.toNat ≤ 3)) .range
  need (decide (im.term.toNat ≤ 4095)) .range
  need (decide (im.term.toNat ≠ 0) || r.isProtected) .range
  let bound ← termBound st r
  need (withinBound bound im.term.toNat) .term
  return { store := st.modifyRecord h (amendedRecord im) }

/-- AMEND taken (R21). -/
def execAmend (s : State) : Host.Outcome State Fault Refusal :=
  match s.engine.takenCommand .amend with
  | some c => .next (s.performCommand c (amendOperation c.tag s.port.writeBack))
  | none => .next s

/-- REVOKE (R22). -/
def revokeOperation (t : RawTag) (st : Store) : CommandResult := do
  let h ← namedRecord st t .noSuchLease
  need (st.record h).state.isLive .wrongState
  readItems st (st.closeItems h)
  return { store := (st.close .revoked h).settle }

/-- REVOKE taken (R22). -/
def execRevoke (s : State) : Host.Outcome State Fault Refusal :=
  match s.engine.takenCommand .revoke with
  | some c => .next (s.performCommand c (revokeOperation c.tag))
  | none => .next s

/-- The store after a SUSPEND of a HELD or SUSPENDED record (R23). -/
def suspendRecord (st : Store) (h : Handle) : Store :=
  let held := decide ((st.record h).state = .held)
  let st := st.modifyRecord h fun r => { r with state := .suspended, reasons := { r.reasons with supervisor := true } }
  if held then st.postParties h .suspended else st

/-- SUSPEND (R23); its notice's parties are read (R94, R155; log 12). -/
def suspendOperation (t : RawTag) (st : Store) : CommandResult := do
  let h ← namedRecord st t .noSuchLease
  need (decide ((st.record h).state = .held ∨ (st.record h).state = .suspended)) .wrongState
  readItems st (if (st.record h).state = .held then st.partyItems h else [])
  return { store := suspendRecord st h }

/-- SUSPEND taken (R23). -/
def execSuspend (s : State) : Host.Outcome State Fault Refusal :=
  match s.engine.takenCommand .suspend with
  | some c => .next (s.performCommand c (suspendOperation c.tag))
  | none => .next s

/-- A record whose reasons change to these: with none left it becomes HELD and RESUMED is posted (R24, R144). -/
def lowerReasons (st : Store) (h : Handle) (reasons : Reasons) : Store :=
  if reasons.isEmpty then
    (st.modifyRecord h fun r => { r with reasons := reasons, state := .held }).postParties h .resumed
  else st.modifyRecord h fun r => { r with reasons := reasons }

/-- What lowering a record's reasons reads: the parties of its notice, where none is left (R94, R155; log 12). -/
def loweringItems (st : Store) (h : Handle) (reasons : Reasons) : List Item :=
  if reasons.isEmpty then st.partyItems h else []

/-- RESUME (R24). -/
def resumeOperation (t : RawTag) (st : Store) : CommandResult := do
  let h ← namedRecord st t .noSuchLease
  let r := st.record h
  need (decide (r.state = .suspended) && r.reasons.supervisor) .wrongState
  let reasons : Reasons := { r.reasons with supervisor := false }
  readItems st (loweringItems st h reasons)
  return { store := lowerReasons st h reasons }

/-- RESUME taken (R24). -/
def execResume (s : State) : Host.Outcome State Fault Refusal :=
  match s.engine.takenCommand .resume with
  | some c => .next (s.performCommand c (resumeOperation c.tag))
  | none => .next s

/-! DISCARD (R25, R196; log 32). -/

/-- Whether a DISCARD of this record goes by R196: the record is CORRUPT as stored, or the device is FROZEN. -/
def discardsWhole (device : DeviceState) (r : LeaseRecord) : Bool := decide (r.state = .corrupt) || decide (device = .frozen)

/-- Whether a DISCARD by R196 names the record by handle alone (R196). -/
def byHandleAlone (device : DeviceState) (r : LeaseRecord) : Bool :=
  decide (r.state = .corrupt) || (decide (device = .frozen) && decide (r.check ≠ 0))

/-- Whether any record went into or out of the live states, each judged as stored, a damaged one too (log 32). -/
def Store.liveStatesChanged (old new : Store) : Bool :=
  allHandles.any fun h => (old.record h).state.isLive != (new.record h).state.isLive

/-- The cleanup of R196: what refers to the record goes, the record becomes FREE, and the counts follow if any live state changed. The record's own live state is judged by its stored contents even where its check fails, so that a damaged record stored as CLOSED, FREE or CORRUPT causes no recount: the model's reading (log 32). -/
def Store.discarded (st : Store) (h : Handle) : Store :=
  let freed := (st.isolate h false).free h
  (if st.liveStatesChanged freed then freed.recount else freed).settle

/-- DISCARD by R196: every other item is read and checked; the named record's own failed check is no failure of the command. -/
def discardWhole (device : DeviceState) (t : RawTag) (h : Handle) (st : Store) : CommandResult := do
  let r := st.record h
  need (byHandleAlone device r || decide (r.state ≠ .free ∧ r.generation = t.generation)) .noSuchLease
  readItems st (st.allItems.filter fun i => decide (i ≠ .record h))
  return { store := st.discarded h }

/-- DISCARD (R25, R196). -/
def discardOperation (device : DeviceState) (t : RawTag) (st : Store) : CommandResult :=
  match t.handle? with
  | none => .error (.refused .noSuchLease)
  | some h =>
    if discardsWhole device (st.record h) then discardWhole device t h st
    else do
      let h ← namedRecord st t .noSuchLease
      need (decide ((st.record h).state = .closed)) .wrongState
      return { store := st.free h }

namespace State

/-- A DISCARD by R196 reports a failed check of the record it names, without the policy (R196). -/
def reportDiscarded (s : State) (c : Command) : State :=
  match c.tag.handle? with
  | none => s
  | some h =>
    if s.atTaking.device ≠ .init ∧ discardsWhole s.atTaking.device (s.store.record h) ∧ s.store.fails (.record h) then
      s.report (.command c.code) (.record h)
    else s

end State

/-- DISCARD taken (R25, R196). -/
def execDiscard (s : State) : Host.Outcome State Fault Refusal :=
  match s.engine.takenCommand .discard with
  | some c => .next ((s.reportDiscarded c).performCommand c (discardOperation s.atTaking.device c.tag))
  | none => .next s

/-! FETCH, FETCHQ, FETCHNODE (R176, R68, R157). -/

/-- FETCH (R176). -/
def fetchOperation (t : RawTag) (st : Store) : CommandResult := do
  let h ← orRange t.handle?
  readItems st (.record h :: (st.record h).children.map .record)
  return { store := st, handle := some h, image := some (recordImage st h) }

/-- FETCH taken (R176). -/
def execFetch (s : State) : Host.Outcome State Fault Refusal :=
  match s.engine.takenCommand .fetch with
  | some c => .next (s.performCommand c (fetchOperation c.tag))
  | none => .next s

/-- FETCHQ (R68). -/
def fetchqOperation (position : Nat) (st : Store) : CommandResult := do
  let e ← orRange st.queue[position]?
  readItems st [.queueEntry position, .record e.handle]
  return { store := st, handle := some e.handle, image := some (queueImage st e.handle) }

/-- FETCHQ taken (R68). -/
def execFetchq (s : State) : Host.Outcome State Fault Refusal :=
  match s.engine.takenCommand .fetchq with
  | some c => .next (s.performCommand c (fetchqOperation c.value))
  | none => .next s

/-- FETCHNODE (R157). -/
def fetchnodeOperation (c : Command) (st : Store) : CommandResult := do
  let n ← orRange c.node?
  readItems st [.node n]
  return { store := st, image := some (nodeImage st n) }

/-- FETCHNODE taken (R157). -/
def execFetchnode (s : State) : Host.Outcome State Fault Refusal :=
  match s.engine.takenCommand .fetchnode with
  | some c => .next (s.performCommand c (fetchnodeOperation c))
  | none => .next s

/-! BAR, UNBAR, SETNODE (R143, R144, R156). -/

/-- BAR (R143). -/
def barOperation (c : Command) (st : Store) : CommandResult := do
  let n ← orRange c.node?
  readItems st [.node n]
  match (st.node n).state with
  | .absent | .invalid => .error (.refused .wrongState)
  | .barred => return { store := st }
  | .joined =>
    readItems st (st.barItems n)
    return { store := (st.barNode n).settle, barred := true }

/-- BAR taken (R143). -/
def execBar (s : State) : Host.Outcome State Fault Refusal :=
  match s.engine.takenCommand .bar with
  | some c => .next (s.performCommand c (barOperation c))
  | none => .next s

/-- Whether a record holds a barred reason for the node (R144). -/
def heldBack (r : LeaseRecord) (n : Node) : Bool :=
  (r.reasons.ownerBarred && decide (r.owner = n)) || (r.reasons.granteeBarred && decide (r.grantee = n))

/-- The reasons left when the bar on node n is lifted (R144). -/
def unbarredReasons (r : LeaseRecord) (n : Node) : Reasons :=
  { r.reasons with
    ownerBarred := r.reasons.ownerBarred && decide (r.owner ≠ n)
    granteeBarred := r.reasons.granteeBarred && decide (r.grantee ≠ n) }

/-- The records an UNBAR reads and changes, in ascending handle order (R144). -/
def Store.heldBackBy (st : Store) (n : Node) : List Handle := allHandles.filter fun h => heldBack (st.record h) n

/-- What an UNBAR reads beside the node record: the records it changes and the parties of their notices (R94, R144, R155; log 12). -/
def Store.unbarItems (st : Store) (n : Node) : List Item :=
  (st.heldBackBy n).map .record ++
    (st.heldBackBy n).flatMap fun h => loweringItems st h (unbarredReasons (st.record h) n)

/-- The store after an UNBAR (R144). -/
def unbarNode (st : Store) (n : Node) : Store :=
  (st.heldBackBy n).foldl (fun st h => lowerReasons st h (unbarredReasons (st.record h) n))
    (st.modifyNode n fun r => { r with state := .joined, strikes := 0 })

/-- UNBAR (R144). -/
def unbarOperation (c : Command) (st : Store) : CommandResult := do
  let n ← orRange c.node?
  readItems st [.node n]
  need (decide ((st.node n).state = .barred)) .wrongState
  readItems st (st.unbarItems n)
  return { store := unbarNode st n }

/-- UNBAR taken (R144). -/
def execUnbar (s : State) : Host.Outcome State Fault Refusal :=
  match s.engine.takenCommand .unbar with
  | some c => .next (s.performCommand c (unbarOperation c))
  | none => .next s

/-- SETNODE (R156). -/
def setnodeOperation (c : Command) (st : Store) : CommandResult := do
  let n ← orRange c.node?
  need (decide (c.quota ≤ 16)) .range
  readItems st [.node n]
  return { store := st.modifyNode n fun r =>
    { r with quota := c.quota, rankCeiling := c.rankCeiling, strikes := c.strikes } }

/-- SETNODE taken (R156). -/
def execSetnode (s : State) : Host.Outcome State Fault Refusal :=
  match s.engine.takenCommand .setnode with
  | some c => .next (s.performCommand c (setnodeOperation c))
  | none => .next s

/-! START, STOP, THAW (R121 to R123, R126, R187). -/

namespace State

/-- Posts the build of frame 0 of the superframe after the present count (R101, R121). -/
def postFirstBuild (s : State) : State :=
  { s with engine := { s.engine with build := some ⟨0, s.seq.superframe + 1⟩ } }

/-- START in CONFIG: the device in RUN, the sequencer in PRIMING, the first build posted (R121). -/
def startSequencer (s : State) : State :=
  ({ s with
      control := { s.control with device := .run }
      seq := { s.seq with state := .priming, slot := 0, frame := 0, next := none, planReady := false } } : State).postFirstBuild

/-- The sequencer reaches STOPPED: no plans, the idle word, the device in CONFIG, the monitor inactive, STOPPED raised (R122, R123, R125, R130; log 21). -/
def stopSequencer (s : State) : State :=
  ({ s with
      control := { s.control with device := .config }
      seq := { s.seq with
        state := .stopped
        current := allNonePlan
        next := none
        planReady := false
        grantLines := idleWord }
      monitor := { s.monitor with active := false, talk := .silent } } : State).raise .stopped

/-- What an accepted STOP changes, by the sequencer's state (R122, R123). -/
def stopTaken (s : State) : State :=
  match s.seq.state with
  | .running => if s.control.device = .run then { s with seq := { s.seq with state := .stopping } } else s.stopSequencer
  | .stopping => if s.control.device = .run then s else s.stopSequencer
  | .priming => s.stopSequencer
  | .stopped => s

/-- THAW in FROZEN: the device in RUN; a PRIMING sequencer posts its build again (R126). -/
def thawDevice (s : State) : State :=
  let s : State := { s with control := { s.control with device := .run } }
  if s.seq.state = .priming then s.postFirstBuild else s

end State

namespace State

/-- The refusal of a command that acts at its taking, judged by the device state there: NOT-READY in INIT (R108, R180). -/
def refuseOrdered (s : State) (c : Command) (outcome : CmdOutcome) : State :=
  s.refuseCommand c (if s.control.device = .init then .notReady else outcome)

/-- A START at its taking (R121, R187). -/
def startOrdered (s : State) (c : Command) : State :=
  if s.control.device = .config then s.takeCommand.startSequencer.acceptCommand c
  else s.refuseOrdered c .notConfig

/-- A STOP at its taking (R122, R123, R187). -/
def stopOrdered (s : State) (c : Command) : State :=
  if (s.control.device = .run ∨ s.control.device = .frozen) ∧ s.seq.state ≠ .stopped then
    s.takeCommand.stopTaken.acceptCommand c
  else s.refuseOrdered c .wrongState

/-- A THAW at its taking (R126, R187). -/
def thawOrdered (s : State) (c : Command) : State :=
  if s.control.device = .frozen then s.takeCommand.thawDevice.acceptCommand c
  else s.refuseOrdered c .wrongState

end State

/-- START taken (R121, R187). -/
def execStart (s : State) : Host.Outcome State Fault Refusal :=
  match s.engine.takenCommand .start with
  | some c => .next (s.startOrdered c)
  | none => .next s

/-- STOP taken (R122, R123, R187). -/
def execStop (s : State) : Host.Outcome State Fault Refusal :=
  match s.engine.takenCommand .stop with
  | some c => .next (s.stopOrdered c)
  | none => .next s

/-- THAW taken (R126, R187). -/
def execThaw (s : State) : Host.Outcome State Fault Refusal :=
  match s.engine.takenCommand .thaw with
  | some c => .next (s.thawOrdered c)
  | none => .next s

/-! CLEARTABLE and AUDIT (R186, R197). -/

namespace State

/-- CLEARTABLE in CONFIG: the device in INIT, a running audit ABORTED, the clear posted; the command stays in flight (R186). -/
def beginClear (s : State) : State :=
  let s := if s.engine.audit.running then s.endAudit .aborted else s
  { s with
    control := { s.control with device := .init }
    engine := { s.engine with clearStep := some ⟨1, true⟩ } }

/-- AUDIT starts an audit: the progress of R197, and the first step posted (R110). -/
def beginAudit (s : State) : State := (s.modifyAudit fun _ => ⟨true, 0, 0, false, 0, .none⟩).postAuditStep

/-- A CLEARTABLE at its taking (R186). -/
def cleartableOrdered (s : State) (c : Command) : State :=
  if s.control.device = .config then s.takeCommand.beginClear
  else s.refuseOrdered c .notConfig

/-- An AUDIT at its taking (R197). -/
def auditOrdered (s : State) (c : Command) : State :=
  if s.control.device ≠ .init ∧ s.engine.audit.running = false then s.takeCommand.beginAudit.acceptCommand c
  else s.refuseOrdered c .wrongState

end State

/-- CLEARTABLE taken (R186). -/
def execCleartable (s : State) : Host.Outcome State Fault Refusal :=
  match s.engine.takenCommand .cleartable with
  | some c => .next (s.cleartableOrdered c)
  | none => .next s

/-- AUDIT taken (R197). -/
def execAudit (s : State) : Host.Outcome State Fault Refusal :=
  match s.engine.takenCommand .audit with
  | some c => .next (s.auditOrdered c)
  | none => .next s

/-- UNKNOWN_COMMAND: a command whose code names none (R180). -/
def execUnknownCommand (s : State) : Host.Outcome State Fault Refusal :=
  match s.engine.taking with
  | some (.command c) =>
    if c.name? = none then .next (s.performCommand c fun _ => .error (.refused .unknown)) else .next s
  | _ => .next s

end Sys2Proof.Machine
end

