-- ==== Sys2Proof/Machine/Taking.lean ====
section
/-! DEFINITION. The engine's takings as they fall due: an engine that is not busy takes what is pending, and what completes at once does, before an event from outside can meet it (R90, R108). -/

namespace Sys2Proof.Machine

namespace State

/-- A taken operation is in progress, with what it finds at its taking; it reads at its own step (R90, R94, R179). -/
def enter (s : State) (t : Taking) : State :=
  { s with engine := { s.engine.without t with inProgress := some (.taken t s.conditions) } }

/-- A command that completes, or makes all its changes, at its taking: START, STOP, THAW, CLEARTABLE and AUDIT (R181, R186). -/
def ordered? (s : State) (c : Command) : Option State :=
  match c.name? with
  | some .start => some (s.startOrdered c)
  | some .stop => some (s.stopOrdered c)
  | some .thaw => some (s.thawOrdered c)
  | some .cleartable => some (s.cleartableOrdered c)
  | some .audit => some (s.auditOrdered c)
  | _ => none

/-- What a taking that completes at once leaves. A fold without tags reads nothing (R98); a sweep outside RUN is dropped (R103); five commands act at their taking (R181); a command or a node request that the device state refuses completes with its refusal (R108); and an audit disturbed after its third restart ends INCONCLUSIVE (R199). -/
def atOnce? (s : State) (t : Taking) : Option State :=
  match t with
  | .fold [] => some (s.take (.fold []))
  | .sweep count => if s.canSweep then none else some (s.dropSweep count)
  | .command c =>
    match s.ordered? c with
    | some done => some done
    | none => (commandRefusal s.atTaking.device c).map (s.refuseCommand c)
  | .request n p => (deviceRefusal s.atTaking.device p.request).map (s.refuseRequest n p)
  | .auditStep => if s.isInconclusive then some s.endInconclusive else none
  | .fold (_ :: _) | .quarantine _ | .planBuild _ | .strike _ | .clearStep _ => none

/-- Takings one after another until an operation is in progress or nothing is pending. -/
def engageUpTo : Nat → State → State
  | 0, s => s
  | k + 1, s =>
    match s.engine.inProgress, s.engine.highestPlace with
    | none, some t =>
      match s.atOnce? t with
      | some done => engageUpTo k done
      | none => s.enter t
    | _, _ => s

/-- The engine takes what is due: the request of the highest place, if it has no operation in progress (R90). At most seventeen takings complete at once before it, those of one sweep, one fold, two commands, twelve node requests and one audit step. -/
def engage (s : State) : State := engageUpTo 18 s

end State

end Sys2Proof.Machine
end

