-- ==== Sys2Proof/Machine/SequencerEvents.lean ====
section
/-! DEFINITION. Ticks of the slot timer: the judgement of the slot that ends, the frame end, counting, the frame start, the grant word. -/

namespace Sys2Proof.Machine

/-- A link at a tick: a partial frame that received no byte grows older by one tick (R147; log 19). -/
def Link.tick (l : Link) : Link :=
  match l.rx with
  | .receiving => { l with idleTicks := min (l.idleTicks + 1) 2 }
  | .hunt | .lineBreak => l

namespace State

/-- What every tick does: the timer counts anew, with the slot length written before this tick (R114), and partial frames age. -/
def tickTimer (s : State) : State :=
  { s with
    seq := { s.seq with timerCount := 0, timerLength := s.control.slotLength }
    links := s.links.map Link.tick }

/-! The Bus Monitor at a slot end and a frame end (R132 to R134, R138). -/

/-- Latches an empty violation record and raises VIOLATION, or marks a further violation (R138). -/
def latchViolation (s : State) (granted talker : Option Node) : State :=
  match s.monitor.violation with
  | none =>
    ({ s with monitor := { s.monitor with
        violation := some ⟨s.seq.superframe, s.seq.frame, s.seq.slot, granted, talker, false⟩ } } : State).raise .violation
  | some v => { s with monitor := { s.monitor with violation := some { v with further := true } } }

/-- Posts one strike for a node: its pending count rises by one, stopping at 7 (R99). -/
def postStrike (s : State) (n : Node) : State :=
  { s with engine := { s.engine with strikes := s.engine.strikes.set n (min (s.engine.strikes[n] + 1) 7) } }

/-- The grantee of the slot entry. -/
def grantedNode (s : State) : Option Node := s.monitor.slotEntry.map Grant.node

/-- A tag joins the talked set once (R133). -/
def addTalked (s : State) (t : Tag) : State :=
  { s with monitor := { s.monitor with
      talked := if t ∈ s.monitor.talked then s.monitor.talked else s.monitor.talked ++ [t] } }

/-- The judgement of the slot's talk against the slot entry (R132). -/
def judgeSlot (s : State) : State :=
  match s.monitor.talk with
  | .silent => s
  | .garbled => s.latchViolation s.grantedNode none
  | .talker n =>
    match s.monitor.slotEntry with
    | some g =>
      if g.node = n then s.addTalked g.tag
      else (s.postStrike n).latchViolation (some g.node) (some n)
    | none => (s.postStrike n).latchViolation none (some n)

/-- The end of a slot: judged while the monitor is active (R130, R132). -/
def endSlot (s : State) : State := if s.monitor.active then s.judgeSlot else s

/-- The frame end: while active the talked set is posted as a fold and emptied (R98, R134). -/
def endFrame (s : State) : State :=
  if s.monitor.active then
    { s with
      engine := { s.engine with
        fold := some (match s.engine.fold with
          | some earlier => mergeTags earlier s.monitor.talked
          | none => s.monitor.talked) }
      monitor := { s.monitor with talked := [] } }
  else s

/-- The end of the frame's last slot and the frame end: an engine that is not busy takes the strike as the slot's judgement posts it, before the fold is posted (R90, R132, R134). -/
def endLastSlot (s : State) : State := s.endSlot.engage.endFrame

/-! The sequencer at a slot start and a frame start (R115, R116, R119, R125). -/

/-- The next plan becomes current; without one, its build being late, the frame is dark and DARK-FRAME is raised (step 1 of R119, R111). -/
def swapPlan (s : State) : State :=
  match s.seq.planReady, s.seq.next with
  | true, some p => { s with seq := { s.seq with current := p.plan, next := none, planReady := false } }
  | false, _ | true, none =>
    ({ s with seq := { s.seq with current := allNonePlan, next := none, planReady := false } } : State).raise .darkFrame

/-- Posts the build for the frame that follows (step 2 of R119); a build still pending, delayed past its frame start, is withdrawn (R101, R111). -/
def postBuild (s : State) : State :=
  { s with engine := { s.engine with build := some (followingName s.seq.frame s.seq.superframe) } }

/-- Posts the sweep at the sweep point, unless one is pending (step 3 of R119, R102). -/
def postSweep (s : State) : State :=
  if s.seq.frame = 15 ∧ s.engine.sweep = none then { s with engine := { s.engine with sweep := some 0 } } else s

/-- The frame start: in RUN the plan is swapped and the build and sweep posted; in FROZEN the plan stays all-NONE (R119, R125). -/
def startFrame (s : State) : State :=
  match s.control.device with
  | .run => s.swapPlan.postBuild.postSweep
  | .frozen | .init | .config => s

/-- The grant word of the present slot (R116): a grantee in RUN only. -/
def grantWord (s : State) : GrantWord :=
  { frame := s.seq.frame
    slot := s.seq.slot
    mark := decide (s.seq.slot = 0)
    grantee := if s.control.device = .run then (s.seq.current[s.seq.slot]).map Grant.node else none }

/-- The monitor at a slot start: active in RUN, with the current plan's entry and a silent slot (R130, R131). -/
def monitorSlotStart (s : State) : State :=
  if s.control.device = .run then
    { s with monitor := { s.monitor with active := true, slotEntry := s.seq.current[s.seq.slot], talk := .silent } }
  else s

/-- The slot start: the grant word is driven and strobed, and the monitor takes its entry (R116, R131; log 17). -/
def startSlot (s : State) : State :=
  ({ s with seq := { s.seq with grantLines := s.grantWord, gstbPulses := s.seq.gstbPulses + 1 } } : State).monitorSlotStart

/-- The counters at a frame start: slot 0 of the next frame, and of the next superframe where the frame becomes 0 (R115). -/
def advanceFrame (s : State) : State :=
  { s with seq := { s.seq with
      slot := 0
      frame := s.seq.frame + 1
      superframe := if s.seq.frame = 15 then s.seq.superframe + 1 else s.seq.superframe } }

/-- A slot start in RUNNING or STOPPING (R115, R119), or the stop at the frame end of frame 15 (R122, R125). The frame end precedes the frame start (R115), so an engine that is not busy takes the fold before the frame start posts build and sweep (R90, R106; log 38). -/
def advanceSequencer (s : State) : State :=
  if s.seq.slot.val + 1 < s.store.frameLength then
    let s := s.endSlot
    ({ s with seq := { s.seq with slot := s.seq.slot + 1 } } : State).startSlot
  else if s.seq.state = .stopping ∧ s.seq.frame = 15 then s.endLastSlot.stopSequencer
  else s.endLastSlot.engage.advanceFrame.startFrame.startSlot

/-- The first frame 0 start, at which PRIMING ends (R121). -/
def beginRunning (s : State) : State :=
  ({ s with seq := { s.seq with state := .running, superframe := s.seq.superframe + 1 } } : State).startFrame.startSlot

/-- Whether the next tick ends PRIMING: the plan is ready, the device in RUN (R121, R124). -/
def endsPriming (s : State) : Bool :=
  decide (s.seq.state = .priming) && s.seq.planReady && decide (s.control.device = .run)

/-- A tick of the slot timer (R114). -/
def tick (s : State) : State :=
  match s.seq.state with
  | .running | .stopping => s.tickTimer.advanceSequencer
  | .priming | .stopped => if s.endsPriming then s.tickTimer.beginRunning else s.tickTimer

/-- One period of CLK: the slot timer counts, and ticks at a full slot length (R114). It stands still while RESET is asserted (R127). -/
def clkPeriod (s : State) : State :=
  if s.resetAsserted then s
  else if s.seq.timerCount + 1 < s.seq.timerLength then
    { s with seq := { s.seq with timerCount := s.seq.timerCount + 1 } }
  else s.tick

end State

/-- SLOT_START: a tick that is not the one at which PRIMING ends (R114, R115; log 20). The engine has taken what was pending before it (R90). -/
def execSlotStart (s : State) : Host.Outcome State Fault Refusal :=
  if s.resetAsserted then .next s
  else
    let s := s.engage
    if s.endsPriming then .next s else .next s.tick

/-- FIRST_FRAME_START: the tick at which PRIMING ends (R121). The engine has taken what was pending before it (R90). -/
def execFirstFrameStart (s : State) : Host.Outcome State Fault Refusal :=
  let s := s.engage
  if s.endsPriming then .next s.tickTimer.beginRunning else .next s

end Sys2Proof.Machine
end

