-- ==== Sys2Proof/Machine/LinkEvents.lean ====
section
/-! DEFINITION. The link events: bytes, frames, the timeout of a partial frame, line breaks, and the end of a sending. -/

namespace Sys2Proof.Machine

/-- A response of the controller's own or a replay: never a completion response (R149, R151). -/
def Link.offer (l : Link) (r : Response) : Link := l.give r false

/-- The controller's BUSY response to an arriving frame (R151). -/
def busyResponse (g : GoodFrame) : Response := ⟨g.seq, g.kind, .busy, .none⟩

/-- The controller's response to an unknown kind (R153). -/
def unknownResponse (g : GoodFrame) : Response := ⟨g.seq, g.kind, .unknown, .none⟩

/-- A link whose receiver has handed a frame on or dropped one: HUNT, no partial frame (R147). -/
def Link.hunting (l : Link) : Link := { l with rx := .hunt, partialFrame := none, idleTicks := 0 }

/-- Whether a partial frame is due to be discarded as truncated: no byte while two ticks have passed (R147). -/
def Link.isStale (l : Link) : Bool := decide (l.rx = .receiving ∧ 2 ≤ l.idleTicks)

/-- The link with a truncated partial frame discarded (R147). -/
def Link.dropStale (l : Link) : Link := if l.isStale then l.hunting else l

namespace State

/-- Posts a request to the engine as the link's node request, and sets the in-flight mark (R149). -/
def postRequest (s : State) (n : Node) (seq : SeqNo) (r : Request) : State :=
  ({ s with engine := { s.engine with requests := s.engine.requests.set n (some ⟨seq, r⟩) } } : State).modifyLink n
    fun l => { l with inFlight := some seq }

/-- The arrival of a good frame, by the first row of R149 that applies. The engine has taken what was pending before it, so a link whose request the device state refuses has its answer (R90, R108). -/
def goodFrame (s : State) (n : Node) (g : GoodFrame) : State :=
  let s := s.engage
  match s.links[n].inFlight with
  | some q => if q = g.seq then s else s.modifyLink n fun l => l.offer (busyResponse g)
  | none =>
    if s.links[n].lastSeq = some g.seq then
      match s.links[n].cached with
      | some r => s.modifyLink n fun l => l.offer r
      | none => s
    else match parseRequest g.kind g.args with
      | none => s.modifyLink n fun l => l.complete (unknownResponse g)
      | some r => s.postRequest n g.seq r

/-- A complete frame, from the length byte to the CRC byte: checked, and dropped silently unless it is good (R148, R149). -/
def frameArrival (s : State) (n : Node) (bytes : List Byte) : State :=
  match checkFrame bytes with
  | some g => s.goodFrame n g
  | none => s

/-- A byte appended to the partial frame: a bad length or a complete frame returns the receiver to HUNT (R147). -/
def appendByte (s : State) (n : Node) (bytes : List Byte) : State :=
  if frameComplete bytes then (s.modifyLink n Link.hunting).frameArrival n bytes
  else match bytes.head? with
    | some len =>
      if 2 ≤ len.toNat ∧ len.toNat ≤ 16 then
        s.modifyLink n fun l => { l with partialFrame := some bytes, idleTicks := 0 }
      else s.modifyLink n Link.hunting
    | none => s.modifyLink n fun l => { l with partialFrame := some bytes, idleTicks := 0 }

/-- A byte on a link whose partial frame is not stale (R147). -/
def receiveByte (s : State) (n : Node) (b : Byte) : State :=
  match s.links[n].rx with
  | .hunt =>
    if b = startByte then s.modifyLink n fun l => { l with rx := .receiving, partialFrame := some [], idleTicks := 0 }
    else s
  | .receiving => s.appendByte n (s.links[n].partialFrame.getD [] ++ [b])
  | .lineBreak => s

end State

/-- LINK_BYTE_RECEIVED (R147). No byte is received during a break (R152). -/
def execLinkByteReceived (n : Node) (b : Byte) (s : State) : Host.Outcome State Fault Refusal :=
  .next ((s.modifyLink n Link.dropStale).receiveByte n b)

/-- Whether the bytes can be the frame that a link completes now: the receiver is not in BREAK, and what it has received begins them (log 19). -/
def Link.canComplete (l : Link) (bytes : List Byte) : Bool :=
  decide (l.rx ≠ .lineBreak) && (l.partialFrame.getD []).isPrefixOf bytes && frameComplete bytes

/-- LINK_FRAME_ARRIVAL: the rest of a complete frame arrives, and the frame is checked and handed on (R147 to R149). -/
def execLinkFrameArrival (n : Node) (bytes : List Byte) (s : State) : Host.Outcome State Fault Refusal :=
  if (s.links[n].dropStale).canComplete bytes then .next ((s.modifyLink n Link.hunting).frameArrival n bytes)
  else .next s

/-- PARTIAL_FRAME_TIMEOUT: a partial frame that received no byte for two ticks is discarded (R147). -/
def execPartialFrameTimeout (n : Node) (s : State) : Host.Outcome State Fault Refusal :=
  .next (s.modifyLink n Link.dropStale)

/-- The beginning of a break (R152). -/
def Link.beginBreak (l : Link) : Link :=
  match l.rx with
  | .lineBreak => l
  | .hunt | .receiving =>
    { l with rx := .lineBreak, partialFrame := none, idleTicks := 0, tx := .lineBreak, holding := none }

/-- The transmitter free again: a response in the holding slot starts and the slot empties (R151, R152). -/
def Link.startHeld (l : Link) : Link :=
  match l.holding with
  | some h => { l with tx := .sending h.response, holding := none }
  | none => { l with tx := .idle }

/-- The end of a break (R152). -/
def Link.endBreak (l : Link) : Link :=
  match l.rx with
  | .lineBreak => { l with rx := .hunt }.startHeld
  | .hunt | .receiving => l

/-- The end of a sending (R151). -/
def Link.endSending (l : Link) : Link :=
  match l.tx with
  | .sending _ => l.startHeld
  | .idle | .lineBreak => l

/-- LINE_BREAK_BEGIN (R152). A response that was due before the break has been given (R90, R108). -/
def execLineBreakBegin (n : Node) (s : State) : Host.Outcome State Fault Refusal :=
  .next (s.engage.modifyLink n Link.beginBreak)

/-- LINE_BREAK_END (R152). A response that was due before it has been given (R90, R108). -/
def execLineBreakEnd (n : Node) (s : State) : Host.Outcome State Fault Refusal :=
  .next (s.engage.modifyLink n Link.endBreak)

/-- RESPONSE_SENT (R151). A response that was due before it has been given (R90, R108). -/
def execResponseSent (n : Node) (s : State) : Host.Outcome State Fault Refusal :=
  .next (s.engage.modifyLink n Link.endSending)

end Sys2Proof.Machine
end

