-- ==== Sys2Proof/Machine/PortWrites.lean ====
section
/-! DEFINITION. The processor's writes, word by word, and the register window as it reads. -/

namespace Sys2Proof.Machine

namespace State

/-- A write at the port: discarded while RESET is asserted (R182). The effects that could meet what a taking leaves find what was pending before the write taken (log 38). -/
def portWrite (s : State) (effect : State → State) : State := if s.resetAsserted then s else effect s

/-- The event flag word: each flag written as 1 is cleared, one raised at a taking before the write among them (R90, R177). -/
def clearFlags (s : State) (v : Word) : State :=
  let s := s.engage
  { s with port := { s.port with flags := s.port.flags &&& ~~~(v.extractLsb' 0 11) } }

/-- The enable mask, written whole (R178). -/
def writeEnables (s : State) (v : Word) : State := { s with port := { s.port with enables := v.extractLsb' 0 11 } }

/-- The status word: a 1 in bit 7 clears WRITE-IGNORED (R169). -/
def clearWriteIgnored (s : State) (v : Word) : State :=
  if v.getLsbD 7 then { s with port := { s.port with writeIgnored := false } } else s

/-- Whether a configuration word is writable in the present device state (R179). -/
def isWritable (s : State) (w : ConfigWord) : Bool :=
  match w with
  | .slotLength | .integrityMode => decide (s.control.device = .config)
  | .warningThreshold | .idleLimit | .strikeLimit | .reinstatementWait => decide (s.control.device ≠ .init)

/-- The configuration values after a write of one word, clamped to its range (R179). -/
def configured (c : Control) (w : ConfigWord) (v : Nat) : Control :=
  match w with
  | .slotLength => { c with slotLength := clampTo 24 4095 v }
  | .integrityMode => { c with integrityMode := if v = 0 then .quarantine else .halt }
  | .warningThreshold => { c with warningThreshold := clampTo 0 15 v }
  | .idleLimit => { c with idleLimit := clampTo 0 15 v }
  | .strikeLimit => { c with strikeLimit := clampTo 1 7 v }
  | .reinstatementWait => { c with reinstatementWait := clampTo 1 255 v }

/-- A configuration write: stored, or ignored with WRITE-IGNORED, by the device state it finds (R90, R179). -/
def writeConfiguration (s : State) (w : ConfigWord) (v : Word) : State :=
  let s := s.engage
  if s.isWritable w then { s with control := configured s.control w v.toNat }
  else { s with port := { s.port with writeIgnored := true } }

/-- The violation-clear word (R139). -/
def clearViolation (s : State) : State := { s with monitor := { s.monitor with violation := none } }

/-- The integrity-clear word (R189). -/
def clearIntegrity (s : State) : State := { s with control := { s.control with integrity := none } }

/-- A submission, by the state of the slot at the write, which a command completed at its taking has left (R90, R108, R170). -/
def submit (s : State) (c : Command) : State :=
  let s := s.engage
  match s.port.inFlight, s.port.waiting with
  | none, _ => s.goInFlight c
  | some _, none => { s with port := { s.port with waiting := some c } }
  | some _, some _ => s.raise .commandOverrun

/-- A write of the command word, with the argument word's value at that write (R170). -/
def writeCommand (s : State) (v : Word) : State := s.submit ⟨lowByte v, s.port.argument⟩

/-- The write window's front image, written word by word, behind any exchange that a taking before the write has made (R90, R172, R205). -/
def writeFrontWord (s : State) (address : BitVec 6) (v : Word) : State :=
  let s := s.engage
  { s with port := { s.port with writeFront := s.port.writeFront.write address v } }

/-- A write by address: each word has its own effect, and read-only and unassigned words discard it (R168, R206; log 26). -/
def writeWord (s : State) (address : BitVec 6) (v : Word) : State :=
  match address.toNat with
  | 0x00 => s.clearWriteIgnored v
  | 0x01 => s.writeCommand v
  | 0x02 => { s with port := { s.port with argument := v } }
  | 0x05 => s.clearFlags v
  | 0x06 => s.writeEnables v
  | 0x08 => s.writeConfiguration .slotLength v
  | 0x09 => s.writeConfiguration .integrityMode v
  | 0x0A => s.writeConfiguration .warningThreshold v
  | 0x0B => s.writeConfiguration .idleLimit v
  | 0x0C => s.writeConfiguration .strikeLimit v
  | 0x0D => s.writeConfiguration .reinstatementWait v
  | 0x14 => s.clearViolation
  | 0x1B => s.clearIntegrity
  | 0x20 | 0x21 | 0x22 | 0x23 | 0x24 => s.writeFrontWord address v
  | _ => s

end State

/-- EVENT_FLAG_CLEAR (R177). -/
def execEventFlagClear (v : Word) (s : State) : Host.Outcome State Fault Refusal := .next (s.portWrite fun s => s.clearFlags v)

/-- ENABLE_MASK_WRITE (R178). -/
def execEnableMaskWrite (v : Word) (s : State) : Host.Outcome State Fault Refusal := .next (s.portWrite fun s => s.writeEnables v)

/-- WRITE_IGNORED_CLEAR (R169). -/
def execWriteIgnoredClear (v : Word) (s : State) : Host.Outcome State Fault Refusal :=
  .next (s.portWrite fun s => s.clearWriteIgnored v)

/-- CONFIGURATION_WRITE (R179). -/
def execConfigurationWrite (w : ConfigWord) (v : Word) (s : State) : Host.Outcome State Fault Refusal :=
  .next (s.portWrite fun s => s.writeConfiguration w v)

/-- VIOLATION_CLEAR: any written value clears (R139). -/
def execViolationClear (_v : Word) (s : State) : Host.Outcome State Fault Refusal := .next (s.portWrite State.clearViolation)

/-- INTEGRITY_CLEAR: any written value clears (R189). -/
def execIntegrityClear (_v : Word) (s : State) : Host.Outcome State Fault Refusal := .next (s.portWrite State.clearIntegrity)

/-- REGISTER_WRITE (R168). -/
def execRegisterWrite (address : BitVec 6) (v : Word) (s : State) : Host.Outcome State Fault Refusal :=
  .next (s.portWrite fun s => s.writeWord address v)

/-- COMMAND_WORD_WRITE (R170). -/
def execCommandWordWrite (v : Word) (s : State) : Host.Outcome State Fault Refusal :=
  .next (s.portWrite fun s => s.writeCommand v)

end Sys2Proof.Machine
end

