-- ==== Sys2Proof/Machine/Registers.lean ====
section
/-! DEFINITION. The register window as the processor reads it (R168, R206): a read changes nothing, so it is a function of the state (log 23). -/

namespace Sys2Proof.Machine

/-- The device state codes (R206). -/
def DeviceState.code : DeviceState → Nat
  | .init => 0
  | .config => 1
  | .run => 2
  | .frozen => 3

/-- The sequencer state codes (R206). -/
def SeqState.code : SeqState → Nat
  | .stopped => 0
  | .priming => 1
  | .running => 2
  | .stopping => 3

/-- The outcome codes (R205). -/
def CmdOutcome.code : CmdOutcome → Byte
  | .none => 0x00
  | .accepted => 0x01
  | .notReady => 0x02
  | .notConfig => 0x03
  | .wrongState => 0x04
  | .range => 0x05
  | .noSuchLease => 0x06
  | .notJoined => 0x07
  | .barred => 0x08
  | .tableFull => 0x09
  | .occupied => 0x0A
  | .term => 0x0B
  | .fault => 0x0C
  | .unknown => 0x0D

/-- The codes of the kinds of operation (R206). -/
def OpKind.code : OpKind → Byte
  | .request kind => kind
  | .command c => 0x40 + c
  | .planBuild => 0x80
  | .sweep => 0x81
  | .fold => 0x82
  | .strike => 0x83
  | .quarantine => 0x84
  | .auditStep => 0x85

/-- The audit result codes (R206). -/
def AuditResult.code : AuditResult → Nat
  | .none => 0
  | .clean => 1
  | .mismatches => 2
  | .inconclusive => 3
  | .aborted => 4

/-- The item kind codes (R206). -/
def Item.kindCode : Item → Nat
  | .record _ => 0
  | .node _ => 1
  | .cell _ _ => 2
  | .queueEntry _ => 3

/-- The integrity place word (R206). -/
def Item.placeWord : Item → Word
  | .record h => wordOfNat h.val
  | .node n => wordOfNat n.val
  | .cell f s => pair (byteOf f.val) (byteOf s.val)
  | .queueEntry p => wordOfNat p

/-- A node that may be NONE or UNKNOWN, coded Fh (R206). -/
def nodeByte (n : Option Node) : Byte :=
  match n with
  | some m => byteOf m.val
  | none => 0x0F

namespace State

/-- The status word (R169, R206). -/
def statusWord (s : State) : Word :=
  wordOfNat (s.control.device.code + 4 * s.seq.state.code) ||| bitAt s.port.inFlight.isSome 4 |||
    bitAt s.port.waiting.isSome 5 ||| bitAt s.engine.audit.running 6 ||| bitAt s.port.writeIgnored 7

/-- Words 10h to 13h: the violation record, zeros while it is empty (R138, R206). -/
def violationWord (s : State) (k : Nat) : Word :=
  match s.monitor.violation with
  | none => 0
  | some v =>
    match k with
    | 0 => bitAt true 0 ||| bitAt v.further 1
    | 1 => v.superframe
    | 2 => pair (byteOf v.frame.val) (byteOf v.slot.val)
    | 3 => pair (nodeByte v.granted) (nodeByte v.talker)
    | _ => 0

/-- Words 18h to 1Ah: the integrity record, zeros while it is empty (R189, R206). -/
def integrityWord (s : State) (k : Nat) : Word :=
  match s.control.integrity with
  | none => 0
  | some r =>
    match k with
    | 0 => bitAt true 0 ||| bitAt r.further 1 ||| wordOfNat (16 * r.item.kindCode)
    | 1 => r.item.placeWord
    | 2 => pair r.operation.code 0
    | _ => 0

/-- Words 20h to 24h: the write window's front image (R205). -/
def writeWindowWord (im : LeaseImage) (k : Nat) : Word :=
  match k with
  | 0 => pair im.owner im.firstSlot
  | 1 => pair im.width 0 ||| bitAt im.force 8
  | 2 => im.frames
  | 3 => im.term
  | 4 => pair im.rank 0 ||| bitAt im.yields 8
  | _ => 0

/-- The register window's words (R206). Unassigned words read as 0 (R168); the write-only words 01h, 14h and 1Bh read as 0 by the model's choice (log 37, DESIGN CHOICE). -/
def windowWord (s : State) (address : BitVec 6) : Word :=
  match address.toNat with
  | 0x00 => s.statusWord
  | 0x02 => s.port.argument
  | 0x03 => pair s.port.resultCode s.port.resultOutcome.code
  | 0x04 => s.port.resultHandle
  | 0x05 => s.port.flags.setWidth 16
  | 0x06 => s.port.enables.setWidth 16
  | 0x08 => wordOfNat s.control.slotLength
  | 0x09 => if s.control.integrityMode = .halt then 1 else 0
  | 0x0A => wordOfNat s.control.warningThreshold
  | 0x0B => wordOfNat s.control.idleLimit
  | 0x0C => wordOfNat s.control.strikeLimit
  | 0x0D => wordOfNat s.control.reinstatementWait
  | 0x1C => wordOfNat s.engine.audit.result.code ||| bitAt s.engine.audit.running 8 ||| bitAt s.engine.audit.disturbed 9
  | 0x1D => wordOfNat s.engine.audit.position
  | 0x1E => pair (byteOf s.engine.audit.restarts) (byteOf s.engine.audit.mismatches)
  | 0x28 => pair s.port.readFront.code s.port.readCount
  | n =>
    if 0x10 ≤ n ∧ n ≤ 0x13 then s.violationWord (n - 0x10)
    else if 0x18 ≤ n ∧ n ≤ 0x1A then s.integrityWord (n - 0x18)
    else if 0x20 ≤ n ∧ n ≤ 0x24 then writeWindowWord s.port.writeFront (n - 0x20)
    else if 0x29 ≤ n ∧ n ≤ 0x38 then s.port.readFront.words[n - 0x29]?.getD 0
    else 0

/-- A read at the port: while RESET is asserted it returns the reset value (R182). It shows what the engine has done at once with what was pending (R90, R108). -/
def readWord (s : State) (address : BitVec 6) : Word :=
  if s.resetAsserted then State.reset.windowWord address else s.engage.windowWord address

end State

end Sys2Proof.Machine
end

