-- ==== Sys2Proof/Machine/Outside.lean ====
section
/-! DEFINITION. The events from outside that are neither link events nor port writes: RESET, the talk sense lines, and damage to stored items. -/

namespace Sys2Proof.Machine

namespace State

/-- The assertion of RESET: every block takes its reset values at once; the store is left to the INIT clear (R112, R127, R129, R154, R182, R184, R185). -/
def assertReset (s : State) : State :=
  { s with
    engine := Engine.atReset
    seq := { Sequencer.atReset with gstbPulses := s.seq.gstbPulses }
    monitor := Monitor.atReset
    links := Vector.replicate 12 Link.atReset
    port := Port.atReset
    control := Control.atReset
    resetAsserted := true }

/-- The release of RESET: the slot timer restarts its count with the slot length 256 (R127). -/
def releaseReset (s : State) : State :=
  if s.resetAsserted then
    { s with resetAsserted := false, seq := { s.seq with timerCount := 0, timerLength := resetSlotLength } }
  else s

end State

/-- DEVICE_RESET (R112). -/
def execDeviceReset (s : State) : Host.Outcome State Fault Refusal := .next s.assertReset

/-- RESET_RELEASE (R127). -/
def execResetRelease (s : State) : Host.Outcome State Fault Refusal := .next s.releaseReset

/-! The talk sense lines (R131, R204). -/

/-- What a talk sense code names; every code that is neither silent nor a node is garbled or treated so (R131, R204). -/
def talkOfCode (code : BitVec 5) : Talk :=
  if code = 0 then .silent
  else if code.toNat < 16 then .garbled
  else match nodeOf? (code.toNat - 16) with
    | some n => .talker n
    | none => .garbled

/-- The classification so far combined with a value presented (R131). -/
def combineTalk (soFar presented : Talk) : Talk :=
  match soFar, presented with
  | .garbled, _ | _, .garbled => .garbled
  | .silent, heard => heard
  | .talker n, .silent => .talker n
  | .talker n, .talker m => if m = n then .talker n else .garbled

namespace State

/-- A code presented on the talk sense lines: combined while the monitor is active (R130, R131). -/
def hearCode (s : State) (code : BitVec 5) : State :=
  if s.monitor.active then
    { s with monitor := { s.monitor with talk := combineTalk s.monitor.talk (talkOfCode code) } }
  else s

end State

/-- TALK_SENSE_CODE_PRESENTED (R131). -/
def execTalkSenseCodePresented (code : BitVec 5) (s : State) : Host.Outcome State Fault Refusal := .next (s.hearCode code)

/-! Damage (R188; log 6). -/

/-- The store with a damaged item put in place. A queue position at or above the queue's length holds no entry to damage. -/
def Store.damaged (st : Store) : Damage → Store
  | .record h r => st.putRecord h r
  | .node n r => st.putNode n r
  | .cell f s c => st.putCell f s c
  | .queueEntry p e => if p < st.queue.length then { st with queue := st.queue.set p e } else st

/-- ITEM_DAMAGED: nothing is observed until an operation reads the item (R188). -/
def execItemDamaged (d : Damage) (s : State) : Host.Outcome State Fault Refusal :=
  if d.wellFormed then .next { s with store := s.store.damaged d } else .next s

end Sys2Proof.Machine
end

