-- ==== Sys2Proof/Machine/Dispatch.lean ====
section
/-! DEFINITION. One arm for each command: each calls its own meaning. -/

namespace Sys2Proof.Machine

/-- The effect of a command on everything but the queue. -/
def exec (i : Instr) (s : State) : Host.Outcome State Fault Refusal :=
  match i with
  | .deviceReset => Sys2Proof.Machine.execDeviceReset s
  | .slotStart => Sys2Proof.Machine.execSlotStart s
  | .firstFrameStart => Sys2Proof.Machine.execFirstFrameStart s
  | .linkFrameArrival link frame => Sys2Proof.Machine.execLinkFrameArrival link frame s
  | .partialFrameTimeout link => Sys2Proof.Machine.execPartialFrameTimeout link s
  | .lineBreakBegin link => Sys2Proof.Machine.execLineBreakBegin link s
  | .lineBreakEnd link => Sys2Proof.Machine.execLineBreakEnd link s
  | .responseSent link => Sys2Proof.Machine.execResponseSent link s
  | .claim link => Sys2Proof.Machine.execClaim link s
  | .renew link => Sys2Proof.Machine.execRenew link s
  | .release link => Sys2Proof.Machine.execRelease link s
  | .sublet link => Sys2Proof.Machine.execSublet link s
  | .recall link => Sys2Proof.Machine.execRecall link s
  | .join link => Sys2Proof.Machine.execJoin link s
  | .leave link => Sys2Proof.Machine.execLeave link s
  | .poll link => Sys2Proof.Machine.execPoll link s
  | .query link => Sys2Proof.Machine.execQuery link s
  | .status link => Sys2Proof.Machine.execStatus link s
  | .sweep => Sys2Proof.Machine.execSweep s
  | .closeAgeFree handle => Sys2Proof.Machine.execCloseAgeFree handle s
  | .idleReclaim handle => Sys2Proof.Machine.execIdleReclaim handle s
  | .termExpiry handle => Sys2Proof.Machine.execTermExpiry handle s
  | .drainCompletion => Sys2Proof.Machine.execDrainCompletion s
  | .waitOver handle => Sys2Proof.Machine.execWaitOver handle s
  | .sweepWithdrawn => Sys2Proof.Machine.execSweepWithdrawn s
  | .planBuild => Sys2Proof.Machine.execPlanBuild s
  | .fold => Sys2Proof.Machine.execFold s
  | .strike => Sys2Proof.Machine.execStrike s
  | .barring node => Sys2Proof.Machine.execBarring node s
  | .quarantine => Sys2Proof.Machine.execQuarantine s
  | .initClearStep => Sys2Proof.Machine.execInitClearStep s
  | .auditStep => Sys2Proof.Machine.execAuditStep s
  | .auditInconclusive => Sys2Proof.Machine.execAuditInconclusive s
  | .place => Sys2Proof.Machine.execPlace s
  | .setframe => Sys2Proof.Machine.execSetframe s
  | .fence => Sys2Proof.Machine.execFence s
  | .amend => Sys2Proof.Machine.execAmend s
  | .revoke => Sys2Proof.Machine.execRevoke s
  | .suspend => Sys2Proof.Machine.execSuspend s
  | .resume => Sys2Proof.Machine.execResume s
  | .discard => Sys2Proof.Machine.execDiscard s
  | .fetch => Sys2Proof.Machine.execFetch s
  | .fetchq => Sys2Proof.Machine.execFetchq s
  | .bar => Sys2Proof.Machine.execBar s
  | .unbar => Sys2Proof.Machine.execUnbar s
  | .setnode => Sys2Proof.Machine.execSetnode s
  | .fetchnode => Sys2Proof.Machine.execFetchnode s
  | .start => Sys2Proof.Machine.execStart s
  | .stop => Sys2Proof.Machine.execStop s
  | .thaw => Sys2Proof.Machine.execThaw s
  | .cleartable => Sys2Proof.Machine.execCleartable s
  | .audit => Sys2Proof.Machine.execAudit s
  | .unknownCommand => Sys2Proof.Machine.execUnknownCommand s
  | .eventFlagClear value => Sys2Proof.Machine.execEventFlagClear value s
  | .enableMaskWrite value => Sys2Proof.Machine.execEnableMaskWrite value s
  | .writeIgnoredClear value => Sys2Proof.Machine.execWriteIgnoredClear value s
  | .configurationWrite word value => Sys2Proof.Machine.execConfigurationWrite word value s
  | .violationClear value => Sys2Proof.Machine.execViolationClear value s
  | .integrityClear value => Sys2Proof.Machine.execIntegrityClear value s
  | .registerWrite address value => Sys2Proof.Machine.execRegisterWrite address value s
  | .commandWordWrite value => Sys2Proof.Machine.execCommandWordWrite value s
  | .talkSenseCodePresented code => Sys2Proof.Machine.execTalkSenseCodePresented code s
  | .linkByteReceived link byte => Sys2Proof.Machine.execLinkByteReceived link byte s
  | .resetRelease => Sys2Proof.Machine.execResetRelease s
  | .itemDamaged damage => Sys2Proof.Machine.execItemDamaged damage s

end Sys2Proof.Machine
end

