-- ==== Sys2Proof/Machine/Idle.lean ====
section
/-! DEFINITION. What the part does when no command is waiting: the engine takes its next request, or one CLK period passes (log 4). -/

namespace Sys2Proof.Machine

/-- The row that performs a command of a code (R180). -/
def commandRow (c : Command) : Instr :=
  match c.name? with
  | some .place => .place
  | some .setframe => .setframe
  | some .fence => .fence
  | some .amend => .amend
  | some .revoke => .revoke
  | some .suspend => .suspend
  | some .resume => .resume
  | some .discard => .discard
  | some .fetch => .fetch
  | some .fetchq => .fetchq
  | some .bar => .bar
  | some .unbar => .unbar
  | some .setnode => .setnode
  | some .fetchnode => .fetchnode
  | some .start => .start
  | some .stop => .stop
  | some .thaw => .thaw
  | some .cleartable => .cleartable
  | some .audit => .audit
  | none => .unknownCommand

/-- The row that performs a node request on a link (R201). -/
def requestRow (n : Node) (r : Request) : Instr :=
  match r with
  | .claim _ => .claim n
  | .renew _ _ => .renew n
  | .release _ => .release n
  | .sublet _ _ _ _ => .sublet n
  | .recall _ => .recall n
  | .join => .join n
  | .leave => .leave n
  | .poll => .poll n
  | .query _ => .query n
  | .status => .status n

/-- The row that performs what the engine takes. -/
def takingRow (t : Taking) : Instr :=
  match t with
  | .quarantine _ => .quarantine
  | .sweep _ => .sweep
  | .planBuild _ => .planBuild
  | .fold _ => .fold
  | .strike _ => .strike
  | .command c => commandRow c
  | .request n p => requestRow n p.request
  | .auditStep => .auditStep
  | .clearStep _ => .initClearStep

/-- The row the engine performs next: the operation in progress goes on, or the next request is taken (R90). -/
def engineRow (e : Engine) : Option Instr :=
  match e.inProgress with
  | some (.sweep _) => some .sweep
  | some (.strike _) => some .strike
  | some (.taken t _) => some (takingRow t)
  | none => e.highestPlace.map takingRow

/-- A step with no command waiting: the engine completes what is pending or in progress before another CLK period passes, so that a tick of the timer finds its work done, as R111 has it (log 4, log 22). -/
def idleStep (s : State) : Host.Outcome State Fault Refusal :=
  match engineRow s.engine with
  | some i => exec i s
  | none => .next s.clkPeriod

end Sys2Proof.Machine
end

