-- ==== Sys2Proof/Safety.lean ====
section
/-! DEFINITION. The invariants of the part and the conditions that statements about it use. -/

namespace Sys2Proof.Machine

/-! Invariants. -/

/-- While a clear runs, what the engine has in progress is a clear step, a command or a node request that has been taken. -/
def InProgress.besideClear : InProgress → Bool
  | .taken (.clearStep _) _ | .taken (.command _) _ | .taken (.request _ _) _ => true
  | .taken (.quarantine _) _ | .taken (.sweep _) _ | .taken (.planBuild _) _ | .taken (.fold _) _
  | .taken (.strike _) _ | .taken .auditStep _ | .sweep _ | .strike _ => false

/-- The commands that act at their taking: none of them is in progress (R181, R186). -/
def CommandName.actsAtTaking : CommandName → Bool
  | .start | .stop | .thaw | .cleartable | .audit => true
  | .place | .setframe | .fence | .amend | .revoke | .suspend | .resume | .discard | .fetch | .fetchq | .bar | .unbar
  | .setnode | .fetchnode => false

/-- Whether a command acts at its taking, by the name its code gives. -/
def Command.actsAtTaking (c : Command) : Bool :=
  match c.name? with
  | some name => name.actsAtTaking
  | none => false

/-- The device state, the sequencer, the monitor and the grant lines agree (R113, R116, R124, R130, R183; Law 9). -/
structure State.Consistent (s : State) : Prop where
  /-- The sequencer is STOPPED exactly in INIT and CONFIG (R113). -/
  stopped : s.seq.state = .stopped ↔ s.control.device = .init ∨ s.control.device = .config
  /-- A clear runs in INIT only (R109). -/
  clearing : s.engine.clearStep.isSome = true → s.control.device = .init
  /-- While a clear runs, nothing pending or in progress at the engine could write the store beside it (R109, R112, R186). -/
  alone : s.engine.clearStep.isSome = true →
    s.engine.quarantine = none ∧ s.engine.sweep = none ∧ s.engine.build = none ∧ s.engine.fold = none ∧
      (∀ n : Node, s.engine.strikes[n] = 0) ∧ s.engine.auditStep = false ∧
      ∀ p, s.engine.inProgress = some p → p.besideClear = true
  /-- A clear step or an audit step that has been taken is the pending one (log 38). -/
  steps : ∀ t k, s.engine.inProgress = some (.taken t k) →
    (∀ p, t = .clearStep p → s.engine.clearStep = some p) ∧ (t = .auditStep → s.engine.auditStep = true)
  /-- An operation that has been taken found the present device state, or the one that a stop has ended since (log 38). -/
  found : ∀ t k, s.engine.inProgress = some (.taken t k) →
    k.device = s.control.device ∨ (s.control.device = .config ∧ (k.device = .run ∨ k.device = .frozen))
  /-- No command that acts at its taking is in progress (R181, R186). -/
  lasting : ∀ c k, s.engine.inProgress = some (.taken (.command c) k) → c.actsAtTaking = false
  /-- An audit step is pending only while an audit runs (R110). -/
  auditing : s.engine.auditStep = true → s.engine.audit.running = true
  /-- The monitor is active in RUN alone, with the sequencer RUNNING or STOPPING (R130). -/
  active : s.monitor.active = true → s.control.device = .run ∧ (s.seq.state = .running ∨ s.seq.state = .stopping)
  /-- An inactive monitor has heard nothing (R130). -/
  inactive : s.monitor.active = false → s.monitor.talked = [] ∧ s.monitor.talk = .silent
  /-- The plan-ready mark is set exactly while a next plan is held (R118, R119). -/
  ready : s.seq.planReady = s.seq.next.isSome
  /-- Outside RUN there is no next plan, and the current plan is all-NONE (R122 to R124). -/
  outsideRun : s.control.device ≠ .run → s.seq.next = none ∧ s.seq.current = allNonePlan
  /-- PRIMING waits at slot 0 of frame 0 with an all-NONE plan (R121). -/
  priming : s.seq.state = .priming → s.seq.slot = 0 ∧ s.seq.frame = 0 ∧ s.seq.current = allNonePlan
  /-- STOPPED and PRIMING drive the idle word (R116). -/
  idle : s.seq.state = .stopped ∨ s.seq.state = .priming → s.seq.grantLines = idleWord
  /-- The grant lines name a node only in RUN, as the current plan's grantee for the slot (Law 9). -/
  lawNine : ∀ n, s.seq.grantLines.grantee = some n →
    s.control.device = .run ∧ (s.seq.current[s.seq.slot]).map Grant.node = some n

/-- The counts and values of the store, the configuration, the engine and the audit lie in the ranges the rules give them. A node's live owned count is State.ChainsAgree's. -/
structure State.InRange (s : State) : Prop where
  /-- The claim queue holds at most sixteen entries (R46). -/
  queue : s.store.queue.length ≤ 16
  /-- Width, rank, term, wait limit, wait age, depth, number of children, close age and idle count of every record (R1). -/
  records : ∀ h, (s.store.record h).inRange = true
  /-- Quota, rank ceiling and strike count of every node: the quota of a good record is at most 16, and a damaged one's may stand above it within its five bits (R155, R185). -/
  nodes : ∀ n, ((s.store.node n).check = 0 → (s.store.node n).quota ≤ 16) ∧ (s.store.node n).quota ≤ 31 ∧
    (s.store.node n).rankCeiling ≤ 3 ∧ (s.store.node n).strikes ≤ 7
  /-- The configuration values (R179). -/
  slotLength : 24 ≤ s.control.slotLength ∧ s.control.slotLength ≤ 4095
  warning : s.control.warningThreshold ≤ 15
  idleLimit : s.control.idleLimit ≤ 15
  strikeLimit : 1 ≤ s.control.strikeLimit ∧ s.control.strikeLimit ≤ 7
  reinstatement : 1 ≤ s.control.reinstatementWait ∧ s.control.reinstatementWait ≤ 255
  /-- The reinstatement wait that a taken operation found lies in that range too (R179). -/
  found : ∀ t k, s.engine.inProgress = some (.taken t k) → 1 ≤ k.reinstatementWait ∧ k.reinstatementWait ≤ 255
  /-- The frame length and the fence (R31, R33, R45). -/
  frame : 8 ≤ s.store.frameLength ∧ s.store.frameLength ≤ 64 ∧ s.store.fence ≤ 64
  /-- The slot length that governs the present slot (R114). -/
  timer : 24 ≤ s.seq.timerLength ∧ s.seq.timerLength ≤ 4095
  /-- Pending strikes stop at 7 (R99). -/
  strikes : ∀ n : Node, s.engine.strikes[n] ≤ 7
  /-- A sweep, pending or taken, has been abandoned at most three times (R102). -/
  sweep : ∀ k, s.engine.sweep = some k → k ≤ 3
  taken : ∀ k c, s.engine.inProgress = some (.taken (.sweep k) c) → k ≤ 3
  /-- The clear makes steps 1 to 125 (R185). -/
  clear : ∀ p, s.engine.clearStep = some p → 1 ≤ p.step ∧ p.step ≤ 125
  /-- The audit progress (R197). -/
  audit : s.engine.audit.position ≤ 111 ∧ s.engine.audit.restarts ≤ 3 ∧ s.engine.audit.mismatches ≤ 255

/-- What the port and the links hold in flight is what the engine has pending, and the other way round (R149, R170, R172; Law 11). -/
structure State.SlotsMatch (s : State) : Prop where
  /-- A command is pending at the port only behind one in flight. -/
  waiting : s.port.waiting.isSome = true → s.port.inFlight.isSome = true
  /-- The engine's pending command is the one in flight. -/
  command : ∀ c, s.engine.command = some c → s.port.inFlight = some c
  /-- The command in flight is the engine's pending one, or CLEARTABLE's while its clear runs. -/
  inFlight : ∀ c, s.port.inFlight = some c →
    s.engine.command = some c ∨ ∃ p, s.engine.clearStep = some p ∧ p.keep = true
  /-- During CLEARTABLE's clear that command stays in flight and none is pending at the engine (R181). -/
  clearing : ∀ p, s.engine.clearStep = some p → p.keep = true →
    s.engine.command = none ∧ ∃ c, s.port.inFlight = some c ∧ c.code = 0x12
  /-- A link's pending request carries the link's in-flight number. -/
  requests : ∀ (n : Node) (p : Posted), s.engine.requests[n] = some p → s.links[n].inFlight = some p.seq
  /-- A number in flight on a link is that of the link's pending request. -/
  numbers : ∀ (n : Node) (q : SeqNo), s.links[n].inFlight = some q → ∃ p, s.engine.requests[n] = some p ∧ p.seq = q
  /-- A command or a node request that has been taken keeps its place until it is performed (log 38). -/
  taken : ∀ t k, s.engine.inProgress = some (.taken t k) →
    (∀ c, t = .command c → s.engine.command = some c) ∧ (∀ n p, t = .request n p → s.engine.requests[n] = some p)

/-- Every attention line follows the notice sets (Law 10). -/
abbrev State.LawTen (s : State) : Prop := ∀ n : Node, s.links[n].attention = s.store.hasNoticeFor n

/-! Invariants of the Lease Store. They hold over an undamaged store, and where the INIT clear has not emptied it in part. -/

/-- No item of the store is damaged. -/
abbrev Store.AllGood (st : Store) : Prop :=
  (∀ h, (st.record h).check = 0) ∧ (∀ n, (st.node n).check = 0) ∧ (∀ f sl, (st.cell f sl).parityOk = true) ∧
    ∀ e ∈ st.queue, e.parityOk = true

/-- The next command in the queue is no ITEM_DAMAGED. -/
abbrev State.NoDamageNext (s : State) : Prop := ∀ d, s.pending.head? ≠ some (.itemDamaged d)

/-- The part of the store that a running clear has reached holds what its steps write (R185). -/
structure State.ClearedSoFar (s : State) : Prop where
  records : ∀ p, s.engine.clearStep = some p → ∀ h : Handle, h.val + 13 < p.step →
    s.store.record h = LeaseRecord.cleared (s.store.record h).generation
  nodes : ∀ p, s.engine.clearStep = some p → ∀ n : Node, n.val + 1 < p.step → (s.store.node n).liveOwned = 0
  cells : ∀ p, s.engine.clearStep = some p → ∀ (f : Frame) (sl : Slot), f.val + 109 < p.step →
    s.store.cell f sl = ⟨none, true⟩

/-- What the invariants of the store share: no item is damaged, a running clear has written what it reached, only a SUSPENDED record has suspension reasons (R23, R141), only roots are WAITING or DISPLACED (R46), a root's grantee is its owner (R1), and a cell names only an occupying root (R28). -/
structure State.StoreSound (s : State) : Prop where
  good : s.store.AllGood
  cleared : s.ClearedSoFar
  reasons : ∀ h, (s.store.record h).reasons.isEmpty = false → (s.store.record h).state = .suspended
  roots : ∀ h, (s.store.record h).state.isQueued = true → (s.store.record h).kind = .root
  grantees : ∀ h, (s.store.record h).kind = .root → (s.store.record h).grantee = (s.store.record h).owner
  named : s.engine.clearStep = none → ∀ f sl h, (s.store.cell f sl).names = some h →
    (s.store.record h).isOccupyingRoot = true

/-- The slot map names exactly the occupying roots, each within S, and below the fence protected ones only (Laws 1 and 2). -/
structure State.CellsAgree (s : State) : Prop extends s.StoreSound where
  lawOne : s.engine.clearStep = none → ∀ f sl h,
    (s.store.cell f sl).names = some h ↔
      ((s.store.record h).isOccupyingRoot = true ∧ (s.store.record h).covers f sl = true)
  withinFrame : s.engine.clearStep = none → ∀ h a, (s.store.record h).isOccupyingRoot = true →
    (s.store.record h).firstSlot = some a → a.val + (s.store.record h).width ≤ s.store.frameLength
  lawTwo : s.engine.clearStep = none → ∀ f (sl : Slot) h, (s.store.cell f sl).names = some h →
    sl.val < s.store.fence → (s.store.record h).isProtected = true

/-- The claim queue holds at most sixteen entries, exactly the WAITING and DISPLACED records, each once; exactly these have a wait limit and a wait age (Law 3). -/
structure State.QueueAgrees (s : State) : Prop extends s.StoreSound where
  length : s.engine.clearStep = none → s.store.queue.length ≤ 16
  once : s.engine.clearStep = none → (s.store.queue.map QueueEntry.handle).Nodup
  lawThree : s.engine.clearStep = none → ∀ h,
    h ∈ s.store.queue.map QueueEntry.handle ↔
      ((s.store.record h).state = .waiting ∨ (s.store.record h).state = .displaced)
  waits : s.engine.clearStep = none → ∀ h,
    (s.store.record h).waitLimit.isSome = (s.store.record h).state.isQueued ∧
      (s.store.record h).waitAge.isSome = (s.store.record h).state.isQueued

/-- A child as R70 makes it and Laws 4 and 5 keep it: below an occupying root or a live child, one level deeper, within its parent's frames, over its slots, owned by its grantee. -/
structure IsChildOf (c parent : LeaseRecord) : Prop where
  lawFive : parent.state.isOccupying = true
  depth : c.depth = parent.depth + 1 ∧ c.depth ≤ 2
  frames : c.frameSet &&& ~~~parent.frameSet = 0
  slots : c.firstSlot = parent.firstSlot ∧ c.width = parent.width
  owner : c.owner = parent.grantee

/-- The sublet chains and the counts: each children list holds exactly the live records whose parent it is, siblings with disjoint frames (R69, Laws 4 and 5); each live owned count is the number of live records owned (R7); a live record of term 0 is protected (Law 7). -/
structure State.ChainsAgree (s : State) : Prop extends s.StoreSound where
  listed : s.engine.clearStep = none → ∀ p c,
    c ∈ (s.store.record p).children ↔ ((s.store.record c).state.isLive = true ∧ (s.store.record c).parent = some p)
  once : s.engine.clearStep = none → ∀ p, (s.store.record p).children.Nodup ∧ (s.store.record p).children.length ≤ 4
  disjoint : s.engine.clearStep = none → ∀ p, ∀ c ∈ (s.store.record p).children, ∀ d ∈ (s.store.record p).children,
    c ≠ d → (s.store.record c).frameSet &&& (s.store.record d).frameSet = 0
  root : s.engine.clearStep = none → ∀ h, (s.store.record h).state.isLive = true → (s.store.record h).kind = .root →
    (s.store.record h).parent = none ∧ (s.store.record h).depth = 0
  child : s.engine.clearStep = none → ∀ h, (s.store.record h).state.isLive = true → (s.store.record h).kind = .child →
    ∃ p, (s.store.record h).parent = some p ∧ IsChildOf (s.store.record h) (s.store.record p)
  counts : s.engine.clearStep = none → ∀ n, (s.store.node n).liveOwned = s.store.liveOwnedBy n
  lawSeven : s.engine.clearStep = none → ∀ h, (s.store.record h).state.isLive = true → (s.store.record h).term = 0 →
    (s.store.record h).isProtected = true

/-- An ABSENT node owns no live record, is the grantee of none, and has no notice addressed to it (Law 8, R8, R161). -/
structure State.AbsentAgrees (s : State) : Prop extends s.StoreSound where
  lawEight : s.engine.clearStep = none → ∀ n h, (s.store.node n).state = .absent →
    (s.store.record h).state.isLive = true → (s.store.record h).owner ≠ n ∧ (s.store.record h).grantee ≠ n
  silent : s.engine.clearStep = none → ∀ n, (s.store.node n).state = .absent → s.store.hasNoticeFor n = false

/-- The store whose notices the attention lines follow: while a sweep or a strike operation is within its visits, the one it began from (R93). -/
def State.noticeBase (s : State) : Store :=
  match s.engine.inProgress with
  | some (.sweep p) => p.before
  | some (.strike p) => p.before
  | some (.taken _ _) | none => s.store

/-- Law 10 as every step keeps it: each attention line follows the notice sets, and until the clear that follows device reset has ended every line is negated (R154, R166). -/
structure State.AttentionAgrees (s : State) : Prop where
  cleared : s.ClearedSoFar
  lawTen : (∀ p, s.engine.clearStep = some p → p.keep = true) →
    ∀ n : Node, s.links[n].attention = s.noticeBase.hasNoticeFor n
  low : ∀ p, s.engine.clearStep = some p → p.keep = false → ∀ n : Node, s.links[n].attention = false

/-! Conditions used by statements. -/

/-- The engine has taken what is due: an operation is in progress, or nothing is pending (R90; log 38). -/
abbrev State.Engaged (s : State) : Prop := s.engine.inProgress.isSome = true ∨ s.engine.isIdle = true

/-- Whether a request that the engine takes now stays in progress: no fold without tags, no sweep outside RUN (R103), no command that acts at its taking (R181), no command or node request that the device state refuses (R45, R108, R180), and no audit step that ends INCONCLUSIVE (R199). -/
def State.lasts (s : State) (t : Taking) : Bool :=
  match t with
  | .fold tags => decide (tags ≠ [])
  | .sweep _ => decide (s.control.device = .run) && decide (s.seq.state = .running ∨ s.seq.state = .stopping)
  | .command c =>
    !c.actsAtTaking && decide (s.control.device ≠ .init) && decide (c.code = 0x02 → s.control.device = .config)
  | .request _ p => decide (State.deviceRefusal s.control.device p.request = none)
  | .auditStep => !(s.engine.audit.disturbed && decide (3 ≤ s.engine.audit.restarts))
  | .quarantine _ | .planBuild _ | .strike _ | .clearStep _ => true

/-- The cell (f, sl) lies in a rectangle of the slot map (R28). -/
abbrev Covered (frames : FrameSet) (first width : Nat) (f : Frame) (sl : Slot) : Prop :=
  frames.getLsbD f.val = true ∧ first ≤ sl.val ∧ sl.val < first + width

/-- A node whose record is good and JOINED. -/
abbrev Store.Joined (st : Store) (n : Node) : Prop := (st.node n).check = 0 ∧ (st.node n).state = .joined

/-- A tag names a good record that is neither FREE nor CORRUPT (R4). -/
abbrev Store.Names (st : Store) (t : RawTag) (h : Handle) : Prop :=
  t.handle.toNat = h.val ∧ (st.record h).check = 0 ∧ (st.record h).generation = t.generation ∧
    (st.record h).state ≠ .free ∧ (st.record h).state ≠ .corrupt

/-- The lowest FREE record, and it is good (R6). -/
abbrev Store.NextFree (st : Store) (h : Handle) : Prop :=
  (st.record h).state = .free ∧ (st.record h).check = 0 ∧ ∀ k : Handle, k < h → (st.record k).state ≠ .free

/-- The term bound of a child: its parent is good and its term, unless 0, is not exceeded (R82). -/
abbrev Store.TermAllowed (st : Store) (r : LeaseRecord) (term : Nat) : Prop :=
  r.kind = .child → ∀ p, r.parent = some p →
    (st.record p).check = 0 ∧ ((st.record p).term = 0 ∨ term ≤ (st.record p).term)

/-- Every item of the list has a good check. -/
abbrev Store.Good (st : Store) (items : List Item) : Prop := ∀ i ∈ items, st.fails i = false

/-- Two stores agree on everything but lease records. -/
abbrev Store.SameButRecords (st st' : Store) : Prop :=
  st'.nodes = st.nodes ∧ st'.cells = st.cells ∧ st'.queue = st.queue ∧ st'.fence = st.fence ∧
    st'.frameLength = st.frameLength

/-- Every live record in which the node is owner or a child's grantee is SUSPENDED with the barred reasons of R141. -/
abbrev Store.HoldsBack (st : Store) (n : Node) : Prop :=
  ∀ k, (st.record k).state.isLive = true →
    ((st.record k).owner = n → (st.record k).state = .suspended ∧ (st.record k).reasons.ownerBarred = true) ∧
    ((st.record k).kind = .child → (st.record k).grantee = n →
      (st.record k).state = .suspended ∧ (st.record k).reasons.granteeBarred = true)

/-- A node's role in a record: its owner, or a child's grantee (R14, R141). -/
abbrev HasRole (r : LeaseRecord) (n : Node) : Prop := r.owner = n ∨ (r.kind = .child ∧ r.grantee = n)

/-- A record with its children list replaced: what a closing of one of its children changes in it (R9). -/
abbrev withChildren (r : LeaseRecord) (children : List Handle) : LeaseRecord := { r with children := children }

/-- A record with a notice kind posted to its owner and, for a child, to its grantee, unless the node is ABSENT (R8). -/
def Store.posted (st : Store) (r : LeaseRecord) (k : NoticeKind) : LeaseRecord :=
  { r with
    ownerNotices := if (st.node r.owner).state = .absent then r.ownerNotices else r.ownerNotices ||| k.bit
    granteeNotices :=
      if r.kind = .root ∨ (st.node r.grantee).state = .absent then r.granteeNotices else r.granteeNotices ||| k.bit }

/-- A record closed with a reason in place, as R9 and R192 leave it: CLOSED and kept for its notices, or FREE again where it has none to tell (R11). -/
abbrev ClosedAs (r : LeaseRecord) (why : CloseReason) (generation : BitVec 8) : Prop :=
  (r.state = .closed ∧ r.closeReason = some why) ∨ r = LeaseRecord.cleared generation

/-- Queued records stand apart from the sublet chains, in good records' lists at least (Laws 3 to 5). -/
abbrev Store.QueueApart (st : Store) : Prop :=
  ∀ k, (st.record k).state.isQueued = true → (st.record k).parent = none ∧ (st.record k).children = [] ∧
    ∀ p, (st.record p).check = 0 → k ∉ (st.record p).children

/-- The record h takes the frame f of a granting record k: it is listed under k and holds the frame (R75). -/
abbrev Store.Holds (st : Store) (k h : Handle) (f : Frame) : Prop :=
  h ∈ (st.record k).children ∧ (st.record h).frameSet.getLsbD f.val = true ∧
    ∀ c ∈ (st.record k).children, (st.record c).frameSet.getLsbD f.val = true → c = h

/-- No record listed under k holds the frame f (R75). -/
abbrev Store.NoneHolds (st : Store) (k : Handle) (f : Frame) : Prop :=
  ∀ c ∈ (st.record k).children, (st.record c).frameSet.getLsbD f.val = false

/-- A fold credits the record h for a tag: the tag's record has that generation and is HELD or DRAINING, and h is it or one of its ancestors (R85). -/
abbrev Store.CreditedBy (st : Store) (h : Handle) (t : Tag) : Prop :=
  (st.record t.handle).generation = t.generation ∧
    ((st.record t.handle).state = .held ∨ (st.record t.handle).state = .draining) ∧
    (h = t.handle ∨ (st.record t.handle).parent = some h ∨
      ∃ p, (st.record t.handle).parent = some p ∧ (st.record p).parent = some h)

/-- The checks of R37 that a CLAIM passes, with the record it will use. -/
structure ClaimPasses (s : State) (n : Node) (a : ClaimArgs) (h : Handle) : Prop where
  device : s.atTaking.device = .run
  node : s.store.Joined n
  width : 1 ≤ a.width.toNat ∧ a.width.toNat ≤ 16
  frames : a.frames ≠ 0
  term : 1 ≤ a.term.toNat ∧ a.term.toNat ≤ 4095
  rank : a.rank.toNat ≤ 3 ∧ a.rank.toNat ≤ (s.store.node n).rankCeiling
  quota : (s.store.node n).liveOwned < (s.store.node n).quota
  record : s.store.NextFree h

/-- The record a claim makes, before its state and wait fields (R39, R50). -/
def claimedContents (st : Store) (n : Node) (a : ClaimArgs) (h : Handle) : LeaseRecord :=
  { LeaseRecord.cleared ((st.record h).generation + 1) with
    owner := n, grantee := n, width := a.width.toNat, frameSet := a.frames, rank := a.rank.toNat,
    yields := a.yields, term := a.term.toNat }

/-- Bytes received one after another on a link (R147). -/
def receiveAll (n : Node) : List Byte → State → Host.Outcome State Fault Refusal
  | [], s => .next s
  | b :: rest, s =>
    match exec (.linkByteReceived n b) s with
    | .next t => receiveAll n rest t
    | .fault r => .fault r
    | .refused r => .refused r

end Sys2Proof.Machine
end

