-- ==== Sys2Proof/Certificates/Slice0/Obligations.lean ====
section
/-! DEFINITION. The statements for the provers, chapter by chapter. -/

open Sys2Proof Sys2Proof.Machine

/-! The step, the engine's taking, reset and the clear. -/

/-- A step runs the command at the front of the queue with the queue's rest. -/
def Obligations.StepRunsFrontCommand : Prop :=
  ∀ (c : Instr) (rest : List Instr) (s : State),
    step { s with pending := c :: rest } = exec c { s with pending := rest }

/-- With no command waiting the engine goes on with its operation or takes its next request, and otherwise one CLK period passes: the model's choice (log 4). That no period counts while RESET is asserted, so that nothing changes then, is the model's reading (log 27). So a period passes, and the timer ticks, only with nothing pending and nothing in progress at the engine, as R111 has it of a frame start. -/
def Obligations.StepOnEmptyQueue : Prop :=
  ∀ s : State, s.pending = [] →
    (engineRow s.engine = none ↔ s.engine.isIdle = true) ∧
    (∀ i, engineRow s.engine = some i → step s = exec i s) ∧
    (engineRow s.engine = none →
      step s = .next (if s.resetAsserted then s
        else if s.seq.timerCount + 1 < s.seq.timerLength then
          { s with seq := { s.seq with timerCount := s.seq.timerCount + 1 } }
        else s.tick))

/-- Every command answers a next state and leaves the queue alone: nothing stops the model (log 35). -/
def Obligations.ExecAnswersNextAndKeepsQueue : Prop :=
  ∀ (i : Instr) (s : State), ∃ t, exec i s = .next t ∧ t.pending = s.pending

/-- The engine takes the pending request of the highest place of R90, and among node requests the first in the chain of R91; with an operation in progress it takes none. A taken operation keeps what it found at its taking: the device state, the sequencer's state and superframe count, and the configuration values (R103, R108, R162, R179). It is in progress, out of the pending set, so that a later posting does not overtake it; a command, a node request, an audit step and a clear step keep their slot until they are performed, since no other of their kind is posted meanwhile. Done at once at the taking, the next request being taken behind them, are a fold without tags, a command that acts at its taking (R181), a node request or a command that the device state refuses, with its refusal (R45, R108, R158, R180), a sweep outside RUN, dropped with SWEEP-SKIPPED (R103), and an audit step that ends INCONCLUSIVE (R199); what each does is its own row's statement. An engine that is not busy takes what is due before an event from outside can meet it: a tick, a line break, the end of a sending, and a write of the command word, the event flags, the write window or a configuration value find it taken (R90), as a good frame and a read do (FrameArrivalActsByRow, RegisterWindowReads), and so the 5.10 order holds. When the model records the taking is its own choice (log 38). -/
def Obligations.EngineTakesByPlaceAndChain : Prop :=
  (∀ e : Engine,
    (∀ t k, e.inProgress = some (.taken t k) → e.taking = some t) ∧
    (∀ p, e.inProgress = some (.sweep p) ∨ (∃ q, e.inProgress = some (.strike q)) → e.taking = none) ∧
    (e.inProgress = none →
      (∀ q, e.quarantine = some q → e.taking = some (.quarantine q)) ∧
      (e.quarantine = none →
        (∀ k, e.sweep = some k → e.taking = some (.sweep k)) ∧
        (e.sweep = none →
          (∀ b, e.build = some b → e.taking = some (.planBuild b)) ∧
          (e.build = none →
            (∀ f, e.fold = some f → e.taking = some (.fold f)) ∧
            (e.fold = none →
              ((∃ n : Node, 0 < e.strikes[n]) → ∃ todo, e.taking = some (.strike todo) ∧
                todo.map Prod.fst = allNodes.filter (fun n : Node => decide (0 < e.strikes[n])) ∧
                ∀ t ∈ todo, t.2 = e.strikes[t.1]) ∧
              ((∀ n : Node, e.strikes[n] = 0) →
                (∀ c, e.command = some c → e.taking = some (.command c)) ∧
                (e.command = none →
                  (∀ (n : Node) (p : Posted), e.requests[n] = some p →
                    (∀ m : Node, (m - e.highest).val < (n - e.highest).val → e.requests[m] = none) →
                    e.taking = some (.request n p)) ∧
                  ((∀ n : Node, e.requests[n] = none) →
                    (e.auditStep = true → e.taking = some .auditStep) ∧
                    (e.auditStep = false →
                      (∀ p, e.clearStep = some p → e.taking = some (.clearStep p)) ∧
                      (e.clearStep = none → e.taking = none)))))))))) ∧
    (∀ q, e.without (.quarantine q) = { e with quarantine := none }) ∧
    (∀ k, e.without (.sweep k) = { e with sweep := none }) ∧
    (∀ b, e.without (.planBuild b) = { e with build := none }) ∧
    (∀ f, e.without (.fold f) = { e with fold := none }) ∧
    (∀ todo, e.without (.strike todo) = { e with strikes := Vector.replicate 12 0 }) ∧
    (∀ c, e.without (.command c) = e) ∧ (∀ n p, e.without (.request n p) = e) ∧ e.without .auditStep = e ∧
    (∀ p, e.without (.clearStep p) = e)) ∧
  (∀ s : State,
    (∀ t k, s.engine.inProgress = some (.taken t k) → s.atTaking = k ∧
      ∀ u, s.take u = { s with engine := { s.engine with inProgress := none } }) ∧
    (s.engine.inProgress = none →
      s.atTaking = ⟨s.control.device, s.seq.state, s.seq.superframe, s.control.integrityMode, s.control.warningThreshold,
        s.control.idleLimit, s.control.strikeLimit, s.control.reinstatementWait⟩ ∧
      ∀ u, s.take u = { s with engine := s.engine.without u }) ∧
    s.engage.Engaged ∧ (s.Engaged → s.engage = s) ∧
    (∀ t, s.engine.inProgress = none → s.engine.taking = some t →
      (s.lasts t = true → s.engage =
        { s with engine := { s.engine.without t with inProgress := some (.taken t s.atTaking) } }) ∧
      (s.lasts t = false → ∃ u, exec (takingRow t) s = .next u ∧ s.engage = u.engage)) ∧
    (∀ (n : Node) (p : Posted) (code : ResultCode), s.engine.inProgress = none →
      s.engine.taking = some (.request n p) → State.deviceRefusal s.control.device p.request = some code →
      s.engage = ((s.takeRequest n).answer n p code .none).engage) ∧
    (∀ c : Command, s.engine.inProgress = none → s.engine.taking = some (.command c) →
      (s.control.device = .init →
        s.engage = (s.takeCommand.completeCommand c .notReady c.namedField none).engage) ∧
      (c.code = 0x02 → s.control.device = .run ∨ s.control.device = .frozen →
        s.engage = (s.takeCommand.completeCommand c .notConfig 0 none).engage)) ∧
    (∀ i ∈ [Instr.firstFrameStart] ++ allNodes.map .lineBreakBegin ++ allNodes.map .lineBreakEnd ++
      allNodes.map .responseSent, exec i s = exec i s.engage) ∧
    (s.resetAsserted = false →
      exec .slotStart s = exec .slotStart s.engage ∧
      (∀ w v, exec (.configurationWrite w v) s = exec (.configurationWrite w v) s.engage) ∧
      ∀ v, exec (.eventFlagClear v) s = exec (.eventFlagClear v) s.engage ∧
        exec (.commandWordWrite v) s = exec (.commandWordWrite v) s.engage ∧
        ∀ a ∈ [0x20, 0x21, 0x22, 0x23, 0x24].map (BitVec.ofNat 6),
          exec (.registerWrite a v) s = exec (.registerWrite a v) s.engage))

/-- The state right after reset: the values the rules give, every invariant of Safety.lean, and the first clear step as the engine's next operation. The store's contents, the released RESET and the model's own fields are the model's choices (log 7, log 8, log 17, log 19). -/
def Obligations.ResetStateHoldsResetValues : Prop :=
  State.reset.control = ⟨.init, 256, .quarantine, 2, 0, 3, 8, none⟩ ∧
  State.reset.seq.state = .stopped ∧ State.reset.seq.slot = 0 ∧ State.reset.seq.frame = 0 ∧
  State.reset.seq.superframe = 0 ∧ (∀ sl : Slot, State.reset.seq.current[sl] = none) ∧ State.reset.seq.next = none ∧
  State.reset.seq.planReady = false ∧ State.reset.seq.grantLines = ⟨0, 0, false, none⟩ ∧
  State.reset.monitor = ⟨false, none, .silent, [], none⟩ ∧
  (∀ n : Node, State.reset.links[n] = ⟨.hunt, none, 0, .idle, none, none, none, none, false⟩) ∧
  State.reset.port.inFlight = none ∧ State.reset.port.waiting = none ∧ State.reset.port.argument = 0 ∧
  State.reset.port.resultCode = 0 ∧ State.reset.port.resultOutcome = .none ∧ State.reset.port.resultHandle = 0 ∧
  State.reset.port.flags = 0 ∧ State.reset.port.enables = 0 ∧ State.reset.port.readCount = 0 ∧
  State.reset.port.writeIgnored = false ∧ State.reset.sint = false ∧
  State.reset.port.writeFront = ⟨0, 0, 0, false, 0, 0, 0, false⟩ ∧
  State.reset.port.writeBack = State.reset.port.writeFront ∧ State.reset.port.readFront.code = 0 ∧
  (∀ k : Fin 16, State.reset.port.readFront.words[k] = 0) ∧ State.reset.port.readBack = State.reset.port.readFront ∧
  State.reset.seq.timerLength = 256 ∧ State.reset.seq.timerCount = 0 ∧ State.reset.seq.gstbPulses = 0 ∧
  State.reset.resetAsserted = false ∧
  (∀ h, State.reset.store.record h = LeaseRecord.cleared 0) ∧
  (∀ n, State.reset.store.node n = ⟨.absent, 4, 1, 0, 0, 0⟩) ∧
  (∀ f sl, State.reset.store.cell f sl = ⟨none, true⟩) ∧ State.reset.store.queue = [] ∧
  State.reset.store.fence = 0 ∧ State.reset.store.frameLength = 32 ∧
  State.reset.engine.taking = some (.clearStep ⟨1, false⟩) ∧ State.reset.engine.highest = 0 ∧
  State.reset.engine.audit = ⟨false, 0, 0, false, 0, .none⟩ ∧ State.reset.pending = [] ∧
  State.reset.Consistent ∧ State.reset.InRange ∧ State.reset.SlotsMatch ∧ State.reset.LawTen ∧
  State.reset.CellsAgree ∧ State.reset.QueueAgrees ∧ State.reset.ChainsAgree ∧ State.reset.AbsentAgrees ∧
  State.reset.AttentionAgrees

/-- DEVICE_RESET puts every block outside the store at its reset values and leaves the store to the clear, the count of GSTB pulses kept; RESET_RELEASE restarts the slot timer at length 256; writes at the port are discarded while RESET is asserted (R112, R127, R182). That the store stays as it is until the clear writes it is the model's choice (log 7), the pulse count is the model's own field (log 17), and RESET_RELEASE with RESET not asserted changes nothing by the model's choice (log 1). -/
def Obligations.DeviceResetAndRelease : Prop :=
  ∀ s : State,
    exec .deviceReset s = .next
      { State.reset with
        store := s.store
        seq := { State.reset.seq with gstbPulses := s.seq.gstbPulses }
        resetAsserted := true
        pending := s.pending } ∧
    (s.resetAsserted = true →
      exec .resetRelease s = .next
        { s with resetAsserted := false, seq := { s.seq with timerCount := 0, timerLength := 256 } } ∧
      ∀ (v : Word) (a : BitVec 6) (w : ConfigWord),
        exec (.registerWrite a v) s = .next s ∧ exec (.commandWordWrite v) s = .next s ∧
        exec (.configurationWrite w v) s = .next s ∧ exec (.eventFlagClear v) s = .next s ∧
        exec (.enableMaskWrite v) s = .next s ∧ exec (.writeIgnoredClear v) s = .next s ∧
        exec (.violationClear v) s = .next s ∧ exec (.integrityClear v) s = .next s) ∧
    (s.resetAsserted = false → exec .resetRelease s = .next s)

/-- An INIT clear step writes its part of the store as R185's table gives it, for a device reset and for CLEARTABLE, and nothing else of the store; the last one takes the device to CONFIG. CLEARTABLE in CONFIG: the device in INIT, a running audit ABORTED with AUDIT-DONE, the clear posted with its kept values, the command staying in flight without a result; in RUN and FROZEN it completes NOT-CONFIG; and the clear's last step completes it ACCEPTED. -/
def Obligations.ClearStepsAndCleartable : Prop :=
  (∀ (s : State) (step : Nat) (keep : Bool), s.engine.taking = some (.clearStep ⟨step, keep⟩) → 1 ≤ step → step ≤ 125 →
      ∃ t, exec .initClearStep s = .next t ∧
        (∀ n : Node, t.store.node n =
          if step = n.val + 1 then
            (if keep then
              { s.store.node n with
                state := if (s.store.node n).state = .invalid then .absent else (s.store.node n).state
                quota := min (s.store.node n).quota 16
                liveOwned := 0
                check := 0 }
            else ⟨.absent, 4, 1, 0, 0, 0⟩)
          else s.store.node n) ∧
        (∀ h : Handle, t.store.record h =
          if step = h.val + 13 then LeaseRecord.cleared (if keep then (s.store.record h).generation else 0)
          else s.store.record h) ∧
        (∀ (f : Frame) (sl : Slot), t.store.cell f sl = if step = f.val + 109 then ⟨none, true⟩ else s.store.cell f sl) ∧
        t.store.queue = (if step = 125 then [] else s.store.queue) ∧
        t.store.fence = (if step = 125 ∧ keep = false then 0 else s.store.fence) ∧
        t.store.frameLength = (if step = 125 ∧ keep = false then 32 else s.store.frameLength) ∧
        t.engine.clearStep = (if step < 125 then some ⟨step + 1, keep⟩ else none) ∧
        t.control = (if step < 125 then s.control else { s.control with device := .config }) ∧
        (step < 125 → t.port = s.port) ∧
        t.seq = s.seq ∧ t.monitor = s.monitor) ∧
  (∀ (s : State) (c : Command),
      (s.engine.takenCommand .cleartable = some c →
        (s.control.device = .config → s.engine.audit.running = false →
          exec .cleartable s = .next
            { s with
              control := { s.control with device := .init }
              engine := { s.engine with command := none, clearStep := some ⟨1, true⟩, inProgress := none } }) ∧
        (s.control.device = .config → s.engine.audit.running = true →
          exec .cleartable s = .next
            { s with
              control := { s.control with device := .init }
              port := { s.port with flags := s.port.flags ||| EventFlag.auditDone.bit }
              engine := { s.engine with
                command := none
                auditStep := false
                clearStep := some ⟨1, true⟩
                inProgress := none
                audit := { s.engine.audit with running := false, result := .aborted } } }) ∧
        (s.control.device = .run ∨ s.control.device = .frozen →
          exec .cleartable s = .next (s.takeCommand.completeCommand c .notConfig 0 none))) ∧
      (s.engine.taking = some (.clearStep ⟨125, true⟩) → s.port.inFlight = some c →
        exec .initClearStep s = .next
          (({ s with
              store := { s.store with queue := [] }
              control := { s.control with device := .config }
              engine := { s.engine with clearStep := none, inProgress := none } } : State).completeCommand c .accepted
            c.namedField none)))

/-! The sequencer, the grant lines and the monitor. -/

/-- A slot start advances the slot, or at its wrap the frame and superframe counters, and drives and strobes the grant word of the slot that starts (R115, R116). The one tick that stops the sequencer is SequencerBeginsAndStops's; a tick with a taking due is the tick after it (EngineTakesByPlaceAndChain). -/
def Obligations.SlotStartCountsAndGrants : Prop :=
  ∀ s : State, s.resetAsserted = false → s.Engaged → s.seq.state = .running ∨ s.seq.state = .stopping →
    ¬(s.seq.state = .stopping ∧ s.seq.frame = 15 ∧ s.store.frameLength ≤ s.seq.slot.val + 1) →
    ∃ t, exec .slotStart s = .next t ∧
      (s.seq.slot.val + 1 < s.store.frameLength →
        t.seq.slot.val = (s.seq.slot.val + 1) % 64 ∧ t.seq.frame = s.seq.frame ∧ t.seq.superframe = s.seq.superframe ∧
        t.seq.current = s.seq.current ∧ t.seq.next = s.seq.next) ∧
      (s.store.frameLength ≤ s.seq.slot.val + 1 →
        t.seq.slot = 0 ∧ t.seq.frame.val = (s.seq.frame.val + 1) % 16 ∧
        t.seq.superframe = (if s.seq.frame = 15 then s.seq.superframe + 1 else s.seq.superframe)) ∧
      t.seq.grantLines =
        ⟨t.seq.frame, t.seq.slot, decide (t.seq.slot = 0),
          if s.control.device = .run then (t.seq.current[t.seq.slot]).map Grant.node else none⟩ ∧
      t.seq.gstbPulses = s.seq.gstbPulses + 1 ∧ t.seq.state = s.seq.state ∧ t.store = s.store ∧
      t.control = s.control ∧ t.seq.timerCount = 0 ∧ t.seq.timerLength = s.control.slotLength

/-- At a frame start in RUN the next plan becomes current, or the frame is dark with DARK-FRAME; the build for the frame that follows is posted, and at the sweep point the sweep. In FROZEN the plan stays all-NONE and nothing is posted (R119, R125). A tick with a taking due is the tick after it (EngineTakesByPlaceAndChain). -/
def Obligations.FrameStartSwapsPlan : Prop :=
  ∀ s : State, s.resetAsserted = false → s.Engaged → s.seq.state = .running ∨ s.seq.state = .stopping →
    s.store.frameLength ≤ s.seq.slot.val + 1 → ¬(s.seq.state = .stopping ∧ s.seq.frame = 15) →
    ∃ t, exec .slotStart s = .next t ∧
      (s.control.device = .run →
        (∀ p, s.seq.planReady = true → s.seq.next = some p →
          t.seq.current = p.plan ∧ t.port.flags &&& EventFlag.darkFrame.bit = s.port.flags &&& EventFlag.darkFrame.bit) ∧
        (s.seq.planReady = false →
          (∀ sl : Slot, t.seq.current[sl] = none) ∧ t.port.flags &&& EventFlag.darkFrame.bit = EventFlag.darkFrame.bit) ∧
        t.seq.next = none ∧ t.seq.planReady = false ∧
        t.engine.build = some
          (if t.seq.frame = 15 then ⟨0, t.seq.superframe + 1⟩ else ⟨t.seq.frame + 1, t.seq.superframe⟩) ∧
        t.engine.sweep =
          (if t.seq.frame = 15 ∧ s.engine.sweep = none then some 0 else s.engine.sweep)) ∧
      (s.control.device = .frozen → s.Consistent →
        t.seq.current = s.seq.current ∧ t.engine.build = s.engine.build ∧ t.engine.sweep = s.engine.sweep ∧
        t.port.flags = s.port.flags)

/-- The tick after the plan is ready ends PRIMING: the sequencer is RUNNING at slot 0 of frame 0, the superframe counter rises, the plan is swapped in, the build of frame 1 is posted, and the grant word is driven with the monitor active (R121, R130). A STOPPING sequencer stops at the frame end of frame 15, in RUN and in FROZEN: no plans, the idle word, the device in CONFIG, STOPPED raised; slot, frame and superframe counters keep their values, and no GSTB pulse is made (R122, R125). -/
def Obligations.SequencerBeginsAndStops : Prop :=
  (∀ (s : State) (p : NamedPlan), s.seq.state = .priming → s.seq.planReady = true → s.seq.next = some p →
        s.control.device = .run → s.seq.slot = 0 → s.seq.frame = 0 → s.Engaged →
        exec .firstFrameStart s = .next
          { s with
            links := s.links.map Link.tick
            engine := { s.engine with build := some ⟨1, s.seq.superframe + 1⟩ }
            seq := { s.seq with
              state := .running
              superframe := s.seq.superframe + 1
              current := p.plan
              next := none
              planReady := false
              timerCount := 0
              timerLength := s.control.slotLength
              grantLines := ⟨0, 0, true, (p.plan[(0 : Slot)]).map Grant.node⟩
              gstbPulses := s.seq.gstbPulses + 1 }
            monitor := { s.monitor with active := true, slotEntry := p.plan[(0 : Slot)], talk := .silent } }) ∧
  (∀ s : State, s.resetAsserted = false → s.Engaged → s.seq.state = .stopping → s.seq.frame = 15 →
        s.store.frameLength ≤ s.seq.slot.val + 1 →
        ∃ t, exec .slotStart s = .next t ∧
          t.seq = { s.seq with
            state := .stopped
            current := t.seq.current
            next := none
            planReady := false
            grantLines := ⟨0, 0, false, none⟩
            timerCount := 0
            timerLength := s.control.slotLength } ∧
          (∀ sl : Slot, t.seq.current[sl] = none) ∧ t.control = { s.control with device := .config } ∧
          t.monitor.active = false ∧ t.port.flags &&& EventFlag.stopped.bit = EventFlag.stopped.bit ∧
          t.store = s.store ∧ t.engine.build = s.engine.build ∧ t.engine.sweep = s.engine.sweep)

/-- The judgement of a slot that ends while the monitor is active: use joins the talked set once, a named trespasser is struck, every trespass latches or marks the violation record, and a garbled or silent slot credits nobody (R132, R133, R138). The last slot of a frame is judged the same way before the frame end: then the talked set, this slot's use in it, is posted as a fold, merged with a pending one so that a later tag replaces one of its handle, and is emptied (R98, R134). At a frame end an idle engine has taken the strike before the fold is posted, at the stop too, where the fold stays pending for its taking in CONFIG (R134); at any other frame end it has taken the fold, where there was no strike, before the frame start posts anything, and a fold without tags has completed at once (R90, R106, R115; when the model records a taking is its choice, log 38). So at the sweep point frame 14's fold goes before the sweep where the engine was idle; where an operation was in progress it goes on, and the sweep is taken next, the fold after it (R106). A tick with a taking due is the tick after it (EngineTakesByPlaceAndChain). -/
def Obligations.SlotAndFrameEndAreJudged : Prop :=
  (∀ s : State, s.resetAsserted = false → s.Engaged → s.seq.state = .running ∨ s.seq.state = .stopping →
      s.monitor.active = true →
      s.seq.slot.val + 1 < s.store.frameLength →
      ∃ t, exec .slotStart s = .next t ∧
        (s.control.device = .run → t.monitor.slotEntry = s.seq.current[t.seq.slot] ∧ t.monitor.talk = .silent) ∧
        (s.monitor.talk = .silent →
          t.monitor.talked = s.monitor.talked ∧ t.monitor.violation = s.monitor.violation ∧ t.engine = s.engine ∧
          t.port = s.port) ∧
        (∀ (n : Node) (g : Grant), s.monitor.talk = .talker n → s.monitor.slotEntry = some g → g.node = n →
          (∀ u : Tag, u ∈ t.monitor.talked ↔ u ∈ s.monitor.talked ∨ u = g.tag) ∧
          (s.monitor.talked.Nodup → t.monitor.talked.Nodup) ∧
          t.monitor.violation = s.monitor.violation ∧ t.engine = s.engine ∧ t.port = s.port) ∧
        (∀ n : Node, s.monitor.talk = .talker n → s.grantedNode ≠ some n →
          t.monitor.talked = s.monitor.talked ∧
          t.engine = { s.engine with strikes := s.engine.strikes.set n (min (s.engine.strikes[n] + 1) 7) } ∧
          (s.monitor.violation = none →
            t.monitor.violation =
              some ⟨s.seq.superframe, s.seq.frame, s.seq.slot, s.grantedNode, some n, false⟩ ∧
            t.port = { s.port with flags := s.port.flags ||| EventFlag.violation.bit }) ∧
          (∀ v, s.monitor.violation = some v →
            t.monitor.violation = some { v with further := true } ∧ t.port = s.port)) ∧
        (s.monitor.talk = .garbled →
          t.monitor.talked = s.monitor.talked ∧ t.engine = s.engine ∧
          (s.monitor.violation = none →
            t.monitor.violation = some ⟨s.seq.superframe, s.seq.frame, s.seq.slot, s.grantedNode, none, false⟩ ∧
            t.port = { s.port with flags := s.port.flags ||| EventFlag.violation.bit }) ∧
          (∀ v, s.monitor.violation = some v →
            t.monitor.violation = some { v with further := true } ∧ t.port = s.port))) ∧
  (∀ s : State, s.resetAsserted = false → s.Engaged → s.seq.state = .running ∨ s.seq.state = .stopping →
      s.monitor.active = true →
      s.store.frameLength ≤ s.seq.slot.val + 1 →
      ∃ t talked, exec .slotStart s = .next t ∧ t.monitor.talked = [] ∧
        (∀ u : Tag, u ∈ talked ↔ u ∈ s.monitor.talked ∨
          ∃ n g, s.monitor.talk = .talker n ∧ s.monitor.slotEntry = some g ∧ g.node = n ∧ u = g.tag) ∧
        (s.monitor.talked.Nodup → talked.Nodup) ∧
        (s.engine.isIdle = false →
          t.engine.inProgress = s.engine.inProgress ∧
          (∃ f, t.engine.fold = some f ∧ (s.engine.fold = none → f = talked) ∧
            ∀ earlier, s.engine.fold = some earlier → ∀ u : Tag,
              u ∈ f ↔ u ∈ talked ∨ (u ∈ earlier ∧ ∀ w ∈ talked, w.handle ≠ u.handle)) ∧
          (∀ n : Node, s.monitor.talk = .talker n → s.grantedNode ≠ some n →
            t.engine.strikes = s.engine.strikes.set n (min (s.engine.strikes[n] + 1) 7)) ∧
          (s.monitor.talk = .garbled → t.engine.strikes = s.engine.strikes)) ∧
        (s.engine.isIdle = true →
          (∀ n : Node, t.engine.strikes[n] = 0) ∧
          (∀ n : Node, s.monitor.talk = .talker n → s.grantedNode ≠ some n →
            t.engine.fold = some talked ∧
            t.engine.inProgress = some (.taken (.strike [(n, 1)]) s.atTaking)) ∧
          ((∀ n : Node, s.monitor.talk = .talker n → s.grantedNode = some n) →
            (s.seq.state = .stopping ∧ s.seq.frame = 15 →
              t.engine.fold = some talked ∧ t.engine.inProgress = none) ∧
            (¬(s.seq.state = .stopping ∧ s.seq.frame = 15) →
              t.engine.fold = none ∧
              t.engine.inProgress = (if talked = [] then none else some (.taken (.fold talked) s.atTaking))))) ∧
        (s.seq.frame = 14 → s.control.device = .run → s.engine.quarantine = none →
          (∃ count, t.engine.sweep = some count ∧
            (s.engine.isIdle = false → engineRow t.engine = engineRow s.engine ∧
              ({ t.engine with inProgress := none } : Engine).taking = some (.sweep count))) ∧
          (s.engine.isIdle = true → talked ≠ [] → (∀ n : Node, s.monitor.talk = .talker n → s.grantedNode = some n) →
            engineRow t.engine = some .fold)) ∧
        (∀ n : Node, s.monitor.talk = .talker n → s.grantedNode ≠ some n →
          (s.monitor.violation = none →
            t.monitor.violation =
              some ⟨s.seq.superframe, s.seq.frame, s.seq.slot, s.grantedNode, some n, false⟩ ∧
            t.port.flags &&& EventFlag.violation.bit = EventFlag.violation.bit)) ∧
        (s.monitor.talk = .garbled →
          (s.monitor.violation = none →
            t.monitor.violation = some ⟨s.seq.superframe, s.seq.frame, s.seq.slot, s.grantedNode, none, false⟩ ∧
            t.port.flags &&& EventFlag.violation.bit = EventFlag.violation.bit)) ∧
        (s.monitor.talk = .garbled ∨ (∃ n : Node, s.monitor.talk = .talker n ∧ s.grantedNode ≠ some n) →
          ∀ v, s.monitor.violation = some v →
            t.monitor.violation = some { v with further := true } ∧
            t.port.flags &&& EventFlag.violation.bit = s.port.flags &&& EventFlag.violation.bit) ∧
        (s.monitor.talk = .silent ∨ (∃ n : Node, s.monitor.talk = .talker n ∧ s.grantedNode = some n) →
          t.engine.strikes = s.engine.strikes ∧ t.monitor.violation = s.monitor.violation ∧
          t.port.flags &&& EventFlag.violation.bit = s.port.flags &&& EventFlag.violation.bit))

/-- A talk sense code presented while the monitor is active combines into the classification by R131's table and changes nothing else; while it is inactive nothing changes. Damage within an item's fields puts the damaged contents in place and changes nothing else: nothing is observed until an operation reads the item (R188; the contents are the model's choice, log 6). -/
def Obligations.OutsideEventsAct : Prop :=
  (∀ (s : State) (code : BitVec 5),
        (s.monitor.active = false → exec (.talkSenseCodePresented code) s = .next s) ∧
        (s.monitor.active = true → ∃ talk,
          exec (.talkSenseCodePresented code) s = .next { s with monitor := { s.monitor with talk := talk } } ∧
          (code = 0 → talk = s.monitor.talk) ∧
          (∀ m : Node, code.toNat = 16 + m.val →
            talk = match s.monitor.talk with
              | .silent => .talker m
              | .talker n => if m = n then .talker n else .garbled
              | .garbled => .garbled) ∧
          (code ≠ 0 → (∀ m : Node, code.toNat ≠ 16 + m.val) → talk = .garbled))) ∧
  (∀ (s : State) (d : Damage), d.wellFormed = true →
        (∀ h r, d = .record h r → exec (.itemDamaged d) s = .next { s with store := s.store.putRecord h r }) ∧
        (∀ n r, d = .node n r → exec (.itemDamaged d) s = .next { s with store := s.store.putNode n r }) ∧
        (∀ f sl c, d = .cell f sl c → exec (.itemDamaged d) s = .next { s with store := s.store.putCell f sl c }) ∧
        (∀ p e, d = .queueEntry p e → p < s.store.queue.length →
          exec (.itemDamaged d) s = .next { s with store := { s.store with queue := s.store.queue.set p e } }))

/-! The links. -/

/-- The arrival of a complete good frame on a link acts by the first row of R149 that applies, and changes nothing else: ignored, BUSY, replayed, answered UNKNOWN (R153), or posted. The engine has taken by then what was pending, and a request that the device state refuses has its answer (R90, R108; EngineTakesByPlaceAndChain says what that is; when the model records the taking is its own choice, log 38). A complete frame that fails a check of R148 is dropped silently: only the receiver changes. -/
def Obligations.FrameArrivalActsByRow : Prop :=
  (∀ (s e : State) (n : Node) (bytes : List Byte) (g : GoodFrame), e = s.engage →
      s.links[n].rx = .hunt → s.links[n].partialFrame = none → s.links[n].idleTicks = 0 → checkFrame bytes = some g →
      (e.links[n].inFlight = some g.seq → exec (.linkFrameArrival n bytes) s = .next e) ∧
      (∀ q, e.links[n].inFlight = some q → q ≠ g.seq →
        exec (.linkFrameArrival n bytes) s =
          .next (e.modifyLink n fun l => l.give ⟨g.seq, g.kind, .busy, .none⟩ false)) ∧
      (e.links[n].inFlight = none →
        (e.links[n].lastSeq = some g.seq → ∀ r, e.links[n].cached = some r →
          exec (.linkFrameArrival n bytes) s = .next (e.modifyLink n fun l => l.give r false)) ∧
        (e.links[n].lastSeq ≠ some g.seq →
          (requestLength g.kind = none →
            exec (.linkFrameArrival n bytes) s = .next
              (e.modifyLink n fun l =>
                ({ l with cached := some ⟨g.seq, g.kind, .unknown, .none⟩, lastSeq := some g.seq } : Link).give
                  ⟨g.seq, g.kind, .unknown, .none⟩ true)) ∧
          (requestLength g.kind ≠ none → ∃ r, parseRequest g.kind g.args = some r ∧
            exec (.linkFrameArrival n bytes) s = .next
              { e with
                engine := { e.engine with requests := e.engine.requests.set n (some ⟨g.seq, r⟩) }
                links := e.links.set n { e.links[n] with inFlight := some g.seq } })))) ∧
  (∀ (s : State) (n : Node) (bytes : List Byte), frameComplete bytes = true → checkFrame bytes = none →
      s.links[n].rx ≠ .lineBreak → (s.links[n].partialFrame.getD []).isPrefixOf bytes = true →
      s.links[n].isStale = false →
      exec (.linkFrameArrival n bytes) s =
        .next (s.modifyLink n fun l => { l with rx := .hunt, partialFrame := none, idleTicks := 0 }))

/-- The start byte and the bytes of any complete frame, received one by one in HUNT, have the same effect as the arrival of the frame at once (R147; the arrival's operand is the model's choice, log 19). -/
def Obligations.ByteByByteIsFrameArrival : Prop :=
  ∀ (s : State) (n : Node) (bytes : List Byte), frameComplete bytes = true → s.links[n].rx = .hunt →
    s.links[n].partialFrame = none → s.links[n].idleTicks = 0 →
    receiveAll n (startByte :: bytes) s = exec (.linkFrameArrival n bytes) s

/-- One byte by the receiver's state: discarded in HUNT unless it is the start byte, appended in RECEIVING, a bad length ending the frame, nothing in BREAK; a frame that completes is ByteByByteIsFrameArrival's (R147, R152). The timeout, the break and the end of a sending: a partial frame two ticks old is discarded; a break drops the partial frame, the frame being sent and the holding slot, and keeps the sequence items; its end and the end of a sending start a held response (R147, R151, R152). Each of these three finds a response that was due at the engine's taking given (R90, R108; EngineTakesByPlaceAndChain; log 38). A response given to the transmitter starts in IDLE; otherwise a completion response takes the holding slot, and a BUSY or replay takes it only while it is empty (R151). That PARTIAL_FRAME_TIMEOUT before the second tick changes nothing is the model's choice (log 1), as is the counting of the ticks (log 19); that a completion response replaces another one in the slot is the model's choice (log 36). -/
def Obligations.LinkBytesBreaksAndSending : Prop :=
  (∀ (s : State) (n : Node) (b : Byte), s.links[n].isStale = false →
        (s.links[n].rx = .lineBreak → exec (.linkByteReceived n b) s = .next s) ∧
        (s.links[n].rx = .hunt →
          (b ≠ 0xA5 → exec (.linkByteReceived n b) s = .next s) ∧
          (b = 0xA5 → exec (.linkByteReceived n b) s = .next
            (s.modifyLink n fun l => { l with rx := .receiving, partialFrame := some [], idleTicks := 0 }))) ∧
        (s.links[n].rx = .receiving → s.links[n].partialFrame = some [] →
          (b.toNat < 2 ∨ 16 < b.toNat → exec (.linkByteReceived n b) s = .next
            (s.modifyLink n fun l => { l with rx := .hunt, partialFrame := none, idleTicks := 0 })) ∧
          (2 ≤ b.toNat ∧ b.toNat ≤ 16 → exec (.linkByteReceived n b) s = .next
            (s.modifyLink n fun l => { l with partialFrame := some [b], idleTicks := 0 }))) ∧
        (∀ (len : Byte) (more : List Byte), s.links[n].rx = .receiving → s.links[n].partialFrame = some (len :: more) →
          2 ≤ len.toNat → len.toNat ≤ 16 → more.length < len.toNat →
          exec (.linkByteReceived n b) s = .next
            (s.modifyLink n fun l => { l with partialFrame := some (len :: more ++ [b]), idleTicks := 0 }))) ∧
  (∀ (s : State) (n : Node),
      (s.links[n].rx = .receiving → 2 ≤ s.links[n].idleTicks →
        exec (.partialFrameTimeout n) s = .next
          (s.modifyLink n fun l => { l with rx := .hunt, partialFrame := none, idleTicks := 0 })) ∧
      (s.links[n].rx = .receiving → s.links[n].idleTicks < 2 → exec (.partialFrameTimeout n) s = .next s)) ∧
  (∀ (s e : State) (n : Node), e = s.engage →
      (e.links[n].rx ≠ .lineBreak →
        exec (.lineBreakBegin n) s = .next
          (e.modifyLink n fun l =>
            { l with rx := .lineBreak, partialFrame := none, idleTicks := 0, tx := .lineBreak, holding := none })) ∧
      (e.links[n].rx = .lineBreak → e.links[n].holding = none →
        exec (.lineBreakEnd n) s = .next (e.modifyLink n fun l => { l with rx := .hunt, tx := .idle })) ∧
      (∀ h, e.links[n].rx = .lineBreak → e.links[n].holding = some h →
        exec (.lineBreakEnd n) s = .next
          (e.modifyLink n fun l => { l with rx := .hunt, tx := .sending h.response, holding := none })) ∧
      (∀ r, e.links[n].tx = .sending r →
        (e.links[n].holding = none →
          exec (.responseSent n) s = .next (e.modifyLink n fun l => { l with tx := .idle })) ∧
        (∀ h, e.links[n].holding = some h →
          exec (.responseSent n) s = .next
            (e.modifyLink n fun l => { l with tx := .sending h.response, holding := none })))) ∧
  (∀ (l : Link) (r : Response) (completion : Bool),
      (l.tx = .idle → l.give r completion = { l with tx := .sending r }) ∧
      (l.tx ≠ .idle → l.holding = none → l.give r completion = { l with holding := some ⟨r, completion⟩ }) ∧
      (l.tx ≠ .idle → l.give r true = { l with holding := some ⟨r, true⟩ }) ∧
      (∀ h, l.tx ≠ .idle → l.holding = some h → l.give r false = l))

/-- Every node request's frame, with every argument value and sequence number, passes the checks of R148 and reads back as that request (R201, R202). -/
def Obligations.RequestFrameRoundTrip : Prop :=
  ∀ (r : Request) (seq : SeqNo), frameComplete (r.frame seq) = true ∧
    checkFrame (r.frame seq) = some ⟨seq, r.code, r.args⟩ ∧ parseRequest r.code r.args = some r

/-- A response frame is the start byte, the length of what follows it before the CRC, the sequence byte, the kind, the result code, the results, and the CRC over all but the start byte; a refusal, BUSY and NOTHING carry no results. The bytes of R202's example are the JOIN frame with sequence number 5. The result codes and the result bytes of each kind are as R203 tabulates them, QUERY's 21 bytes with their flags byte among them, and the codes of states, close reasons and node states, the bits of the reasons byte and of the notice kinds, as in R200. That bit 3 of QUERY's flags byte, which R203 does not assign, is 0 is the model's choice (log 42). -/
def Obligations.ResponseFrameShape : Prop :=
  (∀ r : Response, ∃ len : Byte,
    r.bytes = 0xA5 :: len :: r.seq.setWidth 8 :: r.kind :: r.code.code :: r.results.bytes ++
      [crc8 (len :: r.seq.setWidth 8 :: r.kind :: r.code.code :: r.results.bytes)] ∧
    len.toNat = r.results.bytes.length + 3) ∧
  (∀ (seq : SeqNo) (kind : Byte) (code : ResultCode), ∃ crc : Byte,
    (Response.mk seq kind code .none).bytes = [0xA5, 3, seq.setWidth 8, kind, code.code, crc]) ∧
  startByte :: Request.frame .join 5 = [0xA5, 0x02, 0x05, 0x06, 0xAE] ∧
  [ResultCode.accepted, .queued, .nothing, .busy, .notReady, .notRunning, .frozen, .notJoined, .barred, .unknown, .range,
    .rank, .fenced, .quota, .tableFull, .queueFull, .occupied, .noSuchLease, .notOwner, .wrongState, .protectedLease,
    .depth, .overlap, .term, .fault].map ResultCode.code =
    [0x00, 0x01, 0x02, 0x03, 0x81, 0x82, 0x83, 0x84, 0x85, 0x86, 0x87, 0x88, 0x89, 0x8A, 0x8B, 0x8C, 0x8D, 0x8E, 0x8F,
      0x90, 0x91, 0x92, 0x93, 0x94, 0x95] ∧
  (∀ (h : Handle) (g : BitVec 8) (x y z : Nat) (st : RecState) (role : Role) (notices : NoticeSet)
      (reason : Option CloseReason),
    let tag : List Byte := [BitVec.ofNat 8 h.val, g]
    (Results.claimed ⟨h, g⟩ x).bytes = tag ++ [BitVec.ofNat 8 x] ∧
    (Results.queued ⟨h, g⟩ x).bytes = tag ++ [BitVec.ofNat 8 x] ∧
    (x < 65536 → (Results.renewed ⟨h, g⟩ x).bytes = tag ++ [BitVec.ofNat 8 (x / 256), BitVec.ofNat 8 x]) ∧
    (Results.released ⟨h, g⟩ st).bytes = tag ++ [st.code] ∧
    (Results.sublet ⟨h, g⟩).bytes = tag ∧
    (Results.recalled ⟨h, g⟩ st).bytes = tag ++ [st.code] ∧
    (Results.joined x y z).bytes = [BitVec.ofNat 8 x, BitVec.ofNat 8 y, BitVec.ofNat 8 z] ∧
    (Results.left x).bytes = [BitVec.ofNat 8 x] ∧
    (Results.polled ⟨h, g⟩ st reason role notices).bytes =
      tag ++ [st.code, (reason.map CloseReason.code).getD 0, if role = .owner then 1 else 2, notices]) ∧
  (∀ r : StatusReport, (Results.status r).bytes =
    [r.state.code, BitVec.ofNat 8 r.quota, BitVec.ofNat 8 r.rankCeiling, BitVec.ofNat 8 r.strikes,
      BitVec.ofNat 8 r.liveOwned, r.superframe.extractLsb' 8 8, r.superframe.extractLsb' 0 8, BitVec.ofNat 8 r.fence,
      BitVec.ofNat 8 r.frameLength]) ∧
  (∀ q : QueryReport, q.term < 65536 → ∃ flags : Byte,
    (Results.queried q).bytes =
      [BitVec.ofNat 8 q.tag.handle.val, q.tag.generation,
        (if q.asOwner then 1 else 0) ||| (if q.asGrantee then 2 else 0), q.state.code, flags,
        BitVec.ofNat 8 q.owner.val, BitVec.ofNat 8 q.grantee.val, BitVec.ofNat 8 ((q.firstSlot.map Fin.val).getD 0),
        BitVec.ofNat 8 q.width, q.frameSet.extractLsb' 8 8, q.frameSet.extractLsb' 0 8, BitVec.ofNat 8 (q.term / 256),
        BitVec.ofNat 8 q.term, BitVec.ofNat 8 q.rank, BitVec.ofNat 8 q.depth,
        BitVec.ofNat 8 ((q.parent.map Fin.val).getD 0), BitVec.ofNat 8 q.childCount, q.reasons.byte,
        BitVec.ofNat 8 (q.waitAge.getD 0), BitVec.ofNat 8 (q.waitLimit.getD 0),
        (q.closeReason.map CloseReason.code).getD 0] ∧
    flags.getLsbD 0 = decide (q.kind = .child) ∧ flags.getLsbD 1 = q.isProtected ∧ flags.getLsbD 2 = q.yields ∧
    flags.getLsbD 3 = false ∧ flags.getLsbD 4 = q.firstSlot.isSome ∧ flags.getLsbD 5 = q.parent.isSome ∧
    flags.getLsbD 6 = q.waitLimit.isSome ∧ flags.getLsbD 7 = q.closeReason.isSome) ∧
  [RecState.free, .waiting, .held, .draining, .suspended, .displaced, .closed, .corrupt].map RecState.code =
    [0, 1, 2, 3, 4, 5, 6, 7] ∧
  [CloseReason.released, .expired, .idle, .revoked, .recalled, .cascade, .lost, .waitOver, .left, .barred].map
    CloseReason.code = [1, 2, 3, 4, 5, 6, 7, 8, 9, 10] ∧
  [NodeState.absent, .joined, .barred].map NodeState.code = [0, 1, 2] ∧
  (∀ r : Reasons, r.byte.toNat =
    (if r.supervisor then 1 else 0) + (if r.ownerBarred then 2 else 0) + (if r.granteeBarred then 4 else 0)) ∧
  [NoticeKind.placed, .granted, .expiring, .displaced, .reinstated, .suspended, .resumed, .closed].map
    (fun k => k.bit.toNat) = [1, 2, 4, 8, 16, 32, 64, 128]

/-- Whatever request the engine takes for a link, it leaves the pending set, the chain turns past its node, and the link gets one completion response, cached with its sequence number as the last, the in-flight mark clear; no other link changes but in its attention line (R91, R93, R150). A response given while the transmitter is not IDLE takes the holding slot (R151); that it does so also where the slot already holds a completion response is the model's choice (log 36). A request that meets a failed check is abandoned: the item is one whose check fails, the answer is FAULT, and the store is unchanged; a damaged node record of the requester and a damaged record that the tag names are such items (R94, R95). What a failed check does: the integrity record latches the item and the operation when it is empty, with INTEGRITY raised, and takes the further mark when it is valid (R189); in QUARANTINE mode the item joins the pending quarantine's set, once (R100), and the device state stays; in HALT mode no quarantine is posted and a device in RUN enters FROZEN with FROZEN raised, the grantee NONE, no plans and the monitor inactive (R116, R124, R190). A node record has no place in the set by log 13. The mode is the one the operation found at its taking (R179), by the model's reading (log 45). -/
def Obligations.RequestIsAnswered : Prop :=
  (∀ (s : State) (n : Node) (p : Posted), s.engine.takenRequest n = some p →
    (∃ t r, exec (requestRow n p.request) s = .next t ∧
      r.seq = p.seq ∧ r.kind = p.request.code ∧
      t.engine.requests = s.engine.requests.set n none ∧ t.engine.highest = n + 1 ∧ t.engine.inProgress = none ∧
      t.links[n].cached = some r ∧ t.links[n].lastSeq = some p.seq ∧ t.links[n].inFlight = none ∧
      t.links[n].rx = s.links[n].rx ∧ t.links[n].partialFrame = s.links[n].partialFrame ∧
      (s.links[n].tx = .idle → t.links[n].tx = .sending r ∧ t.links[n].holding = s.links[n].holding) ∧
      (s.links[n].tx ≠ .idle → t.links[n].tx = s.links[n].tx ∧ t.links[n].holding = some ⟨r, true⟩) ∧
      (∀ m : Node, m ≠ n → ({ t.links[m] with attention := s.links[m].attention } : Link) = s.links[m])) ∧
    (∃ result : RequestResult,
      exec (requestRow n p.request) s = .next ((s.takeRequest n).finishRequest s.atTaking.integrityMode n p result) ∧
      ∀ i, result = .error (.failed i) → s.store.fails i = true ∧
        exec (requestRow n p.request) s = .next
          (((s.takeRequest n).failedCheck s.atTaking.integrityMode (.request p.request.code) i).answer n p .fault .none)) ∧
    (State.deviceRefusal s.atTaking.device p.request = none →
      ((s.store.node n).check ≠ 0 →
        exec (requestRow n p.request) s = .next
          (((s.takeRequest n).failedCheck s.atTaking.integrityMode (.request p.request.code) (.node n)).answer n p
            .fault .none)) ∧
      (∀ (tag : RawTag) (h : Handle), tag.handle.toNat = h.val → (s.store.record h).check ≠ 0 → s.store.Joined n →
        ((∃ term : Word, 1 ≤ term.toNat ∧ term.toNat ≤ 4095 ∧ p.request = .renew tag term) ∨
          p.request = .release tag ∨ (∃ m f term, p.request = .sublet tag m f term) ∨ p.request = .recall tag ∨
          p.request = .query tag) →
        exec (requestRow n p.request) s = .next
          (((s.takeRequest n).failedCheck s.atTaking.integrityMode (.request p.request.code) (.record h)).answer n p
            .fault .none)))) ∧
  (∀ (s : State) (mode : IntegrityMode) (op : OpKind) (i : Item), ∃ t, s.failedCheck mode op i = t ∧
    t.store = s.store ∧ t.links = s.links ∧ t.resetAsserted = s.resetAsserted ∧ t.pending = s.pending ∧
    (s.control.integrity = none →
      t.control.integrity = some ⟨i, op, false⟩ ∧
      t.port.flags &&& EventFlag.integrity.bit = EventFlag.integrity.bit) ∧
    (∀ r, s.control.integrity = some r →
      t.control.integrity = some { r with further := true } ∧
      t.port.flags &&& EventFlag.integrity.bit = s.port.flags &&& EventFlag.integrity.bit) ∧
    (mode = .quarantine →
      t.control.device = s.control.device ∧ t.seq = s.seq ∧ t.monitor = s.monitor ∧
      ∃ q, t.engine = { s.engine with quarantine := some q } ∧
        (∀ h, h ∈ q.records ↔ i = .record h ∨ ∃ e, s.engine.quarantine = some e ∧ h ∈ e.records) ∧
        (∀ f sl, (f, sl) ∈ q.cells ↔ i = .cell f sl ∨ ∃ e, s.engine.quarantine = some e ∧ (f, sl) ∈ e.cells) ∧
        (q.queueMark = true ↔
          (∃ position, i = .queueEntry position) ∨ ∃ e, s.engine.quarantine = some e ∧ e.queueMark = true) ∧
        (∀ e, s.engine.quarantine = some e → e.records.Nodup → e.cells.Nodup → q.records.Nodup ∧ q.cells.Nodup)) ∧
    (mode = .halt →
      t.engine = s.engine ∧
      (s.control.device ≠ .run →
        t.control.device = s.control.device ∧ t.seq = s.seq ∧ t.monitor = s.monitor) ∧
      (s.control.device = .run →
        t.control.device = .frozen ∧ t.port.flags &&& EventFlag.frozen.bit = EventFlag.frozen.bit ∧
        (∀ sl : Slot, t.seq.current[sl] = none) ∧
        t.seq = { s.seq with
          current := t.seq.current
          next := none
          planReady := false
          grantLines := { s.seq.grantLines with grantee := none } } ∧
        t.monitor = { s.monitor with active := false, talked := [], talk := .silent })))

/-- A request that the device state at its taking does not admit is refused with R158's code and touches no item of the store (R108). Where it is admitted, CLAIM, RENEW, RELEASE, SUBLET and RECALL are refused NOT-JOINED for an ABSENT node and BARRED for a BARRED one, and POLL and QUERY NOT-JOINED for an ABSENT one (R158). In INIT every command completes NOT-READY, and elsewhere a code that names no command completes UNKNOWN with handle field zero; neither touches the store (R180). AMEND, REVOKE, SUSPEND, RESUME and DISCARD complete NO-SUCH-LEASE for a handle above 95 and for a good record that is FREE or of another generation, but that DISCARD names a CORRUPT record by its handle alone (R4, R196), and BAR and UNBAR complete RANGE for a node above 11 (R143, R144). -/
def Obligations.RefusedByDeviceStateOrUnknown : Prop :=
  (∀ (s : State) (n : Node) (p : Posted) (code : ResultCode), s.engine.takenRequest n = some p →
      ((s.atTaking.device = .init ∧ code = .notReady) ∨
        (s.atTaking.device = .config ∧ code = .notRunning ∧
          p.request.code ∈ [0x01, 0x02, 0x03, 0x04, 0x05].map (BitVec.ofNat 8)) ∨
        (s.atTaking.device = .frozen ∧ code = .frozen ∧
          p.request.code ∈ [0x01, 0x02, 0x03, 0x04, 0x05, 0x06, 0x07].map (BitVec.ofNat 8)) ∨
        (s.atTaking.device = .run ∧ (s.store.node n).check = 0 ∧ (s.store.node n).state = .absent ∧ code = .notJoined ∧
          p.request.code ∈ [0x01, 0x02, 0x03, 0x04, 0x05].map (BitVec.ofNat 8)) ∨
        (s.atTaking.device = .run ∧ (s.store.node n).check = 0 ∧ (s.store.node n).state = .barred ∧ code = .barred ∧
          p.request.code ∈ [0x01, 0x02, 0x03, 0x04, 0x05].map (BitVec.ofNat 8)) ∨
        (s.atTaking.device ≠ .init ∧ (s.store.node n).check = 0 ∧ (s.store.node n).state = .absent ∧ code = .notJoined ∧
          p.request.code ∈ [0x08, 0x09].map (BitVec.ofNat 8))) →
      exec (requestRow n p.request) s = .next ((s.takeRequest n).answer n p code .none)) ∧
  (∀ (s : State) (c : Command), s.engine.taking = some (.command c) →
      ((if c.actsAtTaking then s.control.device else s.atTaking.device) = .init →
        exec (commandRow c) s = .next (s.takeCommand.completeCommand c .notReady c.namedField none)) ∧
      (s.atTaking.device ≠ .init →
        ((c.code = 0 ∨ 0x14 ≤ c.code.toNat) →
          exec .unknownCommand s = .next (s.takeCommand.completeCommand c .unknown 0 none)) ∧
        (c.code ∈ [0x04, 0x05, 0x06, 0x07, 0x08].map (BitVec.ofNat 8) →
          (95 < c.tag.handle.toNat →
            exec (commandRow c) s = .next (s.takeCommand.completeCommand c .noSuchLease 0 none)) ∧
          (∀ h : Handle, c.tag.handle.toNat = h.val → (s.store.record h).check = 0 →
            (s.store.record h).state = .free ∨ (s.store.record h).generation ≠ c.tag.generation →
            (c.code = 0x08 → (s.store.record h).state ≠ .corrupt) →
            exec (commandRow c) s = .next
              (s.takeCommand.completeCommand c .noSuchLease (BitVec.ofNat 16 h.val) none))) ∧
        (c.code ∈ [0x0B, 0x0C].map (BitVec.ofNat 8) → 11 < (c.arg.extractLsb' 0 4).toNat →
          exec (commandRow c) s = .next (s.takeCommand.completeCommand c .range 0 none))))

/-- The completion of an operation that leaves the store as st: each attention line whose node's notice sets changed follows them, and every line does where a damaged record was treated, the other lines staying as they are, so Law 10 is kept; a running audit is disturbed if a cell or an occupancy changed; nothing else changes (R110, R166). A cell changed where its contents did, and an occupancy where a root went into or out of HELD, DRAINING and SUSPENDED (R28, R110). That a treated damage has every line follow is the model's reading (log 15), and that a damaged record's stored contents count for its occupancy is its choice (log 41). -/
def Obligations.AttentionFollowsNotices : Prop :=
  (∀ r : LeaseRecord, r.isOccupyingRoot = true ↔
    r.kind = .root ∧ (r.state = .held ∨ r.state = .draining ∨ r.state = .suspended)) ∧
  ∀ (s : State) (st : Store),
    (s.store.occupancyChanged st = true ↔
      (∃ h, (s.store.record h).isOccupyingRoot ≠ (st.record h).isOccupyingRoot) ∨
        ∃ f sl, s.store.cell f sl ≠ st.cell f sl) ∧
    (s.commit st).store = st ∧ (s.LawTen → (s.commit st).LawTen) ∧
    (∀ n : Node, s.store.noticesChanged st n = true ∨ s.store.treats st = true →
      ((s.commit st).links[n].attention = true ↔
        ∃ h, (st.record h).ownerNoticesFor n ≠ 0 ∨ (st.record h).granteeNoticesFor n ≠ 0)) ∧
    (∀ n : Node, s.store.noticesChanged st n = false → s.store.treats st = false → (s.commit st).links[n] = s.links[n]) ∧
    (∀ n : Node, ({ (s.commit st).links[n] with attention := s.links[n].attention } : Link) = s.links[n]) ∧
    (s.commit st).engine =
      (if s.engine.audit.running = true ∧ s.store.occupancyChanged st = true then
        { s.engine with audit := { s.engine.audit with disturbed := true } }
      else s.engine) ∧
    (s.commit st).seq = s.seq ∧ (s.commit st).monitor = s.monitor ∧ (s.commit st).port = s.port ∧
    (s.commit st).control = s.control

/-! The node requests. -/

/-- A claim that passes R37's checks and finds its cells empty is placed: the lowest FREE record is HELD with R39's contents, exactly its cells name it, the requester's count rises by one, and the response carries tag and first slot. An ANY claim takes the lowest first slot from the fence whose cells are all empty (R34, R35, R39). -/
def Obligations.ClaimIsPlaced : Prop :=
  ∀ (s : State) (n : Node) (seq : SeqNo) (a : ClaimArgs) (h : Handle) (first : Slot),
    s.engine.takenRequest n = some ⟨seq, .claim a⟩ → ClaimPasses s n a h →
    s.store.fence ≤ first.val → first.val + a.width.toNat ≤ s.store.frameLength →
    (∀ f sl, Covered a.frames first.val a.width.toNat f sl → s.store.cell f sl = ⟨none, true⟩) →
    (a.firstSlot.toNat = first.val ∨
      (a.firstSlot = 0xFF ∧
        (∀ f sl, Covered a.frames s.store.fence (s.store.frameLength - s.store.fence) f sl →
          (s.store.cell f sl).parityOk = true) ∧
        ∀ k : Slot, s.store.fence ≤ k.val → k < first →
          ∃ f sl, Covered a.frames k.val a.width.toNat f sl ∧ (s.store.cell f sl).names ≠ none)) →
    ∃ st,
      exec (.claim n) s = .next (((s.takeRequest n).commit st).answer n ⟨seq, .claim a⟩ .accepted
        (.claimed ⟨h, (s.store.record h).generation + 1⟩ first.val)) ∧
      st.record h = { claimedContents s.store n a h with state := .held, firstSlot := some first } ∧
      (∀ k, k ≠ h → st.record k = s.store.record k) ∧
      (∀ f sl, (Covered a.frames first.val a.width.toNat f sl → st.cell f sl = ⟨some h, true⟩) ∧
        (¬Covered a.frames first.val a.width.toNat f sl → st.cell f sl = s.store.cell f sl)) ∧
      st.node n = { s.store.node n with liveOwned := (s.store.node n).liveOwned + 1 } ∧
      (∀ m, m ≠ n → st.node m = s.store.node m) ∧
      st.queue = s.store.queue ∧ st.fence = s.store.fence ∧ st.frameLength = s.store.frameLength

/-- An ANY claim that finds no room, or a fixed claim whose cells an occupant holds that may not be displaced: queued at the tail as WAITING while the queue has room, refused QUEUE-FULL otherwise, and refused OCCUPIED with a wait limit of 0; a refusal changes no item of the store (R38, R46, R50). Before that R37's checks refuse, the first to fail giving the code: RANGE, RANK, FENCED, QUOTA and TABLE-FULL; NOT-READY, NOT-RUNNING, FROZEN, NOT-JOINED and BARRED are RefusedByDeviceStateOrUnknown's. -/
def Obligations.ClaimWaitsOrIsRefused : Prop :=
  (∀ (s : State) (n : Node) (seq : SeqNo) (a : ClaimArgs),
    s.engine.takenRequest n = some ⟨seq, .claim a⟩ → s.atTaking.device = .run → s.store.Joined n →
    (¬(1 ≤ a.width.toNat ∧ a.width.toNat ≤ 16) ∨ a.frames = 0 ∨ ¬(1 ≤ a.term.toNat ∧ a.term.toNat ≤ 4095) ∨
        3 < a.rank.toNat ∨
        (a.firstSlot ≠ 0xFF ∧ (64 ≤ a.firstSlot.toNat ∨ s.store.frameLength < a.firstSlot.toNat + a.width.toNat)) →
      exec (.claim n) s = .next ((s.takeRequest n).answer n ⟨seq, .claim a⟩ .range .none)) ∧
    (1 ≤ a.width.toNat → a.width.toNat ≤ 16 → a.frames ≠ 0 → 1 ≤ a.term.toNat → a.term.toNat ≤ 4095 →
      a.rank.toNat ≤ 3 →
      (a.firstSlot = 0xFF ∨
        (a.firstSlot.toNat < 64 ∧ a.firstSlot.toNat + a.width.toNat ≤ s.store.frameLength)) →
      ((s.store.node n).rankCeiling < a.rank.toNat →
        exec (.claim n) s = .next ((s.takeRequest n).answer n ⟨seq, .claim a⟩ .rank .none)) ∧
      (a.rank.toNat ≤ (s.store.node n).rankCeiling →
        ((a.firstSlot ≠ 0xFF ∧ a.firstSlot.toNat < s.store.fence) ∨
            (a.firstSlot = 0xFF ∧ s.store.frameLength < s.store.fence + a.width.toNat) →
          exec (.claim n) s = .next ((s.takeRequest n).answer n ⟨seq, .claim a⟩ .fenced .none)) ∧
        ((a.firstSlot ≠ 0xFF ∧ s.store.fence ≤ a.firstSlot.toNat) ∨
            (a.firstSlot = 0xFF ∧ s.store.fence + a.width.toNat ≤ s.store.frameLength) →
          ((s.store.node n).quota ≤ (s.store.node n).liveOwned →
            exec (.claim n) s = .next ((s.takeRequest n).answer n ⟨seq, .claim a⟩ .quota .none)) ∧
          ((s.store.node n).liveOwned < (s.store.node n).quota → (∀ h, (s.store.record h).state ≠ .free) →
            exec (.claim n) s = .next ((s.takeRequest n).answer n ⟨seq, .claim a⟩ .tableFull .none)))))) ∧
  ∀ (s : State) (n : Node) (seq : SeqNo) (a : ClaimArgs) (h : Handle) (target : Option Slot),
    s.engine.takenRequest n = some ⟨seq, .claim a⟩ → ClaimPasses s n a h →
    (∀ first, target = some first → a.firstSlot.toNat = first.val ∧ s.store.fence ≤ first.val ∧
      first.val + a.width.toNat ≤ s.store.frameLength ∧
      (∀ f sl, Covered a.frames first.val a.width.toNat f sl → (s.store.cell f sl).parityOk = true) ∧
      (∀ f sl v, Covered a.frames first.val a.width.toNat f sl → (s.store.cell f sl).names = some v →
        (s.store.record v).check = 0) ∧
      ∃ f sl v, Covered a.frames first.val a.width.toNat f sl ∧ (s.store.cell f sl).names = some v ∧
        ((s.store.record v).isProtected = true ∨ (s.store.record v).yields = false ∨
          ((s.store.record v).state ≠ .held ∧ (s.store.record v).state ≠ .suspended) ∨
          a.rank.toNat ≤ (s.store.record v).rank)) →
    (target = none → a.firstSlot = 0xFF ∧ s.store.fence + a.width.toNat ≤ s.store.frameLength ∧
      (∀ f sl, Covered a.frames s.store.fence (s.store.frameLength - s.store.fence) f sl →
        (s.store.cell f sl).parityOk = true) ∧
      ∀ k : Slot, s.store.fence ≤ k.val → k.val + a.width.toNat ≤ s.store.frameLength →
        ∃ f sl, Covered a.frames k.val a.width.toNat f sl ∧ (s.store.cell f sl).names ≠ none) →
    (a.waitLimit = 0 →
      exec (.claim n) s = .next ((s.takeRequest n).answer n ⟨seq, .claim a⟩ .occupied .none)) ∧
    (a.waitLimit ≠ 0 → 16 ≤ s.store.queue.length →
      exec (.claim n) s = .next ((s.takeRequest n).answer n ⟨seq, .claim a⟩ .queueFull .none)) ∧
    (a.waitLimit ≠ 0 → s.store.queue.length < 16 → ∃ st,
      exec (.claim n) s = .next (((s.takeRequest n).commit st).answer n ⟨seq, .claim a⟩ .queued
        (.queued ⟨h, (s.store.record h).generation + 1⟩ s.store.queue.length)) ∧
      st.record h = { claimedContents s.store n a h with
        state := .waiting, firstSlot := target, waitLimit := some a.waitLimit.toNat, waitAge := some 0 } ∧
      (∀ k, k ≠ h → st.record k = s.store.record k) ∧ st.queue = s.store.queue ++ [⟨h, true⟩] ∧
      st.node n = { s.store.node n with liveOwned := (s.store.node n).liveOwned + 1 } ∧
      (∀ m, m ≠ n → st.node m = s.store.node m) ∧
      st.cells = s.store.cells ∧ st.fence = s.store.fence ∧ st.frameLength = s.store.frameLength)

/-- A fixed claim whose cells weaker leases hold displaces every one of them, in ascending handle order, and is placed over their cells (R53, R55, R58). Each victim gives up its cells, its suspension and its idle count, and its chain closes with CASCADE; it waits DISPLACED at the queue's tail with the reinstatement wait and DISPLACED posted to its owner, closes LOST where the queue has no room, and closes BARRED where its owner is BARRED (R55 to R57). With one childless victim every field is as given. -/
def Obligations.ClaimDisplacesWeakerLease : Prop :=
  (∀ (s : State) (n : Node) (seq : SeqNo) (a : ClaimArgs) (h : Handle) (first : Slot) (victims : List Handle),
    s.engine.takenRequest n = some ⟨seq, .claim a⟩ → ClaimPasses s n a h → a.firstSlot.toNat = first.val →
    s.store.fence ≤ first.val → first.val + a.width.toNat ≤ s.store.frameLength →
    victims = s.store.occupants (coverCells a.frames first.val a.width.toNat) → victims ≠ [] →
    (∀ f sl, Covered a.frames first.val a.width.toNat f sl → (s.store.cell f sl).parityOk = true) →
    (∀ v ∈ victims, (s.store.record v).check = 0 ∧ (s.store.record v).isProtected = false ∧
      (s.store.record v).yields = true ∧ ((s.store.record v).state = .held ∨ (s.store.record v).state = .suspended) ∧
      (s.store.record v).rank < a.rank.toNat) →
    s.store.Good (s.store.chainItems victims) →
    (∀ v, v ∈ victims ↔
      ∃ f sl, Covered a.frames first.val a.width.toNat f sl ∧ (s.store.cell f sl).names = some v) ∧
    exec (.claim n) s = .next (((s.takeRequest n).commit
        (((victims.foldl (Store.displaceVictim s.atTaking.reinstatementWait) s.store).settle.occupy h
          { claimedContents s.store n a h with state := .held, firstSlot := some first }).countUp n)).answer n
      ⟨seq, .claim a⟩ .accepted (.claimed ⟨h, (s.store.record h).generation + 1⟩ first.val))) ∧
  (∀ (st : Store) (wait : Nat) (v : Handle),
    (∀ f sl, ((Store.displaceVictim wait st v).cell f sl).names ≠ some v ∨
      ((Store.displaceVictim wait st v).cell f sl).parityOk = false) ∧
    (∀ c ∈ st.liveChildren v, c ≠ v →
      ((Store.displaceVictim wait st v).record c).state = .closed ∧
      ((Store.displaceVictim wait st v).record c).closeReason = some .cascade ∧
      ∀ d ∈ st.liveChildren c, d ≠ v → d ≠ c →
        ((Store.displaceVictim wait st v).record d).state = .closed ∧
        ((Store.displaceVictim wait st v).record d).closeReason = some .cascade) ∧
    ((st.node (st.record v).owner).state = .barred →
      ((Store.displaceVictim wait st v).record v).state = .closed ∧
      ((Store.displaceVictim wait st v).record v).closeReason = some .barred) ∧
    ((st.node (st.record v).owner).state ≠ .barred →
      (16 ≤ (st.closeDescendants v).queue.length →
        ((Store.displaceVictim wait st v).record v).state = .closed ∧
        ((Store.displaceVictim wait st v).record v).closeReason = some .lost) ∧
      ((st.closeDescendants v).queue.length < 16 →
        (Store.displaceVictim wait st v).queue = (st.closeDescendants v).queue ++ [⟨v, true⟩] ∧
        (Store.displaceVictim wait st v).record v =
          { (st.closeDescendants v).record v with
            state := .displaced
            reasons := Reasons.empty
            used := false
            idleCount := 0
            waitLimit := some wait
            waitAge := some 0
            ownerNotices :=
              if (st.node (st.record v).owner).state = .absent then (st.record v).ownerNotices
              else (st.record v).ownerNotices ||| NoticeKind.displaced.bit }))) ∧
  (∀ (s : State) (n : Node) (seq : SeqNo) (a : ClaimArgs) (h v : Handle) (first : Slot),
        s.engine.takenRequest n = some ⟨seq, .claim a⟩ → ClaimPasses s n a h → a.firstSlot.toNat = first.val →
        s.store.fence ≤ first.val → first.val + a.width.toNat ≤ s.store.frameLength →
        (∀ f sl, Covered a.frames first.val a.width.toNat f sl →
          s.store.cell f sl = ⟨none, true⟩ ∨ s.store.cell f sl = ⟨some v, true⟩) →
        (∃ f sl, Covered a.frames first.val a.width.toNat f sl ∧ (s.store.cell f sl).names = some v) →
        (s.store.record v).check = 0 → (s.store.record v).isProtected = false → (s.store.record v).yields = true →
        ((s.store.record v).state = .held ∨ (s.store.record v).state = .suspended) →
        (s.store.record v).rank < a.rank.toNat → (s.store.record v).children = [] →
        s.store.Good (s.store.chainItems [v]) →
        (s.store.node (s.store.record v).owner).state ≠ .barred → s.store.queue.length < 16 →
        ∃ st,
          exec (.claim n) s = .next (((s.takeRequest n).commit st).answer n ⟨seq, .claim a⟩ .accepted
            (.claimed ⟨h, (s.store.record h).generation + 1⟩ first.val)) ∧
          st.record h = { claimedContents s.store n a h with state := .held, firstSlot := some first } ∧
          st.record v = { s.store.record v with
            state := .displaced
            reasons := Reasons.empty
            used := false
            idleCount := 0
            waitLimit := some s.atTaking.reinstatementWait
            waitAge := some 0
            ownerNotices :=
              if (s.store.node (s.store.record v).owner).state = .absent then (s.store.record v).ownerNotices
              else (s.store.record v).ownerNotices ||| NoticeKind.displaced.bit } ∧
          st.queue = s.store.queue ++ [⟨v, true⟩] ∧
          (∀ f sl, (st.cell f sl).names ≠ some v ∨ (st.cell f sl).parityOk = false) ∧
          (∀ f sl, Covered a.frames first.val a.width.toNat f sl → st.cell f sl = ⟨some h, true⟩))

/-- A RENEW that passes R12's checks replaces the term of a WAITING, HELD or SUSPENDED record and nothing else of the store, and is answered with tag and term (R13). A RELEASE that passes R14's checks acts by the record's state: HELD becomes DRAINING; DRAINING is unchanged; WAITING, DISPLACED and SUSPENDED close RELEASED with what R9 closes, and the record stays CLOSED for the requester's notice. A RECALL that passes R78's checks closes the child RECALLED with what R9 closes, whatever its live state; the child stays CLOSED for its owner's notice, and the response says CLOSED (R79). Otherwise the first check to fail gives the code, and the store is unchanged: RANGE, NO-SUCH-LEASE, NOT-OWNER, WRONG-STATE, PROTECTED and TERM for RENEW (R12), NO-SUCH-LEASE, NOT-OWNER, WRONG-STATE and PROTECTED for RELEASE (R14), NO-SUCH-LEASE, WRONG-STATE and NOT-OWNER for RECALL (R78); SUBLET and QUERY answer NO-SUCH-LEASE alike (R4). The checks of the device and the node are RefusedByDeviceStateOrUnknown's. -/
def Obligations.RenewReleaseAndRecall : Prop :=
  (∀ (s : State) (n : Node) (seq : SeqNo) (t : RawTag) (term : Word) (h : Handle),
        s.engine.takenRequest n = some ⟨seq, .renew t term⟩ → s.atTaking.device = .run → s.store.Joined n →
        1 ≤ term.toNat → term.toNat ≤ 4095 → s.store.Names t h → (s.store.record h).owner = n →
        (s.store.record h).state = .waiting ∨ (s.store.record h).state = .held ∨ (s.store.record h).state = .suspended →
        (s.store.record h).isProtected = false → s.store.TermAllowed (s.store.record h) term.toNat →
        exec (.renew n) s = .next
          (({ (s.takeRequest n) with
              store := s.store.putRecord h { s.store.record h with term := term.toNat } } : State).answer n
            ⟨seq, .renew t term⟩ .accepted (.renewed ⟨h, (s.store.record h).generation⟩ term.toNat))) ∧
  (∀ (s : State) (n : Node) (seq : SeqNo) (t : RawTag) (h : Handle),
      s.engine.takenRequest n = some ⟨seq, .release t⟩ → s.atTaking.device = .run → s.store.Joined n →
      s.store.Names t h →
      ((s.store.record h).owner = n ∨ ((s.store.record h).kind = .child ∧ (s.store.record h).grantee = n)) →
      (s.store.record h).isProtected = false →
      ((s.store.record h).state = .held →
        exec (.release n) s = .next
          (({ (s.takeRequest n) with
              store := s.store.putRecord h { s.store.record h with state := .draining } } : State).answer n
            ⟨seq, .release t⟩ .accepted (.released ⟨h, (s.store.record h).generation⟩ .draining))) ∧
      ((s.store.record h).state = .draining →
        exec (.release n) s = .next ((s.takeRequest n).answer n
          ⟨seq, .release t⟩ .accepted (.released ⟨h, (s.store.record h).generation⟩ .draining))) ∧
      ((s.store.record h).state = .waiting ∨ (s.store.record h).state = .displaced ∨
          (s.store.record h).state = .suspended →
        s.store.Good (s.store.closeItems h) →
        exec (.release n) s = .next
          (((s.takeRequest n).commit (s.store.close .released h).settle).answer n
            ⟨seq, .release t⟩ .accepted (.released ⟨h, (s.store.record h).generation⟩ .closed)) ∧
        ((s.store.close .released h).settle.record h).state = .closed ∧
        ((s.store.close .released h).settle.record h).closeReason = some .released)) ∧
  (∀ (s : State) (n : Node) (seq : SeqNo) (t : RawTag) (h : Handle),
      s.engine.takenRequest n = some ⟨seq, .recall t⟩ → s.atTaking.device = .run → s.store.Joined n →
      s.store.Names t h → (s.store.record h).kind = .child → (s.store.record h).state ≠ .closed →
      (s.store.record h).owner = n → s.store.Good (s.store.closeItems h) →
      exec (.recall n) s = .next
        (((s.takeRequest n).commit (s.store.close .recalled h).settle).answer n
          ⟨seq, .recall t⟩ .accepted (.recalled ⟨h, (s.store.record h).generation⟩ .closed)) ∧
      ((s.store.close .recalled h).settle.record h).state = .closed ∧
      ((s.store.close .recalled h).settle.record h).closeReason = some .recalled) ∧
  (∀ (s : State) (n : Node) (p : Posted) (t : RawTag),
      s.engine.takenRequest n = some p → (s.store.node n).check = 0 →
      ((s.atTaking.device = .run ∧ (s.store.node n).state = .joined ∧
          ((∃ term : Word, 1 ≤ term.toNat ∧ term.toNat ≤ 4095 ∧ p.request = .renew t term) ∨ p.request = .release t ∨
            (∃ m f term, p.request = .sublet t m f term) ∨ p.request = .recall t)) ∨
        (s.atTaking.device ≠ .init ∧ ((s.store.node n).state = .joined ∨ (s.store.node n).state = .barred) ∧
          p.request = .query t)) →
      (95 < t.handle.toNat ∨
        ∃ h : Handle, t.handle.toNat = h.val ∧ (s.store.record h).check = 0 ∧
          ((s.store.record h).state = .free ∨ (s.store.record h).state = .corrupt ∨
            (s.store.record h).generation ≠ t.generation)) →
      exec (requestRow n p.request) s = .next ((s.takeRequest n).answer n p .noSuchLease .none)) ∧
  (∀ (s : State) (n : Node) (seq : SeqNo) (t : RawTag) (h : Handle),
      s.atTaking.device = .run → s.store.Joined n →
      (∀ term : Word, s.engine.takenRequest n = some ⟨seq, .renew t term⟩ →
        (term = 0 ∨ 4095 < term.toNat →
          exec (.renew n) s = .next ((s.takeRequest n).answer n ⟨seq, .renew t term⟩ .range .none)) ∧
        (1 ≤ term.toNat → term.toNat ≤ 4095 → s.store.Names t h →
          ((s.store.record h).owner ≠ n →
            exec (.renew n) s = .next ((s.takeRequest n).answer n ⟨seq, .renew t term⟩ .notOwner .none)) ∧
          ((s.store.record h).owner = n →
            ((s.store.record h).state = .draining ∨ (s.store.record h).state = .displaced ∨
                (s.store.record h).state = .closed →
              exec (.renew n) s = .next ((s.takeRequest n).answer n ⟨seq, .renew t term⟩ .wrongState .none)) ∧
            ((s.store.record h).state = .waiting ∨ (s.store.record h).state = .held ∨
                (s.store.record h).state = .suspended →
              ((s.store.record h).isProtected = true →
                exec (.renew n) s = .next ((s.takeRequest n).answer n ⟨seq, .renew t term⟩ .protectedLease .none)) ∧
              (∀ p, (s.store.record h).isProtected = false → (s.store.record h).kind = .child →
                (s.store.record h).parent = some p → (s.store.record p).check = 0 → (s.store.record p).term ≠ 0 →
                (s.store.record p).term < term.toNat →
                exec (.renew n) s = .next ((s.takeRequest n).answer n ⟨seq, .renew t term⟩ .term .none)))))) ∧
      (s.engine.takenRequest n = some ⟨seq, .release t⟩ → s.store.Names t h →
        (¬HasRole (s.store.record h) n →
          exec (.release n) s = .next ((s.takeRequest n).answer n ⟨seq, .release t⟩ .notOwner .none)) ∧
        (HasRole (s.store.record h) n →
          ((s.store.record h).state = .closed →
            exec (.release n) s = .next ((s.takeRequest n).answer n ⟨seq, .release t⟩ .wrongState .none)) ∧
          ((s.store.record h).state ≠ .closed → (s.store.record h).isProtected = true →
            exec (.release n) s = .next ((s.takeRequest n).answer n ⟨seq, .release t⟩ .protectedLease .none)))) ∧
      (s.engine.takenRequest n = some ⟨seq, .recall t⟩ → s.store.Names t h →
        ((s.store.record h).kind = .root ∨ (s.store.record h).state = .closed →
          exec (.recall n) s = .next ((s.takeRequest n).answer n ⟨seq, .recall t⟩ .wrongState .none)) ∧
        ((s.store.record h).kind = .child → (s.store.record h).state ≠ .closed → (s.store.record h).owner ≠ n →
          exec (.recall n) s = .next ((s.takeRequest n).answer n ⟨seq, .recall t⟩ .notOwner .none))))

/-- A SUBLET that passes R71's checks makes the lowest FREE record a HELD child with R70's contents and GRANTED for its target, lists it last under the parent, and raises the requester's count; the rest of the store is unchanged (R73). Otherwise the first check to fail gives R71's code, and the store is unchanged: NOT-OWNER, WRONG-STATE, DEPTH, RANGE, OVERLAP, TERM, the target's NOT-JOINED and BARRED, QUOTA and TABLE-FULL; NO-SUCH-LEASE is RenewReleaseAndRecall's, and the checks of the device and the requester are RefusedByDeviceStateOrUnknown's. -/
def Obligations.SubletCreatesChild : Prop :=
  (∀ (s : State) (n : Node) (seq : SeqNo) (t : RawTag) (target : Byte) (frames : FrameSet) (term : Word) (p : Handle),
    s.engine.takenRequest n = some ⟨seq, .sublet t target frames term⟩ → s.atTaking.device = .run → s.store.Joined n →
    s.store.Names t p → (∀ c ∈ (s.store.record p).children, (s.store.record c).check = 0) →
    ((s.store.record p).grantee ≠ n →
      exec (.sublet n) s = .next
        ((s.takeRequest n).answer n ⟨seq, .sublet t target frames term⟩ .notOwner .none)) ∧
    ((s.store.record p).grantee = n →
      ((s.store.record p).state ≠ .held →
        exec (.sublet n) s = .next
          ((s.takeRequest n).answer n ⟨seq, .sublet t target frames term⟩ .wrongState .none)) ∧
      ((s.store.record p).state = .held →
        (2 ≤ (s.store.record p).depth ∨ 4 ≤ (s.store.record p).children.length →
          exec (.sublet n) s = .next
            ((s.takeRequest n).answer n ⟨seq, .sublet t target frames term⟩ .depth .none)) ∧
        ((s.store.record p).depth < 2 → (s.store.record p).children.length < 4 →
          (frames = 0 ∨ term = 0 ∨ 4095 < term.toNat ∨ 11 < target.toNat →
            exec (.sublet n) s = .next
              ((s.takeRequest n).answer n ⟨seq, .sublet t target frames term⟩ .range .none)) ∧
          (∀ m : Node, frames ≠ 0 → 1 ≤ term.toNat → term.toNat ≤ 4095 → target.toNat = m.val →
            (frames &&& ~~~(s.store.record p).frameSet ≠ 0 ∨
                (∃ c ∈ (s.store.record p).children, frames &&& (s.store.record c).frameSet ≠ 0) →
              exec (.sublet n) s = .next
                ((s.takeRequest n).answer n ⟨seq, .sublet t target frames term⟩ .overlap .none)) ∧
            (frames &&& ~~~(s.store.record p).frameSet = 0 →
              (∀ c ∈ (s.store.record p).children, frames &&& (s.store.record c).frameSet = 0) →
              ((s.store.record p).term ≠ 0 → (s.store.record p).term < term.toNat →
                exec (.sublet n) s = .next
                  ((s.takeRequest n).answer n ⟨seq, .sublet t target frames term⟩ .term .none)) ∧
              ((s.store.record p).term = 0 ∨ term.toNat ≤ (s.store.record p).term → (s.store.node m).check = 0 →
                ((s.store.node m).state = .absent →
                  exec (.sublet n) s = .next
                    ((s.takeRequest n).answer n ⟨seq, .sublet t target frames term⟩ .notJoined .none)) ∧
                ((s.store.node m).state = .barred →
                  exec (.sublet n) s = .next
                    ((s.takeRequest n).answer n ⟨seq, .sublet t target frames term⟩ .barred .none)) ∧
                ((s.store.node m).state = .joined →
                  ((s.store.node n).quota ≤ (s.store.node n).liveOwned →
                    exec (.sublet n) s = .next
                      ((s.takeRequest n).answer n ⟨seq, .sublet t target frames term⟩ .quota .none)) ∧
                  ((s.store.node n).liveOwned < (s.store.node n).quota → (∀ k, (s.store.record k).state ≠ .free) →
                    exec (.sublet n) s = .next
                      ((s.takeRequest n).answer n ⟨seq, .sublet t target frames term⟩ .tableFull .none)))))))))) ∧
  ∀ (s : State) (n m : Node) (seq : SeqNo) (t : RawTag) (target : Byte) (frames : FrameSet) (term : Word) (p h : Handle),
    s.engine.takenRequest n = some ⟨seq, .sublet t target frames term⟩ → s.atTaking.device = .run → s.store.Joined n →
    s.store.Names t p → (s.store.record p).grantee = n → (s.store.record p).state = .held →
    (s.store.record p).depth < 2 → (s.store.record p).children.length < 4 → frames ≠ 0 → 1 ≤ term.toNat →
    term.toNat ≤ 4095 → target.toNat = m.val →
    (∀ c ∈ (s.store.record p).children, (s.store.record c).check = 0 ∧ frames &&& (s.store.record c).frameSet = 0) →
    frames &&& ~~~(s.store.record p).frameSet = 0 →
    ((s.store.record p).term = 0 ∨ term.toNat ≤ (s.store.record p).term) → s.store.Joined m →
    (s.store.node n).liveOwned < (s.store.node n).quota → s.store.NextFree h →
    ∃ st,
      exec (.sublet n) s = .next (((s.takeRequest n).commit st).answer n ⟨seq, .sublet t target frames term⟩ .accepted
        (.sublet ⟨h, (s.store.record h).generation + 1⟩)) ∧
      st.record h =
        { LeaseRecord.cleared ((s.store.record h).generation + 1) with
          state := .held
          kind := .child
          owner := n
          grantee := m
          firstSlot := (s.store.record p).firstSlot
          width := (s.store.record p).width
          frameSet := frames
          rank := (s.store.record p).rank
          yields := (s.store.record p).yields
          term := term.toNat
          parent := some p
          depth := (s.store.record p).depth + 1
          granteeNotices := NoticeKind.granted.bit } ∧
      st.record p = { s.store.record p with children := (s.store.record p).children ++ [h] } ∧
      (∀ k, k ≠ h → k ≠ p → st.record k = s.store.record k) ∧
      st.node n = { s.store.node n with liveOwned := (s.store.node n).liveOwned + 1 } ∧
      (∀ k, k ≠ n → st.node k = s.store.node k) ∧ st.cells = s.store.cells ∧ st.queue = s.store.queue ∧
      st.fence = s.store.fence ∧ st.frameLength = s.store.frameLength

/-- JOIN, taken in CONFIG or RUN with a good node record, makes an ABSENT node JOINED, leaves a JOINED one, refuses a BARRED one, and reports quota, rank ceiling and strike count, which it keeps; no lease record changes (R159). QUERY reports the named record's items to its owner or a child's grantee and STATUS the requester's node record with the superframe counter as it stood at the taking, the fence and S; the owner of a root is its grantee too (R1, R203); neither changes anything but the link, the chain and the pending set (R162, R163). -/
def Obligations.JoinQueryAndStatus : Prop :=
  (∀ (s : State) (n : Node) (seq : SeqNo), s.engine.takenRequest n = some ⟨seq, .join⟩ →
      s.atTaking.device = .config ∨ s.atTaking.device = .run → (s.store.node n).check = 0 →
      ((s.store.node n).state = .absent →
        exec (.join n) s = .next
          (({ (s.takeRequest n) with
              store := s.store.putNode n { s.store.node n with state := .joined } } : State).answer n ⟨seq, .join⟩
            .accepted (.joined (s.store.node n).quota (s.store.node n).rankCeiling (s.store.node n).strikes))) ∧
      ((s.store.node n).state = .joined →
        exec (.join n) s = .next ((s.takeRequest n).answer n ⟨seq, .join⟩
          .accepted (.joined (s.store.node n).quota (s.store.node n).rankCeiling (s.store.node n).strikes))) ∧
      ((s.store.node n).state = .barred →
        exec (.join n) s = .next ((s.takeRequest n).answer n ⟨seq, .join⟩ .barred .none))) ∧
  (∀ (s : State) (n : Node) (seq : SeqNo), s.atTaking.device ≠ .init → (s.store.node n).check = 0 →
      (∀ (t : RawTag) (h : Handle), s.engine.takenRequest n = some ⟨seq, .query t⟩ →
        (s.store.node n).state = .joined ∨ (s.store.node n).state = .barred → s.store.Names t h →
        ((s.store.record h).owner = n ∨ ((s.store.record h).kind = .child ∧ (s.store.record h).grantee = n) →
          ∃ q, exec (.query n) s = .next ((s.takeRequest n).answer n ⟨seq, .query t⟩ .accepted (.queried q)) ∧
            q.tag = ⟨h, (s.store.record h).generation⟩ ∧ q.state = (s.store.record h).state ∧
            q.kind = (s.store.record h).kind ∧ q.owner = (s.store.record h).owner ∧
            q.grantee = (s.store.record h).grantee ∧ q.isProtected = (s.store.record h).isProtected ∧
            q.firstSlot = (s.store.record h).firstSlot ∧ q.width = (s.store.record h).width ∧
            q.frameSet = (s.store.record h).frameSet ∧ q.term = (s.store.record h).term ∧
            q.rank = (s.store.record h).rank ∧ q.yields = (s.store.record h).yields ∧
            q.depth = (s.store.record h).depth ∧ q.parent = (s.store.record h).parent ∧
            q.childCount = (s.store.record h).children.length ∧ q.reasons = (s.store.record h).reasons ∧
            q.waitAge = (s.store.record h).waitAge ∧ q.waitLimit = (s.store.record h).waitLimit ∧
            q.closeReason = (s.store.record h).closeReason ∧
            (q.asOwner = true ↔ (s.store.record h).owner = n) ∧
            (q.asGrantee = true ↔ (s.store.record h).grantee = n)) ∧
        ((s.store.record h).owner ≠ n → ¬((s.store.record h).kind = .child ∧ (s.store.record h).grantee = n) →
          exec (.query n) s = .next ((s.takeRequest n).answer n ⟨seq, .query t⟩ .notOwner .none))) ∧
      (s.engine.takenRequest n = some ⟨seq, .status⟩ →
        exec (.status n) s = .next ((s.takeRequest n).answer n ⟨seq, .status⟩ .accepted
          (.status ⟨(s.store.node n).state, (s.store.node n).quota, (s.store.node n).rankCeiling,
            (s.store.node n).strikes, (s.store.node n).liveOwned, s.atTaking.superframe, s.store.fence,
            s.store.frameLength⟩))))

/-- A LEAVE by a JOINED node that reads cleanly leaves it ABSENT with no live record owned, no live child granted to it, no notice addressed to it and a count of 0; quota, rank ceiling and strike count are kept (R161, Law 8). Its live records, and the live children granted to it, are closed LEFT in ascending handle order, their live descendants CASCADE, and one that such a cascade closed is passed over and not counted: the response reports the number closed LEFT. Then every notice set addressed to the node is emptied, its CLOSED records become FREE, with CLOSE-DROPPED raised exactly where one held a notice for another node, and so does any other CLOSED record without notices. A child that another node granted to it stays CLOSED LEFT with CLOSED posted to its owner, unless that node is ABSENT. A record in which the node has no role, and that no closing reaches, is unchanged. A BARRED node is refused and an ABSENT one answered with a count of 0, without a change (R160). -/
def Obligations.LeaveEmptiesNode : Prop :=
  ∀ (s : State) (n : Node) (seq : SeqNo), s.engine.takenRequest n = some ⟨seq, .leave⟩ →
    s.atTaking.device = .config ∨ s.atTaking.device = .run → (s.store.node n).check = 0 →
    ((s.store.node n).state = .barred →
      exec (.leave n) s = .next ((s.takeRequest n).answer n ⟨seq, .leave⟩ .barred .none)) ∧
    ((s.store.node n).state = .absent →
      exec (.leave n) s = .next ((s.takeRequest n).answer n ⟨seq, .leave⟩ .accepted (.left 0))) ∧
    ((s.store.node n).state = .joined → s.store.Good (s.store.leaveItems n) → ∃ t closed count,
      exec (.leave n) s = .next t ∧
      t.links[n].cached = some ⟨seq, 0x07, .accepted, .left count⟩ ∧
      (closed, count) = (allHandles.filter fun h =>
          (s.store.record h).state.isLive && decide (HasRole (s.store.record h) n)).foldl
        (fun a h => if (a.1.record h).state.isLive then (a.1.close .left h, a.2 + 1) else a)
        (s.store.putNode n { s.store.node n with state := .absent }, 0) ∧
      (∀ k, t.store.record k =
        (let r := closed.record k
        let kept : LeaseRecord := { r with
          ownerNotices := if r.owner = n then 0 else r.ownerNotices
          granteeNotices := if r.kind = .child ∧ r.grantee = n then 0 else r.granteeNotices }
        if r.state = .closed ∧ (r.owner = n ∨ (kept.ownerNotices = 0 ∧ kept.granteeNotices = 0)) then
          LeaseRecord.cleared r.generation
        else kept)) ∧
      ((∃ k, (closed.record k).state = .closed ∧ (closed.record k).owner = n ∧ (closed.record k).kind = .child ∧
          (closed.record k).grantee ≠ n ∧ (closed.record k).granteeNotices ≠ 0) →
        t.port.flags &&& EventFlag.closeDropped.bit = EventFlag.closeDropped.bit) ∧
      ((∀ k, (closed.record k).state = .closed → (closed.record k).owner = n →
          (closed.record k).granteeNotices = 0 ∨ ((closed.record k).kind = .child ∧ (closed.record k).grantee = n)) →
        t.port.flags = s.port.flags) ∧
      (∀ k, (s.store.record k).state.isLive = true → (s.store.record k).kind = .child →
        (s.store.record k).grantee = n → (s.store.record k).owner ≠ n →
        (∀ p, (s.store.record p).state.isLive = true → k ∉ (s.store.record p).children ∨ ¬HasRole (s.store.record p) n) →
        (∀ g p, k ∈ (s.store.record p).children → p ∈ (s.store.record g).children → ¬HasRole (s.store.record g) n) →
        (s.store.node (s.store.record k).owner).state ≠ .absent →
        (t.store.record k).state = .closed ∧ (t.store.record k).closeReason = some .left ∧
        (t.store.record k).ownerNotices = (s.store.record k).ownerNotices ||| NoticeKind.closed.bit ∧
        (t.store.record k).granteeNotices = 0) ∧
      (∀ k, ¬HasRole (s.store.record k) n → (s.store.record k).state ≠ .closed →
        (t.store.record k).state = (s.store.record k).state →
        withChildren (t.store.record k) (s.store.record k).children = s.store.record k) ∧
      t.store.cells = closed.cells ∧ t.store.queue = closed.queue ∧
      t.store.node n = { s.store.node n with state := .absent, liveOwned := 0 } ∧
      (∀ k, (t.store.record k).state.isLive = true →
        (t.store.record k).owner ≠ n ∧ ¬((t.store.record k).kind = .child ∧ (t.store.record k).grantee = n)) ∧
      t.store.hasNoticeFor n = false ∧
      (∀ m, m ≠ n → t.store.node m = closed.node m ∧
        (t.store.node m).state = (s.store.node m).state ∧ (t.store.node m).quota = (s.store.node m).quota ∧
        (t.store.node m).rankCeiling = (s.store.node m).rankCeiling ∧
        (t.store.node m).strikes = (s.store.node m).strikes) ∧
      t.store.fence = s.store.fence ∧ t.store.frameLength = s.store.frameLength ∧ t.seq = s.seq)

/-- POLL takes one set of the lowest record that holds one for the requester, the owner set first, empties it, and frees a CLOSED record left without notices; with none it answers NOTHING and changes nothing of the store (R164, R165). -/
def Obligations.PollTakesLowestSet : Prop :=
  ∀ (s : State) (n : Node) (seq : SeqNo), s.engine.takenRequest n = some ⟨seq, .poll⟩ →
    s.atTaking.device ≠ .init → (s.store.node n).check = 0 →
    (s.store.node n).state = .joined ∨ (s.store.node n).state = .barred →
    ((∀ k, (s.store.record k).check = 0) → s.store.hasNoticeFor n = false →
      exec (.poll n) s = .next ((s.takeRequest n).answer n ⟨seq, .poll⟩ .nothing .none)) ∧
    (∀ h : Handle, (∀ k : Handle, k ≤ h → (s.store.record k).check = 0) →
      (∀ k : Handle, k < h → (s.store.record k).ownerNoticesFor n = 0 ∧ (s.store.record k).granteeNoticesFor n = 0) →
      ((s.store.record h).ownerNoticesFor n ≠ 0 →
        exec (.poll n) s = .next (((s.takeRequest n).commit (s.store.putRecord h
            (if (s.store.record h).state = .closed ∧ (s.store.record h).granteeNotices = 0 then
              LeaseRecord.cleared (s.store.record h).generation
            else { s.store.record h with ownerNotices := 0 }))).answer n ⟨seq, .poll⟩ .accepted
          (.polled ⟨h, (s.store.record h).generation⟩ (s.store.record h).state (s.store.record h).closeReason .owner
            (s.store.record h).ownerNotices))) ∧
      ((s.store.record h).ownerNoticesFor n = 0 → (s.store.record h).granteeNoticesFor n ≠ 0 →
        exec (.poll n) s = .next (((s.takeRequest n).commit (s.store.putRecord h
            (if (s.store.record h).state = .closed ∧ (s.store.record h).ownerNotices = 0 then
              LeaseRecord.cleared (s.store.record h).generation
            else { s.store.record h with granteeNotices := 0 }))).answer n ⟨seq, .poll⟩ .accepted
          (.polled ⟨h, (s.store.record h).generation⟩ (s.store.record h).state (s.store.record h).closeReason .grantee
            (s.store.record h).granteeNotices))))

/-! The engine's own operations. -/

/-- What R9's closing leaves, for any record and reason: the record CLOSED with the reason, a close age of 0 and no suspension reason; no cell of an occupying root, no queue entry of a waiting one, a child in its parent's list no more; CLOSED posted to the owner and a child's grantee unless ABSENT (R8); its live descendants CLOSED with CASCADE (R10). Where the record lists no child, no record but it and its parent changes, and no node record but its owner's, whose count falls by one (R7). -/
def Obligations.ClosingDoesWhatItSays : Prop :=
  ∀ (st : Store) (why : CloseReason) (h : Handle),
    ((st.close why h).record h).state = .closed ∧ ((st.close why h).record h).closeReason = some why ∧
    ((st.close why h).record h).closeAge = some 0 ∧ ((st.close why h).record h).reasons = ⟨false, false, false⟩ ∧
    ((st.record h).isOccupyingRoot = true →
      ∀ f sl, ((st.close why h).cell f sl).parityOk = true → ((st.close why h).cell f sl).names ≠ some h) ∧
    ((st.record h).state.isQueued = true →
      (∀ e ∈ (st.close why h).queue, e.handle ≠ h) ∧ ((st.close why h).record h).waitLimit = none ∧
      ((st.close why h).record h).waitAge = none) ∧
    ((st.record h).children = [] →
      (∀ k, k ≠ h → (st.record h).parent ≠ some k → (st.close why h).record k = st.record k) ∧
      (st.close why h).node (st.record h).owner =
        { st.node (st.record h).owner with liveOwned := (st.node (st.record h).owner).liveOwned - 1 } ∧
      ∀ m, m ≠ (st.record h).owner → (st.close why h).node m = st.node m) ∧
    ((st.record h).kind = .child → ∀ p, (st.record h).parent = some p → h ∉ ((st.close why h).record p).children) ∧
    ((st.close why h).record h).ownerNotices =
      (if (st.node (st.record h).owner).state = .absent then (st.record h).ownerNotices
      else (st.record h).ownerNotices ||| NoticeKind.closed.bit) ∧
    ((st.close why h).record h).granteeNotices =
      (if (st.record h).kind = .root ∨ (st.node (st.record h).grantee).state = .absent then
        (st.record h).granteeNotices
      else (st.record h).granteeNotices ||| NoticeKind.closed.bit) ∧
    (∀ c ∈ st.liveChildren h, c ≠ h →
      ((st.close why h).record c).state = .closed ∧ ((st.close why h).record c).closeReason = some .cascade ∧
      ∀ d ∈ st.liveChildren c, d ≠ h → d ≠ c →
        ((st.close why h).record d).state = .closed ∧ ((st.close why h).record d).closeReason = some .cascade) ∧
    (st.close why h).fence = st.fence ∧ (st.close why h).frameLength = st.frameLength

/-- A sweep taken outside RUN is dropped with SWEEP-SKIPPED; one that meets a failed check makes no stage: in QUARANTINE mode it returns with its count raised behind the quarantine it posts, and is withdrawn with SWEEP-SKIPPED at the fourth abandonment, and in HALT mode it is dropped with SWEEP-SKIPPED (R95, R103, R195). What a failed check does is RequestIsAnswered's, and the mode is the one found at the taking (log 45). That the returned count replaces that of a newer sweep which has become pending meanwhile is the model's choice (log 46). A sweep meets a failed check exactly where one of the 96 records, a queue entry, a cell below S or a node record that its visits use is damaged (R94, R103, R155); that the node records its visits use are among them is the model's reading (log 12), each found on the store that the visits before leave: those of the parties of a record that closes or is told of its term, and of the owner of an entry that is placed. -/
def Obligations.SweepDroppedReturnedOrWithdrawn : Prop :=
  (∀ (s : State) (count : Nat), s.engine.taking = some (.sweep count) →
    (¬(s.atTaking.device = .run ∧ (s.atTaking.seqState = .running ∨ s.atTaking.seqState = .stopping)) →
      exec .sweep s = .next ((s.take (.sweep count)).raise .sweepSkipped)) ∧
    (∀ i, s.atTaking.device = .run → s.atTaking.seqState = .running ∨ s.atTaking.seqState = .stopping →
      s.sweepFailure = some i →
      (s.atTaking.integrityMode = .quarantine → count < 3 → ∃ u,
        u = (s.take (.sweep count)).failedCheck .quarantine .sweep i ∧
        exec .sweep s = .next { u with engine := { u.engine with sweep := some (count + 1) } }) ∧
      (s.atTaking.integrityMode = .quarantine → 3 ≤ count →
        exec .sweep s = .next (((s.take (.sweep count)).failedCheck .quarantine .sweep i).raise .sweepSkipped) ∧
        exec .sweepWithdrawn s = exec .sweep s) ∧
      (s.atTaking.integrityMode = .halt →
        exec .sweep s = .next (((s.take (.sweep count)).failedCheck .halt .sweep i).raise .sweepSkipped)))) ∧
  (∀ s : State,
    (s.sweepFailure = none ↔
      (∀ h, (s.store.record h).check = 0) ∧ (∀ e ∈ s.store.queue, e.parityOk = true) ∧
      (∀ f sl, sl.val < s.store.frameLength → (s.store.cell f sl).parityOk = true) ∧
      ∀ earlier v later, sweepVisits s.store = earlier ++ v :: later →
        s.store.Good (visitNodes s.atTaking.idleLimit s.atTaking.warningThreshold
          (earlier.foldl (visit s.atTaking.idleLimit s.atTaking.warningThreshold) s.store) v)) ∧
    (∀ i, s.sweepFailure = some i → s.store.fails i = true ∧
      ((∀ h, (s.store.record h).check = 0) → (∀ e ∈ s.store.queue, e.parityOk = true) →
        (∀ f sl, sl.val < s.store.frameLength → (s.store.cell f sl).parityOk = true) → ∃ n, i = .node n))) ∧
  (∀ (st : Store) (limit warning : Nat) (h : Handle),
    visitNodes limit warning st (.closeAge h) = [] ∧ visitNodes limit warning st .clearUsed = [] ∧
    (∀ v ∈ [Visit.idle h, .term h, .drain h, .queueEntry h], ∀ i ∈ visitNodes limit warning st v,
      i ∈ st.closingNodes h) ∧
    (∀ v ∈ [Visit.idle h, .term h, .drain h, .queueEntry h], (st.record h).state.isLive = true →
      ((visit limit warning st v).record h).state = .closed → visitNodes limit warning st v = st.closingNodes h) ∧
    (((visit limit warning st (.term h)).record h).ownerNotices ≠ (st.record h).ownerNotices →
      ∀ i ∈ st.partyItems h, i ∈ visitNodes limit warning st (.term h)) ∧
    ((st.record h).state.isQueued = true → ((visit limit warning st (.queueEntry h)).record h).state = .held →
      visitNodes limit warning st (.queueEntry h) = [.node (st.record h).owner]) ∧
    (∀ i, i ∈ st.partyItems h ↔
      i = .node (st.record h).owner ∨ ((st.record h).kind = .child ∧ i = .node (st.record h).grantee)) ∧
    (∀ i, i ∈ st.closingNodes h ↔ i ∈ st.partyItems h ∨
      ∃ c ∈ (st.record h).children, i ∈ st.partyItems c ∨ ∃ d ∈ (st.record c).children, i ∈ st.partyItems d))

/-- A sweep that reads cleanly is performed whole: it makes R104's visits in order, four stages over the records by handle, the queue from its head, the used marks. No record stays DRAINING, no used mark stays set, a CLOSED record of close age 3 is FREE with CLOSE-DROPPED if it held a notice, a counting record of term 1 is live no more, and node states, fence and S are unchanged (R18 to R20, R103 to R105). What each visit does is SweepVisitsCountAndPlace's and SweepVisitsClose's. -/
def Obligations.SweepMakesItsStages : Prop :=
  ∀ (s : State) (count : Nat), s.engine.taking = some (.sweep count) → s.atTaking.device = .run →
    s.atTaking.seqState = .running ∨ s.atTaking.seqState = .stopping → s.sweepFailure = none →
    ∃ t, exec .sweep s = .next t ∧ t.engine.sweep = (s.take (.sweep count)).engine.sweep ∧ t.engine.inProgress = none ∧
      t.store = ((allHandles.map Visit.closeAge ++ allHandles.map Visit.idle ++ allHandles.map Visit.term ++
          allHandles.map Visit.drain ++ s.store.queue.map (fun e => Visit.queueEntry e.handle) ++ [Visit.clearUsed]).foldl
        (visit s.atTaking.idleLimit s.atTaking.warningThreshold) s.store).settle ∧
      (∀ h, (t.store.record h).state ≠ .draining ∧ (t.store.record h).used = false) ∧
      (∀ h, (s.store.record h).state = .closed → (s.store.record h).closeAge = some 3 →
        t.store.record h = LeaseRecord.cleared (s.store.record h).generation ∧
        ((s.store.record h).ownerNotices ≠ 0 ∨ (s.store.record h).granteeNotices ≠ 0 →
          t.port.flags &&& EventFlag.closeDropped.bit = EventFlag.closeDropped.bit)) ∧
      (∀ h, (s.store.record h).state = .held ∨ (s.store.record h).state = .draining ∨
          (s.store.record h).state = .suspended →
        (s.store.record h).term = 1 → (t.store.record h).state.isLive = false) ∧
      (∀ n, (t.store.node n).state = (s.store.node n).state) ∧ t.store.fence = s.store.fence ∧
      t.store.frameLength = s.store.frameLength ∧ t.seq = s.seq ∧ t.control = s.control

/-- The rows for one visit of a sweep in progress: a record of close age 3 becomes FREE, and records close IDLE, EXPIRED, RELEASED at the drain stage, and WAIT-OVER or LOST in the queue pass; the sweep stays in progress with the visit made (R18, R19, R20, R66, R136; the split is the model's choice, log 3). The visits hold for a damaged record too: that a record damaged between two visit rows is visited by its contents as they stand, and is good again where close aging frees it, is the model's choice (log 44). -/
def Obligations.SweepVisitsClose : Prop :=
  ∀ (s : State) (p : SweepProgress) (h : Handle) (rest : List Visit), s.engine.inProgress = some (.sweep p) →
    (p.todo = .closeAge h :: rest → .closeAge h ∉ rest → (s.store.record h).state = .closed →
      (s.store.record h).closeAge = some 3 → ∃ t,
      exec (.closeAgeFree h) s = .next t ∧
      t.store = s.store.putRecord h (LeaseRecord.cleared (s.store.record h).generation) ∧
      t.engine.inProgress = some (.sweep { p with
        todo := rest
        closeDropped := p.closeDropped || decide ((s.store.record h).ownerNotices ≠ 0 ∨ (s.store.record h).granteeNotices ≠ 0) })) ∧
    (p.todo = .idle h :: rest → .idle h ∉ rest → p.idleLimit ≠ 0 → p.idleLimit ≤ 15 →
      (s.store.record h).state = .held → (s.store.record h).isProtected = false → (s.store.record h).used = false →
      s.store.hasSuspendedAncestor h = false → p.idleLimit ≤ (s.store.record h).idleCount + 1 → ∃ t,
      exec (.idleReclaim h) s = .next t ∧ (t.store.record h).state = .closed ∧
      (t.store.record h).closeReason = some .idle ∧
      t.engine.inProgress = some (.sweep { p with todo := rest })) ∧
    (p.todo = .term h :: rest → .term h ∉ rest →
      (s.store.record h).state = .held ∨ (s.store.record h).state = .draining ∨ (s.store.record h).state = .suspended →
      (s.store.record h).term = 1 → ∃ t,
      exec (.termExpiry h) s = .next t ∧ (t.store.record h).state = .closed ∧
      (t.store.record h).closeReason = some .expired ∧ (t.store.record h).term = 0 ∧
      t.engine.inProgress = some (.sweep { p with todo := rest })) ∧
    (p.todo = .drain h :: rest → (s.store.record h).state = .draining → ∃ t,
      exec .drainCompletion s = .next t ∧
      (∀ k, .drain k ∈ p.todo.takeWhile isDrainVisit → (t.store.record k).state ≠ .draining) ∧
      (t.store.record h).state = .closed ∧ (t.store.record h).closeReason = some .released ∧
      t.engine.inProgress = some (.sweep { p with todo := p.todo.dropWhile isDrainVisit })) ∧
    (p.todo = .queueEntry h :: rest → .queueEntry h ∉ rest →
      (s.store.record h).state = .waiting ∨ (s.store.record h).state = .displaced →
      (∀ a, (s.store.record h).firstSlot = some a →
        s.store.fixedFits (s.store.record h).isProtected a (s.store.record h).width (s.store.record h).frameSet = false) →
      ((s.store.record h).firstSlot = none →
        s.store.anySlot (s.store.record h).width (s.store.record h).frameSet = none) →
      (∀ age, (s.store.record h).waitAge = some age → (s.store.record h).waitLimit = some (age + 1) → ∃ t,
        exec (.waitOver h) s = .next t ∧ (t.store.record h).state = .closed ∧
        (t.store.record h).closeReason =
          some (if (s.store.record h).state = .waiting then .waitOver else .lost) ∧
        (∀ e ∈ t.store.queue, e.handle ≠ h) ∧
        t.engine.inProgress = some (.sweep { p with todo := rest })))

/-- What a sweep's visits count and place: close aging adds one to a CLOSED record's close age and frees it at 4 (R20); idle accounting clears a used record's idle count or adds one to an unused one's, passing over protected records and those under a SUSPENDED ancestor (R86, R136); the countdown takes one from a term above 1 and posts EXPIRING at the warning threshold (R16, R17); the queue pass places an entry whose cells are empty with PLACED, reinstates a displaced one with REINSTATED, and adds one to the age of an entry that stays (R64 to R66); the last stage clears the used marks (R105). Nothing else of the store changes. A cell with bad parity counts as not empty (R30); that a sweep in progress goes on where it meets one is the model's reading (log 39). The visits hold for a damaged record too: that a record damaged between two visit rows is visited by its contents as they stand, and is good again where close aging frees it, is the model's choice (log 44). -/
def Obligations.SweepVisitsCountAndPlace : Prop :=
  ∀ (st : Store) (limit warning : Nat) (h : Handle),
    ((st.record h).state ≠ .closed → visit limit warning st (.closeAge h) = st) ∧
    (∀ age, (st.record h).state = .closed → (st.record h).closeAge = some age →
      visit limit warning st (.closeAge h) = st.putRecord h
        (if age < 3 then { st.record h with closeAge := some (age + 1) }
        else LeaseRecord.cleared (st.record h).generation)) ∧
    ((limit = 0 ∨ (st.record h).state ≠ .held ∨ (st.record h).isProtected = true ∨ st.hasSuspendedAncestor h = true) →
      visit limit warning st (.idle h) = st) ∧
    (limit ≠ 0 → limit ≤ 15 → (st.record h).state = .held → (st.record h).isProtected = false →
      st.hasSuspendedAncestor h = false →
      ((st.record h).used = true →
        visit limit warning st (.idle h) = st.putRecord h { st.record h with idleCount := 0 }) ∧
      ((st.record h).used = false → (st.record h).idleCount + 1 < limit →
        visit limit warning st (.idle h) =
          st.putRecord h { st.record h with idleCount := (st.record h).idleCount + 1 })) ∧
    ((st.record h).state.isOccupying = false ∨ (st.record h).term = 0 → visit limit warning st (.term h) = st) ∧
    ((st.record h).state.isOccupying = true → 1 < (st.record h).term →
      visit limit warning st (.term h) =
        (if warning ≠ 0 ∧ (st.record h).term - 1 = warning then
          (st.putRecord h { st.record h with term := (st.record h).term - 1 }).postParties h .expiring
        else st.putRecord h { st.record h with term := (st.record h).term - 1 })) ∧
    ((st.record h).state ≠ .draining → visit limit warning st (.drain h) = st) ∧
    ((st.record h).state.isQueued = false → visit limit warning st (.queueEntry h) = st) ∧
    (∀ first : Slot, (st.record h).state.isQueued = true →
      first.val + (st.record h).width ≤ st.frameLength →
      (∀ f sl, Covered (st.record h).frameSet first.val (st.record h).width f sl → st.cell f sl = ⟨none, true⟩) →
      ((st.record h).firstSlot = some first ∧ ((st.record h).isProtected = true ∨ st.fence ≤ first.val) ∨
        (st.record h).firstSlot = none ∧ st.fence ≤ first.val ∧
          ∀ k : Slot, st.fence ≤ k.val → k < first →
            ∃ f sl, Covered (st.record h).frameSet k.val (st.record h).width f sl ∧ st.cell f sl ≠ ⟨none, true⟩) →
      (visit limit warning st (.queueEntry h)).record h =
        { st.record h with
          state := .held
          firstSlot := some first
          waitLimit := none
          waitAge := none
          ownerNotices :=
            if (st.node (st.record h).owner).state = .absent then (st.record h).ownerNotices
            else (st.record h).ownerNotices |||
              (if (st.record h).state = .waiting then NoticeKind.placed.bit else NoticeKind.reinstated.bit) } ∧
      (∀ k, k ≠ h → (visit limit warning st (.queueEntry h)).record k = st.record k) ∧
      (∀ f sl,
        (Covered (st.record h).frameSet first.val (st.record h).width f sl →
          (visit limit warning st (.queueEntry h)).cell f sl = ⟨some h, true⟩) ∧
        (¬Covered (st.record h).frameSet first.val (st.record h).width f sl →
          (visit limit warning st (.queueEntry h)).cell f sl = st.cell f sl)) ∧
      (visit limit warning st (.queueEntry h)).queue = st.queue.filter (fun e => decide (e.handle ≠ h)) ∧
      (visit limit warning st (.queueEntry h)).nodes = st.nodes) ∧
    (∀ age, (st.record h).state.isQueued = true → (st.record h).waitAge = some age → age < 255 →
      (st.record h).waitLimit ≠ some (age + 1) →
      (∀ a : Slot, (st.record h).firstSlot = some a →
        st.fixedFits (st.record h).isProtected a (st.record h).width (st.record h).frameSet = false) →
      ((st.record h).firstSlot = none → st.anySlot (st.record h).width (st.record h).frameSet = none) →
      visit limit warning st (.queueEntry h) = st.putRecord h { st.record h with waitAge := some (age + 1) }) ∧
    (∀ k, (visit limit warning st .clearUsed).record k = { st.record k with used := false }) ∧
    st.SameButRecords (visit limit warning st .clearUsed)

/-- The rows that name one visit of a sweep, or one node's barring, split the operation without changing it: completing the operation afterwards gives the state that performing it whole would have given (R92; the split is the model's choice, log 3). An operation whose taking has been recorded has, at its own row, the effect of one taken there (R90; log 38). -/
def Obligations.SplitOperationsAreWhole : Prop :=
  ∀ s : State,
    (∀ t, s.engine.inProgress = none → s.engine.taking = some t → s.lasts t = true →
      exec (takingRow t) s.engage = exec (takingRow t) s) ∧
    (s.sweepUnderWay.isSome = true → ∀ (i : Instr) (h : Handle),
      i ∈ [.closeAgeFree h, .idleReclaim h, .termExpiry h, .drainCompletion, .waitOver h] →
      ∃ t, exec i s = .next t ∧ exec .sweep t = exec .sweep s) ∧
    (s.strikeUnderWay.isSome = true → ∀ n : Node, ∃ t, exec (.barring n) s = .next t ∧ exec .strike t = exec .strike s)

/-- A plan build resolves every slot down the sublet chain: NONE for an empty cell, or where a record on the way does not grant; otherwise the grantee and tag of the last granting record (R75). A slot is NONE, with no tag, where its cell is damaged, or a record its walk reads: the root the cell names, or any record listed under a granting record that the walk reaches, whichever of them holds the frame; every other slot is resolved as over good items (R77, R96). Each slot that meets a damaged item is reported, in ascending order, with RequestIsAnswered's effect, by the mode found at the taking (log 45), and the plan is delivered all the same (R96). The plan is accepted only under the name the sequencer waits for, and never while FROZEN (R118). A plan of R117 has entries 0 to S-1; that it is held as 64 entries with NONE from S upward is the model's choice (log 16). -/
def Obligations.PlanBuildResolvesChains : Prop :=
  ∀ (s : State) (f : Frame) (superframe : Word), s.engine.taking = some (.planBuild ⟨f, superframe⟩) →
    ∃ (plan : Plan) (met : Slot → Option Item) (u : State),
      u = ((allSlots.filter fun sl => decide (sl.val < s.store.frameLength)).filterMap met).foldl
        (fun u i => u.failedCheck s.atTaking.integrityMode .planBuild i) (s.take (.planBuild ⟨f, superframe⟩)) ∧
      (((u.control.device ≠ .frozen ∧
          ((s.seq.state = .priming ∧ f = 0 ∧ superframe = s.seq.superframe + 1) ∨
            ((s.seq.state = .running ∨ s.seq.state = .stopping) ∧
              ((s.seq.frame ≠ 15 ∧ f = s.seq.frame + 1 ∧ superframe = s.seq.superframe) ∨
                (s.seq.frame = 15 ∧ f = 0 ∧ superframe = s.seq.superframe + 1))))) →
        exec .planBuild s = .next
          { u with seq := { u.seq with next := some ⟨plan, ⟨f, superframe⟩⟩, planReady := true } }) ∧
      (¬(u.control.device ≠ .frozen ∧
          ((s.seq.state = .priming ∧ f = 0 ∧ superframe = s.seq.superframe + 1) ∨
            ((s.seq.state = .running ∨ s.seq.state = .stopping) ∧
              ((s.seq.frame ≠ 15 ∧ f = s.seq.frame + 1 ∧ superframe = s.seq.superframe) ∨
                (s.seq.frame = 15 ∧ f = 0 ∧ superframe = s.seq.superframe + 1))))) →
        exec .planBuild s = .next u)) ∧
      (∀ sl i, met sl = some i → s.store.fails i = true ∧ plan[sl] = none) ∧
      (∀ sl : Slot, s.store.frameLength ≤ sl.val → plan[sl] = none) ∧
      ∀ sl : Slot, sl.val < s.store.frameLength →
        ((s.store.cell f sl).parityOk = false → met sl = some (.cell f sl)) ∧
        ((s.store.cell f sl).parityOk = true → (s.store.cell f sl).names = none → met sl = none ∧ plan[sl] = none) ∧
        ∀ r, (s.store.cell f sl).parityOk = true → (s.store.cell f sl).names = some r →
          ((s.store.record r).check ≠ 0 → met sl = some (.record r)) ∧
          ((s.store.record r).check = 0 → (s.store.record r).state.isGranting = false →
            met sl = none ∧ plan[sl] = none) ∧
          ((s.store.record r).check = 0 → (s.store.record r).state.isGranting = true →
            ((∃ c ∈ (s.store.record r).children, (s.store.record c).check ≠ 0) →
              ∃ c ∈ (s.store.record r).children, met sl = some (.record c)) ∧
            ((∀ c ∈ (s.store.record r).children, (s.store.record c).check = 0) →
              (s.store.NoneHolds r f →
                met sl = none ∧ plan[sl] = some ⟨(s.store.record r).grantee, s.store.tagOf r⟩) ∧
              ∀ c, s.store.Holds r c f →
                ((s.store.record c).state.isGranting = false → met sl = none ∧ plan[sl] = none) ∧
                ((s.store.record c).state.isGranting = true →
                  ((∃ d ∈ (s.store.record c).children, (s.store.record d).check ≠ 0) →
                    ∃ d ∈ (s.store.record c).children, met sl = some (.record d)) ∧
                  ((∀ d ∈ (s.store.record c).children, (s.store.record d).check = 0) →
                    (s.store.NoneHolds c f →
                      met sl = none ∧ plan[sl] = some ⟨(s.store.record c).grantee, s.store.tagOf c⟩) ∧
                    ∀ d, s.store.Holds c d f →
                      ((s.store.record d).state.isGranting = false → met sl = none ∧ plan[sl] = none) ∧
                      ((s.store.record d).state.isGranting = true →
                        met sl = none ∧ plan[sl] = some ⟨(s.store.record d).grantee, s.store.tagOf d⟩)))))

/-- A fold that reads cleanly sets the used mark of every record its tags credit, their ancestors among them, and changes nothing else of the store; one that meets a failed check sets none, and returns its tags in QUARANTINE mode, where a later frame's pending tag replaces one of its handle, or drops them in HALT mode (R85, R95, R98, R135). The fold is the one the engine takes next, or the one whose taking has been recorded (log 38), and the mode the one found at that taking (log 45). -/
def Obligations.FoldCreditsChains : Prop :=
  ∀ (s : State) (tags : List Tag) (left : Engine),
    s.engine.taking = some (.fold tags) → left = (s.take (.fold tags)).engine →
    (tags.map Tag.handle).Nodup →
    (s.store.Good (foldItems s.store tags) → ∃ st,
      exec .fold s = .next { s with store := st, engine := left } ∧
      s.store.SameButRecords st ∧
      ∀ h, ((∃ t ∈ tags, s.store.CreditedBy h t) → st.record h = { s.store.record h with used := true }) ∧
        (¬(∃ t ∈ tags, s.store.CreditedBy h t) → st.record h = s.store.record h)) ∧
    (∀ i, s.store.firstFailing (foldItems s.store tags) = some i → ∃ t,
      exec .fold s = .next t ∧ t.store = s.store ∧
      t.engine.inProgress = none ∧
      (s.atTaking.integrityMode = .halt → t.engine.fold = left.fold) ∧
      (s.atTaking.integrityMode = .quarantine → t.engine.quarantine.isSome = true ∧
        ∃ f, t.engine.fold = some f ∧
          (left.fold = none → ∀ u : Tag, u ∈ f ↔ u ∈ tags) ∧
          ∀ later, left.fold = some later → ∀ u : Tag,
            u ∈ f ↔ u ∈ later ∨ (u ∈ tags ∧ ∀ w ∈ later, w.handle ≠ u.handle)))

/-- Strikes that bar nobody: each JOINED node's count rises by the strikes the operation treats, stopping at 7, ABSENT and BARRED nodes are left alone, the pending counts it took become 0 (EngineTakesByPlaceAndChain), and no record, cell or queue entry changes, but that a CLOSED record without a notice, of which R11 leaves none behind, becomes FREE (R99, R140). Barring a node, by its strikes or by BAR, makes it BARRED and treats each record in which it is owner or a child's grantee by R141's table: WAITING, DISPLACED and DRAINING close BARRED, or were closed CASCADE under one that did; HELD becomes SUSPENDED and SUSPENDED stays so, with OWNER-BARRED where the node is the owner and GRANTEE-BARRED where it is a child's grantee, and SUSPENDED is posted for the HELD one; FREE, CLOSED and CORRUPT records, and those in which the node has no role, are unchanged but for the children that closed, unless they closed CASCADE themselves. BAR keeps the strike count and raises BARRED with COMMAND-DONE, changes nothing for a BARRED node, and completes WRONG-STATE for an ABSENT one (R141, R143). That the BARRING row treats one node and leaves the operation in progress is the model's choice (log 3). -/
def Obligations.StrikesAndBarring : Prop :=
  (∀ (s : State) (todo : List (Node × Nat)), s.engine.taking = some (.strike todo) → (todo.map Prod.fst).Nodup →
    (∀ t ∈ todo, (s.store.node t.1).check = 0 ∧
      ((s.store.node t.1).state = .joined → (s.store.node t.1).strikes + t.2 < s.atTaking.strikeLimit)) →
    ∃ st, exec .strike s = .next { s.take (.strike todo) with store := st } ∧
      (∀ t ∈ todo, st.node t.1 =
        if 0 < t.2 ∧ (s.store.node t.1).state = .joined then
          { s.store.node t.1 with strikes := min ((s.store.node t.1).strikes + t.2) 7 }
        else s.store.node t.1) ∧
      (∀ n : Node, n ∉ todo.map Prod.fst → st.node n = s.store.node n) ∧
      st.records = s.store.records.map (fun r => if r.isSettled then LeaseRecord.cleared r.generation else r) ∧
      st.cells = s.store.cells ∧ st.queue = s.store.queue ∧ st.fence = s.store.fence ∧
      st.frameLength = s.store.frameLength) ∧
  (∀ (st : Store) (n : Node),
    (st.barNode n).HoldsBack n ∧
    (st.barNode n).node n = { st.node n with state := .barred, liveOwned := ((st.barNode n).node n).liveOwned } ∧
    (∀ m : Node, m ≠ n →
      (st.barNode n).node m = { st.node m with liveOwned := ((st.barNode n).node m).liveOwned }) ∧
    (st.barNode n).fence = st.fence ∧ (st.barNode n).frameLength = st.frameLength ∧
    (∀ k, HasRole (st.record k) n →
      ((st.record k).state = .waiting ∨ (st.record k).state = .displaced ∨ (st.record k).state = .draining →
        ((st.barNode n).record k).state = .closed ∧
        (((st.barNode n).record k).closeReason = some .barred ∨
          ((st.barNode n).record k).closeReason = some .cascade ∧
            ∃ p, k ∈ (st.record p).children) ∧
        ∀ e ∈ (st.barNode n).queue, (st.record k).state.isQueued = true → e.handle ≠ k) ∧
      ((st.record k).state = .held ∨ (st.record k).state = .suspended →
        (((st.barNode n).record k).state = .closed ∧ ((st.barNode n).record k).closeReason = some .cascade) ∨
        withChildren ((st.barNode n).record k) (st.record k).children =
          { (if (st.record k).state = .held then (st.barNode n).posted (st.record k) .suspended else st.record k) with
            state := .suspended
            reasons := ⟨(st.record k).reasons.supervisor,
              (st.record k).reasons.ownerBarred || decide ((st.record k).owner = n),
              (st.record k).reasons.granteeBarred ||
                decide ((st.record k).kind = .child ∧ (st.record k).grantee = n)⟩ })) ∧
    (∀ k, ¬HasRole (st.record k) n ∨ (st.record k).state.isLive = false →
      ((st.record k).state.isLive = true ∧ ((st.barNode n).record k).state = .closed ∧
        ((st.barNode n).record k).closeReason = some .cascade) ∨
      withChildren ((st.barNode n).record k) (st.record k).children = st.record k) ∧
    (∀ k c, c ∈ ((st.barNode n).record k).children → c ∈ (st.record k).children) ∧
    (∀ k c, c ∈ (st.record k).children → c ∉ ((st.barNode n).record k).children →
      ((st.barNode n).record c).state = .closed) ∧
    (∀ f sl, (st.barNode n).cell f sl = st.cell f sl ∨
      ((st.barNode n).cell f sl = ⟨none, true⟩ ∧
        ∃ k, (st.cell f sl).names = some k ∧ ((st.barNode n).record k).state = .closed)) ∧
    ((∀ k, HasRole (st.record k) n →
        (st.record k).state = .waiting ∨ (st.record k).state = .displaced ∨ (st.record k).state = .draining →
        (st.record k).children = []) →
      ∀ k, ((st.barNode n).record k).closeReason = some .cascade → (st.record k).closeReason = some .cascade)) ∧
  (∀ (s : State) (n : Node),
        (∀ (p : StrikeProgress) (count : Nat) (rest : List (Node × Nat)), s.engine.inProgress = some (.strike p) →
          p.todo = (n, count) :: rest → (s.store.node n).state = .joined → 0 < count → p.limit ≤ 7 →
          p.limit ≤ (s.store.node n).strikes + count → ∃ strikes,
          exec (.barring n) s = .next { s with
            store := (s.store.putNode n { s.store.node n with strikes := strikes }).barNode n
            engine := { s.engine with inProgress := some (.strike { p with todo := rest, barred := true }) } } ∧
          p.limit ≤ strikes ∧ strikes ≤ min ((s.store.node n).strikes + count) 7 ∧
          (strikes = p.limit ∨ p.limit ≤ (s.store.node n).strikes)) ∧
        (∀ c, s.engine.takenCommand .bar = some c → s.atTaking.device ≠ .init → c.node? = some n →
          (s.store.node n).check = 0 →
          ((s.store.node n).state = .joined → s.store.Good (s.store.barItems n) →
            exec .bar s = .next
              (((s.takeCommand.commit (s.store.barNode n).settle).raise .barred).completeCommand c .accepted
                (BitVec.ofNat 16 n.val) none) ∧
            (s.store.barNode n).settle.HoldsBack n) ∧
          ((s.store.node n).state = .barred →
            exec .bar s = .next (s.takeCommand.completeCommand c .accepted (BitVec.ofNat 16 n.val) none)) ∧
          ((s.store.node n).state = .absent →
            exec .bar s = .next (s.takeCommand.completeCommand c .wrongState (BitVec.ofNat 16 n.val) none))))

/-- A quarantine leaves no damaged item in the store, and treats each kind as its rule gives it. A damaged record is CORRUPT with its other fields kept but for R192's, and no cell, queue entry or children list names it; a good live record whose parent it is closes CASCADE. A damaged node record is rebuilt: BARRED, JOINED or ABSENT by the live records, quota 4, rank ceiling 1, no strikes, its count recounted (R193). A damaged cell names the lowest occupying root that covers it, or none (R194). The queue, rebuilt where the request had the queue mark or an entry is damaged, holds the WAITING and DISPLACED records in handle order, the first sixteen, and each further one closes WAIT-OVER or LOST; otherwise the entries that name no such record stay in order. Every other item stays as it was, but for the children that went, the counts, and the cells of records that closed. The device state and the mode are unchanged, and damage is reported in the integrity record (R191). Where queued records stand in sublet chains is left to the treatments: QueueApart is what Laws 3 to 5 make of it. -/
def Obligations.QuarantineLeavesNoDamage : Prop :=
  ∀ (s : State) (q : QuarantineSet), s.engine.taking = some (.quarantine q) →
    ∃ t rebuilt, exec .quarantine s = .next t ∧
      rebuilt = (q.queueMark || s.store.queue.any fun e => !e.parityOk) ∧
      t.engine.quarantine = (s.take (.quarantine q)).engine.quarantine ∧ t.engine.inProgress = none ∧ t.store.AllGood ∧
      (∀ h, (s.store.record h).check ≠ 0 →
        t.store.record h = { s.store.record h with
          state := .corrupt
          children := []
          reasons := ⟨false, false, false⟩
          ownerNotices := 0
          granteeNotices := 0
          waitLimit := none
          waitAge := none
          closeReason := none
          closeAge := none
          check := 0 } ∧
        (∀ f sl, (t.store.cell f sl).names ≠ some h) ∧ (∀ e ∈ t.store.queue, e.handle ≠ h) ∧
        (∀ k, h ∉ (t.store.record k).children) ∧
        (∀ k, (s.store.record k).check = 0 → (s.store.record k).state.isLive = true →
          (s.store.record k).parent = some h →
          ClosedAs (t.store.record k) .cascade (s.store.record k).generation)) ∧
      (∀ k, (s.store.record k).check = 0 →
        ((t.store.record k).state = (s.store.record k).state →
          withChildren (t.store.record k) (s.store.record k).children = s.store.record k) ∧
        (∀ c, c ∈ (t.store.record k).children → c ∈ (s.store.record k).children ∧ (s.store.record c).check = 0) ∧
        (∀ c, c ∈ (s.store.record k).children → (t.store.record k).state = (s.store.record k).state →
          (t.store.record c).state = (s.store.record c).state → (s.store.record c).check = 0 →
          c ∈ (t.store.record k).children) ∧
        ((s.store.record k).isSettled = false →
          (rebuilt = false ∨ (s.store.record k).state.isQueued = false) → (s.store.record k).parent = none →
          (∀ p, (s.store.record p).check = 0 → k ∉ (s.store.record p).children) →
          (t.store.record k).state = (s.store.record k).state)) ∧
      (∀ m, (s.store.node m).check = 0 →
        t.store.node m = { s.store.node m with liveOwned := (t.store.node m).liveOwned }) ∧
      (s.store.QueueApart → ∀ m, (s.store.node m).check ≠ 0 →
        t.store.node m = ⟨(t.store.node m).state, 4, 1, 0, t.store.liveOwnedBy m, 0⟩ ∧
        ((rebuilt = false ∨ (allHandles.filter fun k => (t.store.record k).state.isQueued).length < 16) →
          ((t.store.node m).state = .barred ↔
            ∃ k, (t.store.record k).state.isLive = true ∧
              (((t.store.record k).owner = m ∧ (t.store.record k).reasons.ownerBarred = true) ∨
                ((t.store.record k).kind = .child ∧ (t.store.record k).grantee = m ∧
                  (t.store.record k).reasons.granteeBarred = true))) ∧
          ((t.store.node m).state = .absent ↔
            ∀ k, (t.store.record k).state.isLive = true → ¬HasRole (t.store.record k) m) ∧
          (t.store.node m).state ≠ .invalid)) ∧
      (s.store.QueueApart → (∃ h, (s.store.record h).check ≠ 0) →
        ∀ m, (t.store.node m).liveOwned = t.store.liveOwnedBy m) ∧
      (s.store.QueueApart → (∀ h, (s.store.record h).check = 0) → rebuilt = false → ∀ m, (s.store.node m).check = 0 →
        (t.store.node m).liveOwned = (s.store.node m).liveOwned) ∧
      (∀ f sl,
        ((s.store.cell f sl).parityOk = false → s.store.QueueApart →
          t.store.cell f sl = ⟨if sl.val < s.store.frameLength then t.store.coverer f sl else none, true⟩) ∧
        ((s.store.cell f sl).parityOk = true →
          ((s.store.cell f sl).names = none → t.store.cell f sl = s.store.cell f sl) ∧
          (∀ k, (s.store.cell f sl).names = some k →
            ((s.store.record k).check ≠ 0 → t.store.cell f sl = ⟨none, true⟩) ∧
            ((s.store.record k).check = 0 → (t.store.record k).state = (s.store.record k).state →
              (s.store.record k).isSettled = false → t.store.cell f sl = s.store.cell f sl)))) ∧
      (s.store.QueueApart →
        (rebuilt = true →
          t.store.queue = (allHandles.filter fun k => (t.store.record k).state.isQueued).map (fun k => ⟨k, true⟩) ∧
          t.store.queue.length ≤ 16 ∧
          ∀ k, (s.store.record k).check = 0 → (s.store.record k).state.isQueued = true →
            (t.store.record k).state = (s.store.record k).state ∨
            (ClosedAs (t.store.record k) (if (s.store.record k).state = .waiting then .waitOver else .lost)
                (s.store.record k).generation ∧
              t.store.queue.length = 16 ∧ ∀ e ∈ t.store.queue, e.handle < k)) ∧
        (rebuilt = false →
          t.store.queue = s.store.queue.filter fun e => decide ((s.store.record e.handle).check = 0))) ∧
      t.control.device = s.control.device ∧ t.control.integrityMode = s.control.integrityMode ∧
      (¬s.store.AllGood → t.control.integrity.isSome = true) ∧
      (s.store.AllGood → t.control = s.control) ∧
      t.store.fence = s.store.fence ∧ t.store.frameLength = s.store.frameLength ∧ t.seq = s.seq

/-- AUDIT starts an audit with R197's progress and its first step posted, and completes WRONG-STATE while one runs; a step without mismatches moves to the next position or ends the audit with its result and AUDIT-DONE; HALT counts a step's mismatches and QUARANTINE repairs its cells one after another; a disturbed audit restarts, its step being that of position 0, and after the third restart ends INCONCLUSIVE (R197 to R199). A step that meets a failed check, of the items its position reads or of those its repair does, makes no write: in QUARANTINE mode it is posted again at its position with its count unchanged, behind the quarantine it posts, and in HALT mode it counts as one mismatch and the audit moves on, or ends with MISMATCHES (R94, R198); what a failed check does is RequestIsAnswered's, and that a repair reads every node record its closings use is the model's reading (log 12). The repair of a cell rewrites it from the records, and every other occupying root that covers it closes LOST: it names the lowest-numbered root that is HELD, DRAINING or SUSPENDED and whose frame set and slot range hold it (R194, R198); that it goes cell by cell is the model's reading (log 31), as is that the mode is the one found at the taking (log 45). -/
def Obligations.AuditStepsRun : Prop :=
  (∀ s : State,
        (∀ c, s.engine.takenCommand .audit = some c → s.control.device ≠ .init →
          (s.engine.audit.running = false →
            exec .audit s = .next
              (({ s with engine := { s.engine with
                    command := none, auditStep := true, inProgress := none,
                    audit := ⟨true, 0, 0, false, 0, .none⟩ } } : State).completeCommand c
                .accepted 0 none)) ∧
          (s.engine.audit.running = true →
            exec .audit s = .next (s.takeCommand.completeCommand c .wrongState 0 none))) ∧
        (s.engine.taking = some .auditStep →
          (s.engine.audit.disturbed = true → 3 ≤ s.engine.audit.restarts → ∀ i ∈ [Instr.auditStep, .auditInconclusive],
            exec i s = .next
              { s with
                engine := { s.engine with
                  auditStep := false
                  inProgress := none
                  audit := { s.engine.audit with running := false, result := .inconclusive } }
                port := { s.port with flags := s.port.flags ||| EventFlag.auditDone.bit } }) ∧
          (s.engine.audit.disturbed = true → s.engine.audit.restarts < 3 → ∃ t,
            exec .auditStep s = .next t ∧ t.engine.audit.disturbed = false ∧
            t.engine.audit.restarts = s.engine.audit.restarts + 1 ∧ t.engine.audit.position ≤ 1 ∧
            exec .auditStep s = exec .auditStep
              { s with engine := { s.engine with audit := { s.engine.audit with
                  disturbed := false, restarts := s.engine.audit.restarts + 1, position := 0 } } }) ∧
          (s.engine.audit.disturbed = false → ∀ i,
            s.store.firstFailing (s.store.auditItems s.engine.audit.position) = some i ∨
              (s.store.Good (s.store.auditItems s.engine.audit.position) ∧
                s.store.auditMismatches s.engine.audit.position ≠ [] ∧ s.atTaking.integrityMode = .quarantine ∧
                s.store.firstFailing (s.store.repairItems (s.store.auditMismatches s.engine.audit.position)) = some i) →
            ∃ u, u = ({ s with engine := { s.engine with auditStep := false, inProgress := none } } : State).failedCheck
                s.atTaking.integrityMode .auditStep i ∧
              u.store = s.store ∧
              (s.atTaking.integrityMode = .quarantine →
                exec .auditStep s = .next { u with engine := { u.engine with auditStep := true } }) ∧
              (s.atTaking.integrityMode = .halt →
                (s.engine.audit.position < 111 →
                  exec .auditStep s = .next
                    { u with engine := { u.engine with
                        auditStep := true
                        audit := { s.engine.audit with
                          position := s.engine.audit.position + 1
                          mismatches := min (s.engine.audit.mismatches + 1) 255 } } }) ∧
                (s.engine.audit.position = 111 →
                  exec .auditStep s = .next
                    { u with
                      engine := { u.engine with
                        auditStep := false
                        audit := { s.engine.audit with
                          running := false
                          result := .mismatches
                          mismatches := min (s.engine.audit.mismatches + 1) 255 } }
                      port := { u.port with flags := u.port.flags ||| EventFlag.auditDone.bit } }))) ∧
          (s.engine.audit.disturbed = false → s.store.Good (s.store.auditItems s.engine.audit.position) →
            (s.store.auditMismatches s.engine.audit.position = [] → s.engine.audit.mismatches ≤ 255 →
              (s.engine.audit.position < 111 →
                exec .auditStep s = .next
                  { s with engine := { s.engine with
                      auditStep := true
                      inProgress := none
                      audit := { s.engine.audit with position := s.engine.audit.position + 1 } } }) ∧
              (s.engine.audit.position = 111 →
                exec .auditStep s = .next
                  { s with
                    engine := { s.engine with
                      auditStep := false
                      inProgress := none
                      audit := { s.engine.audit with
                        running := false
                        result := if s.engine.audit.mismatches = 0 then .clean else .mismatches } }
                    port := { s.port with flags := s.port.flags ||| EventFlag.auditDone.bit } })) ∧
            (s.atTaking.integrityMode = .halt → ∃ t, exec .auditStep s = .next t ∧ t.store = s.store ∧
              t.engine.audit.mismatches =
                min (s.engine.audit.mismatches + (s.store.auditMismatches s.engine.audit.position).length) 255) ∧
            (s.atTaking.integrityMode = .quarantine → s.store.auditMismatches s.engine.audit.position ≠ [] →
              s.store.Good (s.store.repairItems (s.store.auditMismatches s.engine.audit.position)) →
              ∃ t, exec .auditStep s = .next t ∧
                t.store = ((s.store.auditMismatches s.engine.audit.position).foldl Store.repairCell s.store).settle ∧
                t.engine.audit.mismatches =
                  min (s.engine.audit.mismatches + (s.store.auditMismatches s.engine.audit.position).length) 255 ∧
                t.engine.audit.disturbed = false ∧
                ((∀ c ∈ s.store.auditMismatches s.engine.audit.position, s.store.losers c.1 c.2 = []) → ∀ f sl,
                  ((f, sl) ∈ s.store.auditMismatches s.engine.audit.position →
                    t.store.cell f sl =
                      ⟨if sl.val < s.store.frameLength then s.store.coverer f sl else none, true⟩) ∧
                  ((f, sl) ∉ s.store.auditMismatches s.engine.audit.position →
                    t.store.cell f sl = s.store.cell f sl)))))) ∧
  (∀ (st : Store) (i : Item),
    (∀ h : Handle, i ∈ st.auditItems h.val ↔
      i = .record h ∨ ((st.record h).isOccupyingRoot = true ∧
        ∃ (f : Frame) (sl : Slot), (st.record h).covers f sl = true ∧ i = .cell f sl)) ∧
    (∀ f : Frame, i ∈ st.auditItems (96 + f.val) ↔
      (∃ sl : Slot, i = .cell f sl) ∨ ∃ (sl : Slot) (k : Handle), (st.cell f sl).names = some k ∧ i = .record k) ∧
    ∀ items, st.firstFailing items = some i → i ∈ items ∧ st.fails i = true) ∧
  (∀ (st : Store) (f : Frame) (sl : Slot),
    (∀ k, st.coverer f sl = some k ↔
      ((st.record k).isOccupyingRoot = true ∧ (st.record k).covers f sl = true ∧
        ∀ j, j < k → ¬((st.record j).isOccupyingRoot = true ∧ (st.record j).covers f sl = true))) ∧
    (st.coverer f sl = none ↔ ∀ k, ¬((st.record k).isOccupyingRoot = true ∧ (st.record k).covers f sl = true)) ∧
    (∀ k, (st.record k).covers f sl = true ↔
      ∃ a : Slot, (st.record k).firstSlot = some a ∧
        Covered (st.record k).frameSet a.val (st.record k).width f sl) ∧
    (∀ k, k ∈ st.losers f sl ↔
      ((st.record k).isOccupyingRoot = true ∧ (st.record k).covers f sl = true ∧
        (sl.val < st.frameLength → st.coverer f sl ≠ some k) ∧
        ∃ j, j ≠ k ∧ (st.record j).isOccupyingRoot = true ∧ (st.record j).covers f sl = true)) ∧
    (st.losers f sl = [] → st.repairCell (f, sl) =
      st.putCell f sl ⟨if sl.val < st.frameLength then st.coverer f sl else none, true⟩) ∧
    ∀ k ∈ st.losers f sl,
      ((st.repairCell (f, sl)).record k).state.isLive = false ∧
      ((∀ j ∈ st.losers f sl, ∀ p, j ∉ (st.record p).children) →
        ((st.repairCell (f, sl)).record k).state = .closed ∧
        ((st.repairCell (f, sl)).record k).closeReason = some .lost))

/-! The supervisor commands. -/

/-- A PLACE that passes R42's and R43's checks over empty cells makes the lowest FREE record a protected HELD root with R44's contents, exactly its cells name it, the owner's count rises whatever the quota, and the command completes ACCEPTED with the handle; with an occupant and no force mark it completes OCCUPIED without a change; with the force mark it displaces every occupant, whatever its rank and yield, as a claim does, and is placed over their cells, and where one is protected or neither HELD nor SUSPENDED it completes OCCUPIED without a change (R43, R59). Before that the first check of R42 to fail gives the outcome, without a change: RANGE, the owner's NOT-JOINED and BARRED, and TABLE-FULL. -/
def Obligations.PlaceMakesProtectedRoot : Prop :=
  (∀ (s : State) (c : Command) (im : LeaseImage),
    s.engine.takenCommand .place = some c → s.atTaking.device ≠ .init → s.port.writeBack = im →
    (11 < im.owner.toNat ∨ ¬(1 ≤ im.width.toNat ∧ im.width.toNat ≤ 16) ∨
        s.store.frameLength < im.firstSlot.toNat + im.width.toNat ∨ im.frames = 0 ∨ 4095 < im.term.toNat →
      exec .place s = .next (s.takeCommand.completeCommand c .range 0 none)) ∧
    (∀ n : Node, im.owner.toNat = n.val → 1 ≤ im.width.toNat → im.width.toNat ≤ 16 → im.firstSlot.toNat < 64 →
      im.firstSlot.toNat + im.width.toNat ≤ s.store.frameLength → im.frames ≠ 0 → im.term.toNat ≤ 4095 →
      (s.store.node n).check = 0 →
      ((s.store.node n).state = .absent →
        exec .place s = .next (s.takeCommand.completeCommand c .notJoined 0 none)) ∧
      ((s.store.node n).state = .barred →
        exec .place s = .next (s.takeCommand.completeCommand c .barred 0 none)) ∧
      ((s.store.node n).state = .joined → (∀ h, (s.store.record h).state ≠ .free) →
        exec .place s = .next (s.takeCommand.completeCommand c .tableFull 0 none)))) ∧
  ∀ (s : State) (c : Command) (n : Node) (h : Handle) (first : Slot) (im : LeaseImage),
    s.engine.takenCommand .place = some c → s.atTaking.device ≠ .init → s.port.writeBack = im →
    im.owner.toNat = n.val → 1 ≤ im.width.toNat → im.width.toNat ≤ 16 → im.firstSlot.toNat = first.val →
    first.val + im.width.toNat ≤ s.store.frameLength → im.frames ≠ 0 → im.term.toNat ≤ 4095 → s.store.Joined n →
    s.store.NextFree h →
    ((∀ f sl, Covered im.frames first.val im.width.toNat f sl → s.store.cell f sl = ⟨none, true⟩) → ∃ st,
      exec .place s = .next
        ((s.takeCommand.commit st).completeCommand c .accepted (BitVec.ofNat 16 h.val) none) ∧
      st.record h =
        { LeaseRecord.cleared ((s.store.record h).generation + 1) with
          state := .held
          owner := n
          grantee := n
          isProtected := true
          firstSlot := some first
          width := im.width.toNat
          frameSet := im.frames
          rank := 3
          term := im.term.toNat } ∧
      (∀ k, k ≠ h → st.record k = s.store.record k) ∧
      (∀ f sl, (Covered im.frames first.val im.width.toNat f sl → st.cell f sl = ⟨some h, true⟩) ∧
        (¬Covered im.frames first.val im.width.toNat f sl → st.cell f sl = s.store.cell f sl)) ∧
      st.node n = { s.store.node n with liveOwned := (s.store.node n).liveOwned + 1 } ∧
      (∀ m, m ≠ n → st.node m = s.store.node m) ∧ st.queue = s.store.queue ∧ st.fence = s.store.fence ∧
      st.frameLength = s.store.frameLength) ∧
    (im.force = false →
      (∀ f sl, Covered im.frames first.val im.width.toNat f sl → (s.store.cell f sl).parityOk = true) →
      (∀ f sl v, Covered im.frames first.val im.width.toNat f sl → (s.store.cell f sl).names = some v →
        (s.store.record v).check = 0) →
      (∃ f sl, Covered im.frames first.val im.width.toNat f sl ∧ (s.store.cell f sl).names ≠ none) →
      exec .place s = .next (s.takeCommand.completeCommand c .occupied 0 none)) ∧
    (∀ victims, victims = s.store.occupants (coverCells im.frames first.val im.width.toNat) → victims ≠ [] →
      im.force = true →
      (∀ f sl, Covered im.frames first.val im.width.toNat f sl → (s.store.cell f sl).parityOk = true) →
      (∀ v ∈ victims, (s.store.record v).check = 0) →
      ((∀ v ∈ victims, (s.store.record v).isProtected = false ∧
          ((s.store.record v).state = .held ∨ (s.store.record v).state = .suspended)) →
        s.store.Good (s.store.chainItems victims) →
        exec .place s = .next ((s.takeCommand.commit
            (((victims.foldl (Store.displaceVictim s.atTaking.reinstatementWait) s.store).settle.occupy h
              { LeaseRecord.cleared ((s.store.record h).generation + 1) with
                state := .held
                owner := n
                grantee := n
                isProtected := true
                firstSlot := some first
                width := im.width.toNat
                frameSet := im.frames
                rank := 3
                term := im.term.toNat }).countUp n)).completeCommand c .accepted (BitVec.ofNat 16 h.val) none)) ∧
      ((∃ v ∈ victims, (s.store.record v).isProtected = true ∨
          ((s.store.record v).state ≠ .held ∧ (s.store.record v).state ≠ .suspended)) →
        exec .place s = .next (s.takeCommand.completeCommand c .occupied 0 none)))

/-- SETFRAME and FENCE set S and the fence and nothing else of the store, and are refused NOT-CONFIG, RANGE or OCCUPIED as R45 and R33 say; the values at each end of the ranges included. That SETFRAME to the present value is refused RANGE where the fence stands above it is the model's choice (log 40). -/
def Obligations.SetframeAndFence : Prop :=
  ∀ (s : State) (c : Command),
    (s.engine.takenCommand .setframe = some c →
      (s.atTaking.device = .run ∨ s.atTaking.device = .frozen →
        exec .setframe s = .next (s.takeCommand.completeCommand c .notConfig 0 none)) ∧
      (s.atTaking.device = .config →
        (c.value < 8 ∨ 64 < c.value ∨ c.value < s.store.fence →
          exec .setframe s = .next (s.takeCommand.completeCommand c .range 0 none)) ∧
        (8 ≤ c.value → c.value ≤ 64 → s.store.fence ≤ c.value → (∀ h, (s.store.record h).check = 0) →
          ((∃ h a, (s.store.record h).state.isLive = true ∧ (s.store.record h).kind = .root ∧
              (s.store.record h).firstSlot = some a ∧ c.value < a.val + (s.store.record h).width) →
            exec .setframe s = .next (s.takeCommand.completeCommand c .occupied 0 none)) ∧
          ((∀ h a, (s.store.record h).state.isLive = true → (s.store.record h).kind = .root →
              (s.store.record h).firstSlot = some a → a.val + (s.store.record h).width ≤ c.value) →
            exec .setframe s = .next
              (({ s.takeCommand with store := { s.store with frameLength := c.value } } : State).completeCommand c
                .accepted 0 none))))) ∧
    (s.engine.takenCommand .fence = some c → s.atTaking.device ≠ .init →
      (64 < c.value → exec .fence s = .next (s.takeCommand.completeCommand c .range 0 none)) ∧
      (c.value ≤ 64 → c.value ≤ s.store.fence →
        exec .fence s = .next
          (({ s.takeCommand with store := { s.store with fence := c.value } } : State).completeCommand c .accepted 0
            none)) ∧
      (c.value ≤ 64 → s.store.fence < c.value →
        (∀ f (sl : Slot), s.store.fence ≤ sl.val → sl.val < c.value → sl.val < s.store.frameLength →
          (s.store.cell f sl).parityOk = true ∧
          ∀ v, (s.store.cell f sl).names = some v → (s.store.record v).check = 0) →
        ((∃ (f : Frame) (sl : Slot) (v : Handle), s.store.fence ≤ sl.val ∧ sl.val < c.value ∧
            sl.val < s.store.frameLength ∧ (s.store.cell f sl).names = some v ∧
            (s.store.record v).isProtected = false) →
          exec .fence s = .next (s.takeCommand.completeCommand c .occupied 0 none)) ∧
        ((∀ (f : Frame) (sl : Slot) (v : Handle), s.store.fence ≤ sl.val → sl.val < c.value →
            sl.val < s.store.frameLength → (s.store.cell f sl).names = some v →
            (s.store.record v).isProtected = true) →
          exec .fence s = .next
            (({ s.takeCommand with store := { s.store with fence := c.value } } : State).completeCommand c .accepted
              0 none))))

/-- AMEND writes the term, and for a root that is not protected the rank and yield, to a WAITING, HELD or SUSPENDED record, and nothing else of the store; any other live state and CLOSED complete WRONG-STATE, and the image's rank and term RANGE and TERM as R21 gives them. AMEND and REVOKE complete WRONG-STATE for a CORRUPT record of the tag's generation (R4). NO-SUCH-LEASE of the tag commands is RefusedByDeviceStateOrUnknown's too. REVOKE closes a live record REVOKED whatever its state, kind and protection, and completes ACCEPTED; a CLOSED record completes WRONG-STATE, and a FREE one or another generation NO-SUCH-LEASE (R22). -/
def Obligations.AmendAndRevoke : Prop :=
  (∀ (s : State) (c : Command) (h : Handle) (im : LeaseImage),
      s.engine.takenCommand .amend = some c → s.atTaking.device ≠ .init → s.store.Names c.tag h → s.port.writeBack = im →
      ((s.store.record h).state = .waiting ∨ (s.store.record h).state = .held ∨ (s.store.record h).state = .suspended →
        im.rank.toNat ≤ 3 → im.term.toNat ≤ 4095 → (im.term ≠ 0 ∨ (s.store.record h).isProtected = true) →
        s.store.TermAllowed (s.store.record h) im.term.toNat →
        exec .amend s = .next
          (({ s.takeCommand with
              store := s.store.putRecord h
                (if (s.store.record h).kind = .root ∧ (s.store.record h).isProtected = false then
                  { s.store.record h with term := im.term.toNat, rank := im.rank.toNat, yields := im.yields }
                else { s.store.record h with term := im.term.toNat }) } : State).completeCommand c .accepted
            (BitVec.ofNat 16 h.val) none)) ∧
      ((s.store.record h).state = .draining ∨ (s.store.record h).state = .displaced ∨ (s.store.record h).state = .closed →
        exec .amend s = .next (s.takeCommand.completeCommand c .wrongState (BitVec.ofNat 16 h.val) none)) ∧
      ((s.store.record h).state = .waiting ∨ (s.store.record h).state = .held ∨ (s.store.record h).state = .suspended →
        (3 < im.rank.toNat ∨ 4095 < im.term.toNat ∨ (im.term = 0 ∧ (s.store.record h).isProtected = false) →
          exec .amend s = .next (s.takeCommand.completeCommand c .range (BitVec.ofNat 16 h.val) none)) ∧
        (im.rank.toNat ≤ 3 → im.term.toNat ≤ 4095 → (im.term ≠ 0 ∨ (s.store.record h).isProtected = true) →
          ∀ p, (s.store.record h).kind = .child → (s.store.record h).parent = some p → (s.store.record p).check = 0 →
            (s.store.record p).term ≠ 0 → (s.store.record p).term < im.term.toNat →
            exec .amend s = .next (s.takeCommand.completeCommand c .term (BitVec.ofNat 16 h.val) none)))) ∧
  (∀ (s : State) (c : Command) (h : Handle),
      s.engine.takenCommand .amend = some c ∨ s.engine.takenCommand .revoke = some c → s.atTaking.device ≠ .init →
      c.tag.handle.toNat = h.val → (s.store.record h).check = 0 → (s.store.record h).state = .corrupt →
      (s.store.record h).generation = c.tag.generation →
      exec (commandRow c) s = .next (s.takeCommand.completeCommand c .wrongState (BitVec.ofNat 16 h.val) none)) ∧
  (∀ (s : State) (c : Command) (h : Handle),
      s.engine.takenCommand .revoke = some c → s.atTaking.device ≠ .init → c.tag.handle.toNat = h.val →
      (s.store.record h).check = 0 →
      ((s.store.record h).state = .free ∨ (s.store.record h).generation ≠ c.tag.generation →
        exec .revoke s = .next (s.takeCommand.completeCommand c .noSuchLease (BitVec.ofNat 16 h.val) none)) ∧
      ((s.store.record h).state = .closed → (s.store.record h).generation = c.tag.generation →
        exec .revoke s = .next (s.takeCommand.completeCommand c .wrongState (BitVec.ofNat 16 h.val) none)) ∧
      ((s.store.record h).state.isLive = true → (s.store.record h).generation = c.tag.generation →
        s.store.Good (s.store.closeItems h) →
        exec .revoke s = .next
          ((s.takeCommand.commit (s.store.close .revoked h).settle).completeCommand c .accepted (BitVec.ofNat 16 h.val)
            none) ∧
        (((s.store.close .revoked h).settle.record h).state = .closed ∧
            ((s.store.close .revoked h).settle.record h).closeReason = some .revoked ∨
          (s.store.close .revoked h).settle.record h = LeaseRecord.cleared (s.store.record h).generation)))

/-- SUSPEND adds SUPERVISOR to a HELD record, which becomes SUSPENDED with the notice, or to a SUSPENDED one without a notice, and completes WRONG-STATE for other live states and CLOSED (R23). RESUME removes it: with no reason left the record is HELD with RESUMED posted, with a barred reason left it stays SUSPENDED without a notice, and without SUPERVISOR the command completes WRONG-STATE (R24). Both complete WRONG-STATE for a CORRUPT record of the tag's generation (R4). Posting a notice kind adds it to the owner's set, and for a child to the grantee's, unless that node is ABSENT, and changes nothing else of the store (R8). UNBAR makes a BARRED node JOINED with strike count 0 and takes from each record the barred reason its role gave it: with none left the record is HELD with RESUMED posted to its owner and a child's grantee, otherwise it stays as it is; a node that is not BARRED completes WRONG-STATE (R144). -/
def Obligations.SuspendResumeUnbarAndNotices : Prop :=
  (∀ (s : State) (c : Command) (h : Handle), s.atTaking.device ≠ .init → s.store.Names c.tag h →
      (s.engine.takenCommand .suspend = some c →
        ((s.store.record h).state = .held → s.store.Good (s.store.partyItems h) →
          exec .suspend s = .next
            ((s.takeCommand.commit ((s.store.putRecord h { s.store.record h with
              state := .suspended
              reasons := { (s.store.record h).reasons with supervisor := true } }).postParties h
                .suspended)).completeCommand c .accepted (BitVec.ofNat 16 h.val) none)) ∧
        ((s.store.record h).state = .suspended →
          exec .suspend s = .next
            (({ s.takeCommand with store := s.store.putRecord h { s.store.record h with
              reasons := { (s.store.record h).reasons with supervisor := true } } } : State).completeCommand c
                .accepted (BitVec.ofNat 16 h.val) none)) ∧
        ((s.store.record h).state ≠ .held → (s.store.record h).state ≠ .suspended →
          exec .suspend s = .next (s.takeCommand.completeCommand c .wrongState (BitVec.ofNat 16 h.val) none))) ∧
      (s.engine.takenCommand .resume = some c →
        ((s.store.record h).state = .suspended → (s.store.record h).reasons = ⟨true, false, false⟩ →
          s.store.Good (s.store.partyItems h) →
          exec .resume s = .next
            ((s.takeCommand.commit ((s.store.putRecord h { s.store.record h with
              state := .held
              reasons := ⟨false, false, false⟩ }).postParties h .resumed)).completeCommand c .accepted
                (BitVec.ofNat 16 h.val) none)) ∧
        ((s.store.record h).state = .suspended → (s.store.record h).reasons.supervisor = true →
          ((s.store.record h).reasons.ownerBarred = true ∨ (s.store.record h).reasons.granteeBarred = true) →
          exec .resume s = .next
            (({ s.takeCommand with store := s.store.putRecord h { s.store.record h with
              reasons := { (s.store.record h).reasons with supervisor := false } } } : State).completeCommand c
                .accepted (BitVec.ofNat 16 h.val) none)) ∧
        ((s.store.record h).state ≠ .suspended ∨ (s.store.record h).reasons.supervisor = false →
          exec .resume s = .next (s.takeCommand.completeCommand c .wrongState (BitVec.ofNat 16 h.val) none)))) ∧
  (∀ (s : State) (c : Command) (h : Handle),
      s.engine.takenCommand .suspend = some c ∨ s.engine.takenCommand .resume = some c → s.atTaking.device ≠ .init →
      c.tag.handle.toNat = h.val → (s.store.record h).check = 0 → (s.store.record h).state = .corrupt →
      (s.store.record h).generation = c.tag.generation →
      exec (commandRow c) s = .next (s.takeCommand.completeCommand c .wrongState (BitVec.ofNat 16 h.val) none)) ∧
  (∀ (st : Store) (h : Handle) (k : NoticeKind),
      (st.postParties h k).record h =
        { st.record h with
          ownerNotices :=
            if (st.node (st.record h).owner).state = .absent then (st.record h).ownerNotices
            else (st.record h).ownerNotices ||| k.bit
          granteeNotices :=
            if (st.record h).kind = .root ∨ (st.node (st.record h).grantee).state = .absent then
              (st.record h).granteeNotices
            else (st.record h).granteeNotices ||| k.bit } ∧
      (∀ j, j ≠ h → (st.postParties h k).record j = st.record j) ∧ st.SameButRecords (st.postParties h k)) ∧
  (∀ (s : State) (c : Command) (n : Node), s.engine.takenCommand .unbar = some c → s.atTaking.device ≠ .init →
        c.node? = some n → (s.store.node n).check = 0 →
        ((s.store.node n).state ≠ .barred →
          exec .unbar s = .next (s.takeCommand.completeCommand c .wrongState (BitVec.ofNat 16 n.val) none)) ∧
        ((s.store.node n).state = .barred → (∀ h, (s.store.record h).check = 0) → (∀ m, (s.store.node m).check = 0) → ∃ st,
          exec .unbar s = .next
            ((s.takeCommand.commit st).completeCommand c .accepted (BitVec.ofNat 16 n.val) none) ∧
          st.node n = { s.store.node n with state := .joined, strikes := 0 } ∧
          (∀ m, m ≠ n → st.node m = s.store.node m) ∧ st.cells = s.store.cells ∧ st.queue = s.store.queue ∧
          st.fence = s.store.fence ∧ st.frameLength = s.store.frameLength ∧
          ∀ h,
            (heldBack (s.store.record h) n = false → st.record h = s.store.record h) ∧
            (heldBack (s.store.record h) n = true →
              ((unbarredReasons (s.store.record h) n).isEmpty = true →
                st.record h = { s.store.record h with
                  state := .held
                  reasons := ⟨false, false, false⟩
                  ownerNotices :=
                    if (st.node (s.store.record h).owner).state = .absent then (s.store.record h).ownerNotices
                    else (s.store.record h).ownerNotices ||| NoticeKind.resumed.bit
                  granteeNotices :=
                    if (s.store.record h).kind = .root ∨ (st.node (s.store.record h).grantee).state = .absent then
                      (s.store.record h).granteeNotices
                    else (s.store.record h).granteeNotices ||| NoticeKind.resumed.bit }) ∧
              ((unbarredReasons (s.store.record h) n).isEmpty = false →
                st.record h = { s.store.record h with reasons := unbarredReasons (s.store.record h) n })) ∧
            (heldBack (s.store.record h) n = true ↔
              ((s.store.record h).reasons.ownerBarred = true ∧ (s.store.record h).owner = n) ∨
                ((s.store.record h).reasons.granteeBarred = true ∧ (s.store.record h).grantee = n)) ∧
            unbarredReasons (s.store.record h) n =
              ⟨(s.store.record h).reasons.supervisor,
                (s.store.record h).reasons.ownerBarred && decide ((s.store.record h).owner ≠ n),
                (s.store.record h).reasons.granteeBarred && decide ((s.store.record h).grantee ≠ n)⟩))

/-- DISCARD frees a CLOSED record and completes WRONG-STATE for a live one outside FROZEN (R25); by R196 it frees a CORRUPT record in any state and any record in FROZEN, by handle alone if CORRUPT or damaged, leaving no cell, queue entry or children list that names it and no live record whose parent it is. That a CORRUPT record whose own check fails is freed in any device state, by handle alone, is the model's reading (log 32), as is that the counts follow only if a live state changed, the record's own by its stored contents. -/
def Obligations.DiscardFreesRecord : Prop :=
  ∀ (s : State) (c : Command) (h : Handle),
    s.engine.takenCommand .discard = some c → s.atTaking.device ≠ .init → c.tag.handle.toNat = h.val →
    (s.atTaking.device ≠ .frozen → s.store.Names c.tag h →
      ((s.store.record h).state = .closed →
        exec .discard s = .next
          ((s.takeCommand.commit
            (s.store.putRecord h (LeaseRecord.cleared (s.store.record h).generation))).completeCommand c .accepted
              (BitVec.ofNat 16 h.val) none)) ∧
      ((s.store.record h).state.isLive = true →
        exec .discard s = .next (s.takeCommand.completeCommand c .wrongState (BitVec.ofNat 16 h.val) none))) ∧
    ((s.store.record h).state = .corrupt ∨
        (s.atTaking.device = .frozen ∧
          ((s.store.record h).check ≠ 0 ∨
            ((s.store.record h).generation = c.tag.generation ∧ (s.store.record h).state ≠ .free))) →
      (∀ k, k ≠ h → (s.store.record k).check = 0) → (∀ n, (s.store.node n).check = 0) →
      (∀ f sl, (s.store.cell f sl).parityOk = true) → (∀ e ∈ s.store.queue, e.parityOk = true) → ∃ t,
      exec .discard s = .next t ∧ t.store.record h = LeaseRecord.cleared (s.store.record h).generation ∧
      (∀ f sl, (t.store.cell f sl).names ≠ some h) ∧ (∀ e ∈ t.store.queue, e.handle ≠ h) ∧
      (∀ k, h ∉ (t.store.record k).children) ∧
      (∀ k, k ≠ h → (t.store.record k).state.isLive = true → (t.store.record k).parent ≠ some h) ∧
      t.port.resultOutcome = .accepted ∧ t.port.resultHandle = BitVec.ofNat 16 h.val ∧
      t.engine.quarantine = s.engine.quarantine ∧ t.control.device = s.control.device ∧
      ((s.store.record h).check ≠ 0 → t.control.integrity.isSome = true))

/-- FETCH, FETCHQ and FETCHNODE complete ACCEPTED with the image R205 lays out (RegisterWindowReads gives its words) in the read window's front, the previous front behind it and the count raised; they change no item of the store, and out of range they complete RANGE with the window as it was (R68, R157, R175, R176). -/
def Obligations.FetchesFillReadWindow : Prop :=
  ∀ (s : State) (c : Command), s.atTaking.device ≠ .init →
    (s.engine.takenCommand .fetch = some c →
      (95 < c.value → exec .fetch s = .next (s.takeCommand.completeCommand c .range 0 none)) ∧
      (∀ h : Handle, c.value = h.val → (s.store.record h).check = 0 →
        (∀ k ∈ (s.store.record h).children, (s.store.record k).check = 0) →
        exec .fetch s = .next
          (s.takeCommand.completeCommand c .accepted (BitVec.ofNat 16 h.val) (some (recordImage s.store h))))) ∧
    (s.engine.takenCommand .fetchq = some c →
      (s.store.queue.length ≤ c.value → exec .fetchq s = .next (s.takeCommand.completeCommand c .range 0 none)) ∧
      (∀ e, s.store.queue[c.value]? = some e → e.parityOk = true → (s.store.record e.handle).check = 0 →
        exec .fetchq s = .next
          (s.takeCommand.completeCommand c .accepted (BitVec.ofNat 16 e.handle.val)
            (some (queueImage s.store e.handle))))) ∧
    (s.engine.takenCommand .fetchnode = some c →
      (c.node? = none → exec .fetchnode s = .next (s.takeCommand.completeCommand c .range 0 none)) ∧
      (∀ n, c.node? = some n → (s.store.node n).check = 0 →
        exec .fetchnode s = .next
          (s.takeCommand.completeCommand c .accepted (BitVec.ofNat 16 n.val) (some (nodeImage s.store n)))))

/-- SETNODE: NOT-READY in INIT; RANGE for a node above 11 or a quota above 16; FAULT for a damaged node record, each without a change of the store; otherwise it writes quota, rank ceiling and strike count whatever the node's state, keeps state and count, changes nothing else of the store, and completes ACCEPTED (R156). -/
def Obligations.SetnodeWritesThreeValues : Prop :=
  ∀ (s : State) (c : Command), s.engine.takenCommand .setnode = some c →
    (s.atTaking.device = .init →
      exec .setnode s = .next (s.takeCommand.completeCommand c .notReady c.namedField none)) ∧
    (s.atTaking.device ≠ .init →
      (11 < (c.arg.extractLsb' 0 4).toNat →
        exec .setnode s = .next (s.takeCommand.completeCommand c .range 0 none)) ∧
      ∀ n : Node, (c.arg.extractLsb' 0 4).toNat = n.val →
        (16 < (c.arg.extractLsb' 4 5).toNat →
          exec .setnode s = .next (s.takeCommand.completeCommand c .range (BitVec.ofNat 16 n.val) none)) ∧
        ((c.arg.extractLsb' 4 5).toNat ≤ 16 →
          ((s.store.node n).check ≠ 0 → ∃ t, exec .setnode s = .next t ∧ t.store = s.store ∧
            t.port.resultOutcome = .fault ∧ t.port.resultHandle = BitVec.ofNat 16 n.val) ∧
          ((s.store.node n).check = 0 →
            exec .setnode s = .next
              (({ s.takeCommand with store := s.store.putNode n { s.store.node n with
                  quota := (c.arg.extractLsb' 4 5).toNat
                  rankCeiling := (c.arg.extractLsb' 9 2).toNat
                  strikes := (c.arg.extractLsb' 11 3).toNat } } : State).completeCommand c .accepted
                (BitVec.ofNat 16 n.val) none))))

/-- START, STOP and THAW by the device and sequencer state, as R121 to R123, R126 and R187 give them, each completing at its taking; none of them touches the store. -/
def Obligations.StartStopThaw : Prop :=
  ∀ (s : State) (c : Command),
    (s.engine.takenCommand .start = some c →
      (s.control.device = .config →
        exec .start s = .next
          (({ s with
              control := { s.control with device := .run }
              engine := { s.engine with command := none, inProgress := none, build := some ⟨0, s.seq.superframe + 1⟩ }
              seq := { s.seq with
                state := .priming, slot := 0, frame := 0, next := none, planReady := false } } : State).completeCommand
            c .accepted 0 none)) ∧
      (s.control.device = .run ∨ s.control.device = .frozen →
        exec .start s = .next (s.takeCommand.completeCommand c .notConfig 0 none))) ∧
    (s.engine.takenCommand .stop = some c →
      (s.control.device = .run → s.seq.state = .running →
        exec .stop s = .next
          (({ s.takeCommand with seq := { s.seq with state := .stopping } } : State).completeCommand c .accepted 0
            none)) ∧
      (s.control.device = .run → s.seq.state = .stopping →
        exec .stop s = .next (s.takeCommand.completeCommand c .accepted 0 none)) ∧
      ((s.control.device = .run ∧ s.seq.state = .priming) ∨
          (s.control.device = .frozen ∧ s.seq.state ≠ .stopped) → ∃ t,
        exec .stop s = .next t ∧ t.control = { s.control with device := .config } ∧ t.seq.state = .stopped ∧
        (∀ sl : Slot, t.seq.current[sl] = none) ∧ t.seq.next = none ∧ t.seq.planReady = false ∧
        t.seq.grantLines = ⟨0, 0, false, none⟩ ∧ t.seq.superframe = s.seq.superframe ∧ t.monitor.active = false ∧
        t.port.flags =
          s.port.flags ||| EventFlag.stopped.bit ||| EventFlag.commandDone.bit ∧
        t.port.resultOutcome = .accepted ∧ t.store = s.store) ∧
      (s.control.device = .config →
        s.seq.state = .stopped → exec .stop s = .next (s.takeCommand.completeCommand c .wrongState 0 none))) ∧
    (s.engine.takenCommand .thaw = some c →
      (s.control.device = .frozen → s.seq.state ≠ .priming →
        exec .thaw s = .next
          (({ s.takeCommand with control := { s.control with device := .run } } : State).completeCommand c .accepted 0
            none)) ∧
      (s.control.device = .frozen → s.seq.state = .priming →
        exec .thaw s = .next
          (({ s with
              control := { s.control with device := .run }
              engine := { s.engine with
                command := none, inProgress := none, build := some ⟨0, s.seq.superframe + 1⟩ } } : State).completeCommand
            c .accepted 0 none)) ∧
      (s.control.device = .config ∨ s.control.device = .run →
        exec .thaw s = .next (s.takeCommand.completeCommand c .wrongState 0 none)))

/-- A completion at the port sets the result word and the handle word, exchanges the read window for an image, raises COMMAND-DONE, and empties the in-flight position, into which a pending command goes (R172 to R175); nothing else changes. A command that meets a failed check is abandoned: the item is one whose check fails, the command completes FAULT through that completion, the policy of the failed check is applied, and the store is unchanged (R94, R95, R174). A damaged record that the tag of AMEND, REVOKE, SUSPEND, RESUME, DISCARD (by R25) or FETCH names, the first damaged record of the children list that FETCH reads, the record of the entry that FETCHQ reads, a damaged node record that BAR, UNBAR, SETNODE, FETCHNODE or PLACE names, a damaged queue entry of FETCHQ, the lowest damaged record at a SETFRAME, and a damaged cell that FENCE reads are such items. What a failed check does is RequestIsAnswered's, and the mode is the one found at the taking (log 45). That the handle field holds what the argument names, and zero where it names none, is the model's reading (log 29), as is that a DISCARD by R196 reports its own record's failed check as well (log 32). -/
def Obligations.CompletionAtThePort : Prop :=
  (∀ (s : State) (c : Command), s.engine.taking = some (.command c) → c.actsAtTaking = false →
    (∃ (base : State) (result : CommandResult),
      (base = s.takeCommand ∨ (c.code = 0x08 ∧ ∃ h : Handle, c.tag.handle.toNat = h.val ∧
        (s.store.record h).check ≠ 0 ∧ base = (s.report (.command c.code) (.record h)).takeCommand)) ∧
      exec (commandRow c) s = .next (base.finishCommand s.atTaking.integrityMode c result) ∧
      ∀ i, result = .error (.failed i) → s.store.fails i = true ∧ ∃ t, exec (commandRow c) s = .next t ∧
        t = (base.failedCheck s.atTaking.integrityMode (.command c.code) i).completeCommand c .fault c.namedField none ∧
        t.store = s.store ∧ t.port.resultOutcome = .fault) ∧
    (s.atTaking.device ≠ .init → ∀ (i : Item) (field : Word),
      ((∃ h : Handle, c.tag.handle.toNat = h.val ∧ (s.store.record h).check ≠ 0 ∧ i = .record h ∧
          field = BitVec.ofNat 16 h.val ∧
          (c.code ∈ [0x04, 0x05, 0x06, 0x07, 0x09].map (BitVec.ofNat 8) ∨
            (c.code = 0x08 ∧ s.atTaking.device ≠ .frozen ∧ (s.store.record h).state ≠ .corrupt))) ∨
        (∃ h k : Handle, c.code = 0x09 ∧ c.tag.handle.toNat = h.val ∧ (s.store.record h).check = 0 ∧
          (s.store.record h).children.find? (fun d => decide ((s.store.record d).check ≠ 0)) = some k ∧ i = .record k ∧
          field = BitVec.ofNat 16 h.val) ∨
        (∃ n : Node, (c.arg.extractLsb' 0 4).toNat = n.val ∧ (s.store.node n).check ≠ 0 ∧ i = .node n ∧
          field = BitVec.ofNat 16 n.val ∧
          (c.code ∈ [0x0B, 0x0C, 0x0E].map (BitVec.ofNat 8) ∨
            (c.code = 0x0D ∧ (c.arg.extractLsb' 4 5).toNat ≤ 16))) ∨
        (∃ (n : Node) (im : LeaseImage), c.code = 0x01 ∧ s.port.writeBack = im ∧ im.owner.toNat = n.val ∧
          1 ≤ im.width.toNat ∧ im.width.toNat ≤ 16 ∧ im.firstSlot.toNat < 64 ∧
          im.firstSlot.toNat + im.width.toNat ≤ s.store.frameLength ∧ im.frames ≠ 0 ∧ im.term.toNat ≤ 4095 ∧
          (s.store.node n).check ≠ 0 ∧ i = .node n ∧ field = 0) ∨
        (∃ e, c.code = 0x0A ∧ s.store.queue[c.value]? = some e ∧ field = 0 ∧
          ((e.parityOk = false ∧ i = .queueEntry c.value) ∨
            (e.parityOk = true ∧ (s.store.record e.handle).check ≠ 0 ∧ i = .record e.handle))) ∨
        (∃ h : Handle, c.code = 0x02 ∧ s.atTaking.device = .config ∧ 8 ≤ c.value ∧ c.value ≤ 64 ∧
          s.store.fence ≤ c.value ∧ (s.store.record h).check ≠ 0 ∧ (∀ k, k < h → (s.store.record k).check = 0) ∧
          i = .record h ∧ field = 0)) →
      exec (commandRow c) s = .next
        ((s.takeCommand.failedCheck s.atTaking.integrityMode (.command c.code) i).completeCommand c .fault field none)) ∧
    (s.atTaking.device ≠ .init → c.code = 0x03 → c.value ≤ 64 →
      (∃ (f : Frame) (sl : Slot), s.store.fence ≤ sl.val ∧ sl.val < c.value ∧ sl.val < s.store.frameLength ∧
        (s.store.cell f sl).parityOk = false) →
      ∃ (f : Frame) (sl : Slot), (s.store.cell f sl).parityOk = false ∧ exec .fence s = .next
        ((s.takeCommand.failedCheck s.atTaking.integrityMode (.command c.code) (.cell f sl)).completeCommand c .fault 0
          none))) ∧
  ∀ (s : State) (c : Command) (outcome : CmdOutcome) (handle : Word) (image : Option (Vector Word 16)),
    ∃ p : Port,
      p.resultCode = c.code ∧ p.resultOutcome = outcome ∧ p.resultHandle = handle ∧
      p.flags = s.port.flags ||| EventFlag.commandDone.bit ∧
      (image = none → p.readFront = s.port.readFront ∧ p.readBack = s.port.readBack ∧ p.readCount = s.port.readCount) ∧
      (∀ words, image = some words → p.readFront = ⟨c.code, words⟩ ∧ p.readBack = s.port.readFront ∧
        p.readCount = s.port.readCount + 1) ∧
      p.argument = s.port.argument ∧ p.enables = s.port.enables ∧ p.writeIgnored = s.port.writeIgnored ∧
      p.waiting = none ∧ p.inFlight = s.port.waiting ∧
      (∀ w, s.port.waiting = some w → (w.code = 0x01 ∨ w.code = 0x04) →
        p.writeFront = s.port.writeBack ∧ p.writeBack = s.port.writeFront) ∧
      ((∀ w, s.port.waiting = some w → w.code ≠ 0x01 ∧ w.code ≠ 0x04) →
        p.writeFront = s.port.writeFront ∧ p.writeBack = s.port.writeBack) ∧
      (s.port.waiting = none → s.completeCommand c outcome handle image = { s with port := p }) ∧
      (∀ w, s.port.waiting = some w →
        s.completeCommand c outcome handle image = { s with port := p, engine := { s.engine with command := some w } })

/-! The processor's writes and reads, and the invariants. -/

/-- The slot is empty after device reset. A write of the command word captures the code with the argument word's value: into an empty slot it goes in flight at once, exchanging the write window's images for PLACE and AMEND and posting to the engine; behind one in flight it becomes pending; in a full slot it is dropped with COMMAND-OVERRUN and nothing else changes (R170, R172, R173). The engine has taken by then what was pending, and a command that completes at its taking has left the slot (R90, R108, R181; EngineTakesByPlaceAndChain says what that is; when the model records the taking is its own choice, log 38). -/
def Obligations.CommandWordSubmits : Prop :=
  State.reset.port.inFlight = none ∧ State.reset.port.waiting = none ∧
  ∀ (s e : State) (v : Word), s.resetAsserted = false → e = s.engage →
    let c : Command := ⟨v.extractLsb' 0 8, s.port.argument⟩
    (e.port.inFlight = none → e.port.waiting = none →
      ((c.code = 0x01 ∨ c.code = 0x04) →
        exec (.commandWordWrite v) s = .next
          { e with
            port := { e.port with
              inFlight := some c, writeFront := e.port.writeBack, writeBack := e.port.writeFront }
            engine := { e.engine with command := some c } }) ∧
      (c.code ≠ 0x01 → c.code ≠ 0x04 →
        exec (.commandWordWrite v) s = .next
          { e with
            port := { e.port with inFlight := some c }
            engine := { e.engine with command := some c } })) ∧
    (e.port.inFlight ≠ none → e.port.waiting = none →
      exec (.commandWordWrite v) s = .next { e with port := { e.port with waiting := some c } }) ∧
    (e.port.inFlight ≠ none → e.port.waiting ≠ none →
      exec (.commandWordWrite v) s = .next
        { e with port := { e.port with flags := e.port.flags ||| EventFlag.commandOverrun.bit } })

/-- The enable mask takes the written value's eleven low bits, and SINT is asserted exactly while some flag is set whose enable is set; after reset the mask is clear and SINT negated (R178). -/
def Obligations.EnableMaskAndSint : Prop :=
  (∀ (s : State) (v : Word), s.resetAsserted = false → ∃ mask : BitVec 11,
    exec (.enableMaskWrite v) s = .next { s with port := { s.port with enables := mask } } ∧
    ∀ k < 11, mask.getLsbD k = v.getLsbD k) ∧
  (∀ s : State, s.sint = true ↔ ∃ k < 11, s.port.flags.getLsbD k = true ∧ s.port.enables.getLsbD k = true) ∧
  State.reset.port.enables = 0 ∧ State.reset.sint = false

/-- The writes that clear: each event flag written as 1, WRITE-IGNORED on a 1 in bit 7, the violation record and the integrity record on any value without touching their flags; nothing else changes (R139, R169, R177, R189). A register write stores the argument word and the write window's front, field by field as R205 lays them out, and a write to a read-only or unassigned word is discarded (R168); a write of a word that has a row of its own is that row (log 26). A configuration write is stored, clamped to the nearer end of its range, where the device state lets it be written, and is otherwise ignored with WRITE-IGNORED set; nothing else changes (R179). Before the event flags, the write window or a configuration value is written the engine has taken what was due, with the device state and the values that stood (R90, R172, R179; EngineTakesByPlaceAndChain; when the model records the taking is its own choice, log 38); the other writes meet nothing a taking leaves. -/
def Obligations.WritesActAtOnce : Prop :=
  (∀ (s e : State) (v : Word), s.resetAsserted = false → e = s.engage →
      (∃ flags : BitVec 11, exec (.eventFlagClear v) s = .next { e with port := { e.port with flags := flags } } ∧
        ∀ k < 11, flags.getLsbD k = (e.port.flags.getLsbD k && !v.getLsbD k)) ∧
      (v.getLsbD 7 = true →
        exec (.writeIgnoredClear v) s = .next { s with port := { s.port with writeIgnored := false } }) ∧
      (v.getLsbD 7 = false → exec (.writeIgnoredClear v) s = .next s) ∧
      exec (.violationClear v) s = .next { s with monitor := { s.monitor with violation := none } } ∧
      exec (.integrityClear v) s = .next { s with control := { s.control with integrity := none } }) ∧
  (∀ (s e : State) (v : Word), s.resetAsserted = false → e = s.engage →
      exec (.registerWrite 0x02 v) s = .next { s with port := { s.port with argument := v } } ∧
      exec (.registerWrite 0x20 v) s = .next
        { e with port := { e.port with
            writeFront := { e.port.writeFront with owner := v.extractLsb' 0 8, firstSlot := v.extractLsb' 8 8 } } } ∧
      exec (.registerWrite 0x21 v) s = .next
        { e with port := { e.port with
            writeFront := { e.port.writeFront with width := v.extractLsb' 0 8, force := v.getLsbD 8 } } } ∧
      exec (.registerWrite 0x22 v) s = .next
        { e with port := { e.port with writeFront := { e.port.writeFront with frames := v } } } ∧
      exec (.registerWrite 0x23 v) s = .next
        { e with port := { e.port with writeFront := { e.port.writeFront with term := v } } } ∧
      exec (.registerWrite 0x24 v) s = .next
        { e with port := { e.port with
            writeFront := { e.port.writeFront with rank := v.extractLsb' 0 8, yields := v.getLsbD 8 } } } ∧
      (∀ a : BitVec 6, a ∉ [0x00, 0x01, 0x02, 0x05, 0x06, 0x08, 0x09, 0x0A, 0x0B, 0x0C, 0x0D, 0x14, 0x1B, 0x20, 0x21,
          0x22, 0x23, 0x24].map (BitVec.ofNat 6) →
        exec (.registerWrite a v) s = .next s)) ∧
  (∀ (s : State) (v : Word),
      exec (.registerWrite 0x00 v) s = exec (.writeIgnoredClear v) s ∧
      exec (.registerWrite 0x01 v) s = exec (.commandWordWrite v) s ∧
      exec (.registerWrite 0x05 v) s = exec (.eventFlagClear v) s ∧
      exec (.registerWrite 0x06 v) s = exec (.enableMaskWrite v) s ∧
      exec (.registerWrite 0x08 v) s = exec (.configurationWrite .slotLength v) s ∧
      exec (.registerWrite 0x09 v) s = exec (.configurationWrite .integrityMode v) s ∧
      exec (.registerWrite 0x0A v) s = exec (.configurationWrite .warningThreshold v) s ∧
      exec (.registerWrite 0x0B v) s = exec (.configurationWrite .idleLimit v) s ∧
      exec (.registerWrite 0x0C v) s = exec (.configurationWrite .strikeLimit v) s ∧
      exec (.registerWrite 0x0D v) s = exec (.configurationWrite .reinstatementWait v) s ∧
      exec (.registerWrite 0x14 v) s = exec (.violationClear v) s ∧
      exec (.registerWrite 0x1B v) s = exec (.integrityClear v) s) ∧
  (∀ (s e : State) (v : Word), s.resetAsserted = false → e = s.engage →
        (∀ w : ConfigWord, (e.control.device = .init ∨
            ((w = .slotLength ∨ w = .integrityMode) ∧ e.control.device ≠ .config)) →
          exec (.configurationWrite w v) s = .next { e with port := { e.port with writeIgnored := true } }) ∧
        (e.control.device = .config →
          exec (.configurationWrite .slotLength v) s = .next
            { e with control := { e.control with slotLength := max 24 (min v.toNat 4095) } } ∧
          exec (.configurationWrite .integrityMode v) s = .next
            { e with control := { e.control with integrityMode := if v = 0 then .quarantine else .halt } }) ∧
        (e.control.device ≠ .init →
          exec (.configurationWrite .warningThreshold v) s = .next
            { e with control := { e.control with warningThreshold := min v.toNat 15 } } ∧
          exec (.configurationWrite .idleLimit v) s = .next
            { e with control := { e.control with idleLimit := min v.toNat 15 } } ∧
          exec (.configurationWrite .strikeLimit v) s = .next
            { e with control := { e.control with strikeLimit := max 1 (min v.toNat 7) } } ∧
          exec (.configurationWrite .reinstatementWait v) s = .next
            { e with control := { e.control with reinstatementWait := max 1 (min v.toNat 255) } }))

/-- What the processor reads at each address of the register window, while RESET is asserted the reset value (R168, R169, R182, R206); a read shows what the engine has done at once with what was pending (R90, R108, R181; EngineTakesByPlaceAndChain; when the model records the taking is its own choice, log 38); the words of the record, queue-entry and node images and of the write window's front (R205); the outcome codes (R205); the bits of the event flags (R206), those of node states, reasons and notices being ResponseFrameShape's; and the fifteen grant lines (R204). Unassigned addresses read as 0 (R168); that the write-only words 01h, 14h and 1Bh do is the model's choice (log 37). -/
def Obligations.RegisterWindowReads : Prop :=
  (∀ s : State, s.resetAsserted = true → ∀ a, s.readWord a = State.reset.readWord a) ∧
  (∀ s e : State, s.resetAsserted = false → e = s.engage →
    s.readWord 0x00 = BitVec.ofNat 16
      ((match e.control.device with | .init => 0 | .config => 1 | .run => 2 | .frozen => 3) +
        4 * (match e.seq.state with | .stopped => 0 | .priming => 1 | .running => 2 | .stopping => 3) +
        (if e.port.inFlight.isSome then 16 else 0) + (if e.port.waiting.isSome then 32 else 0) +
        (if e.engine.audit.running then 64 else 0) + (if e.port.writeIgnored then 128 else 0)) ∧
    s.readWord 0x02 = e.port.argument ∧ s.readWord 0x03 = e.port.resultOutcome.code ++ e.port.resultCode ∧
    s.readWord 0x04 = e.port.resultHandle ∧ s.readWord 0x05 = e.port.flags.setWidth 16 ∧
    s.readWord 0x06 = e.port.enables.setWidth 16 ∧ s.readWord 0x08 = BitVec.ofNat 16 e.control.slotLength ∧
    s.readWord 0x09 = (if e.control.integrityMode = .halt then 1 else 0) ∧
    s.readWord 0x0A = BitVec.ofNat 16 e.control.warningThreshold ∧
    s.readWord 0x0B = BitVec.ofNat 16 e.control.idleLimit ∧ s.readWord 0x0C = BitVec.ofNat 16 e.control.strikeLimit ∧
    s.readWord 0x0D = BitVec.ofNat 16 e.control.reinstatementWait ∧
    (e.monitor.violation = none →
      s.readWord 0x10 = 0 ∧ s.readWord 0x11 = 0 ∧ s.readWord 0x12 = 0 ∧ s.readWord 0x13 = 0) ∧
    (∀ v, e.monitor.violation = some v →
      s.readWord 0x10 = (if v.further then 3 else 1) ∧ s.readWord 0x11 = v.superframe ∧
      s.readWord 0x12 = BitVec.ofNat 16 (v.frame.val + 256 * v.slot.val) ∧
      s.readWord 0x13 = BitVec.ofNat 16
        ((v.granted.map Fin.val).getD 15 + 256 * (v.talker.map Fin.val).getD 15)) ∧
    (e.control.integrity = none → s.readWord 0x18 = 0 ∧ s.readWord 0x19 = 0 ∧ s.readWord 0x1A = 0) ∧
    (∀ r, e.control.integrity = some r →
      s.readWord 0x18 = BitVec.ofNat 16
        ((if r.further then 3 else 1) +
          16 * (match r.item with | .record _ => 0 | .node _ => 1 | .cell _ _ => 2 | .queueEntry _ => 3)) ∧
      s.readWord 0x19 = BitVec.ofNat 16
        (match r.item with
          | .record h => h.val
          | .node n => n.val
          | .cell f sl => f.val + 256 * sl.val
          | .queueEntry p => p) ∧
      s.readWord 0x1A = (match r.operation with
        | .request k => (0 : Byte) ++ k
        | .command k => (0 : Byte) ++ (0x40 + k)
        | .planBuild => 0x80
        | .sweep => 0x81
        | .fold => 0x82
        | .strike => 0x83
        | .quarantine => 0x84
        | .auditStep => 0x85)) ∧
    s.readWord 0x1C = BitVec.ofNat 16
      ((match e.engine.audit.result with
          | .none => 0 | .clean => 1 | .mismatches => 2 | .inconclusive => 3 | .aborted => 4) +
        (if e.engine.audit.running then 256 else 0) + (if e.engine.audit.disturbed then 512 else 0)) ∧
    s.readWord 0x1D = BitVec.ofNat 16 e.engine.audit.position ∧
    s.readWord 0x1E = BitVec.ofNat 8 e.engine.audit.mismatches ++ BitVec.ofNat 8 e.engine.audit.restarts ∧
    s.readWord 0x20 = e.port.writeFront.firstSlot ++ e.port.writeFront.owner ∧
    s.readWord 0x21 = (if e.port.writeFront.force then (1 : Byte) else 0) ++ e.port.writeFront.width ∧
    s.readWord 0x22 = e.port.writeFront.frames ∧ s.readWord 0x23 = e.port.writeFront.term ∧
    s.readWord 0x24 = (if e.port.writeFront.yields then (1 : Byte) else 0) ++ e.port.writeFront.rank ∧
    s.readWord 0x28 = e.port.readCount ++ e.port.readFront.code ∧
    (∀ k : Fin 16, s.readWord (BitVec.ofNat 6 (0x29 + k.val)) = e.port.readFront.words[k]) ∧
    (∀ a : BitVec 6, a ∈ [0x01, 0x07, 0x0E, 0x0F, 0x14, 0x15, 0x16, 0x17, 0x1B, 0x1F, 0x25, 0x26, 0x27, 0x39, 0x3A,
        0x3B, 0x3C, 0x3D, 0x3E, 0x3F].map (BitVec.ofNat 6) → s.readWord a = 0)) ∧
  [CmdOutcome.none, .accepted, .notReady, .notConfig, .wrongState, .range, .noSuchLease, .notJoined, .barred, .tableFull,
    .occupied, .term, .fault, .unknown].map CmdOutcome.code = [0, 1, 2, 3, 4, 5, 6, 7, 8, 9, 10, 11, 12, 13] ∧
  (∀ (st : Store) (h : Handle), ∃ flags : Byte,
    flags.getLsbD 0 = decide ((st.record h).kind = .child) ∧ flags.getLsbD 1 = (st.record h).isProtected ∧
    flags.getLsbD 2 = (st.record h).yields ∧ flags.getLsbD 3 = (st.record h).used ∧
    flags.getLsbD 4 = (st.record h).firstSlot.isSome ∧ flags.getLsbD 5 = (st.record h).parent.isSome ∧
    flags.getLsbD 6 = (st.record h).waitLimit.isSome ∧ flags.getLsbD 7 = (st.record h).closeReason.isSome ∧
    (recordImage st h).toList.take 12 =
      [(st.record h).generation ++ BitVec.ofNat 8 h.val, flags ++ (st.record h).state.code,
        BitVec.ofNat 8 (st.record h).grantee.val ++ BitVec.ofNat 8 (st.record h).owner.val,
        BitVec.ofNat 8 (st.record h).width ++ BitVec.ofNat 8 (((st.record h).firstSlot.map Fin.val).getD 0),
        (st.record h).frameSet, BitVec.ofNat 16 (st.record h).term,
        BitVec.ofNat 8 (st.record h).depth ++ BitVec.ofNat 8 (st.record h).rank,
        BitVec.ofNat 8 (st.record h).children.length ++ BitVec.ofNat 8 (((st.record h).parent.map Fin.val).getD 0),
        BitVec.ofNat 8 ((st.record h).waitAge.getD 0) ++ BitVec.ofNat 8 ((st.record h).waitLimit.getD 0),
        BitVec.ofNat 8 ((st.record h).closeAge.getD 0) ++ ((st.record h).closeReason.map CloseReason.code).getD 0,
        BitVec.ofNat 8 (st.record h).idleCount ++ (st.record h).reasons.byte,
        (st.record h).granteeNotices ++ (st.record h).ownerNotices] ∧
    ∀ k : Fin 4, (recordImage st h).toList[12 + k.val]? = some
      (match (st.record h).children[k.val]? with
        | some c => (st.record c).generation ++ BitVec.ofNat 8 c.val
        | none => 0)) ∧
  (∀ (st : Store) (h : Handle), (queueImage st h).toList =
    [(st.record h).generation ++ BitVec.ofNat 8 h.val, (0 : Byte) ++ (st.record h).state.code,
      BitVec.ofNat 8 ((st.record h).waitAge.getD 0) ++ BitVec.ofNat 8 ((st.record h).waitLimit.getD 0),
      (0 : Byte) ++ BitVec.ofNat 8 st.queue.length] ++ List.replicate 12 0) ∧
  (∀ (st : Store) (n : Node), (nodeImage st n).toList =
    [(st.node n).state.code ++ BitVec.ofNat 8 n.val,
      BitVec.ofNat 8 (st.node n).rankCeiling ++ BitVec.ofNat 8 (st.node n).quota,
      BitVec.ofNat 8 (st.node n).liveOwned ++ BitVec.ofNat 8 (st.node n).strikes,
      BitVec.ofNat 8 st.fence ++ BitVec.ofNat 8 st.frameLength] ++ List.replicate 12 0) ∧
  [EventFlag.commandDone, .commandOverrun, .violation, .barred, .integrity, .frozen, .auditDone, .closeDropped,
    .darkFrame, .sweepSkipped, .stopped].map (fun k => k.bit.toNat) =
    [1, 2, 4, 8, 16, 32, 64, 128, 256, 512, 1024] ∧
  (∀ g : GrantWord, (g.lines.extractLsb' 0 4).toNat = g.frame.val ∧ (g.lines.extractLsb' 4 6).toNat = g.slot.val ∧
    (g.lines.extractLsb' 10 4).toNat = (g.grantee.map Fin.val).getD 15 ∧ g.lines.getLsbD 14 = g.mark)

/-- Every step keeps the device state, the sequencer, the monitor and the grant lines consistent, Law 9 among it: the grant lines name a node only in RUN, as the current plan's grantee for the slot. While the INIT clear runs, nothing else pending at the engine could write the store, and an audit step is pending only while an audit runs (R109, R110). -/
def Obligations.EveryStepKeepsConsistency : Prop :=
  ∀ s t : State, s.Consistent → step s = .next t → t.Consistent

/-- Every step keeps in range: the queue's length; each record's width, rank, term, wait limit, wait age, depth, number of children, close age and idle count (R1); each node's quota, at most 16 in a good record, its rank ceiling and its strike count (R155, R185); the frame length from 8 to 64 and the fence up to 64 (R33, R45); the configuration values, the reinstatement wait that a taken operation found, and the timer's length (R114, R179); the pending strikes, the pending sweep's count, the clear's step (R99, R102, R185); and the audit's position, restarts and mismatches (R197). A node's live owned count is EveryStepKeepsChains's. -/
def Obligations.EveryStepKeepsRanges : Prop :=
  ∀ s t : State, s.InRange → step s = .next t → t.InRange

/-- Every step keeps the engine's pending command and node requests equal to what the port and the links hold in flight, in both directions: a command in flight is the engine's pending one, or the CLEARTABLE whose clear runs, and a number in flight on a link is that of its pending request; and a command is pending at the port only behind one in flight (R149, R170, R181, Law 11). EveryStepKeepsConsistency states the premise's invariant. -/
def Obligations.EveryStepKeepsSlotsMatched : Prop :=
  ∀ s t : State, s.Consistent → s.SlotsMatch → step s = .next t → t.SlotsMatch

/-- Every step that takes no damage keeps Laws 1 and 2 over an undamaged store: outside a running clear the cells name exactly the occupying roots that cover them, each root within S, and below the fence protected ones only. The part of the store that a running clear has reached holds what it wrote. EveryStepKeepsConsistency states the premise's invariant. -/
def Obligations.EveryStepKeepsCells : Prop :=
  ∀ s t : State, s.Consistent → s.NoDamageNext → s.CellsAgree → step s = .next t → t.CellsAgree

/-- Every step that takes no damage keeps Law 3 over an undamaged store: outside a running clear the claim queue holds at most sixteen entries, exactly the WAITING and DISPLACED records, each once, and exactly these have a wait limit and a wait age. EveryStepKeepsConsistency states the premise's invariant. -/
def Obligations.EveryStepKeepsQueueLaw : Prop :=
  ∀ s t : State, s.Consistent → s.NoDamageNext → s.QueueAgrees → step s = .next t → t.QueueAgrees

/-- Every step that takes no damage keeps the sublet chains over an undamaged store: outside a running clear each children list holds exactly the live records whose parent it is, at most four, each once, with disjoint frames; a live child hangs below an occupying parent, one level deeper, within its frames (R69, R70, Laws 4 and 5); each node's live owned count is the number of live records it owns (R7); and a live record of term 0 is protected (Law 7). EveryStepKeepsConsistency states the premise's invariant. -/
def Obligations.EveryStepKeepsChains : Prop :=
  ∀ s t : State, s.Consistent → s.NoDamageNext → s.ChainsAgree → step s = .next t → t.ChainsAgree

/-- Every step that takes no damage keeps Law 8 over an undamaged store: outside a running clear an ABSENT node owns no live record, is the grantee of none, and has no notice addressed to it (R8, R161). EveryStepKeepsConsistency states the premise's invariant. -/
def Obligations.EveryStepKeepsLawEight : Prop :=
  ∀ s t : State, s.Consistent → s.NoDamageNext → s.AbsentAgrees → step s = .next t → t.AbsentAgrees

/-- Every step that takes no damage keeps Law 10, damaged items in the store or not: each attention line is asserted exactly while some record holds a notice set addressed to its node, as the store stood before the operation in progress, if one is (R93, R166); from device reset to the end of its clear every line is negated (R154, R185). EveryStepKeepsConsistency states the premise's invariant. -/
def Obligations.EveryStepKeepsLawTen : Prop :=
  ∀ s t : State, s.Consistent → s.NoDamageNext → s.AttentionAgrees → step s = .next t → t.AttentionAgrees
end

