-- ==== Sys2Proof/Laws/State.lean ====
section
/-! SUPPORT. One lemma for each field of the state under each shared update of it. -/

namespace Sys2Proof.Machine.State

/-! The fields of a state with one field replaced. -/

@[simp] theorem store_withStore (s : State) (v : Store) : ({ s with store := v } : State).store = v := rfl
@[simp] theorem engine_withStore (s : State) (v : Store) : ({ s with store := v } : State).engine = s.engine := rfl
@[simp] theorem seq_withStore (s : State) (v : Store) : ({ s with store := v } : State).seq = s.seq := rfl
@[simp] theorem monitor_withStore (s : State) (v : Store) : ({ s with store := v } : State).monitor = s.monitor := rfl
@[simp] theorem links_withStore (s : State) (v : Store) : ({ s with store := v } : State).links = s.links := rfl
@[simp] theorem port_withStore (s : State) (v : Store) : ({ s with store := v } : State).port = s.port := rfl
@[simp] theorem control_withStore (s : State) (v : Store) : ({ s with store := v } : State).control = s.control := rfl
@[simp] theorem resetAsserted_withStore (s : State) (v : Store) : ({ s with store := v } : State).resetAsserted = s.resetAsserted := rfl
@[simp] theorem pending_withStore (s : State) (v : Store) : ({ s with store := v } : State).pending = s.pending := rfl

@[simp] theorem store_withEngine (s : State) (v : Engine) : ({ s with engine := v } : State).store = s.store := rfl
@[simp] theorem engine_withEngine (s : State) (v : Engine) : ({ s with engine := v } : State).engine = v := rfl
@[simp] theorem seq_withEngine (s : State) (v : Engine) : ({ s with engine := v } : State).seq = s.seq := rfl
@[simp] theorem monitor_withEngine (s : State) (v : Engine) : ({ s with engine := v } : State).monitor = s.monitor := rfl
@[simp] theorem links_withEngine (s : State) (v : Engine) : ({ s with engine := v } : State).links = s.links := rfl
@[simp] theorem port_withEngine (s : State) (v : Engine) : ({ s with engine := v } : State).port = s.port := rfl
@[simp] theorem control_withEngine (s : State) (v : Engine) : ({ s with engine := v } : State).control = s.control := rfl
@[simp] theorem resetAsserted_withEngine (s : State) (v : Engine) : ({ s with engine := v } : State).resetAsserted = s.resetAsserted := rfl
@[simp] theorem pending_withEngine (s : State) (v : Engine) : ({ s with engine := v } : State).pending = s.pending := rfl

@[simp] theorem store_withSeq (s : State) (v : Sequencer) : ({ s with seq := v } : State).store = s.store := rfl
@[simp] theorem engine_withSeq (s : State) (v : Sequencer) : ({ s with seq := v } : State).engine = s.engine := rfl
@[simp] theorem seq_withSeq (s : State) (v : Sequencer) : ({ s with seq := v } : State).seq = v := rfl
@[simp] theorem monitor_withSeq (s : State) (v : Sequencer) : ({ s with seq := v } : State).monitor = s.monitor := rfl
@[simp] theorem links_withSeq (s : State) (v : Sequencer) : ({ s with seq := v } : State).links = s.links := rfl
@[simp] theorem port_withSeq (s : State) (v : Sequencer) : ({ s with seq := v } : State).port = s.port := rfl
@[simp] theorem control_withSeq (s : State) (v : Sequencer) : ({ s with seq := v } : State).control = s.control := rfl
@[simp] theorem resetAsserted_withSeq (s : State) (v : Sequencer) : ({ s with seq := v } : State).resetAsserted = s.resetAsserted := rfl
@[simp] theorem pending_withSeq (s : State) (v : Sequencer) : ({ s with seq := v } : State).pending = s.pending := rfl

@[simp] theorem store_withMonitor (s : State) (v : Monitor) : ({ s with monitor := v } : State).store = s.store := rfl
@[simp] theorem engine_withMonitor (s : State) (v : Monitor) : ({ s with monitor := v } : State).engine = s.engine := rfl
@[simp] theorem seq_withMonitor (s : State) (v : Monitor) : ({ s with monitor := v } : State).seq = s.seq := rfl
@[simp] theorem monitor_withMonitor (s : State) (v : Monitor) : ({ s with monitor := v } : State).monitor = v := rfl
@[simp] theorem links_withMonitor (s : State) (v : Monitor) : ({ s with monitor := v } : State).links = s.links := rfl
@[simp] theorem port_withMonitor (s : State) (v : Monitor) : ({ s with monitor := v } : State).port = s.port := rfl
@[simp] theorem control_withMonitor (s : State) (v : Monitor) : ({ s with monitor := v } : State).control = s.control := rfl
@[simp] theorem resetAsserted_withMonitor (s : State) (v : Monitor) : ({ s with monitor := v } : State).resetAsserted = s.resetAsserted := rfl
@[simp] theorem pending_withMonitor (s : State) (v : Monitor) : ({ s with monitor := v } : State).pending = s.pending := rfl

@[simp] theorem store_withLinks (s : State) (v : Vector Link 12) : ({ s with links := v } : State).store = s.store := rfl
@[simp] theorem engine_withLinks (s : State) (v : Vector Link 12) : ({ s with links := v } : State).engine = s.engine := rfl
@[simp] theorem seq_withLinks (s : State) (v : Vector Link 12) : ({ s with links := v } : State).seq = s.seq := rfl
@[simp] theorem monitor_withLinks (s : State) (v : Vector Link 12) : ({ s with links := v } : State).monitor = s.monitor := rfl
@[simp] theorem links_withLinks (s : State) (v : Vector Link 12) : ({ s with links := v } : State).links = v := rfl
@[simp] theorem port_withLinks (s : State) (v : Vector Link 12) : ({ s with links := v } : State).port = s.port := rfl
@[simp] theorem control_withLinks (s : State) (v : Vector Link 12) : ({ s with links := v } : State).control = s.control := rfl
@[simp] theorem resetAsserted_withLinks (s : State) (v : Vector Link 12) : ({ s with links := v } : State).resetAsserted = s.resetAsserted := rfl
@[simp] theorem pending_withLinks (s : State) (v : Vector Link 12) : ({ s with links := v } : State).pending = s.pending := rfl

@[simp] theorem store_withPort (s : State) (v : Port) : ({ s with port := v } : State).store = s.store := rfl
@[simp] theorem engine_withPort (s : State) (v : Port) : ({ s with port := v } : State).engine = s.engine := rfl
@[simp] theorem seq_withPort (s : State) (v : Port) : ({ s with port := v } : State).seq = s.seq := rfl
@[simp] theorem monitor_withPort (s : State) (v : Port) : ({ s with port := v } : State).monitor = s.monitor := rfl
@[simp] theorem links_withPort (s : State) (v : Port) : ({ s with port := v } : State).links = s.links := rfl
@[simp] theorem port_withPort (s : State) (v : Port) : ({ s with port := v } : State).port = v := rfl
@[simp] theorem control_withPort (s : State) (v : Port) : ({ s with port := v } : State).control = s.control := rfl
@[simp] theorem resetAsserted_withPort (s : State) (v : Port) : ({ s with port := v } : State).resetAsserted = s.resetAsserted := rfl
@[simp] theorem pending_withPort (s : State) (v : Port) : ({ s with port := v } : State).pending = s.pending := rfl

@[simp] theorem store_withControl (s : State) (v : Control) : ({ s with control := v } : State).store = s.store := rfl
@[simp] theorem engine_withControl (s : State) (v : Control) : ({ s with control := v } : State).engine = s.engine := rfl
@[simp] theorem seq_withControl (s : State) (v : Control) : ({ s with control := v } : State).seq = s.seq := rfl
@[simp] theorem monitor_withControl (s : State) (v : Control) : ({ s with control := v } : State).monitor = s.monitor := rfl
@[simp] theorem links_withControl (s : State) (v : Control) : ({ s with control := v } : State).links = s.links := rfl
@[simp] theorem port_withControl (s : State) (v : Control) : ({ s with control := v } : State).port = s.port := rfl
@[simp] theorem control_withControl (s : State) (v : Control) : ({ s with control := v } : State).control = v := rfl
@[simp] theorem resetAsserted_withControl (s : State) (v : Control) : ({ s with control := v } : State).resetAsserted = s.resetAsserted := rfl
@[simp] theorem pending_withControl (s : State) (v : Control) : ({ s with control := v } : State).pending = s.pending := rfl

@[simp] theorem store_withResetAsserted (s : State) (v : Bool) : ({ s with resetAsserted := v } : State).store = s.store := rfl
@[simp] theorem engine_withResetAsserted (s : State) (v : Bool) : ({ s with resetAsserted := v } : State).engine = s.engine := rfl
@[simp] theorem seq_withResetAsserted (s : State) (v : Bool) : ({ s with resetAsserted := v } : State).seq = s.seq := rfl
@[simp] theorem monitor_withResetAsserted (s : State) (v : Bool) : ({ s with resetAsserted := v } : State).monitor = s.monitor := rfl
@[simp] theorem links_withResetAsserted (s : State) (v : Bool) : ({ s with resetAsserted := v } : State).links = s.links := rfl
@[simp] theorem port_withResetAsserted (s : State) (v : Bool) : ({ s with resetAsserted := v } : State).port = s.port := rfl
@[simp] theorem control_withResetAsserted (s : State) (v : Bool) : ({ s with resetAsserted := v } : State).control = s.control := rfl
@[simp] theorem resetAsserted_withResetAsserted (s : State) (v : Bool) : ({ s with resetAsserted := v } : State).resetAsserted = v := rfl
@[simp] theorem pending_withResetAsserted (s : State) (v : Bool) : ({ s with resetAsserted := v } : State).pending = s.pending := rfl

@[simp] theorem store_withPending (s : State) (v : List Instr) : ({ s with pending := v } : State).store = s.store := rfl
@[simp] theorem engine_withPending (s : State) (v : List Instr) : ({ s with pending := v } : State).engine = s.engine := rfl
@[simp] theorem seq_withPending (s : State) (v : List Instr) : ({ s with pending := v } : State).seq = s.seq := rfl
@[simp] theorem monitor_withPending (s : State) (v : List Instr) : ({ s with pending := v } : State).monitor = s.monitor := rfl
@[simp] theorem links_withPending (s : State) (v : List Instr) : ({ s with pending := v } : State).links = s.links := rfl
@[simp] theorem port_withPending (s : State) (v : List Instr) : ({ s with pending := v } : State).port = s.port := rfl
@[simp] theorem control_withPending (s : State) (v : List Instr) : ({ s with pending := v } : State).control = s.control := rfl
@[simp] theorem resetAsserted_withPending (s : State) (v : List Instr) : ({ s with pending := v } : State).resetAsserted = s.resetAsserted := rfl
@[simp] theorem pending_withPending (s : State) (v : List Instr) : ({ s with pending := v } : State).pending = v := rfl

/-! raise. -/

@[simp] theorem store_raise (s : State) (f : EventFlag) : (s.raise f).store = s.store := rfl
@[simp] theorem engine_raise (s : State) (f : EventFlag) : (s.raise f).engine = s.engine := rfl
@[simp] theorem seq_raise (s : State) (f : EventFlag) : (s.raise f).seq = s.seq := rfl
@[simp] theorem monitor_raise (s : State) (f : EventFlag) : (s.raise f).monitor = s.monitor := rfl
@[simp] theorem links_raise (s : State) (f : EventFlag) : (s.raise f).links = s.links := rfl
@[simp] theorem control_raise (s : State) (f : EventFlag) : (s.raise f).control = s.control := rfl
@[simp] theorem resetAsserted_raise (s : State) (f : EventFlag) : (s.raise f).resetAsserted = s.resetAsserted := rfl
@[simp] theorem pending_raise (s : State) (f : EventFlag) : (s.raise f).pending = s.pending := rfl

/-! raiseIf. -/

@[simp] theorem store_raiseIf (s : State) (b : Bool) (f : EventFlag) : (s.raiseIf b f).store = s.store := by cases b <;> rfl
@[simp] theorem engine_raiseIf (s : State) (b : Bool) (f : EventFlag) : (s.raiseIf b f).engine = s.engine := by cases b <;> rfl
@[simp] theorem seq_raiseIf (s : State) (b : Bool) (f : EventFlag) : (s.raiseIf b f).seq = s.seq := by cases b <;> rfl
@[simp] theorem monitor_raiseIf (s : State) (b : Bool) (f : EventFlag) : (s.raiseIf b f).monitor = s.monitor := by cases b <;> rfl
@[simp] theorem links_raiseIf (s : State) (b : Bool) (f : EventFlag) : (s.raiseIf b f).links = s.links := by cases b <;> rfl
@[simp] theorem control_raiseIf (s : State) (b : Bool) (f : EventFlag) : (s.raiseIf b f).control = s.control := by cases b <;> rfl
@[simp] theorem resetAsserted_raiseIf (s : State) (b : Bool) (f : EventFlag) : (s.raiseIf b f).resetAsserted = s.resetAsserted := by cases b <;> rfl
@[simp] theorem pending_raiseIf (s : State) (b : Bool) (f : EventFlag) : (s.raiseIf b f).pending = s.pending := by cases b <;> rfl

/-! modifyLink. -/

@[simp] theorem store_modifyLink (s : State) (n : Node) (f : Link → Link) : (s.modifyLink n f).store = s.store := rfl
@[simp] theorem engine_modifyLink (s : State) (n : Node) (f : Link → Link) : (s.modifyLink n f).engine = s.engine := rfl
@[simp] theorem seq_modifyLink (s : State) (n : Node) (f : Link → Link) : (s.modifyLink n f).seq = s.seq := rfl
@[simp] theorem monitor_modifyLink (s : State) (n : Node) (f : Link → Link) : (s.modifyLink n f).monitor = s.monitor := rfl
@[simp] theorem port_modifyLink (s : State) (n : Node) (f : Link → Link) : (s.modifyLink n f).port = s.port := rfl
@[simp] theorem control_modifyLink (s : State) (n : Node) (f : Link → Link) : (s.modifyLink n f).control = s.control := rfl
@[simp] theorem resetAsserted_modifyLink (s : State) (n : Node) (f : Link → Link) : (s.modifyLink n f).resetAsserted = s.resetAsserted := rfl
@[simp] theorem pending_modifyLink (s : State) (n : Node) (f : Link → Link) : (s.modifyLink n f).pending = s.pending := rfl

/-! postQuarantine. -/

@[simp] theorem store_postQuarantine (s : State) (i : Item) : (s.postQuarantine i).store = s.store := rfl
@[simp] theorem seq_postQuarantine (s : State) (i : Item) : (s.postQuarantine i).seq = s.seq := rfl
@[simp] theorem monitor_postQuarantine (s : State) (i : Item) : (s.postQuarantine i).monitor = s.monitor := rfl
@[simp] theorem links_postQuarantine (s : State) (i : Item) : (s.postQuarantine i).links = s.links := rfl
@[simp] theorem port_postQuarantine (s : State) (i : Item) : (s.postQuarantine i).port = s.port := rfl
@[simp] theorem control_postQuarantine (s : State) (i : Item) : (s.postQuarantine i).control = s.control := rfl
@[simp] theorem resetAsserted_postQuarantine (s : State) (i : Item) : (s.postQuarantine i).resetAsserted = s.resetAsserted := rfl
@[simp] theorem pending_postQuarantine (s : State) (i : Item) : (s.postQuarantine i).pending = s.pending := rfl

/-! report. -/

@[simp] theorem store_report (s : State) (o : OpKind) (i : Item) : (s.report o i).store = s.store := by unfold report; split <;> rfl
@[simp] theorem engine_report (s : State) (o : OpKind) (i : Item) : (s.report o i).engine = s.engine := by unfold report; split <;> rfl
@[simp] theorem seq_report (s : State) (o : OpKind) (i : Item) : (s.report o i).seq = s.seq := by unfold report; split <;> rfl
@[simp] theorem monitor_report (s : State) (o : OpKind) (i : Item) : (s.report o i).monitor = s.monitor := by unfold report; split <;> rfl
@[simp] theorem links_report (s : State) (o : OpKind) (i : Item) : (s.report o i).links = s.links := by unfold report; split <;> rfl
@[simp] theorem resetAsserted_report (s : State) (o : OpKind) (i : Item) : (s.report o i).resetAsserted = s.resetAsserted := by unfold report; split <;> rfl
@[simp] theorem pending_report (s : State) (o : OpKind) (i : Item) : (s.report o i).pending = s.pending := by unfold report; split <;> rfl

/-! enterFrozen. -/

@[simp] theorem store_enterFrozen (s : State)  : (s.enterFrozen).store = s.store := rfl
@[simp] theorem engine_enterFrozen (s : State)  : (s.enterFrozen).engine = s.engine := rfl
@[simp] theorem links_enterFrozen (s : State)  : (s.enterFrozen).links = s.links := rfl
@[simp] theorem resetAsserted_enterFrozen (s : State)  : (s.enterFrozen).resetAsserted = s.resetAsserted := rfl
@[simp] theorem pending_enterFrozen (s : State)  : (s.enterFrozen).pending = s.pending := rfl

/-! applyPolicy. -/

@[simp] theorem store_applyPolicy (s : State) (mode : IntegrityMode) (i : Item) : (s.applyPolicy mode i).store = s.store := by unfold applyPolicy; (repeat' split) <;> rfl
@[simp] theorem links_applyPolicy (s : State) (mode : IntegrityMode) (i : Item) : (s.applyPolicy mode i).links = s.links := by unfold applyPolicy; (repeat' split) <;> rfl
@[simp] theorem resetAsserted_applyPolicy (s : State) (mode : IntegrityMode) (i : Item) : (s.applyPolicy mode i).resetAsserted = s.resetAsserted := by unfold applyPolicy; (repeat' split) <;> rfl
@[simp] theorem pending_applyPolicy (s : State) (mode : IntegrityMode) (i : Item) : (s.applyPolicy mode i).pending = s.pending := by unfold applyPolicy; (repeat' split) <;> rfl

/-! failedCheck. -/

@[simp] theorem store_failedCheck (s : State) (mode : IntegrityMode) (o : OpKind) (i : Item) : (s.failedCheck mode o i).store = s.store := by simp [failedCheck]
@[simp] theorem links_failedCheck (s : State) (mode : IntegrityMode) (o : OpKind) (i : Item) : (s.failedCheck mode o i).links = s.links := by simp [failedCheck]
@[simp] theorem resetAsserted_failedCheck (s : State) (mode : IntegrityMode) (o : OpKind) (i : Item) : (s.failedCheck mode o i).resetAsserted = s.resetAsserted := by simp [failedCheck]
@[simp] theorem pending_failedCheck (s : State) (mode : IntegrityMode) (o : OpKind) (i : Item) : (s.failedCheck mode o i).pending = s.pending := by simp [failedCheck]

/-! driveAttention. -/

@[simp] theorem store_driveAttention (s : State) (old : Store) : (s.driveAttention old).store = s.store := rfl
@[simp] theorem engine_driveAttention (s : State) (old : Store) : (s.driveAttention old).engine = s.engine := rfl
@[simp] theorem seq_driveAttention (s : State) (old : Store) : (s.driveAttention old).seq = s.seq := rfl
@[simp] theorem monitor_driveAttention (s : State) (old : Store) : (s.driveAttention old).monitor = s.monitor := rfl
@[simp] theorem port_driveAttention (s : State) (old : Store) : (s.driveAttention old).port = s.port := rfl
@[simp] theorem control_driveAttention (s : State) (old : Store) : (s.driveAttention old).control = s.control := rfl
@[simp] theorem resetAsserted_driveAttention (s : State) (old : Store) : (s.driveAttention old).resetAsserted = s.resetAsserted := rfl
@[simp] theorem pending_driveAttention (s : State) (old : Store) : (s.driveAttention old).pending = s.pending := rfl

/-! markDisturbed. -/

@[simp] theorem store_markDisturbed (s : State) (old : Store) : (s.markDisturbed old).store = s.store := by unfold markDisturbed; split <;> rfl
@[simp] theorem seq_markDisturbed (s : State) (old : Store) : (s.markDisturbed old).seq = s.seq := by unfold markDisturbed; split <;> rfl
@[simp] theorem monitor_markDisturbed (s : State) (old : Store) : (s.markDisturbed old).monitor = s.monitor := by unfold markDisturbed; split <;> rfl
@[simp] theorem links_markDisturbed (s : State) (old : Store) : (s.markDisturbed old).links = s.links := by unfold markDisturbed; split <;> rfl
@[simp] theorem port_markDisturbed (s : State) (old : Store) : (s.markDisturbed old).port = s.port := by unfold markDisturbed; split <;> rfl
@[simp] theorem control_markDisturbed (s : State) (old : Store) : (s.markDisturbed old).control = s.control := by unfold markDisturbed; split <;> rfl
@[simp] theorem resetAsserted_markDisturbed (s : State) (old : Store) : (s.markDisturbed old).resetAsserted = s.resetAsserted := by unfold markDisturbed; split <;> rfl
@[simp] theorem pending_markDisturbed (s : State) (old : Store) : (s.markDisturbed old).pending = s.pending := by unfold markDisturbed; split <;> rfl

/-! commit. -/

@[simp] theorem seq_commit (s : State) (new : Store) : (s.commit new).seq = s.seq := by simp [commit]
@[simp] theorem monitor_commit (s : State) (new : Store) : (s.commit new).monitor = s.monitor := by simp [commit]
@[simp] theorem port_commit (s : State) (new : Store) : (s.commit new).port = s.port := by simp [commit]
@[simp] theorem control_commit (s : State) (new : Store) : (s.commit new).control = s.control := by simp [commit]
@[simp] theorem resetAsserted_commit (s : State) (new : Store) : (s.commit new).resetAsserted = s.resetAsserted := by simp [commit]
@[simp] theorem pending_commit (s : State) (new : Store) : (s.commit new).pending = s.pending := by simp [commit]

/-! takeRequest. -/

@[simp] theorem store_takeRequest (s : State) (n : Node) : (s.takeRequest n).store = s.store := rfl
@[simp] theorem seq_takeRequest (s : State) (n : Node) : (s.takeRequest n).seq = s.seq := rfl
@[simp] theorem monitor_takeRequest (s : State) (n : Node) : (s.takeRequest n).monitor = s.monitor := rfl
@[simp] theorem links_takeRequest (s : State) (n : Node) : (s.takeRequest n).links = s.links := rfl
@[simp] theorem port_takeRequest (s : State) (n : Node) : (s.takeRequest n).port = s.port := rfl
@[simp] theorem control_takeRequest (s : State) (n : Node) : (s.takeRequest n).control = s.control := rfl
@[simp] theorem resetAsserted_takeRequest (s : State) (n : Node) : (s.takeRequest n).resetAsserted = s.resetAsserted := rfl
@[simp] theorem pending_takeRequest (s : State) (n : Node) : (s.takeRequest n).pending = s.pending := rfl

/-! takeCommand. -/

@[simp] theorem store_takeCommand (s : State)  : (s.takeCommand).store = s.store := rfl
@[simp] theorem seq_takeCommand (s : State)  : (s.takeCommand).seq = s.seq := rfl
@[simp] theorem monitor_takeCommand (s : State)  : (s.takeCommand).monitor = s.monitor := rfl
@[simp] theorem links_takeCommand (s : State)  : (s.takeCommand).links = s.links := rfl
@[simp] theorem port_takeCommand (s : State)  : (s.takeCommand).port = s.port := rfl
@[simp] theorem control_takeCommand (s : State)  : (s.takeCommand).control = s.control := rfl
@[simp] theorem resetAsserted_takeCommand (s : State)  : (s.takeCommand).resetAsserted = s.resetAsserted := rfl
@[simp] theorem pending_takeCommand (s : State)  : (s.takeCommand).pending = s.pending := rfl

/-! take. -/

@[simp] theorem store_take (s : State) (t : Taking) : (s.take t).store = s.store := by unfold take; split <;> rfl
@[simp] theorem seq_take (s : State) (t : Taking) : (s.take t).seq = s.seq := by unfold take; split <;> rfl
@[simp] theorem monitor_take (s : State) (t : Taking) : (s.take t).monitor = s.monitor := by unfold take; split <;> rfl
@[simp] theorem links_take (s : State) (t : Taking) : (s.take t).links = s.links := by unfold take; split <;> rfl
@[simp] theorem port_take (s : State) (t : Taking) : (s.take t).port = s.port := by unfold take; split <;> rfl
@[simp] theorem control_take (s : State) (t : Taking) : (s.take t).control = s.control := by unfold take; split <;> rfl
@[simp] theorem resetAsserted_take (s : State) (t : Taking) : (s.take t).resetAsserted = s.resetAsserted := by unfold take; split <;> rfl
@[simp] theorem pending_take (s : State) (t : Taking) : (s.take t).pending = s.pending := by unfold take; split <;> rfl

/-! enter. -/

@[simp] theorem store_enter (s : State) (t : Taking) : (s.enter t).store = s.store := rfl
@[simp] theorem seq_enter (s : State) (t : Taking) : (s.enter t).seq = s.seq := rfl
@[simp] theorem monitor_enter (s : State) (t : Taking) : (s.enter t).monitor = s.monitor := rfl
@[simp] theorem links_enter (s : State) (t : Taking) : (s.enter t).links = s.links := rfl
@[simp] theorem port_enter (s : State) (t : Taking) : (s.enter t).port = s.port := rfl
@[simp] theorem control_enter (s : State) (t : Taking) : (s.enter t).control = s.control := rfl
@[simp] theorem resetAsserted_enter (s : State) (t : Taking) : (s.enter t).resetAsserted = s.resetAsserted := rfl
@[simp] theorem pending_enter (s : State) (t : Taking) : (s.enter t).pending = s.pending := rfl

/-! enterSweep, enterStrikes. -/

@[simp] theorem store_enterSweep (s : State) : (s.enterSweep).store = s.store := by unfold enterSweep; split <;> simp
@[simp] theorem seq_enterSweep (s : State) : (s.enterSweep).seq = s.seq := by unfold enterSweep; split <;> simp
@[simp] theorem monitor_enterSweep (s : State) : (s.enterSweep).monitor = s.monitor := by unfold enterSweep; split <;> simp
@[simp] theorem links_enterSweep (s : State) : (s.enterSweep).links = s.links := by unfold enterSweep; split <;> simp
@[simp] theorem port_enterSweep (s : State) : (s.enterSweep).port = s.port := by unfold enterSweep; split <;> simp
@[simp] theorem control_enterSweep (s : State) : (s.enterSweep).control = s.control := by unfold enterSweep; split <;> simp
@[simp] theorem resetAsserted_enterSweep (s : State) : (s.enterSweep).resetAsserted = s.resetAsserted := by unfold enterSweep; split <;> simp
@[simp] theorem pending_enterSweep (s : State) : (s.enterSweep).pending = s.pending := by unfold enterSweep; split <;> simp
@[simp] theorem store_enterStrikes (s : State) : (s.enterStrikes).store = s.store := by unfold enterStrikes; split <;> simp
@[simp] theorem seq_enterStrikes (s : State) : (s.enterStrikes).seq = s.seq := by unfold enterStrikes; split <;> simp
@[simp] theorem monitor_enterStrikes (s : State) : (s.enterStrikes).monitor = s.monitor := by unfold enterStrikes; split <;> simp
@[simp] theorem links_enterStrikes (s : State) : (s.enterStrikes).links = s.links := by unfold enterStrikes; split <;> simp
@[simp] theorem port_enterStrikes (s : State) : (s.enterStrikes).port = s.port := by unfold enterStrikes; split <;> simp
@[simp] theorem control_enterStrikes (s : State) : (s.enterStrikes).control = s.control := by unfold enterStrikes; split <;> simp
@[simp] theorem resetAsserted_enterStrikes (s : State) : (s.enterStrikes).resetAsserted = s.resetAsserted := by unfold enterStrikes; split <;> simp
@[simp] theorem pending_enterStrikes (s : State) : (s.enterStrikes).pending = s.pending := by unfold enterStrikes; split <;> simp

/-! takeAuditStep. -/

@[simp] theorem store_takeAuditStep (s : State)  : (s.takeAuditStep).store = s.store := rfl
@[simp] theorem seq_takeAuditStep (s : State)  : (s.takeAuditStep).seq = s.seq := rfl
@[simp] theorem monitor_takeAuditStep (s : State)  : (s.takeAuditStep).monitor = s.monitor := rfl
@[simp] theorem links_takeAuditStep (s : State)  : (s.takeAuditStep).links = s.links := rfl
@[simp] theorem port_takeAuditStep (s : State)  : (s.takeAuditStep).port = s.port := rfl
@[simp] theorem control_takeAuditStep (s : State)  : (s.takeAuditStep).control = s.control := rfl
@[simp] theorem resetAsserted_takeAuditStep (s : State)  : (s.takeAuditStep).resetAsserted = s.resetAsserted := rfl
@[simp] theorem pending_takeAuditStep (s : State)  : (s.takeAuditStep).pending = s.pending := rfl

/-! answer. -/

@[simp] theorem store_answer (s : State) (n : Node) (p : Posted) (c : ResultCode) (r : Results) : (s.answer n p c r).store = s.store := rfl
@[simp] theorem engine_answer (s : State) (n : Node) (p : Posted) (c : ResultCode) (r : Results) : (s.answer n p c r).engine = s.engine := rfl
@[simp] theorem seq_answer (s : State) (n : Node) (p : Posted) (c : ResultCode) (r : Results) : (s.answer n p c r).seq = s.seq := rfl
@[simp] theorem monitor_answer (s : State) (n : Node) (p : Posted) (c : ResultCode) (r : Results) : (s.answer n p c r).monitor = s.monitor := rfl
@[simp] theorem port_answer (s : State) (n : Node) (p : Posted) (c : ResultCode) (r : Results) : (s.answer n p c r).port = s.port := rfl
@[simp] theorem control_answer (s : State) (n : Node) (p : Posted) (c : ResultCode) (r : Results) : (s.answer n p c r).control = s.control := rfl
@[simp] theorem resetAsserted_answer (s : State) (n : Node) (p : Posted) (c : ResultCode) (r : Results) : (s.answer n p c r).resetAsserted = s.resetAsserted := rfl
@[simp] theorem pending_answer (s : State) (n : Node) (p : Posted) (c : ResultCode) (r : Results) : (s.answer n p c r).pending = s.pending := rfl

/-! goInFlight. -/

@[simp] theorem store_goInFlight (s : State) (c : Command) : (s.goInFlight c).store = s.store := rfl
@[simp] theorem seq_goInFlight (s : State) (c : Command) : (s.goInFlight c).seq = s.seq := rfl
@[simp] theorem monitor_goInFlight (s : State) (c : Command) : (s.goInFlight c).monitor = s.monitor := rfl
@[simp] theorem links_goInFlight (s : State) (c : Command) : (s.goInFlight c).links = s.links := rfl
@[simp] theorem control_goInFlight (s : State) (c : Command) : (s.goInFlight c).control = s.control := rfl
@[simp] theorem resetAsserted_goInFlight (s : State) (c : Command) : (s.goInFlight c).resetAsserted = s.resetAsserted := rfl
@[simp] theorem pending_goInFlight (s : State) (c : Command) : (s.goInFlight c).pending = s.pending := rfl

/-! exchangeRead. -/

@[simp] theorem store_exchangeRead (s : State) (im : ReadImage) : (s.exchangeRead im).store = s.store := rfl
@[simp] theorem engine_exchangeRead (s : State) (im : ReadImage) : (s.exchangeRead im).engine = s.engine := rfl
@[simp] theorem seq_exchangeRead (s : State) (im : ReadImage) : (s.exchangeRead im).seq = s.seq := rfl
@[simp] theorem monitor_exchangeRead (s : State) (im : ReadImage) : (s.exchangeRead im).monitor = s.monitor := rfl
@[simp] theorem links_exchangeRead (s : State) (im : ReadImage) : (s.exchangeRead im).links = s.links := rfl
@[simp] theorem control_exchangeRead (s : State) (im : ReadImage) : (s.exchangeRead im).control = s.control := rfl
@[simp] theorem resetAsserted_exchangeRead (s : State) (im : ReadImage) : (s.exchangeRead im).resetAsserted = s.resetAsserted := rfl
@[simp] theorem pending_exchangeRead (s : State) (im : ReadImage) : (s.exchangeRead im).pending = s.pending := rfl

/-! advanceSlot. -/

@[simp] theorem store_advanceSlot (s : State)  : (s.advanceSlot).store = s.store := by unfold advanceSlot; split <;> rfl
@[simp] theorem seq_advanceSlot (s : State)  : (s.advanceSlot).seq = s.seq := by unfold advanceSlot; split <;> rfl
@[simp] theorem monitor_advanceSlot (s : State)  : (s.advanceSlot).monitor = s.monitor := by unfold advanceSlot; split <;> rfl
@[simp] theorem links_advanceSlot (s : State)  : (s.advanceSlot).links = s.links := by unfold advanceSlot; split <;> rfl
@[simp] theorem control_advanceSlot (s : State)  : (s.advanceSlot).control = s.control := by unfold advanceSlot; split <;> rfl
@[simp] theorem resetAsserted_advanceSlot (s : State)  : (s.advanceSlot).resetAsserted = s.resetAsserted := by unfold advanceSlot; split <;> rfl
@[simp] theorem pending_advanceSlot (s : State)  : (s.advanceSlot).pending = s.pending := by unfold advanceSlot; split <;> rfl

/-! completeCommand. -/

@[simp] theorem store_completeCommand (s : State) (c : Command) (o : CmdOutcome) (h : Word) (im : Option (Vector Word 16)) : (s.completeCommand c o h im).store = s.store := by cases im <;> simp [completeCommand]
@[simp] theorem seq_completeCommand (s : State) (c : Command) (o : CmdOutcome) (h : Word) (im : Option (Vector Word 16)) : (s.completeCommand c o h im).seq = s.seq := by cases im <;> simp [completeCommand]
@[simp] theorem monitor_completeCommand (s : State) (c : Command) (o : CmdOutcome) (h : Word) (im : Option (Vector Word 16)) : (s.completeCommand c o h im).monitor = s.monitor := by cases im <;> simp [completeCommand]
@[simp] theorem links_completeCommand (s : State) (c : Command) (o : CmdOutcome) (h : Word) (im : Option (Vector Word 16)) : (s.completeCommand c o h im).links = s.links := by cases im <;> simp [completeCommand]
@[simp] theorem control_completeCommand (s : State) (c : Command) (o : CmdOutcome) (h : Word) (im : Option (Vector Word 16)) : (s.completeCommand c o h im).control = s.control := by cases im <;> simp [completeCommand]
@[simp] theorem resetAsserted_completeCommand (s : State) (c : Command) (o : CmdOutcome) (h : Word) (im : Option (Vector Word 16)) : (s.completeCommand c o h im).resetAsserted = s.resetAsserted := by cases im <;> simp [completeCommand]
@[simp] theorem pending_completeCommand (s : State) (c : Command) (o : CmdOutcome) (h : Word) (im : Option (Vector Word 16)) : (s.completeCommand c o h im).pending = s.pending := by cases im <;> simp [completeCommand]

/-! acceptCommand. -/

@[simp] theorem store_acceptCommand (s : State) (c : Command) : (s.acceptCommand c).store = s.store := by simp [acceptCommand]
@[simp] theorem seq_acceptCommand (s : State) (c : Command) : (s.acceptCommand c).seq = s.seq := by simp [acceptCommand]
@[simp] theorem monitor_acceptCommand (s : State) (c : Command) : (s.acceptCommand c).monitor = s.monitor := by simp [acceptCommand]
@[simp] theorem links_acceptCommand (s : State) (c : Command) : (s.acceptCommand c).links = s.links := by simp [acceptCommand]
@[simp] theorem control_acceptCommand (s : State) (c : Command) : (s.acceptCommand c).control = s.control := by simp [acceptCommand]
@[simp] theorem resetAsserted_acceptCommand (s : State) (c : Command) : (s.acceptCommand c).resetAsserted = s.resetAsserted := by simp [acceptCommand]
@[simp] theorem pending_acceptCommand (s : State) (c : Command) : (s.acceptCommand c).pending = s.pending := by simp [acceptCommand]

/-! modifyAudit. -/

@[simp] theorem store_modifyAudit (s : State) (f : AuditProgress → AuditProgress) : (s.modifyAudit f).store = s.store := rfl
@[simp] theorem seq_modifyAudit (s : State) (f : AuditProgress → AuditProgress) : (s.modifyAudit f).seq = s.seq := rfl
@[simp] theorem monitor_modifyAudit (s : State) (f : AuditProgress → AuditProgress) : (s.modifyAudit f).monitor = s.monitor := rfl
@[simp] theorem links_modifyAudit (s : State) (f : AuditProgress → AuditProgress) : (s.modifyAudit f).links = s.links := rfl
@[simp] theorem port_modifyAudit (s : State) (f : AuditProgress → AuditProgress) : (s.modifyAudit f).port = s.port := rfl
@[simp] theorem control_modifyAudit (s : State) (f : AuditProgress → AuditProgress) : (s.modifyAudit f).control = s.control := rfl
@[simp] theorem resetAsserted_modifyAudit (s : State) (f : AuditProgress → AuditProgress) : (s.modifyAudit f).resetAsserted = s.resetAsserted := rfl
@[simp] theorem pending_modifyAudit (s : State) (f : AuditProgress → AuditProgress) : (s.modifyAudit f).pending = s.pending := rfl

/-! endAudit. -/

@[simp] theorem store_endAudit (s : State) (r : AuditResult) : (s.endAudit r).store = s.store := rfl
@[simp] theorem seq_endAudit (s : State) (r : AuditResult) : (s.endAudit r).seq = s.seq := rfl
@[simp] theorem monitor_endAudit (s : State) (r : AuditResult) : (s.endAudit r).monitor = s.monitor := rfl
@[simp] theorem links_endAudit (s : State) (r : AuditResult) : (s.endAudit r).links = s.links := rfl
@[simp] theorem control_endAudit (s : State) (r : AuditResult) : (s.endAudit r).control = s.control := rfl
@[simp] theorem resetAsserted_endAudit (s : State) (r : AuditResult) : (s.endAudit r).resetAsserted = s.resetAsserted := rfl
@[simp] theorem pending_endAudit (s : State) (r : AuditResult) : (s.endAudit r).pending = s.pending := rfl

/-! tickTimer. -/

@[simp] theorem store_tickTimer (s : State)  : (s.tickTimer).store = s.store := rfl
@[simp] theorem engine_tickTimer (s : State)  : (s.tickTimer).engine = s.engine := rfl
@[simp] theorem monitor_tickTimer (s : State)  : (s.tickTimer).monitor = s.monitor := rfl
@[simp] theorem port_tickTimer (s : State)  : (s.tickTimer).port = s.port := rfl
@[simp] theorem control_tickTimer (s : State)  : (s.tickTimer).control = s.control := rfl
@[simp] theorem resetAsserted_tickTimer (s : State)  : (s.tickTimer).resetAsserted = s.resetAsserted := rfl
@[simp] theorem pending_tickTimer (s : State)  : (s.tickTimer).pending = s.pending := rfl

/-! latchViolation. -/

@[simp] theorem store_latchViolation (s : State) (g t : Option Node) : (s.latchViolation g t).store = s.store := by unfold latchViolation; split <;> rfl
@[simp] theorem engine_latchViolation (s : State) (g t : Option Node) : (s.latchViolation g t).engine = s.engine := by unfold latchViolation; split <;> rfl
@[simp] theorem seq_latchViolation (s : State) (g t : Option Node) : (s.latchViolation g t).seq = s.seq := by unfold latchViolation; split <;> rfl
@[simp] theorem links_latchViolation (s : State) (g t : Option Node) : (s.latchViolation g t).links = s.links := by unfold latchViolation; split <;> rfl
@[simp] theorem control_latchViolation (s : State) (g t : Option Node) : (s.latchViolation g t).control = s.control := by unfold latchViolation; split <;> rfl
@[simp] theorem resetAsserted_latchViolation (s : State) (g t : Option Node) : (s.latchViolation g t).resetAsserted = s.resetAsserted := by unfold latchViolation; split <;> rfl
@[simp] theorem pending_latchViolation (s : State) (g t : Option Node) : (s.latchViolation g t).pending = s.pending := by unfold latchViolation; split <;> rfl

/-! postStrike. -/

@[simp] theorem store_postStrike (s : State) (n : Node) : (s.postStrike n).store = s.store := rfl
@[simp] theorem seq_postStrike (s : State) (n : Node) : (s.postStrike n).seq = s.seq := rfl
@[simp] theorem monitor_postStrike (s : State) (n : Node) : (s.postStrike n).monitor = s.monitor := rfl
@[simp] theorem links_postStrike (s : State) (n : Node) : (s.postStrike n).links = s.links := rfl
@[simp] theorem port_postStrike (s : State) (n : Node) : (s.postStrike n).port = s.port := rfl
@[simp] theorem control_postStrike (s : State) (n : Node) : (s.postStrike n).control = s.control := rfl
@[simp] theorem resetAsserted_postStrike (s : State) (n : Node) : (s.postStrike n).resetAsserted = s.resetAsserted := rfl
@[simp] theorem pending_postStrike (s : State) (n : Node) : (s.postStrike n).pending = s.pending := rfl

/-! addTalked. -/

@[simp] theorem store_addTalked (s : State) (t : Tag) : (s.addTalked t).store = s.store := rfl
@[simp] theorem engine_addTalked (s : State) (t : Tag) : (s.addTalked t).engine = s.engine := rfl
@[simp] theorem seq_addTalked (s : State) (t : Tag) : (s.addTalked t).seq = s.seq := rfl
@[simp] theorem links_addTalked (s : State) (t : Tag) : (s.addTalked t).links = s.links := rfl
@[simp] theorem port_addTalked (s : State) (t : Tag) : (s.addTalked t).port = s.port := rfl
@[simp] theorem control_addTalked (s : State) (t : Tag) : (s.addTalked t).control = s.control := rfl
@[simp] theorem resetAsserted_addTalked (s : State) (t : Tag) : (s.addTalked t).resetAsserted = s.resetAsserted := rfl
@[simp] theorem pending_addTalked (s : State) (t : Tag) : (s.addTalked t).pending = s.pending := rfl

/-! judgeSlot. -/

@[simp] theorem store_judgeSlot (s : State)  : (s.judgeSlot).store = s.store := by unfold judgeSlot; (repeat' split) <;> simp
@[simp] theorem seq_judgeSlot (s : State)  : (s.judgeSlot).seq = s.seq := by unfold judgeSlot; (repeat' split) <;> simp
@[simp] theorem links_judgeSlot (s : State)  : (s.judgeSlot).links = s.links := by unfold judgeSlot; (repeat' split) <;> simp
@[simp] theorem control_judgeSlot (s : State)  : (s.judgeSlot).control = s.control := by unfold judgeSlot; (repeat' split) <;> simp
@[simp] theorem resetAsserted_judgeSlot (s : State)  : (s.judgeSlot).resetAsserted = s.resetAsserted := by unfold judgeSlot; (repeat' split) <;> simp
@[simp] theorem pending_judgeSlot (s : State)  : (s.judgeSlot).pending = s.pending := by unfold judgeSlot; (repeat' split) <;> simp

/-! endSlot. -/

@[simp] theorem store_endSlot (s : State)  : (s.endSlot).store = s.store := by unfold endSlot; split <;> simp
@[simp] theorem seq_endSlot (s : State)  : (s.endSlot).seq = s.seq := by unfold endSlot; split <;> simp
@[simp] theorem links_endSlot (s : State)  : (s.endSlot).links = s.links := by unfold endSlot; split <;> simp
@[simp] theorem control_endSlot (s : State)  : (s.endSlot).control = s.control := by unfold endSlot; split <;> simp
@[simp] theorem resetAsserted_endSlot (s : State)  : (s.endSlot).resetAsserted = s.resetAsserted := by unfold endSlot; split <;> simp
@[simp] theorem pending_endSlot (s : State)  : (s.endSlot).pending = s.pending := by unfold endSlot; split <;> simp

/-! endFrame. -/

@[simp] theorem store_endFrame (s : State)  : (s.endFrame).store = s.store := by unfold endFrame; split <;> rfl
@[simp] theorem seq_endFrame (s : State)  : (s.endFrame).seq = s.seq := by unfold endFrame; split <;> rfl
@[simp] theorem links_endFrame (s : State)  : (s.endFrame).links = s.links := by unfold endFrame; split <;> rfl
@[simp] theorem port_endFrame (s : State)  : (s.endFrame).port = s.port := by unfold endFrame; split <;> rfl
@[simp] theorem control_endFrame (s : State)  : (s.endFrame).control = s.control := by unfold endFrame; split <;> rfl
@[simp] theorem resetAsserted_endFrame (s : State)  : (s.endFrame).resetAsserted = s.resetAsserted := by unfold endFrame; split <;> rfl
@[simp] theorem pending_endFrame (s : State)  : (s.endFrame).pending = s.pending := by unfold endFrame; split <;> rfl

/-! swapPlan. -/

@[simp] theorem store_swapPlan (s : State)  : (s.swapPlan).store = s.store := by unfold swapPlan; split <;> rfl
@[simp] theorem engine_swapPlan (s : State)  : (s.swapPlan).engine = s.engine := by unfold swapPlan; split <;> rfl
@[simp] theorem monitor_swapPlan (s : State)  : (s.swapPlan).monitor = s.monitor := by unfold swapPlan; split <;> rfl
@[simp] theorem links_swapPlan (s : State)  : (s.swapPlan).links = s.links := by unfold swapPlan; split <;> rfl
@[simp] theorem control_swapPlan (s : State)  : (s.swapPlan).control = s.control := by unfold swapPlan; split <;> rfl
@[simp] theorem resetAsserted_swapPlan (s : State)  : (s.swapPlan).resetAsserted = s.resetAsserted := by unfold swapPlan; split <;> rfl
@[simp] theorem pending_swapPlan (s : State)  : (s.swapPlan).pending = s.pending := by unfold swapPlan; split <;> rfl

/-! postBuild. -/

@[simp] theorem store_postBuild (s : State)  : (s.postBuild).store = s.store := rfl
@[simp] theorem seq_postBuild (s : State)  : (s.postBuild).seq = s.seq := rfl
@[simp] theorem monitor_postBuild (s : State)  : (s.postBuild).monitor = s.monitor := rfl
@[simp] theorem links_postBuild (s : State)  : (s.postBuild).links = s.links := rfl
@[simp] theorem port_postBuild (s : State)  : (s.postBuild).port = s.port := rfl
@[simp] theorem control_postBuild (s : State)  : (s.postBuild).control = s.control := rfl
@[simp] theorem resetAsserted_postBuild (s : State)  : (s.postBuild).resetAsserted = s.resetAsserted := rfl
@[simp] theorem pending_postBuild (s : State)  : (s.postBuild).pending = s.pending := rfl

/-! postSweep. -/

@[simp] theorem store_postSweep (s : State)  : (s.postSweep).store = s.store := by unfold postSweep; split <;> rfl
@[simp] theorem seq_postSweep (s : State)  : (s.postSweep).seq = s.seq := by unfold postSweep; split <;> rfl
@[simp] theorem monitor_postSweep (s : State)  : (s.postSweep).monitor = s.monitor := by unfold postSweep; split <;> rfl
@[simp] theorem links_postSweep (s : State)  : (s.postSweep).links = s.links := by unfold postSweep; split <;> rfl
@[simp] theorem port_postSweep (s : State)  : (s.postSweep).port = s.port := by unfold postSweep; split <;> rfl
@[simp] theorem control_postSweep (s : State)  : (s.postSweep).control = s.control := by unfold postSweep; split <;> rfl
@[simp] theorem resetAsserted_postSweep (s : State)  : (s.postSweep).resetAsserted = s.resetAsserted := by unfold postSweep; split <;> rfl
@[simp] theorem pending_postSweep (s : State)  : (s.postSweep).pending = s.pending := by unfold postSweep; split <;> rfl

/-! startFrame. -/

@[simp] theorem store_startFrame (s : State)  : (s.startFrame).store = s.store := by unfold startFrame; split <;> simp
@[simp] theorem monitor_startFrame (s : State)  : (s.startFrame).monitor = s.monitor := by unfold startFrame; split <;> simp
@[simp] theorem links_startFrame (s : State)  : (s.startFrame).links = s.links := by unfold startFrame; split <;> simp
@[simp] theorem control_startFrame (s : State)  : (s.startFrame).control = s.control := by unfold startFrame; split <;> simp
@[simp] theorem resetAsserted_startFrame (s : State)  : (s.startFrame).resetAsserted = s.resetAsserted := by unfold startFrame; split <;> simp
@[simp] theorem pending_startFrame (s : State)  : (s.startFrame).pending = s.pending := by unfold startFrame; split <;> simp

/-! monitorSlotStart. -/

@[simp] theorem store_monitorSlotStart (s : State)  : (s.monitorSlotStart).store = s.store := by unfold monitorSlotStart; split <;> rfl
@[simp] theorem engine_monitorSlotStart (s : State)  : (s.monitorSlotStart).engine = s.engine := by unfold monitorSlotStart; split <;> rfl
@[simp] theorem seq_monitorSlotStart (s : State)  : (s.monitorSlotStart).seq = s.seq := by unfold monitorSlotStart; split <;> rfl
@[simp] theorem links_monitorSlotStart (s : State)  : (s.monitorSlotStart).links = s.links := by unfold monitorSlotStart; split <;> rfl
@[simp] theorem port_monitorSlotStart (s : State)  : (s.monitorSlotStart).port = s.port := by unfold monitorSlotStart; split <;> rfl
@[simp] theorem control_monitorSlotStart (s : State)  : (s.monitorSlotStart).control = s.control := by unfold monitorSlotStart; split <;> rfl
@[simp] theorem resetAsserted_monitorSlotStart (s : State)  : (s.monitorSlotStart).resetAsserted = s.resetAsserted := by unfold monitorSlotStart; split <;> rfl
@[simp] theorem pending_monitorSlotStart (s : State)  : (s.monitorSlotStart).pending = s.pending := by unfold monitorSlotStart; split <;> rfl

/-! startSlot. -/

@[simp] theorem store_startSlot (s : State)  : (s.startSlot).store = s.store := by simp [startSlot]
@[simp] theorem engine_startSlot (s : State)  : (s.startSlot).engine = s.engine := by simp [startSlot]
@[simp] theorem links_startSlot (s : State)  : (s.startSlot).links = s.links := by simp [startSlot]
@[simp] theorem port_startSlot (s : State)  : (s.startSlot).port = s.port := by simp [startSlot]
@[simp] theorem control_startSlot (s : State)  : (s.startSlot).control = s.control := by simp [startSlot]
@[simp] theorem resetAsserted_startSlot (s : State)  : (s.startSlot).resetAsserted = s.resetAsserted := by simp [startSlot]
@[simp] theorem pending_startSlot (s : State)  : (s.startSlot).pending = s.pending := by simp [startSlot]

/-! advanceFrame. -/

@[simp] theorem store_advanceFrame (s : State)  : (s.advanceFrame).store = s.store := rfl
@[simp] theorem engine_advanceFrame (s : State)  : (s.advanceFrame).engine = s.engine := rfl
@[simp] theorem monitor_advanceFrame (s : State)  : (s.advanceFrame).monitor = s.monitor := rfl
@[simp] theorem links_advanceFrame (s : State)  : (s.advanceFrame).links = s.links := rfl
@[simp] theorem port_advanceFrame (s : State)  : (s.advanceFrame).port = s.port := rfl
@[simp] theorem control_advanceFrame (s : State)  : (s.advanceFrame).control = s.control := rfl
@[simp] theorem resetAsserted_advanceFrame (s : State)  : (s.advanceFrame).resetAsserted = s.resetAsserted := rfl
@[simp] theorem pending_advanceFrame (s : State)  : (s.advanceFrame).pending = s.pending := rfl

/-! stopSequencer. -/

@[simp] theorem store_stopSequencer (s : State)  : (s.stopSequencer).store = s.store := rfl
@[simp] theorem engine_stopSequencer (s : State)  : (s.stopSequencer).engine = s.engine := rfl
@[simp] theorem links_stopSequencer (s : State)  : (s.stopSequencer).links = s.links := rfl
@[simp] theorem resetAsserted_stopSequencer (s : State)  : (s.stopSequencer).resetAsserted = s.resetAsserted := rfl
@[simp] theorem pending_stopSequencer (s : State)  : (s.stopSequencer).pending = s.pending := rfl

end Sys2Proof.Machine.State
end

