-- ==== Sys2Proof/Laws/Store.lean ====
section
/-! SUPPORT. What the shared operations on the Lease Store do and leave alone. -/

namespace Sys2Proof.Machine.Store

/-! Reading after one write. -/

theorem record_putRecord (st : Store) (h k : Handle) (r : LeaseRecord) :
    (st.putRecord h r).record k = if k = h then r else st.record k := by
  simp only [record, putRecord, Fin.getElem_fin, Vector.getElem_set, Fin.ext_iff, eq_comm]

@[simp] theorem record_putRecord_self (st : Store) (h : Handle) (r : LeaseRecord) :
    (st.putRecord h r).record h = r := by
  simp [record_putRecord]

theorem record_putRecord_ne (st : Store) {h k : Handle} (r : LeaseRecord) (hk : k ≠ h) :
    (st.putRecord h r).record k = st.record k := by
  simp [record_putRecord, hk]

@[simp] theorem node_putRecord (st : Store) (h : Handle) (r : LeaseRecord) (n : Node) :
    (st.putRecord h r).node n = st.node n := rfl

@[simp] theorem cell_putRecord (st : Store) (h : Handle) (r : LeaseRecord) (f : Frame) (s : Slot) :
    (st.putRecord h r).cell f s = st.cell f s := rfl

@[simp] theorem queue_putRecord (st : Store) (h : Handle) (r : LeaseRecord) : (st.putRecord h r).queue = st.queue := rfl

@[simp] theorem fence_putRecord (st : Store) (h : Handle) (r : LeaseRecord) : (st.putRecord h r).fence = st.fence := rfl

@[simp] theorem frameLength_putRecord (st : Store) (h : Handle) (r : LeaseRecord) :
    (st.putRecord h r).frameLength = st.frameLength := rfl

theorem record_modifyRecord (st : Store) (h k : Handle) (g : LeaseRecord → LeaseRecord) :
    (st.modifyRecord h g).record k = if k = h then g (st.record k) else st.record k := by
  by_cases hk : k = h
  · subst hk; simp [modifyRecord]
  · simp [modifyRecord, record_putRecord, hk]

@[simp] theorem record_modifyRecord_self (st : Store) (h : Handle) (g : LeaseRecord → LeaseRecord) :
    (st.modifyRecord h g).record h = g (st.record h) := by
  simp [record_modifyRecord]

@[simp] theorem node_modifyRecord (st : Store) (h : Handle) (g : LeaseRecord → LeaseRecord) (n : Node) :
    (st.modifyRecord h g).node n = st.node n := rfl

@[simp] theorem cell_modifyRecord (st : Store) (h : Handle) (g : LeaseRecord → LeaseRecord) (f : Frame) (s : Slot) :
    (st.modifyRecord h g).cell f s = st.cell f s := rfl

@[simp] theorem queue_modifyRecord (st : Store) (h : Handle) (g : LeaseRecord → LeaseRecord) :
    (st.modifyRecord h g).queue = st.queue := rfl

@[simp] theorem fence_modifyRecord (st : Store) (h : Handle) (g : LeaseRecord → LeaseRecord) :
    (st.modifyRecord h g).fence = st.fence := rfl

@[simp] theorem frameLength_modifyRecord (st : Store) (h : Handle) (g : LeaseRecord → LeaseRecord) :
    (st.modifyRecord h g).frameLength = st.frameLength := rfl

theorem node_putNode (st : Store) (n m : Node) (r : NodeRecord) :
    (st.putNode n r).node m = if m = n then r else st.node m := by
  simp only [node, putNode, Fin.getElem_fin, Vector.getElem_set, Fin.ext_iff, eq_comm]

@[simp] theorem node_putNode_self (st : Store) (n : Node) (r : NodeRecord) : (st.putNode n r).node n = r := by
  simp [node_putNode]

@[simp] theorem record_putNode (st : Store) (n : Node) (r : NodeRecord) (h : Handle) :
    (st.putNode n r).record h = st.record h := rfl

@[simp] theorem cell_putNode (st : Store) (n : Node) (r : NodeRecord) (f : Frame) (s : Slot) :
    (st.putNode n r).cell f s = st.cell f s := rfl

@[simp] theorem queue_putNode (st : Store) (n : Node) (r : NodeRecord) : (st.putNode n r).queue = st.queue := rfl

@[simp] theorem fence_putNode (st : Store) (n : Node) (r : NodeRecord) : (st.putNode n r).fence = st.fence := rfl

@[simp] theorem frameLength_putNode (st : Store) (n : Node) (r : NodeRecord) :
    (st.putNode n r).frameLength = st.frameLength := rfl

theorem node_modifyNode (st : Store) (n m : Node) (g : NodeRecord → NodeRecord) :
    (st.modifyNode n g).node m = if m = n then g (st.node m) else st.node m := by
  by_cases hm : m = n
  · subst hm; simp [modifyNode]
  · simp [modifyNode, node_putNode, hm]

@[simp] theorem record_modifyNode (st : Store) (n : Node) (g : NodeRecord → NodeRecord) (h : Handle) :
    (st.modifyNode n g).record h = st.record h := rfl

@[simp] theorem cell_modifyNode (st : Store) (n : Node) (g : NodeRecord → NodeRecord) (f : Frame) (s : Slot) :
    (st.modifyNode n g).cell f s = st.cell f s := rfl

@[simp] theorem queue_modifyNode (st : Store) (n : Node) (g : NodeRecord → NodeRecord) :
    (st.modifyNode n g).queue = st.queue := rfl

theorem cell_putCell (st : Store) (f g : Frame) (s u : Slot) (c : Cell) :
    (st.putCell f s c).cell g u = if g = f ∧ u = s then c else st.cell g u := by
  simp only [cell, putCell, Fin.getElem_fin, Vector.getElem_set]
  by_cases hg : g = f
  · subst hg
    by_cases hu : u = s
    · subst hu; simp
    · have : ¬ s.val = u.val := fun e => hu (Fin.ext e.symm)
      simp [hu, this]
  · have : ¬ f.val = g.val := fun e => hg (Fin.ext e.symm)
    simp [hg, this]

@[simp] theorem record_putCell (st : Store) (f : Frame) (s : Slot) (c : Cell) (h : Handle) :
    (st.putCell f s c).record h = st.record h := rfl

@[simp] theorem node_putCell (st : Store) (f : Frame) (s : Slot) (c : Cell) (n : Node) :
    (st.putCell f s c).node n = st.node n := rfl

@[simp] theorem queue_putCell (st : Store) (f : Frame) (s : Slot) (c : Cell) : (st.putCell f s c).queue = st.queue := rfl

@[simp] theorem fence_putCell (st : Store) (f : Frame) (s : Slot) (c : Cell) : (st.putCell f s c).fence = st.fence := rfl

@[simp] theorem frameLength_putCell (st : Store) (f : Frame) (s : Slot) (c : Cell) :
    (st.putCell f s c).frameLength = st.frameLength := rfl

/-! Cells, the queue, notices. -/

theorem cell_emptyCellsOf (st : Store) (h : Handle) (f : Frame) (s : Slot) :
    (st.emptyCellsOf h).cell f s =
      if (st.cell f s).parityOk = true ∧ (st.cell f s).names = some h then Cell.cleared else st.cell f s := by
  simp only [cell, emptyCellsOf, Fin.getElem_fin, Vector.getElem_map]
  by_cases hp : st.cells[f.val][s.val].parityOk = true <;> by_cases hn : st.cells[f.val][s.val].names = some h <;>
    simp [hp, hn]

@[simp] theorem record_emptyCellsOf (st : Store) (h k : Handle) : (st.emptyCellsOf h).record k = st.record k := rfl

@[simp] theorem node_emptyCellsOf (st : Store) (h : Handle) (n : Node) : (st.emptyCellsOf h).node n = st.node n := rfl

@[simp] theorem queue_emptyCellsOf (st : Store) (h : Handle) : (st.emptyCellsOf h).queue = st.queue := rfl

@[simp] theorem record_dropFromQueue (st : Store) (h k : Handle) : (st.dropFromQueue h).record k = st.record k := rfl

@[simp] theorem node_dropFromQueue (st : Store) (h : Handle) (n : Node) : (st.dropFromQueue h).node n = st.node n := rfl

@[simp] theorem cell_dropFromQueue (st : Store) (h : Handle) (f : Frame) (s : Slot) :
    (st.dropFromQueue h).cell f s = st.cell f s := rfl

theorem mem_dropFromQueue {st : Store} {h : Handle} {e : QueueEntry} :
    e ∈ (st.dropFromQueue h).queue ↔ e ∈ st.queue ∧ e.handle ≠ h := by
  simp [dropFromQueue]

theorem length_dropFromQueue_le (st : Store) (h : Handle) : (st.dropFromQueue h).queue.length ≤ st.queue.length :=
  List.length_filter_le _ _

@[simp] theorem record_joinQueue (st : Store) (h k : Handle) : (st.joinQueue h).record k = st.record k := rfl

@[simp] theorem queue_joinQueue (st : Store) (h : Handle) : (st.joinQueue h).queue = st.queue ++ [⟨h, true⟩] := rfl

/-- A post touches one record's notice set, and nothing else. -/
theorem record_postOwner (st : Store) (h k : Handle) (kind : NoticeKind) :
    (st.postOwner h kind).record k =
      if k = h ∧ (st.node (st.record h).owner).state ≠ .absent then
        { st.record k with ownerNotices := (st.record k).ownerNotices ||| kind.bit }
      else st.record k := by
  unfold postOwner
  split
  · simp_all
  · rename_i hn
    by_cases hk : k = h
    · subst hk; simp [hn]
    · simp [record_modifyRecord, hk]

@[simp] theorem node_postOwner (st : Store) (h : Handle) (kind : NoticeKind) (n : Node) :
    (st.postOwner h kind).node n = st.node n := by
  unfold postOwner; split <;> rfl

@[simp] theorem cell_postOwner (st : Store) (h : Handle) (kind : NoticeKind) (f : Frame) (s : Slot) :
    (st.postOwner h kind).cell f s = st.cell f s := by
  unfold postOwner; split <;> rfl

@[simp] theorem queue_postOwner (st : Store) (h : Handle) (kind : NoticeKind) :
    (st.postOwner h kind).queue = st.queue := by
  unfold postOwner; split <;> rfl

theorem record_postGrantee (st : Store) (h k : Handle) (kind : NoticeKind) :
    (st.postGrantee h kind).record k =
      if k = h ∧ (st.record h).kind ≠ .root ∧ (st.node (st.record h).grantee).state ≠ .absent then
        { st.record k with granteeNotices := (st.record k).granteeNotices ||| kind.bit }
      else st.record k := by
  unfold postGrantee
  split
  · rename_i hr
    have : ¬(k = h ∧ (st.record h).kind ≠ .root ∧ (st.node (st.record h).grantee).state ≠ .absent) := by
      rintro ⟨-, h1, h2⟩
      rcases hr with hr | hr
      · exact h1 hr
      · exact h2 hr
    rw [if_neg this]
  · rename_i hr
    push Not at hr
    by_cases hk : k = h
    · subst hk; simp [hr]
    · simp [record_modifyRecord, hk]

@[simp] theorem node_postGrantee (st : Store) (h : Handle) (kind : NoticeKind) (n : Node) :
    (st.postGrantee h kind).node n = st.node n := by
  unfold postGrantee; split <;> rfl

@[simp] theorem cell_postGrantee (st : Store) (h : Handle) (kind : NoticeKind) (f : Frame) (s : Slot) :
    (st.postGrantee h kind).cell f s = st.cell f s := by
  unfold postGrantee; split <;> rfl

@[simp] theorem queue_postGrantee (st : Store) (h : Handle) (kind : NoticeKind) :
    (st.postGrantee h kind).queue = st.queue := by
  unfold postGrantee; split <;> rfl

@[simp] theorem queue_postParties (st : Store) (h : Handle) (kind : NoticeKind) :
    (st.postParties h kind).queue = st.queue := by
  simp [postParties]

/-! Closing and settling. -/

theorem record_settle (st : Store) (h : Handle) :
    st.settle.record h =
      if (st.record h).isSettled then LeaseRecord.cleared (st.record h).generation else st.record h := by
  simp only [record, settle, Fin.getElem_fin, Vector.getElem_map]
  split <;> simp_all

@[simp] theorem node_settle (st : Store) (n : Node) : st.settle.node n = st.node n := rfl

@[simp] theorem cell_settle (st : Store) (f : Frame) (s : Slot) : st.settle.cell f s = st.cell f s := rfl

@[simp] theorem queue_settle (st : Store) : st.settle.queue = st.queue := rfl

@[simp] theorem queue_leaveParent (st : Store) (h : Handle) : (st.leaveParent h).queue = st.queue := by
  unfold leaveParent; split <;> rfl

/-- The queue after steps 1 to 4 of R9: without the record, if it waited there. -/
theorem queue_closeEntry (st : Store) (why : CloseReason) (h : Handle) :
    (st.closeEntry why h).queue =
      if (st.record h).state.isQueued then (st.dropFromQueue h).queue else st.queue := by
  unfold closeEntry
  by_cases hq : (st.record h).state.isQueued <;> by_cases ho : (st.record h).isOccupyingRoot <;>
    by_cases hc : (st.record h).kind = .child <;> simp [hq, ho, hc, dropFromQueue]

@[simp] theorem queue_closeExit (st : Store) (h : Handle) : (st.closeExit h).queue = st.queue := by
  simp [closeExit, countDown]

/-- A closing never makes the queue longer. -/
theorem length_queue_closeLevels_le (levels : Nat) (closing : List Handle) (why : CloseReason) (h : Handle) (st : Store) :
    (closeLevels levels closing why h st).queue.length ≤ st.queue.length := by
  have entry : ∀ (st : Store) (why : CloseReason) (h : Handle),
      (st.closeEntry why h).queue.length ≤ st.queue.length := by
    intro st why h
    rw [queue_closeEntry]
    split
    · exact length_dropFromQueue_le st h
    · exact le_rfl
  induction levels generalizing closing why h st with
  | zero => simpa [closeLevels] using entry st why h
  | succ levels ih =>
    have many : ∀ (targets : List Handle) (st : Store),
        (targets.foldl (fun st c => closeLevels levels (c :: closing) .cascade c st) st).queue.length ≤ st.queue.length := by
      intro targets
      induction targets with
      | nil => intro st; exact le_rfl
      | cons c rest ihr => intro st; exact (ihr _).trans (ih _ _ _ _)
    simp only [closeLevels, queue_closeExit]
    exact (many _ _).trans (entry st why h)

theorem length_queue_close_le (st : Store) (why : CloseReason) (h : Handle) :
    (st.close why h).queue.length ≤ st.queue.length := length_queue_closeLevels_le _ _ _ _ _

end Sys2Proof.Machine.Store
end

