-- ==== Sys2Proof/Laws/Operations.lean ====
section
/-! SUPPORT. What reading, checking, failing and completing can answer. -/

namespace Sys2Proof.Machine

/-- Reading succeeds exactly when no item of the list is damaged. -/
theorem readItems_eq_ok {code : Type} (st : Store) (items : List Item) :
    (readItems st items : Except (Stop code) Unit) = .ok () ↔ ∀ i ∈ items, st.fails i = false := by
  unfold readItems Store.firstFailing
  cases hf : items.find? st.fails with
  | none => simpa using hf
  | some i =>
    have hi := List.find?_some hf
    have hm := List.mem_of_find?_eq_some hf
    simp only [reduceCtorEq, false_iff, not_forall]
    exact ⟨i, hm, by simp [hi]⟩

/-- Otherwise it stops at the first damaged item, and refuses nothing. -/
theorem readItems_eq_error {code : Type} (st : Store) (items : List Item) (i : Item)
    (h : st.firstFailing items = some i) : (readItems st items : Except (Stop code) Unit) = .error (.failed i) := by
  simp [readItems, h]

/-- A check passes exactly when its condition holds. -/
@[simp] theorem need_true {code : Type} (c : code) : need true c = .ok () := rfl

/-- A check that does not pass refuses with its code. -/
@[simp] theorem need_false {code : Type} (c : code) : need false c = .error (.refused c) := rfl

/-- A good record that the tag names is found. -/
theorem namedRecord_eq_ok {code : Type} (st : Store) (t : RawTag) (refusal : code) (h : Handle)
    (hh : t.handle? = some h) (good : (st.record h).check = 0) (live : (st.record h).state ≠ .free)
    (gen : (st.record h).generation = t.generation) : namedRecord st t refusal = .ok h := by
  simp [namedRecord, hh, readItems, Store.firstFailing, Store.fails, good, live, gen, need]
  rfl

/-- A store compared with itself shows no damaged record treated. -/
@[simp] theorem Store.treats_self (st : Store) : st.treats st = false := by
  simp +contextual [Store.treats]

/-- A store without a damaged record has none that a change could treat. -/
theorem Store.treats_eq_false_of_good (old new : Store) (good : ∀ h, (old.record h).check = 0) :
    old.treats new = false := by
  simp [Store.treats, good]

/-- A reading of two lists finds no damage exactly when neither has any. -/
theorem Store.firstFailing_append_eq_none (st : Store) (a b : List Item) :
    st.firstFailing (a ++ b) = none ↔ st.firstFailing a = none ∧ st.firstFailing b = none := by
  simp [Store.firstFailing]

/-- A record that lists no child has only its own parties' node records to read at its closing. -/
theorem Store.closingNodes_of_childless (st : Store) (h : Handle) (none_listed : st.listedBelow h = []) :
    st.closingNodes h = st.partyItems h := by
  simp [Store.closingNodes, none_listed]

/-- A record that is no occupying root has no cell to read at its closing. -/
theorem Store.ownCells_eq_nil (st : Store) (h : Handle) (other : (st.record h).isOccupyingRoot = false) :
    st.ownCells h = [] := by
  simp [Store.ownCells, other]

namespace State

/-- A failed check in QUARANTINE mode reports and posts. -/
theorem failedCheck_quarantine (s : State) (o : OpKind) (i : Item) :
    s.failedCheck .quarantine o i = (s.report o i).postQuarantine i := rfl

/-- A failed check in HALT mode reports, and freezes a device in RUN. -/
theorem failedCheck_halt (s : State) (o : OpKind) (i : Item) :
    s.failedCheck .halt o i = if s.control.device = .run then (s.report o i).enterFrozen else s.report o i := by
  have hm : (s.report o i).control.device = s.control.device := by
    unfold report; split <;> simp [raise]
  simp [failedCheck, applyPolicy, hm]

/-- A report changes the integrity record and the INTEGRITY flag only. -/
theorem report_eq (s : State) (o : OpKind) (i : Item) :
    ∃ r flags, s.report o i =
      { s with control := { s.control with integrity := some r }, port := { s.port with flags := flags } } := by
  unfold report
  split
  · exact ⟨_, _, rfl⟩
  · exact ⟨_, s.port.flags, rfl⟩

@[simp] theorem finishRequest_refused (s : State) (mode : IntegrityMode) (n : Node) (p : Posted) (c : ResultCode) :
    s.finishRequest mode n p (.error (.refused c)) = s.answer n p c .none := rfl

@[simp] theorem finishRequest_failed (s : State) (mode : IntegrityMode) (n : Node) (p : Posted) (i : Item) :
    s.finishRequest mode n p (.error (.failed i)) =
      (s.failedCheck mode (.request p.request.code) i).answer n p .fault .none := rfl

@[simp] theorem finishCommand_refused (s : State) (mode : IntegrityMode) (c : Command) (o : CmdOutcome) :
    s.finishCommand mode c (.error (.refused o)) = s.completeCommand c o c.namedField none := rfl

@[simp] theorem finishCommand_failed (s : State) (mode : IntegrityMode) (c : Command) (i : Item) :
    s.finishCommand mode c (.error (.failed i)) =
      (s.failedCheck mode (.command c.code) i).completeCommand c .fault c.namedField none := rfl

/-- An operation that has been taken is out of the engine's progress when it is performed, and the pending set is as it stood. -/
theorem take_of_taken (s : State) (t u : Taking) (k : Conditions) (h : s.engine.inProgress = some (.taken u k)) :
    s.take t = { s with engine := { s.engine with inProgress := none } } := by
  simp [take, h]

/-- An operation taken as it is performed leaves the pending set. -/
theorem take_of_none (s : State) (t : Taking) (h : s.engine.inProgress = none) :
    s.take t = { s with engine := s.engine.without t } := by
  simp [take, h]

/-- A state with nothing taken is judged by its present values. -/
theorem atTaking_of_none (s : State) (h : s.engine.inProgress = none) : s.atTaking = s.conditions := by
  simp [atTaking, h]

/-- An operation that has been taken is judged by what it found. -/
theorem atTaking_of_taken (s : State) (t : Taking) (k : Conditions) (h : s.engine.inProgress = some (.taken t k)) :
    s.atTaking = k := by
  simp [atTaking, h]

/-- An engine with an operation in progress takes nothing. -/
theorem engage_of_busy (s : State) (h : s.engine.inProgress.isSome = true) : s.engage = s := by
  cases hp : s.engine.inProgress with
  | none => simp [hp] at h
  | some p => simp [engage, engageUpTo, hp]

/-- An engine with nothing pending takes nothing. -/
theorem engage_of_idle (s : State) (h : s.engine.isIdle = true) : s.engage = s := by
  unfold Engine.isIdle at h
  simp only [Bool.and_eq_true, Option.isNone_iff_eq_none] at h
  simp [engage, engageUpTo, h.1, h.2]

/-- A request that is not done at once is in progress after it is taken, with what it found. -/
theorem engage_of_lasting (s : State) (t : Taking) (free : s.engine.inProgress = none)
    (place : s.engine.highestPlace = some t) (lasting : s.atOnce? t = none) : s.engage = s.enter t := by
  simp [engage, engageUpTo, free, place, lasting]

/-- A completion of an operation that treated no damage and left the notices, the cells and the occupancies alone is the store's change alone. -/
theorem commit_eq_of_unchanged (s : State) (new : Store) (notices : ∀ n, s.store.noticesChanged new n = false)
    (treats : s.store.treats new = false) (occupancy : s.store.occupancyChanged new = false) :
    s.commit new = { s with store := new } := by
  simp [commit, driveAttention, markDisturbed, notices, treats, occupancy]

/-- Completing an operation that left the store alone changes nothing. -/
@[simp] theorem commit_self (s : State) : s.commit s.store = s := by
  refine (commit_eq_of_unchanged s s.store (fun n => ?_) ?_ ?_).trans rfl
  · simp [Store.noticesChanged]
  · simp
  · simp [Store.occupancyChanged]

end State

end Sys2Proof.Machine
end

