-- ==== Sys2Proof/Laws/Taking.lean ====
section
/-! SUPPORT. What the engine's takings at once can do, and that State.engage makes them all. -/

namespace Sys2Proof.Machine

namespace Engine

/-- The request the link chain puts first is pending. -/
theorem firstRequest_pending (e : Engine) (n : Node) (p : Posted) (h : e.firstRequest = some (n, p)) :
    e.requests[n] = some p := by
  obtain ⟨m, -, hm⟩ := List.exists_of_findSome?_eq_some h
  cases hr : e.requests[m] with
  | none => simp [hr] at hm
  | some q =>
    simp only [hr, Option.map_some, Option.some.injEq, Prod.mk.injEq] at hm
    rw [← hm.1, hr, hm.2]

/-- What the request of the highest place says of the pending set. -/
theorem highestPlace_pending (e : Engine) (t : Taking) (h : e.highestPlace = some t) :
    match t with
    | .sweep k => e.sweep = some k
    | .fold tags => e.fold = some tags
    | .command c => e.command = some c
    | .request n p => e.requests[n] = some p
    | .auditStep => e.auditStep = true
    | .quarantine _ | .planBuild _ | .strike _ | .clearStep _ => True := by
  unfold highestPlace at h
  repeat' split at h
  all_goals first
    | (cases h; first | trivial | assumption | exact firstRequest_pending e _ _ ‹_›)
    | cases h

end Engine

namespace State

/-- How many node requests are pending. -/
def requestsDue (requests : Vector (Option Posted) 12) : Nat := allNodes.countP fun n => requests[n].isSome

/-- Whether the pending audit step would end the audit INCONCLUSIVE. -/
def auditDue (step : Bool) (audit : AuditProgress) : Nat := (step && (audit.disturbed && decide (3 ≤ audit.restarts))).toNat

/-- How many takings can complete at once before one lasts: those of the sweep, the fold, the command and the one waiting behind it, the node requests, and the audit step. -/
def dueAtOnce (s : State) : Nat :=
  s.engine.sweep.isSome.toNat + s.engine.fold.isSome.toNat + s.engine.command.isSome.toNat + s.port.waiting.isSome.toNat +
    requestsDue s.engine.requests + auditDue s.engine.auditStep s.engine.audit

theorem dueAtOnce_le (s : State) : s.dueAtOnce ≤ 17 := by
  have h : requestsDue s.engine.requests ≤ 12 := List.countP_le_length
  have := Bool.toNat_le s.engine.sweep.isSome
  have := Bool.toNat_le s.engine.fold.isSome
  have := Bool.toNat_le s.engine.command.isSome
  have := Bool.toNat_le s.port.waiting.isSome
  have : auditDue s.engine.auditStep s.engine.audit ≤ 1 := Bool.toNat_le _
  unfold dueAtOnce
  omega

/-- A command's completion leaves the engine's pending set alone but for the command's slot, into which the waiting one goes. -/
theorem completeCommand_engine (s : State) (c : Command) (o : CmdOutcome) (h : Word) (im : Option (Vector Word 16)) :
    (s.completeCommand c o h im).engine =
        (match s.port.waiting with
          | none => s.engine
          | some w => { s.engine with command := some w }) ∧
      (s.completeCommand c o h im).port.waiting = none := by
  cases im <;> cases hw : s.port.waiting <;>
    simp [completeCommand, exchangeRead, advanceSlot, goInFlight, raise, hw] <;> split <;> rfl

/-- A command that completes leaves one fewer due, where it was the pending one and nothing else has become due. -/
theorem dueAtOnce_completeCommand (s u : State) (c d : Command) (o : CmdOutcome) (h : Word) (im : Option (Vector Word 16))
    (pending : s.engine.command = some d) (command : u.engine.command = none) (sweep : u.engine.sweep = s.engine.sweep)
    (fold : u.engine.fold = s.engine.fold) (requests : u.engine.requests = s.engine.requests)
    (waiting : u.port.waiting = s.port.waiting)
    (audit : auditDue u.engine.auditStep u.engine.audit ≤ auditDue s.engine.auditStep s.engine.audit) :
    (u.completeCommand c o h im).dueAtOnce < s.dueAtOnce := by
  have hc := completeCommand_engine u c o h im
  cases hw : u.port.waiting <;> simp only [hw] at hc waiting <;>
    simp only [dueAtOnce, hc.1, hc.2, command, sweep, fold, requests, ← waiting, pending, Option.isSome_none,
      Option.isSome_some, Bool.toNat_false, Bool.toNat_true] <;> omega

/-- A request taken out of the pending set is due no more. -/
theorem requestsDue_set_none (requests : Vector (Option Posted) 12) (n : Node) (p : Posted) (h : requests[n] = some p) :
    requestsDue (requests.set n none) < requestsDue requests := by
  unfold requestsDue
  have mono : ∀ l : List Node, (l.countP fun m => (requests.set n none)[m].isSome) ≤ l.countP fun m => requests[m].isSome :=
    fun l => List.countP_mono_left fun m _ => by
      by_cases hm : n = m
      · subst hm; simp
      · simp [Fin.val_ne_of_ne hm]
  have gone : (requests.set n none)[n].isSome = false := by simp
  obtain ⟨a, b, hab⟩ := List.append_of_mem ((by decide : ∀ m : Node, m ∈ allNodes) n)
  have ha := mono a
  have hb := mono b
  simp only [hab, List.countP_append, List.countP_cons, gone, h, Option.isSome_some, Bool.false_eq_true, if_false, if_true]
  omega

/-- A stop changes neither the engine nor what waits at the port. -/
theorem stopTaken_engine (s : State) : s.stopTaken.engine = s.engine ∧ s.stopTaken.port.waiting = s.port.waiting := by
  unfold stopTaken
  split <;> (try split) <;> simp [stopSequencer, raise]

/-- The commands that act at their taking leave one fewer due. -/
theorem dueAtOnce_ordered (s done : State) (c : Command) (pending : s.engine.command = some c)
    (h : s.ordered? c = some done) : done.dueAtOnce < s.dueAtOnce := by
  have refused : ∀ o, (s.refuseOrdered c o).dueAtOnce < s.dueAtOnce := fun o =>
    dueAtOnce_completeCommand s s.takeCommand c c _ _ _ pending rfl rfl rfl rfl rfl (Nat.le_refl _)
  unfold ordered? at h
  split at h <;> cases h
  · unfold startOrdered
    split
    · exact dueAtOnce_completeCommand s s.takeCommand.startSequencer c c _ _ _ pending rfl rfl rfl rfl rfl (Nat.le_refl _)
    · exact refused _
  · unfold stopOrdered
    split
    · have ht := s.takeCommand.stopTaken_engine
      refine dueAtOnce_completeCommand s s.takeCommand.stopTaken c c _ _ _ pending ?_ ?_ ?_ ?_ ht.2 ?_ <;> rw [ht.1]
      all_goals rfl
    · exact refused _
  · unfold thawOrdered
    split
    · refine dueAtOnce_completeCommand s s.takeCommand.thawDevice c c _ _ _ pending ?_ ?_ ?_ ?_ ?_ ?_
      all_goals (unfold thawDevice; dsimp only; split)
      all_goals rfl
    · exact refused _
  · unfold cleartableOrdered
    split
    · have hc : s.engine.command.isSome.toNat = 1 := by simp [pending]
      have ha : auditDue false { s.engine.audit with running := false, result := .aborted } = 0 := rfl
      unfold beginClear
      dsimp only
      split <;> simp [takeCommand, endAudit, modifyAudit, raise, dueAtOnce, hc, ha]
      omega
    · exact refused _
  · unfold auditOrdered
    split
    · refine dueAtOnce_completeCommand s s.takeCommand.beginAudit c c _ _ _ pending rfl rfl rfl rfl rfl ?_
      exact Nat.zero_le _
    · exact refused _

/-- What a taking leaves that completes at once has one fewer to complete at once. -/
theorem dueAtOnce_atOnce (s done : State) (t : Taking) (free : s.engine.inProgress = none)
    (place : s.engine.highestPlace = some t) (h : s.atOnce? t = some done) : done.dueAtOnce < s.dueAtOnce := by
  have hp := s.engine.highestPlace_pending t place
  unfold atOnce? at h
  split at h
  · cases h
    simp only at hp
    simp [take, free, Engine.without, dueAtOnce, hp]
  · split at h <;> cases h
    simp only at hp
    simp [dropSweep, take, free, Engine.without, dueAtOnce, hp, raise]
  · simp only at hp
    split at h
    · rename_i ho
      cases h
      exact dueAtOnce_ordered s _ _ hp ho
    · simp only [Option.map_eq_some_iff] at h
      obtain ⟨o, -, rfl⟩ := h
      exact dueAtOnce_completeCommand s s.takeCommand _ _ _ _ _ hp rfl rfl rfl rfl rfl (Nat.le_refl _)
  · simp only [Option.map_eq_some_iff] at h
    obtain ⟨code, -, rfl⟩ := h
    simp only at hp
    have := requestsDue_set_none _ _ _ hp
    simp [refuseRequest, takeRequest, answer, modifyLink, dueAtOnce] at *
    omega
  · split at h <;> cases h
    rename_i hi
    simp only at hp
    simp [isInconclusive] at hi
    simp [endInconclusive, takeAuditStep, endAudit, modifyAudit, raise, dueAtOnce, auditDue, hp, hi]
  · cases h
  all_goals cases h

/-- The commands that act at their taking are those of Command.actsAtTaking. -/
theorem ordered?_eq_none_iff (s : State) (c : Command) : s.ordered? c = none ↔ c.actsAtTaking = false := by
  unfold ordered? Command.actsAtTaking
  cases c.name? with
  | none => simp
  | some name => cases name <;> simp [CommandName.actsAtTaking]

/-- SETFRAME is the command of code 02h. -/
theorem name?_eq_setframe_iff (c : Command) : c.name? = some .setframe ↔ c.code = 0x02 := by
  have h : ∀ code : Byte, commandName code = some .setframe ↔ code = 0x02 := by decide
  exact h c.code

/-- A request completes at its taking exactly if State.lasts denies that it lasts. -/
theorem atOnce?_eq_none_iff (s : State) (t : Taking) (free : s.engine.inProgress = none) :
    s.atOnce? t = none ↔ s.lasts t = true := by
  have hd : s.atTaking.device = s.control.device := by simp [atTaking, free, conditions]
  have hq : s.atTaking.seqState = s.seq.state := by simp [atTaking, free, conditions]
  unfold atOnce? lasts
  cases t with
  | fold tags => cases tags <;> simp
  | sweep k =>
    simp only [canSweep, hd, hq]
    cases decide (s.control.device = .run) <;> cases decide (s.seq.state = .running ∨ s.seq.state = .stopping) <;> simp
  | command c =>
    have ho := s.ordered?_eq_none_iff c
    cases h : s.ordered? c with
    | some done =>
      have : c.actsAtTaking = true := by
        cases ha : c.actsAtTaking with
        | true => rfl
        | false => simp [h] at ho; exact absurd ho (by simp [ha])
      simp [h, this]
    | none =>
      simp only [h, ho.mp h, hd, Option.map_eq_none_iff]
      unfold commandRefusal
      cases s.control.device <;> simp [name?_eq_setframe_iff]
  | request n p => simp [hd]
  | auditStep =>
    have hi : (s.engine.audit.disturbed && decide (3 ≤ s.engine.audit.restarts)) = s.isInconclusive := rfl
    simp only [hi]
    cases s.isInconclusive <;> simp
  | _ => simp

/-- More takings than can complete at once change nothing more. -/
theorem engageUpTo_succ (k : Nat) : ∀ s : State, s.dueAtOnce < k → engageUpTo (k + 1) s = engageUpTo k s := by
  induction k with
  | zero => exact fun s h => absurd h (Nat.not_lt_zero _)
  | succ k ih =>
    intro s h
    rw [engageUpTo, engageUpTo]
    split
    · rename_i t free place
      split
      · rename_i done hd
        exact ih done (Nat.lt_of_lt_of_le (dueAtOnce_atOnce s done t free place hd) (Nat.le_of_lt_succ h))
      · rfl
    · rfl

/-- A taking that completes at once is followed by the next (R90). -/
theorem engage_of_atOnce (s done : State) (t : Taking) (free : s.engine.inProgress = none)
    (place : s.engine.highestPlace = some t) (h : s.atOnce? t = some done) : s.engage = done.engage := by
  have lt := dueAtOnce_atOnce s done t free place h
  have le := s.dueAtOnce_le
  have : s.engage = engageUpTo 17 done := by simp [engage, engageUpTo, free, place, h]
  rw [this]
  exact (engageUpTo_succ 17 done (by omega)).symm

/-- After it the engine has an operation in progress, or nothing is pending: no taking is left undone (R90). -/
theorem engageUpTo_done (k : Nat) : ∀ s : State, s.dueAtOnce < k →
    (engageUpTo k s).engine.inProgress.isSome = true ∨ (engageUpTo k s).engine.isIdle = true := by
  induction k with
  | zero => exact fun s h => absurd h (Nat.not_lt_zero _)
  | succ k ih =>
    intro s h
    rw [engageUpTo]
    split
    · rename_i t free place
      split
      · rename_i done hd
        exact ih done (Nat.lt_of_lt_of_le (dueAtOnce_atOnce s done t free place hd) (Nat.le_of_lt_succ h))
      · exact .inl rfl
    · rename_i busy
      cases hp : s.engine.inProgress with
      | some p => exact .inl (by simp)
      | none =>
        cases ht : s.engine.highestPlace with
        | some t => exact absurd ht (busy t hp)
        | none => exact .inr (by simp [Engine.isIdle, hp, ht])

end State
end Sys2Proof.Machine
end

