-- ==== Sys2Proof/Tests/Slice0.lean ====
section
/-! SUPPORT. Smoke tests of WellFormed, small steps, and for every statement states and operands that meet its hypotheses. -/

namespace Sys2Proof.Tests
open Sys2Proof Sys2Proof.Machine

/-! WellFormed refuses what each check is for. -/

theorem test_wellFormed_width_zero : ({ LeaseRecord.cleared 0 with width := 0 } : LeaseRecord).inRange = false := by decide
theorem test_wellFormed_width_17 : ({ LeaseRecord.cleared 0 with width := 17 } : LeaseRecord).inRange = false := by decide
theorem test_wellFormed_rank : ({ LeaseRecord.cleared 0 with rank := 4 } : LeaseRecord).inRange = false := by decide
theorem test_wellFormed_term : ({ LeaseRecord.cleared 0 with term := 4096 } : LeaseRecord).inRange = false := by decide
theorem test_wellFormed_waitLimit : ({ LeaseRecord.cleared 0 with waitLimit := some 0 } : LeaseRecord).inRange = false := by
  decide
theorem test_wellFormed_waitAge : ({ LeaseRecord.cleared 0 with waitAge := some 256 } : LeaseRecord).inRange = false := by
  decide
theorem test_wellFormed_depth : ({ LeaseRecord.cleared 0 with depth := 3 } : LeaseRecord).inRange = false := by decide
theorem test_wellFormed_children :
    ({ LeaseRecord.cleared 0 with children := [0, 1, 2, 3, 4] } : LeaseRecord).inRange = false := by decide
theorem test_wellFormed_closeAge : ({ LeaseRecord.cleared 0 with closeAge := some 5 } : LeaseRecord).inRange = false := by
  decide
theorem test_wellFormed_idleCount : ({ LeaseRecord.cleared 0 with idleCount := 16 } : LeaseRecord).inRange = false := by
  decide
theorem test_wellFormed_cleared : (LeaseRecord.cleared 7).inRange = true := by decide
theorem test_wellFormed_quota : ({ NodeRecord.cleared with quota := 32 } : NodeRecord).inRange = false := by decide
theorem test_wellFormed_ceiling : ({ NodeRecord.cleared with rankCeiling := 4 } : NodeRecord).inRange = false := by decide
theorem test_wellFormed_strikes : ({ NodeRecord.cleared with strikes := 8 } : NodeRecord).inRange = false := by decide
theorem test_wellFormed_liveOwned : ({ NodeRecord.cleared with liveOwned := 97 } : NodeRecord).inRange = false := by decide
theorem test_wellFormed_good_record : (Instr.itemDamaged (.record 0 (LeaseRecord.cleared 0))).wellFormed = false := by decide
theorem test_wellFormed_good_node : (Instr.itemDamaged (.node 0 NodeRecord.cleared)).wellFormed = false := by decide
theorem test_wellFormed_good_cell : (Instr.itemDamaged (.cell 0 0 ⟨none, true⟩)).wellFormed = false := by decide
theorem test_wellFormed_good_entry : (Instr.itemDamaged (.queueEntry 0 ⟨0, true⟩)).wellFormed = false := by decide
theorem test_wellFormed_position : (Instr.itemDamaged (.queueEntry 16 ⟨0, false⟩)).wellFormed = false := by decide
theorem test_wellFormed_no_bytes : (Instr.linkFrameArrival 0 []).wellFormed = false := by decide
theorem test_wellFormed_length_one : (Instr.linkFrameArrival 0 [1, 0, 0]).wellFormed = false := by decide
theorem test_wellFormed_length_17 : (Instr.linkFrameArrival 0 (17 :: List.replicate 18 0)).wellFormed = false := by decide
theorem test_wellFormed_truncated : (Instr.linkFrameArrival 0 [2, 5, 6]).wellFormed = false := by decide
theorem test_wellFormed_join_frame : (Instr.linkFrameArrival 0 [2, 5, 6, 0xAE]).wellFormed = true := by decide

/-! Small states. -/

/-- The device in CONFIG, the clear done. -/
def config : State :=
  { State.reset with
    control := { State.reset.control with device := .config }
    engine := { State.reset.engine with clearStep := none } }

/-- The device in RUN with the sequencer RUNNING and the monitor active. -/
def running : State :=
  { config with
    control := { config.control with device := .run }
    seq := { config.seq with state := .running }
    monitor := { config.monitor with active := true } }

/-- The device FROZEN, the sequencer RUNNING. -/
def frozen : State :=
  { config with
    control := { config.control with device := .frozen }
    seq := { config.seq with state := .running } }

/-- A node record put in place. -/
def withNode (n : Node) (r : NodeRecord) (s : State) : State := { s with store := s.store.putNode n r }

/-- A node JOINED with the reset quota and ceiling. -/
def joined (n : Node) (s : State) : State := withNode n { NodeRecord.cleared with state := .joined } s

/-- A lease record put in place. -/
def withRecord (h : Handle) (r : LeaseRecord) (s : State) : State := { s with store := s.store.putRecord h r }

/-- A cell put in place. -/
def withCell (f : Frame) (sl : Slot) (c : Cell) (s : State) : State := { s with store := s.store.putCell f sl c }

/-- A HELD root of node 4 at slot 2, width 1, in frame 0, with generation 1. -/
def heldRoot : LeaseRecord :=
  { LeaseRecord.cleared 1 with
    state := .held, owner := 4, grantee := 4, firstSlot := some 2, frameSet := 1, term := 9, yields := true }

/-- That root as record 0, with its cell and node 4 JOINED. -/
def withRoot (s : State) : State := withCell 0 2 ⟨some 0, true⟩ (withRecord 0 heldRoot (joined 4 s))

/-- A HELD child of that root, granted to node 9, as record 1. -/
def withChild (s : State) : State :=
  withRecord 1
    { LeaseRecord.cleared 1 with
      state := .held, kind := .child, owner := 4, grantee := 9, firstSlot := some 2, frameSet := 1, term := 5
      parent := some 0, depth := 1 }
    (withRecord 0 { heldRoot with children := [1] } (withCell 0 2 ⟨some 0, true⟩ (joined 9 (joined 4 s))))

/-- A node request pending at the engine, its number in flight on its link, nothing taken yet. -/
def withRequest (n : Node) (seq : SeqNo) (r : Request) (s : State) : State :=
  { s with
    engine := { s.engine with requests := s.engine.requests.set n (some ⟨seq, r⟩) }
    links := s.links.set n { s.links[n] with inFlight := some seq } }

/-- A command in flight and pending at the engine, nothing taken yet. -/
def withCommand (code : Byte) (arg : Word) (s : State) : State := s.goInFlight ⟨code, arg⟩

/-- The engine's own pending requests put in place. -/
def withEngine (f : Engine → Engine) (s : State) : State := { s with engine := f s.engine }

/-- A taking recorded as in progress, with what the state holds now. -/
def holding (t : Taking) (s : State) : State :=
  withEngine (fun e => { e with inProgress := some (.taken t s.conditions) }) s

/-- The state after a command, or the state itself if it stops. -/
def after (i : Instr) (s : State) : State :=
  match exec i s with
  | .next t => t
  | .fault _ | .refused _ => s

set_option Elab.async false

/-! A few single steps. -/

theorem test_crc_of_join_frame : crc8 [2, 5, 6] = 0xAE := by decide +kernel

theorem test_clear_step_goes_on :
    (after .initClearStep State.reset).engine.clearStep = some ⟨2, false⟩ ∧
      (after .initClearStep State.reset).control.device = .init := by decide +kernel

theorem test_claim_is_placed :
    let t := after (.claim 4) (withRequest 4 1 (.claim ⟨1, 2, 1, 9, 1, true, 0⟩) (joined 4 running))
    (t.store.cell 0 2).names = some 0 ∧ (t.store.record 0).state = .held ∧ (t.store.record 0).generation = 1 ∧
      t.links[(4 : Node)].tx = .sending ⟨1, 1, .accepted, .claimed ⟨0, 1⟩ 2⟩ := by decide +kernel

theorem test_recall_closes_child :
    let t := after (.recall 4) (withRequest 4 1 (.recall ⟨1, 1⟩) (withChild running))
    (t.store.record 1).state = .closed ∧ (t.store.record 1).closeReason = some .recalled ∧
      (t.store.record 0).children = [] ∧ t.links[(9 : Node)].attention = true := by decide +kernel

theorem test_barring_suspends :
    let t := after .bar (withCommand 0x0B 4 (withRoot config))
    (t.store.node 4).state = .barred ∧ (t.store.record 0).state = .suspended ∧ (t.store.cell 0 2).names = some 0 ∧
      t.port.resultOutcome = .accepted := by decide +kernel

theorem test_idle_clk_period : (match step config with | .next t => t.seq.timerCount | _ => 0) = 1 := by decide +kernel

/-! States and operands that meet the hypotheses of the statements, one group for each statement. -/

/-- A sequencer position put in place. -/
def atSlot (f : Frame) (sl : Slot) (s : State) : State := { s with seq := { s.seq with frame := f, slot := sl } }

/-- Record 5 damaged. -/
def damaged (s : State) : State := withRecord 5 { LeaseRecord.cleared 2 with check := 1 } s

/-- The monitor's classification and the slot's entry put in place. -/
def heard (talk : Talk) (g : Option Grant) (s : State) : State :=
  { s with monitor := { s.monitor with talk := talk, slotEntry := g } }

/-- One link put in place. -/
def withLink (n : Node) (f : Link → Link) (s : State) : State := s.modifyLink n f

theorem test_witness_StepOnEmptyQueue :
    (State.reset.pending = [] ∧ engineRow State.reset.engine = some .initClearStep) ∧
    (config.pending = [] ∧ engineRow config.engine = none ∧ config.resetAsserted = false ∧
      config.seq.timerCount + 1 < config.seq.timerLength) ∧
    (let s : State := { config with seq := { config.seq with timerCount := 255 } }
     s.pending = [] ∧ engineRow s.engine = none ∧ ¬s.seq.timerCount + 1 < s.seq.timerLength) ∧
    (let s : State := { config with resetAsserted := true }
     s.pending = [] ∧ engineRow s.engine = none ∧ s.resetAsserted = true) := by decide +kernel

theorem test_witness_EngineTakesByPlaceAndChain :
    ((holding .auditStep config).engine.inProgress = some (.taken .auditStep config.conditions)) ∧
    (let e : Engine := { config.engine with quarantine := some ⟨[], [], false⟩ }
     e.inProgress = none ∧ e.quarantine = some ⟨[], [], false⟩) ∧
    (let e : Engine := { config.engine with sweep := some 3 }
     e.inProgress = none ∧ e.quarantine = none ∧ e.sweep = some 3) ∧
    (let e : Engine := { config.engine with build := some ⟨15, 0⟩ }
     e.inProgress = none ∧ e.sweep = none ∧ e.build = some ⟨15, 0⟩) ∧
    (let e : Engine := { config.engine with fold := some [] }
     e.inProgress = none ∧ e.build = none ∧ e.fold = some []) ∧
    (let e : Engine := { config.engine with strikes := config.engine.strikes.set 11 1 }
     e.inProgress = none ∧ e.fold = none ∧ 0 < e.strikes[(11 : Node)]) ∧
    (let e : Engine := { config.engine with command := some ⟨0, 0⟩ }
     e.inProgress = none ∧ e.fold = none ∧ (∀ n : Node, e.strikes[n] = 0) ∧ e.command = some ⟨0, 0⟩) ∧
    (let e : Engine := (withRequest 4 0 .join (withRequest 5 0 .poll config)).engine
     let e : Engine := { e with highest := 5 }
     e.inProgress = none ∧ (∀ n : Node, e.strikes[n] = 0) ∧ e.command = none ∧
      e.requests[(5 : Node)] = some ⟨0, .poll⟩ ∧
      ∀ m : Node, (m - e.highest).val < ((5 : Node) - e.highest).val → e.requests[m] = none) ∧
    (let e : Engine := { (withRequest 4 0 .join config).engine with highest := 5 }
     e.requests[(4 : Node)] = some ⟨0, .join⟩ ∧
      ∀ m : Node, (m - e.highest).val < ((4 : Node) - e.highest).val → e.requests[m] = none) ∧
    (let e : Engine := { config.engine with auditStep := true }
     e.command = none ∧ (∀ n : Node, e.requests[n] = none) ∧ e.auditStep = true) ∧
    ((∀ n : Node, State.reset.engine.requests[n] = none) ∧ State.reset.engine.auditStep = false ∧
      State.reset.engine.clearStep = some ⟨1, false⟩) ∧
    (config.engine.inProgress = none ∧ config.engine.clearStep = none) := by decide +kernel

theorem test_witness_EngineTakesByPlaceAndChain_visits :
    (∃ e : Engine, e.inProgress = some (.sweep ⟨Store.cleared, [], 0, 0, false⟩)) ∧
    ∃ e : Engine, e.inProgress = some (.strike ⟨Store.cleared, [], 3, false⟩) :=
  ⟨⟨{ config.engine with inProgress := some (.sweep ⟨Store.cleared, [], 0, 0, false⟩) }, rfl⟩,
    ⟨{ config.engine with inProgress := some (.strike ⟨Store.cleared, [], 3, false⟩) }, rfl⟩⟩

/-- A claim of one slot at slot 2 of frame 0, of term 9. -/
def aClaim : Request := .claim ⟨1, 2, 1, 9, 1, true, 0⟩

theorem test_lasting_takings :
    config.lasts (.request 4 ⟨1, .status⟩) = true ∧ running.lasts (.request 4 ⟨1, aClaim⟩) = true ∧
    running.lasts (.sweep 3) = true ∧ config.lasts (.command ⟨0x02, 8⟩) = true ∧ config.lasts .auditStep = true ∧
    config.lasts (.fold [⟨1, 1⟩]) = true := by decide +kernel

theorem test_fleeting_takings :
    config.lasts (.fold []) = false ∧ config.lasts (.command ⟨0x0F, 0⟩) = false ∧
    State.reset.lasts (.command ⟨0x03, 0⟩) = false ∧ running.lasts (.command ⟨0x02, 8⟩) = false ∧
    State.reset.lasts (.request 4 ⟨1, .status⟩) = false ∧ config.lasts (.request 4 ⟨1, aClaim⟩) = false ∧
    frozen.lasts (.request 4 ⟨1, .join⟩) = false ∧ frozen.lasts (.sweep 0) = false := by decide +kernel

/-- A claim refused by the device state completes at once: the next frame on its link is no longer met with BUSY (R108, R149). -/
theorem test_refused_claim_is_answered_at_once :
    let t := after (.linkFrameArrival 4 [2, 5, 6, 0xAE]) (withRequest 4 1 aClaim frozen)
    t.links[(4 : Node)].inFlight = some 5 ∧ t.links[(4 : Node)].cached = some ⟨1, 0x01, .frozen, .none⟩ ∧
      t.links[(4 : Node)].tx = .sending ⟨1, 0x01, .frozen, .none⟩ ∧ t.engine.requests[(4 : Node)] = some ⟨5, .join⟩ := by
  decide +kernel

/-- Every kind of request that completes at its taking, two commands and twelve node requests among them, is done before the one that lasts (R90, R103, R108, R199). -/
def allDue : State :=
  let s : State := { frozen with port := { frozen.port with
    inFlight := some ⟨0x02, 8⟩, waiting := some ⟨0x02, 9⟩ } }
  let s := allNodes.foldl (fun s n => withRequest n 1 .join s) s
  withEngine (fun e => { e with
    sweep := some 0, fold := some [], command := some ⟨0x02, 8⟩, auditStep := true, clearStep := some ⟨1, true⟩
    audit := ⟨true, 50, 3, true, 0, .none⟩ }) s

theorem test_seventeen_takings_at_once :
    allDue.engage.engine.inProgress = some (.taken (.clearStep ⟨1, true⟩) frozen.conditions) ∧
    allDue.engage.port.resultOutcome = .notConfig ∧ allDue.engage.port.inFlight = none ∧
    (∀ n : Node, allDue.engage.links[n].cached = some ⟨1, 0x06, .frozen, .none⟩) ∧
    allDue.engage.engine.audit.result = .inconclusive := by decide +kernel

theorem test_witness_EngineTakesByPlaceAndChain_engage :
    config.Engaged ∧ (holding .auditStep config).Engaged ∧ config.resetAsserted = false ∧ config.port.inFlight = none ∧
    config.port.waiting = none ∧
    (let s := withRequest 4 1 .status config
     s.engine.inProgress = none ∧ s.engine.taking = some (.request 4 ⟨1, .status⟩) ∧
      s.engage = holding (.request 4 ⟨1, .status⟩) s) ∧
    (let s := withEngine (fun e => { e with fold := some [] }) running
     s.engine.taking = some (.fold []) ∧ s.engage = running) ∧
    (let s := withCommand 0x0F 0 config
     s.engine.taking = some (.command ⟨0x0F, 0⟩) ∧ s.engage.control.device = .run ∧
      s.engage.engine.taking = some (.planBuild ⟨0, 1⟩)) ∧
    (let s := withRequest 4 1 aClaim config
     s.engine.inProgress = none ∧ s.engine.taking = some (.request 4 ⟨1, aClaim⟩) ∧
      State.deviceRefusal s.control.device aClaim = some .notRunning) ∧
    (let s := withCommand 0x03 0 State.reset
     s.engine.inProgress = none ∧ s.engine.taking = some (.command ⟨0x03, 0⟩) ∧ s.control.device = .init) ∧
    (∀ s ∈ [running, frozen], (withCommand 0x02 8 s).engine.taking = some (.command ⟨0x02, 8⟩) ∧
      (withCommand 0x02 8 s).engine.inProgress = none ∧ (s.control.device = .run ∨ s.control.device = .frozen)) := by
  decide +kernel

theorem test_witness_DeviceResetAndRelease :
    ({ config with resetAsserted := true } : State).resetAsserted = true ∧ config.resetAsserted = false := by
  decide +kernel

theorem test_witness_ClearStepsAndCleartable :
    (∀ p ∈ [ClearProgress.mk 1 false, ⟨12, true⟩, ⟨13, false⟩, ⟨108, true⟩, ⟨109, true⟩, ⟨124, false⟩, ⟨125, false⟩, ⟨125, true⟩],
      (withEngine (fun e => { e with clearStep := some p }) config).engine.taking = some (.clearStep p)) ∧
    ((withCommand 0x12 0 config).engine.takenCommand .cleartable = some ⟨0x12, 0⟩ ∧
      (withCommand 0x12 0 config).control.device = .config ∧
      (withCommand 0x12 0 config).engine.audit.running = false) ∧
    (let s := withEngine (fun e => { e with audit := { e.audit with running := true } }) (withCommand 0x12 0 config)
     s.engine.takenCommand .cleartable = some ⟨0x12, 0⟩ ∧ s.engine.audit.running = true) ∧
    ((withCommand 0x12 0 running).engine.takenCommand .cleartable = some ⟨0x12, 0⟩ ∧
      (withCommand 0x12 0 running).control.device = .run) ∧
    ((withCommand 0x12 0 frozen).engine.takenCommand .cleartable = some ⟨0x12, 0⟩ ∧
      (withCommand 0x12 0 frozen).control.device = .frozen) ∧
    (let s := withEngine (fun e => { e with command := none, clearStep := some ⟨125, true⟩ }) (withCommand 0x12 0 config)
     s.engine.taking = some (.clearStep ⟨125, true⟩) ∧ s.port.inFlight = some ⟨0x12, 0⟩) := by decide +kernel

theorem test_witness_SlotStartCountsAndGrants :
    (∀ p ∈ [((0 : Frame), (0 : Slot)), (15, 30), (15, 31), (14, 31), (0, 63)],
      let s := atSlot p.1 p.2 running
      s.resetAsserted = false ∧ s.Engaged ∧ s.seq.state = .running ∧
        ¬(s.seq.state = .stopping ∧ s.seq.frame = 15 ∧ s.store.frameLength ≤ s.seq.slot.val + 1)) ∧
    (let s := atSlot 15 30 { running with seq := { running.seq with state := .stopping } }
     s.Engaged ∧ s.seq.state = .stopping ∧ s.seq.slot.val + 1 < s.store.frameLength ∧
      ¬(s.seq.state = .stopping ∧ s.seq.frame = 15 ∧ s.store.frameLength ≤ s.seq.slot.val + 1)) ∧
    (atSlot 15 30 running).seq.slot.val + 1 < (atSlot 15 30 running).store.frameLength ∧
    (atSlot 15 31 running).store.frameLength ≤ (atSlot 15 31 running).seq.slot.val + 1 := by decide +kernel

theorem test_witness_FrameStartSwapsPlan :
    (let s := atSlot 15 31 running
     s.resetAsserted = false ∧ s.Engaged ∧ s.seq.state = .running ∧ s.store.frameLength ≤ s.seq.slot.val + 1 ∧
      ¬(s.seq.state = .stopping ∧ s.seq.frame = 15) ∧ s.control.device = .run ∧ s.seq.planReady = false) ∧
    (let s := atSlot 14 31 { running with seq := { running.seq with
        planReady := true, next := some ⟨allNonePlan, ⟨15, 0⟩⟩ } }
     s.seq.planReady = true ∧ s.seq.next = some ⟨allNonePlan, ⟨15, 0⟩⟩ ∧
      s.store.frameLength ≤ s.seq.slot.val + 1) ∧
    (let s := atSlot 15 31 frozen
     s.resetAsserted = false ∧ s.Engaged ∧ s.seq.state = .running ∧ s.store.frameLength ≤ s.seq.slot.val + 1 ∧
      s.control.device = .frozen) := by decide +kernel

theorem test_witness_frozen_consistent : (atSlot 15 31 frozen).Consistent := by
  constructor <;> first | decide +kernel | (intro _ _ h; cases h)

/-- PRIMING with its plan ready. -/
def primed : State :=
  { running with
    seq := { running.seq with state := .priming, planReady := true, next := some ⟨allNonePlan, ⟨0, 1⟩⟩ }
    monitor := config.monitor }

theorem test_witness_SequencerBeginsAndStops_begin :
    primed.seq.state = .priming ∧ primed.seq.planReady = true ∧ primed.seq.next = some ⟨allNonePlan, ⟨0, 1⟩⟩ ∧
    primed.control.device = .run ∧ primed.seq.slot = 0 ∧ primed.seq.frame = 0 ∧ primed.Engaged := by decide +kernel

theorem test_witness_SequencerBeginsAndStops_stop :
    ∀ s ∈ [running, frozen].map fun s => atSlot 15 31 { s with seq := { s.seq with state := .stopping } },
      s.resetAsserted = false ∧ s.Engaged ∧ s.seq.state = .stopping ∧ s.seq.frame = 15 ∧
        s.store.frameLength ≤ s.seq.slot.val + 1 := by decide +kernel

theorem test_witness_SlotAndFrameEndAreJudged :
    (∀ s ∈ [heard .silent none running, heard (.talker 3) (some ⟨3, ⟨0, 1⟩⟩) running, heard (.talker 4) (some ⟨3, ⟨0, 1⟩⟩) running,
        heard .garbled none running],
      s.resetAsserted = false ∧ s.Engaged ∧ s.seq.state = .running ∧ s.monitor.active = true ∧
        s.seq.slot.val + 1 < s.store.frameLength ∧ s.control.device = .run ∧ s.monitor.violation = none) ∧
    (heard (.talker 4) (some ⟨3, ⟨0, 1⟩⟩) running).grantedNode ≠ some 4 ∧
    (let s := heard .garbled none { running with monitor := { running.monitor with violation := some ⟨0, 0, 0, none, none, false⟩ } }
     s.monitor.talk = .garbled ∧ s.monitor.violation = some ⟨0, 0, 0, none, none, false⟩) ∧
    (∀ s ∈ [heard .silent none running, heard (.talker 3) (some ⟨3, ⟨0, 1⟩⟩) running,
        heard (.talker 4) (some ⟨3, ⟨0, 1⟩⟩) running, heard .garbled none running],
      let s := atSlot 0 31 (withEngine (fun e => { e with fold := some [⟨0, 1⟩] }) (holding .auditStep s))
      s.resetAsserted = false ∧ s.Engaged ∧ s.engine.isIdle = false ∧ s.seq.state = .running ∧ s.monitor.active = true ∧
        s.store.frameLength ≤ s.seq.slot.val + 1 ∧ s.engine.fold = some [⟨0, 1⟩] ∧ s.monitor.violation = none) ∧
    (heard (.talker 3) (some ⟨3, ⟨0, 1⟩⟩) running).grantedNode = some 3 ∧
    (atSlot 0 31 running).engine.fold = none := by decide +kernel

/-- The end of frame 14 with the monitor's entry for node 3, one tag talked, and what the last slot heard. -/
def endingFourteen (talk : Talk) (s : State) : State :=
  let s := heard talk (some ⟨3, ⟨0, 1⟩⟩) (atSlot 14 31 s)
  { s with monitor := { s.monitor with talked := [⟨7, 1⟩] } }

theorem test_witness_SlotAndFrameEndAreJudged_idle :
    (∀ talk ∈ [Talk.silent, .talker 3, .talker 4, .garbled],
      let s := endingFourteen talk running
      s.resetAsserted = false ∧ s.Engaged ∧ s.seq.state = .running ∧ s.monitor.active = true ∧
        s.store.frameLength ≤ s.seq.slot.val + 1 ∧ s.engine.isIdle = true ∧ s.seq.frame = 14 ∧
        s.control.device = .run ∧ s.engine.quarantine = none ∧ ¬(s.seq.state = .stopping ∧ s.seq.frame = 15)) ∧
    (endingFourteen (.talker 4) running).grantedNode ≠ some 4 ∧
    (endingFourteen (.talker 3) running).grantedNode = some 3 ∧
    (let s := endingFourteen .silent (holding (.request 4 ⟨1, .status⟩) running)
     s.Engaged ∧ s.engine.isIdle = false ∧ s.control.device = .run ∧ s.engine.quarantine = none ∧ s.seq.frame = 14) := by
  decide +kernel

/-- The stop at the end of frame 15, with the engine idle. -/
def stoppingNow (talk : Talk) : State :=
  let s := endingFourteen talk running
  { s with seq := { s.seq with state := .stopping, frame := 15 } }

theorem test_witness_SlotAndFrameEndAreJudged_stop :
    ∀ talk ∈ [Talk.silent, .talker 3, .talker 4, .garbled],
      let s := stoppingNow talk
      s.resetAsserted = false ∧ s.Engaged ∧ s.seq.state = .stopping ∧ s.monitor.active = true ∧
        s.store.frameLength ≤ s.seq.slot.val + 1 ∧ s.engine.isIdle = true ∧ s.seq.frame = 15 := by decide +kernel

theorem test_strike_before_the_fold_of_the_stop :
    (let t := after .slotStart (stoppingNow (.talker 4))
     [engineRow t.engine, engineRow (after .strike t).engine]) = [some .strike, some .fold] := by decide +kernel

/-- The rows the engine performs one after another (R92). -/
def nextRows : Nat → State → List (Option Instr)
  | 0, _ => []
  | k + 1, s => engineRow s.engine ::
    match engineRow s.engine with
    | some i => nextRows k (after i s)
    | none => []

theorem test_fold_of_frame_14_before_the_sweep :
    nextRows 2 (after .slotStart (endingFourteen (.talker 3) running)) = [some .fold, some .sweep] := by decide +kernel

theorem test_claim_before_the_sweep :
    let t := after .slotStart (endingFourteen (.talker 3) ((joined 4 running).postRequest 4 1 (.claim ⟨1, 2, 1, 9, 1, true, 0⟩)))
    nextRows 2 t = [some (.claim 4), some .sweep] ∧ t.engine.build = some ⟨0, 1⟩ ∧ t.engine.fold = some [⟨7, 1⟩, ⟨0, 1⟩] := by
  decide +kernel

theorem test_witness_OutsideEventsAct_talk :
    config.monitor.active = false ∧ running.monitor.active = true ∧
    (∀ m : Node, ∃ code : BitVec 5, code.toNat = 16 + m.val) ∧
    (∀ code ∈ [1, 15, 28, 31].map (BitVec.ofNat 5), code ≠ 0 ∧ ∀ m : Node, code.toNat ≠ 16 + m.val) :=
  ⟨by decide +kernel, by decide +kernel, fun m => ⟨BitVec.ofNat 5 (16 + m.val), by revert m; decide⟩, by decide +kernel⟩

theorem test_witness_FrameArrivalActsByRow :
    checkFrame [2, 5, 6, 0xAE] = some ⟨5, 0x06, []⟩ ∧
    (config.links[(11 : Node)].rx = .hunt ∧ config.links[(11 : Node)].partialFrame = none ∧
      config.links[(11 : Node)].idleTicks = 0 ∧ config.engage.links[(11 : Node)].inFlight = none ∧
      config.engage.links[(11 : Node)].lastSeq ≠ some 5) ∧
    (withRequest 11 5 .join config).engage.links[(11 : Node)].inFlight = some 5 ∧
    (withRequest 11 6 .join config).engage.links[(11 : Node)].inFlight = some 6 ∧
    (let e := (withRequest 11 6 .join State.reset).engage
     e.links[(11 : Node)].inFlight = none ∧ e.links[(11 : Node)].lastSeq = some 6) ∧
    (let l := (withLink 11 (fun l => { l with lastSeq := some 5, cached := some ⟨5, 6, .accepted, .joined 4 1 0⟩ })
        config).engage.links[(11 : Node)]
     l.inFlight = none ∧ l.lastSeq = some 5 ∧ l.cached = some ⟨5, 6, .accepted, .joined 4 1 0⟩) ∧
    (checkFrame [2, 0, 0x0B, crc8 [2, 0, 0x0B]] = some ⟨0, 0x0B, []⟩ ∧ requestLength 0x0B = none) ∧
    requestLength 0x06 ≠ none ∧
    (frameComplete [2, 5, 6, 0xAF] = true ∧ checkFrame [2, 5, 6, 0xAF] = none ∧
      ((none : Option (List Byte)).getD []).isPrefixOf [(2 : Byte), 5, 6, 0xAF] = true ∧
      config.links[(11 : Node)].rx ≠ .lineBreak ∧ config.links[(11 : Node)].isStale = false) := by decide +kernel

theorem test_witness_ByteByByteIsFrameArrival :
    frameComplete [2, 5, 6, 0xAE] = true ∧ frameComplete (16 :: List.replicate 17 0) = true ∧
    config.links[(0 : Node)].rx = .hunt ∧ config.links[(0 : Node)].partialFrame = none ∧
    config.links[(0 : Node)].idleTicks = 0 := by decide +kernel

theorem test_witness_LinkBytesBreaksAndSending_bytes :
    (config.links[(0 : Node)].isStale = false ∧ config.links[(0 : Node)].rx = .hunt) ∧
    (let l := (withLink 0 (fun l => { l with rx := .lineBreak }) config).links[(0 : Node)]
     l.isStale = false ∧ l.rx = .lineBreak) ∧
    (let l := (withLink 0 (fun l => { l with rx := .receiving, partialFrame := some [] }) config).links[(0 : Node)]
     l.isStale = false ∧ l.rx = .receiving ∧ l.partialFrame = some []) ∧
    (∀ b ∈ [0, 1, 17, 0xA5].map (BitVec.ofNat 8), b.toNat < 2 ∨ 16 < b.toNat) ∧
    (∀ b ∈ [2, 16].map (BitVec.ofNat 8), 2 ≤ b.toNat ∧ b.toNat ≤ 16) ∧
    (let l := (withLink 0 (fun l => { l with rx := .receiving, partialFrame := some [2, 5] }) config).links[(0 : Node)]
     l.isStale = false ∧ l.rx = .receiving ∧ l.partialFrame = some ((2 : Byte) :: [5]) ∧
      [(5 : Byte)].length < (2 : Byte).toNat) := by decide +kernel

/-- A response and the frame being sent. -/
def aResponse : Response := ⟨5, 6, .accepted, .joined 4 1 0⟩

theorem test_witness_LinkBytesBreaksAndSending_breaks :
    (∀ k ∈ [1, 2], (withLink 0 (fun l => { l with rx := .receiving, idleTicks := k }) config).links[(0 : Node)].rx = .receiving ∧
      (withLink 0 (fun l => { l with rx := .receiving, idleTicks := k }) config).links[(0 : Node)].idleTicks = k) ∧
    config.engage.links[(0 : Node)].rx ≠ .lineBreak ∧
    (let l := (withLink 0 (fun l => { l with rx := .lineBreak }) config).engage.links[(0 : Node)]
     l.rx = .lineBreak ∧ l.holding = none) ∧
    (let l := (withLink 0 (fun l => { l with rx := .lineBreak, holding := some ⟨aResponse, true⟩ }) config).engage.links[(0 : Node)]
     l.rx = .lineBreak ∧ l.holding = some ⟨aResponse, true⟩) ∧
    (let l := (withLink 0 (fun l => { l with tx := .sending aResponse }) config).engage.links[(0 : Node)]
     l.tx = .sending aResponse ∧ l.holding = none) ∧
    (let l := (withLink 0 (fun l => { l with tx := .sending aResponse, holding := some ⟨aResponse, true⟩ })
        config).engage.links[(0 : Node)]
     l.tx = .sending aResponse ∧ l.tx ≠ .idle ∧ l.holding = some ⟨aResponse, true⟩) ∧
    Link.atReset.tx = .idle := by decide +kernel

theorem test_witness_ResponseFrameShape :
    (65535 : Nat) < 65536 ∧ (queryReport (withChild config).store 1 9).term < 65536 ∧
      ((Results.queried (queryReport (withRoot config).store 0 4)).bytes[2]? = some 0x03) := by decide +kernel

theorem test_witness_RequestIsAnswered :
    (withRequest 11 15 .status config).engine.takenRequest 11 = some ⟨15, .status⟩ ∧
    (withRequest 11 15 .status config).links[(11 : Node)].tx = .idle ∧
    (let s := withLink 11 (fun l => { l with tx := .sending aResponse }) (withRequest 11 15 .status config)
     s.engine.takenRequest 11 = some ⟨15, .status⟩ ∧ s.links[(11 : Node)].tx ≠ .idle) := by decide +kernel

/-- The check of a node's record broken. -/
def withBadNode (n : Node) (s : State) : State := withNode n { s.store.node n with check := 1 } s

theorem test_witness_RequestIsAnswered_fault :
    (let s := withBadNode 4 (withRequest 4 1 (.renew ⟨0, 1⟩ 9) (withRoot running))
     s.engine.takenRequest 4 = some ⟨1, .renew ⟨0, 1⟩ 9⟩ ∧
      State.deviceRefusal s.atTaking.device (.renew ⟨0, 1⟩ 9) = none ∧ (s.store.node 4).check ≠ 0) ∧
    (∀ r ∈ [Request.renew ⟨5, 2⟩ 1, .renew ⟨5, 2⟩ 4095, .release ⟨5, 2⟩, .sublet ⟨5, 2⟩ 9 1 9, .recall ⟨5, 2⟩, .query ⟨5, 2⟩],
      let s := damaged (withRequest 4 1 r (joined 4 running))
      s.engine.takenRequest 4 = some ⟨1, r⟩ ∧ State.deviceRefusal s.atTaking.device r = none ∧
        (5 : Byte).toNat = (5 : Handle).val ∧ (s.store.record 5).check ≠ 0 ∧ s.store.Joined 4 ∧
        (after (requestRow 4 r) s).links[(4 : Node)].cached = some ⟨1, r.code, .fault, .none⟩) ∧
    (let s := damaged (withRequest 4 1 (.query ⟨5, 2⟩) (joined 4 frozen))
     State.deviceRefusal s.atTaking.device (.query ⟨5, 2⟩) = none ∧ s.store.Joined 4) := by decide +kernel

theorem test_witness_RequestIsAnswered_failedCheck :
    running.control.integrity = none ∧ running.control.device = .run ∧ frozen.control.device ≠ .run ∧
    (let s := withEngine (fun e => { e with quarantine := some ⟨[5], [(0, 2)], true⟩ })
        { config with control := { config.control with integrity := some ⟨.record 5, .sweep, false⟩ } }
     s.control.integrity = some ⟨.record 5, .sweep, false⟩ ∧ s.engine.quarantine = some ⟨[5], [(0, 2)], true⟩ ∧
      ([(5 : Handle)]).Nodup ∧ ([((0 : Frame), (2 : Slot))]).Nodup) := by decide +kernel

/-- The arguments of a claim for one slot of frame 0. -/
def claimAt (width first rank wait : Byte) : ClaimArgs := ⟨width, first, 1, 9, rank, true, wait⟩

theorem test_witness_RefusedByDeviceStateOrUnknown :
    ((withRequest 0 1 .status State.reset).engine.takenRequest 0 = some ⟨1, .status⟩ ∧ State.reset.control.device = .init) ∧
    (∀ s ∈ [config, frozen],
      (withRequest 4 1 (.claim (claimAt 1 2 1 0)) s).engine.takenRequest 4 = some ⟨1, .claim (claimAt 1 2 1 0)⟩ ∧
        (Request.claim (claimAt 1 2 1 0)).code ∈ [0x01, 0x02, 0x03, 0x04, 0x05].map (BitVec.ofNat 8)) ∧
    ((withRequest 4 1 .leave frozen).engine.takenRequest 4 = some ⟨1, .leave⟩ ∧
      Request.leave.code ∈ [0x01, 0x02, 0x03, 0x04, 0x05, 0x06, 0x07].map (BitVec.ofNat 8)) ∧
    ((withCommand 0x0F 0 State.reset).engine.taking = some (.command ⟨0x0F, 0⟩)) ∧
    (∀ c ∈ [0x00, 0x14, 0xFF].map (BitVec.ofNat 8), (withCommand c 0 config).engine.taking = some (.command ⟨c, 0⟩) ∧
      config.control.device ≠ .init ∧ (c = 0 ∨ 0x14 ≤ c.toNat)) := by decide +kernel

theorem test_witness_RefusedByDeviceStateOrUnknown_node :
    (∀ state ∈ [NodeState.absent, .barred],
      let s := withRequest 4 1 (.claim (claimAt 1 2 1 0)) (withNode 4 { NodeRecord.cleared with state := state } running)
      s.engine.takenRequest 4 = some ⟨1, .claim (claimAt 1 2 1 0)⟩ ∧ s.atTaking.device = .run ∧
        (s.store.node 4).check = 0 ∧ (s.store.node 4).state = state) ∧
    (∀ s ∈ [config, running, frozen], ∀ r ∈ [Request.poll, .query ⟨0, 1⟩],
      (withRequest 4 1 r s).engine.takenRequest 4 = some ⟨1, r⟩ ∧ s.atTaking.device ≠ .init ∧
        (s.store.node 4).check = 0 ∧ (s.store.node 4).state = .absent ∧ r.code ∈ [0x08, 0x09].map (BitVec.ofNat 8)) ∧
    (∀ state ∈ [DeviceState.config, .frozen],
      let s := holding (.request 4 ⟨1, .leave⟩) (withRequest 4 1 .leave frozen)
      s.engine.takenRequest 4 = some ⟨1, .leave⟩ ∧ ({ s with control := { s.control with device := state } } : State).atTaking.device =
        .frozen) := by decide +kernel

theorem test_witness_RefusedByDeviceStateOrUnknown_tags :
    (∀ code ∈ [0x04, 0x05, 0x06, 0x07, 0x08].map (BitVec.ofNat 8),
      (let c : Command := ⟨code, 96⟩
       (withCommand code 96 config).engine.taking = some (.command c) ∧ 95 < c.tag.handle.toNat) ∧
      (let c : Command := ⟨code, 95⟩
       let s := withCommand code 95 config
       s.engine.taking = some (.command c) ∧ s.atTaking.device ≠ .init ∧ c.tag.handle.toNat = (95 : Handle).val ∧
        (s.store.record 95).check = 0 ∧ (s.store.record 95).state = .free) ∧
      (let c : Command := ⟨code, 0x200⟩
       let s := withCommand code 0x200 (withRoot config)
       s.engine.taking = some (.command c) ∧ c.tag.handle.toNat = (0 : Handle).val ∧ (s.store.record 0).check = 0 ∧
        (s.store.record 0).generation ≠ c.tag.generation ∧ (s.store.record 0).state ≠ .corrupt)) ∧
    (∀ code ∈ [0x0B, 0x0C].map (BitVec.ofNat 8),
      (withCommand code 12 config).engine.taking = some (.command ⟨code, 12⟩) ∧
        11 < ((12 : Word).extractLsb' 0 4).toNat) ∧
    (∀ code ∈ [0x01, 0x0F].map (BitVec.ofNat 8),
      (withCommand code 0 State.reset).engine.taking = some (.command ⟨code, 0⟩) ∧
        (Command.mk code 0).actsAtTaking = decide (code = 0x0F) ∧ State.reset.atTaking.device = .init) := by decide +kernel

theorem test_witness_AttentionFollowsNotices_lines :
    (let s := withRecord 0 { heldRoot with ownerNotices := 1 } config
     config.store.noticesChanged s.store 4 = true ∧ config.store.noticesChanged s.store 5 = false ∧
      config.store.treats s.store = false) ∧
    (damaged config).store.treats config.store = true := by decide +kernel

theorem test_witness_AttentionFollowsNotices :
    State.reset.LawTen ∧
    (let s := withEngine (fun e => { e with audit := { e.audit with running := true } }) config
     s.engine.audit.running = true ∧ s.store.occupancyChanged (withRoot s).store = true) := by decide +kernel

/-- Node 7 JOINED with rank ceiling 3, and its request pending. -/
def claiming (a : ClaimArgs) (s : State) : State :=
  withRequest 7 2 (.claim a) (withNode 7 { NodeRecord.cleared with state := .joined, rankCeiling := 3 } s)

theorem test_witness_ClaimPasses :
    ClaimPasses (claiming (claimAt 16 16 3 0) running) 7 (claimAt 16 16 3 0) 0 ∧
    ClaimPasses (claiming (claimAt 3 0xFF 0 0) (withRoot running)) 7 (claimAt 3 0xFF 0 0) 1 ∧
    ClaimPasses (claiming (claimAt 1 2 0 0) (withRoot running)) 7 (claimAt 1 2 0 0) 1 ∧
    ClaimPasses (claiming (claimAt 1 2 0 255) (withRoot running)) 7 (claimAt 1 2 0 255) 1 ∧
    ClaimPasses (claiming (claimAt 1 2 1 0) (withRoot running)) 7 (claimAt 1 2 1 0) 1 :=
  ⟨⟨by decide +kernel, by decide +kernel, by decide, by decide, by decide, by decide +kernel, by decide +kernel, by decide +kernel⟩,
   ⟨by decide +kernel, by decide +kernel, by decide, by decide, by decide, by decide +kernel, by decide +kernel, by decide +kernel⟩,
   ⟨by decide +kernel, by decide +kernel, by decide, by decide, by decide, by decide +kernel, by decide +kernel, by decide +kernel⟩,
   ⟨by decide +kernel, by decide +kernel, by decide, by decide, by decide, by decide +kernel, by decide +kernel, by decide +kernel⟩,
   ⟨by decide +kernel, by decide +kernel, by decide, by decide, by decide, by decide +kernel, by decide +kernel, by decide +kernel⟩⟩

theorem test_witness_ClaimIsPlaced_fixed :
    let a := claimAt 16 16 3 0
    let s := claiming a running
    s.engine.takenRequest 7 = some ⟨2, .claim a⟩ ∧ s.store.fence ≤ 16 ∧ 16 + a.width.toNat ≤ s.store.frameLength ∧
      a.firstSlot.toNat = 16 ∧ ∀ f sl, Covered a.frames 16 a.width.toNat f sl → s.store.cell f sl = ⟨none, true⟩ := by
  decide +kernel

theorem test_witness_ClaimIsPlaced_any :
    let a := claimAt 3 0xFF 0 0
    let s := claiming a (withRoot running)
    s.engine.takenRequest 7 = some ⟨2, .claim a⟩ ∧ s.store.fence ≤ 3 ∧ 3 + a.width.toNat ≤ s.store.frameLength ∧
      (∀ f sl, Covered a.frames 3 a.width.toNat f sl → s.store.cell f sl = ⟨none, true⟩) ∧ a.firstSlot = 0xFF ∧
      (∀ f sl, Covered a.frames s.store.fence (s.store.frameLength - s.store.fence) f sl →
        (s.store.cell f sl).parityOk = true) ∧
      ∀ k : Slot, s.store.fence ≤ k.val → k < 3 →
        ∃ f sl, Covered a.frames k.val a.width.toNat f sl ∧ (s.store.cell f sl).names ≠ none := by decide +kernel

/-- Every record in use. -/
def fullTable (s : State) : State := { s with store := { s.store with records := Vector.replicate 96 heldRoot } }

theorem test_witness_ClaimWaitsOrIsRefused_range :
    ∀ a ∈ [claimAt 0 2 0 0, claimAt 17 2 0 0, claimAt 2 31 0 0, claimAt 1 64 0 0, claimAt 1 2 4 0, claimAt 17 0xFF 0 0,
        { claimAt 1 2 0 0 with frames := 0 }, { claimAt 1 2 0 0 with term := 0 }, { claimAt 1 2 0 0 with term := 4096 }],
      let s := withRequest 4 1 (.claim a) (joined 4 running)
      s.engine.takenRequest 4 = some ⟨1, .claim a⟩ ∧ s.atTaking.device = .run ∧ s.store.Joined 4 ∧
        (¬(1 ≤ a.width.toNat ∧ a.width.toNat ≤ 16) ∨ a.frames = 0 ∨ ¬(1 ≤ a.term.toNat ∧ a.term.toNat ≤ 4095) ∨
          3 < a.rank.toNat ∨
          (a.firstSlot ≠ 0xFF ∧ (64 ≤ a.firstSlot.toNat ∨ s.store.frameLength < a.firstSlot.toNat + a.width.toNat))) := by
  decide +kernel

theorem test_witness_ClaimWaitsOrIsRefused_later :
    (∀ a ∈ [claimAt 16 16 2 0, claimAt 1 0xFF 2 0],
      let s := withRequest 4 1 (.claim a) (joined 4 running)
      s.engine.takenRequest 4 = some ⟨1, .claim a⟩ ∧ (s.store.node 4).rankCeiling < a.rank.toNat ∧ a.frames ≠ 0 ∧
        (a.firstSlot = 0xFF ∨ (a.firstSlot.toNat < 64 ∧ a.firstSlot.toNat + a.width.toNat ≤ s.store.frameLength))) ∧
    (let s := { joined 4 running with store := { (joined 4 running).store with fence := 17 } }
     1 ≤ (s.store.node 4).rankCeiling ∧ (16 : Byte).toNat < s.store.fence ∧ s.store.fence ≤ (17 : Byte).toNat ∧
      s.store.frameLength < s.store.fence + (16 : Byte).toNat ∧ s.store.fence + (15 : Byte).toNat ≤ s.store.frameLength) ∧
    (let r : NodeRecord := { NodeRecord.cleared with state := .joined, liveOwned := 4 }
     r.quota ≤ r.liveOwned ∧ { r with liveOwned := 3 }.liveOwned < r.quota) ∧
    (let s := fullTable (withRequest 4 1 (.claim (claimAt 1 2 1 0)) (joined 4 running))
     s.engine.takenRequest 4 = some ⟨1, .claim (claimAt 1 2 1 0)⟩ ∧ s.store.Joined 4 ∧
      (s.store.node 4).liveOwned < (s.store.node 4).quota ∧ ∀ h, (s.store.record h).state ≠ .free) := by decide +kernel

/-- A queue of sixteen entries. -/
def fullQueue (s : State) : State := { s with store := { s.store with queue := List.replicate 16 ⟨0, true⟩ } }

theorem test_witness_ClaimWaitsOrIsRefused_fixed :
    ∀ wait ∈ [0, 255].map (BitVec.ofNat 8),
      let a := claimAt 1 2 0 wait
      let s := claiming a (withRoot running)
      s.engine.takenRequest 7 = some ⟨2, .claim a⟩ ∧ a.firstSlot.toNat = (2 : Slot).val ∧ s.store.fence ≤ (2 : Slot).val ∧
        (2 : Slot).val + a.width.toNat ≤ s.store.frameLength ∧
        (∀ f sl, Covered a.frames (2 : Slot).val a.width.toNat f sl → (s.store.cell f sl).parityOk = true) ∧
        (∀ f sl, Covered a.frames (2 : Slot).val a.width.toNat f sl → ∀ v, (s.store.cell f sl).names = some v →
          (s.store.record v).check = 0) ∧
        (Covered a.frames (2 : Slot).val a.width.toNat 0 2 ∧ (s.store.cell 0 2).names = some 0 ∧
          a.rank.toNat ≤ (s.store.record 0).rank) ∧
        s.store.queue.length < 16 ∧ 16 ≤ (fullQueue s).store.queue.length := by decide +kernel

/-- A frame length of 8 with a root over all of it in frame 0. -/
def narrow (s : State) : State :=
  let s : State := { s with store := { s.store with frameLength := 8 } }
  withRecord 0 { heldRoot with firstSlot := some 0, width := 8 }
    ((allSlots.filter fun sl => decide (sl.val < 8)).foldl (fun s sl => withCell 0 sl ⟨some 0, true⟩ s) s)

theorem test_witness_ClaimWaitsOrIsRefused_any :
    let a := claimAt 1 0xFF 3 1
    let s := claiming a (narrow running)
    s.engine.takenRequest 7 = some ⟨2, .claim a⟩ ∧ a.firstSlot = 0xFF ∧
      s.store.fence + a.width.toNat ≤ s.store.frameLength ∧
      (∀ f sl, Covered a.frames s.store.fence (s.store.frameLength - s.store.fence) f sl →
        (s.store.cell f sl).parityOk = true) ∧
      ∀ k : Slot, s.store.fence ≤ k.val → k.val + a.width.toNat ≤ s.store.frameLength →
        ∃ f sl, Covered a.frames k.val a.width.toNat f sl ∧ (s.store.cell f sl).names ≠ none := by decide +kernel

theorem test_witness_ClaimPasses_any :
    ClaimPasses (claiming (claimAt 1 0xFF 3 1) (narrow running)) 7 (claimAt 1 0xFF 3 1) 1 :=
  ⟨by decide +kernel, by decide +kernel, by decide, by decide, by decide, by decide +kernel, by decide +kernel, by decide +kernel⟩

theorem test_witness_ClaimDisplacesWeakerLease :
    let a := claimAt 1 2 1 0
    let s := claiming a (withRoot running)
    s.engine.takenRequest 7 = some ⟨2, .claim a⟩ ∧ a.firstSlot.toNat = (2 : Slot).val ∧ s.store.fence ≤ (2 : Slot).val ∧
      (2 : Slot).val + a.width.toNat ≤ s.store.frameLength ∧
      (∀ f sl, Covered a.frames (2 : Slot).val a.width.toNat f sl →
        s.store.cell f sl = ⟨none, true⟩ ∨ s.store.cell f sl = ⟨some 0, true⟩) ∧
      (∃ f sl, Covered a.frames (2 : Slot).val a.width.toNat f sl ∧ (s.store.cell f sl).names = some 0) ∧
      (s.store.record 0).check = 0 ∧ (s.store.record 0).isProtected = false ∧ (s.store.record 0).yields = true ∧
      (s.store.record 0).state = .held ∧ (s.store.record 0).rank < a.rank.toNat ∧ (s.store.record 0).children = [] ∧
      s.store.Good (s.store.chainItems [0]) ∧ (s.store.node (s.store.record 0).owner).state ≠ .barred ∧
      s.store.queue.length < 16 := by decide +kernel

/-- The root of node 4 with its child, and beside it node 9's root at slot 3, as record 2. -/
def withTwoRoots (s : State) : State :=
  withCell 0 3 ⟨some 2, true⟩
    (withRecord 2 { heldRoot with owner := 9, grantee := 9, firstSlot := some 3, state := .suspended } (withChild s))

theorem test_witness_ClaimDisplacesWeakerLease_victims :
    let a := claimAt 2 2 1 0
    let s := claiming a (withTwoRoots running)
    s.engine.takenRequest 7 = some ⟨2, .claim a⟩ ∧ a.firstSlot.toNat = (2 : Slot).val ∧ s.store.fence ≤ (2 : Slot).val ∧
      (2 : Slot).val + a.width.toNat ≤ s.store.frameLength ∧
      [0, 2] = s.store.occupants (coverCells a.frames 2 a.width.toNat) ∧
      (∀ f sl, Covered a.frames (2 : Slot).val a.width.toNat f sl → (s.store.cell f sl).parityOk = true) ∧
      (∀ v ∈ [(0 : Handle), 2], (s.store.record v).check = 0 ∧ (s.store.record v).isProtected = false ∧
        (s.store.record v).yields = true ∧
        ((s.store.record v).state = .held ∨ (s.store.record v).state = .suspended) ∧
        (s.store.record v).rank < a.rank.toNat) ∧ s.store.Good (s.store.chainItems [0, 2]) := by decide +kernel

theorem test_witness_ClaimPasses_victims :
    ClaimPasses (claiming (claimAt 2 2 1 0) (withTwoRoots running)) 7 (claimAt 2 2 1 0) 3 :=
  ⟨by decide +kernel, by decide +kernel, by decide, by decide, by decide, by decide +kernel, by decide +kernel, by decide +kernel⟩

/-- A record 3 below the child 1, granted on to node 9. -/
def withGrandchild (s : State) : State :=
  let s := withChild s
  withRecord 3 { s.store.record 1 with owner := 9, parent := some 1, depth := 2 }
    (withRecord 1 { s.store.record 1 with children := [3] } s)

theorem test_witness_displaceVictim :
    (let st := (withGrandchild running).store
     1 ∈ st.liveChildren 0 ∧ 3 ∈ st.liveChildren 1 ∧ (st.node (st.record 0).owner).state ≠ .barred ∧
      (st.closeDescendants 0).queue.length < 16) ∧
    (let st := (fullQueue (withRoot running)).store
     (st.node (st.record 0).owner).state ≠ .barred ∧ 16 ≤ (st.closeDescendants 0).queue.length) ∧
    (let st := (withNode 4 { NodeRecord.cleared with state := .barred } (withRoot running)).store
     (st.node (st.record 0).owner).state = .barred) := by decide +kernel

theorem test_witness_RenewReleaseAndRecall_renew :
    (let s := withRequest 4 1 (.renew ⟨0, 1⟩ 1) (withRoot running)
     s.engine.takenRequest 4 = some ⟨1, .renew ⟨0, 1⟩ 1⟩ ∧ s.control.device = .run ∧ s.store.Joined 4 ∧
      s.store.Names ⟨0, 1⟩ 0 ∧ (s.store.record 0).owner = 4 ∧ (s.store.record 0).state = .held ∧
      (s.store.record 0).isProtected = false ∧ s.store.TermAllowed (s.store.record 0) 1) ∧
    (let s := withRequest 4 1 (.renew ⟨0, 1⟩ 4095) (withRoot running)
     s.engine.takenRequest 4 = some ⟨1, .renew ⟨0, 1⟩ 4095⟩ ∧ s.store.TermAllowed (s.store.record 0) 4095) := by
  decide +kernel

theorem test_witness_RenewReleaseAndRecall_renewChild :
    let s := withRequest 4 1 (.renew ⟨1, 1⟩ 9) (withChild running)
    s.engine.takenRequest 4 = some ⟨1, .renew ⟨1, 1⟩ 9⟩ ∧ s.store.Names ⟨1, 1⟩ 1 ∧
      s.store.TermAllowed (s.store.record 1) 9 ∧ ¬s.store.TermAllowed (s.store.record 1) 10 := by decide +kernel

theorem test_witness_RenewReleaseAndRecall_release :
    (∀ state ∈ [RecState.held, .draining, .waiting, .displaced, .suspended],
      let s := withRequest 4 1 (.release ⟨0, 1⟩) (withRecord 0 { heldRoot with state := state } (withRoot running))
      s.engine.takenRequest 4 = some ⟨1, .release ⟨0, 1⟩⟩ ∧ s.control.device = .run ∧ s.store.Joined 4 ∧
        s.store.Names ⟨0, 1⟩ 0 ∧ (s.store.record 0).owner = 4 ∧ (s.store.record 0).isProtected = false ∧
        (s.store.record 0).state = state ∧ s.store.Good (s.store.closeItems 0)) ∧
    (let s := withRequest 9 1 (.release ⟨1, 1⟩) (withChild running)
     s.engine.takenRequest 9 = some ⟨1, .release ⟨1, 1⟩⟩ ∧ s.store.Joined 9 ∧ s.store.Names ⟨1, 1⟩ 1 ∧
      (s.store.record 1).kind = .child ∧ (s.store.record 1).grantee = 9 ∧ (s.store.record 1).isProtected = false) ∧
    (let s := withRequest 4 1 (.recall ⟨1, 1⟩) (withChild running)
     s.engine.takenRequest 4 = some ⟨1, .recall ⟨1, 1⟩⟩ ∧ s.control.device = .run ∧ s.store.Joined 4 ∧
      s.store.Names ⟨1, 1⟩ 1 ∧ (s.store.record 1).kind = .child ∧ (s.store.record 1).state ≠ .closed ∧
      (s.store.record 1).owner = 4 ∧ s.store.Good (s.store.closeItems 1)) := by decide +kernel

/-- What node 4 is answered to a request, with record 2 CORRUPT beside its root. -/
def answerToFour (r : Request) : Option ResultCode :=
  let s := withRecord 2 { LeaseRecord.cleared 1 with state := .corrupt } (withRoot running)
  ((after (requestRow 4 r) (withRequest 4 1 r s)).links[(4 : Node)].cached).map Response.code

theorem test_tags_that_name_no_lease :
    (([(⟨96, 0⟩ : RawTag), ⟨95, 0⟩, ⟨0, 2⟩, ⟨2, 1⟩]).flatMap fun t =>
      [Request.renew t 1, .release t, .sublet t 9 1 9, .recall t, .query t].map answerToFour).all
        (fun a => decide (a = some .noSuchLease)) = true := by decide +kernel

theorem test_witness_RenewReleaseAndRecall_noSuchLease :
    95 < (96 : Byte).toNat ∧ ((withRoot running).store.record 95).state = .free ∧
    ((withRoot running).store.record 0).generation ≠ 2 ∧
    (∀ s ∈ [config, frozen, running], ∀ state ∈ [NodeState.joined, .barred],
      let s := withRequest 4 1 (.query ⟨96, 0⟩) (withNode 4 { NodeRecord.cleared with state := state } s)
      s.engine.takenRequest 4 = some ⟨1, .query ⟨96, 0⟩⟩ ∧ s.atTaking.device ≠ .init ∧ (s.store.node 4).state = state) := by
  decide +kernel

theorem test_witness_RenewReleaseAndRecall_refused :
    (withRequest 4 1 (.renew ⟨0, 1⟩ 0) (withRoot running)).engine.takenRequest 4 = some ⟨1, .renew ⟨0, 1⟩ 0⟩ ∧
    (withRequest 4 1 (.renew ⟨0, 1⟩ 4096) (withRoot running)).engine.takenRequest 4 = some ⟨1, .renew ⟨0, 1⟩ 4096⟩ ∧
    4095 < (4096 : Word).toNat := by decide +kernel

theorem test_witness_RenewReleaseAndRecall_roles :
    (let s := joined 9 (withRoot running)
     s.store.Joined 9 ∧ s.store.Names ⟨0, 1⟩ 0 ∧ (s.store.record 0).owner ≠ 9 ∧ ¬HasRole (s.store.record 0) 9) := by
  decide +kernel

theorem test_witness_RenewReleaseAndRecall_states :
    (∀ state ∈ [RecState.draining, .displaced, .closed, .waiting, .held, .suspended],
      let s := withRecord 0 { heldRoot with state := state, isProtected := true } (withRoot running)
      s.store.Names ⟨0, 1⟩ 0 ∧ (s.store.record 0).owner = 4 ∧ (s.store.record 0).state = state ∧
        HasRole (s.store.record 0) 4 ∧ (s.store.record 0).isProtected = true ∧ (s.store.record 0).kind = .root) := by
  decide +kernel

theorem test_witness_RenewReleaseAndRecall_children :
    (let s := withRequest 4 1 (.renew ⟨1, 1⟩ 10) (withChild running)
     s.engine.takenRequest 4 = some ⟨1, .renew ⟨1, 1⟩ 10⟩ ∧ s.store.Names ⟨1, 1⟩ 1 ∧ (s.store.record 1).owner = 4 ∧
      (s.store.record 1).kind = .child ∧ (s.store.record 1).parent = some 0 ∧ (s.store.record 0).term = 9) ∧
    (let s := withRequest 9 1 (.recall ⟨1, 1⟩) (withChild running)
     s.engine.takenRequest 9 = some ⟨1, .recall ⟨1, 1⟩⟩ ∧ s.store.Names ⟨1, 1⟩ 1 ∧ (s.store.record 1).owner ≠ 9) := by
  decide +kernel

theorem test_witness_SubletCreatesChild :
    let s := withRequest 4 1 (.sublet ⟨0, 1⟩ 9 1 9) (joined 9 (withRoot running))
    s.engine.takenRequest 4 = some ⟨1, .sublet ⟨0, 1⟩ 9 1 9⟩ ∧ s.control.device = .run ∧ s.store.Joined 4 ∧
      s.store.Names ⟨0, 1⟩ 0 ∧ (s.store.record 0).grantee = 4 ∧ (s.store.record 0).state = .held ∧
      (s.store.record 0).depth < 2 ∧ (s.store.record 0).children.length < 4 ∧
      (∀ c ∈ (s.store.record 0).children, (s.store.record c).check = 0 ∧ (1 : FrameSet) &&& (s.store.record c).frameSet = 0) ∧
      (1 : FrameSet) &&& ~~~(s.store.record 0).frameSet = 0 ∧ 9 ≤ (s.store.record 0).term ∧ s.store.Joined 9 ∧
      (s.store.node 4).liveOwned < (s.store.node 4).quota ∧ s.store.NextFree 1 := by decide +kernel

/-- What node n is answered when it sublets record 0 so: node 9 JOINED, node 6 BARRED, node 5 ABSENT. -/
def subletAnswer (n : Node) (target : Byte) (frames : FrameSet) (term : Word) : Option ResultCode :=
  let s := withNode 6 { NodeRecord.cleared with state := .barred } (joined 9 (withRoot running))
  ((after (.sublet n) (withRequest n 1 (.sublet ⟨0, 1⟩ target frames term) s)).links[n].cached).map Response.code

theorem test_sublet_refusals :
    [subletAnswer 9 9 1 9, subletAnswer 4 9 0 9, subletAnswer 4 9 1 0, subletAnswer 4 9 1 4096, subletAnswer 4 12 1 9,
      subletAnswer 4 9 2 9, subletAnswer 4 9 1 10, subletAnswer 4 5 1 9, subletAnswer 4 6 1 9, subletAnswer 4 9 1 9] =
    [some .notOwner, some .range, some .range, some .range, some .range, some .overlap, some .term, some .notJoined,
      some .barred, some .accepted] := by decide +kernel

theorem test_witness_SubletCreatesChild_refused :
    (let s := withRequest 9 1 (.sublet ⟨0, 1⟩ 9 1 9) (joined 9 (withRoot running))
     s.engine.takenRequest 9 = some ⟨1, .sublet ⟨0, 1⟩ 9 1 9⟩ ∧ s.atTaking.device = .run ∧ s.store.Joined 9 ∧
      s.store.Names ⟨0, 1⟩ 0 ∧ (s.store.record 0).grantee ≠ 9) ∧
    (let s := withGrandchild running
     s.store.Names ⟨3, 1⟩ 3 ∧ 2 ≤ (s.store.record 3).depth ∧ (s.store.record 3).state = .held ∧
      (s.store.record 3).grantee = 9 ∧ s.store.Joined 9) ∧
    ((1 : FrameSet) &&& ((withChild running).store.record 1).frameSet ≠ 0 ∧
      1 ∈ ((withChild running).store.record 0).children) := by decide +kernel

theorem test_witness_SubletCreatesChild_depth :
    (let s := withRecord 0 { heldRoot with children := [2, 3, 4, 5] } (withRoot running)
     4 ≤ (s.store.record 0).children.length ∧ ∀ c ∈ (s.store.record 0).children, (s.store.record c).check = 0) ∧
    (let s := withRecord 0 { heldRoot with state := .suspended } (withRoot running)
     (s.store.record 0).state ≠ .held ∧ s.store.Names ⟨0, 1⟩ 0) := by decide +kernel

theorem test_witness_SubletCreatesChild_full :
    (let s := withNode 4 { NodeRecord.cleared with state := .joined, liveOwned := 4 } (joined 9 (withRoot running))
     (s.store.node 4).quota ≤ (s.store.node 4).liveOwned ∧ s.store.Joined 9 ∧ s.store.Names ⟨0, 1⟩ 0) ∧
    (let s := fullTable (joined 9 (withRoot running))
     s.store.Joined 4 ∧ s.store.Joined 9 ∧ s.store.Names ⟨0, 1⟩ 0 ∧ (s.store.record 0).state = .held ∧
      (s.store.record 0).grantee = 4 ∧ (s.store.node 4).liveOwned < (s.store.node 4).quota ∧
      ∀ k, (s.store.record k).state ≠ .free) := by decide +kernel

theorem test_witness_JoinQueryAndStatus :
    (∀ state ∈ [NodeState.absent, .joined, .barred],
      let s := withRequest 4 1 .join (withNode 4 { NodeRecord.cleared with state := state } config)
      s.engine.takenRequest 4 = some ⟨1, .join⟩ ∧ s.control.device = .config ∧ (s.store.node 4).check = 0 ∧
        (s.store.node 4).state = state) ∧
    (let s := withRequest 4 1 (.query ⟨0, 1⟩) (withRoot frozen)
     s.engine.takenRequest 4 = some ⟨1, .query ⟨0, 1⟩⟩ ∧ s.control.device ≠ .init ∧ (s.store.node 4).check = 0 ∧
      (s.store.node 4).state = .joined ∧ s.store.Names ⟨0, 1⟩ 0 ∧ (s.store.record 0).owner = 4) ∧
    (let s := withRequest 9 1 (.query ⟨1, 1⟩) (withChild config)
     s.engine.takenRequest 9 = some ⟨1, .query ⟨1, 1⟩⟩ ∧ s.store.Names ⟨1, 1⟩ 1 ∧ (s.store.record 1).kind = .child ∧
      (s.store.record 1).grantee = 9) ∧
    (let s := withRequest 9 1 (.query ⟨0, 1⟩) (withChild config)
     s.engine.takenRequest 9 = some ⟨1, .query ⟨0, 1⟩⟩ ∧ s.store.Names ⟨0, 1⟩ 0 ∧ (s.store.record 0).owner ≠ 9 ∧
      ¬((s.store.record 0).kind = .child ∧ (s.store.record 0).grantee = 9)) ∧
    (withRequest 4 1 .status config).engine.takenRequest 4 = some ⟨1, .status⟩ := by decide +kernel

theorem test_witness_LeaveEmptiesNode :
    (∀ state ∈ [NodeState.absent, .barred],
      let s := withRequest 4 1 .leave (withNode 4 { NodeRecord.cleared with state := state } config)
      s.engine.takenRequest 4 = some ⟨1, .leave⟩ ∧ s.control.device = .config ∧ (s.store.node 4).check = 0 ∧
        (s.store.node 4).state = state) ∧
    (let s := withRequest 4 1 .leave (withChild running)
     s.engine.takenRequest 4 = some ⟨1, .leave⟩ ∧ s.control.device = .run ∧ (s.store.node 4).check = 0 ∧
      (s.store.node 4).state = .joined ∧ s.store.Good (s.store.leaveItems 4)) := by decide +kernel

/-- A CLOSED record 95 with notices for its owner 4 and its grantee 9. -/
def withClosed (owner grantee : NoticeSet) (s : State) : State :=
  withRecord 95
    { LeaseRecord.cleared 3 with
      state := .closed, kind := .child, owner := 4, grantee := 9, depth := 1
      closeReason := some .recalled, closeAge := some 0, ownerNotices := owner, granteeNotices := grantee } s

theorem test_witness_LeaveEmptiesNode_child :
    let s := withRequest 9 1 .leave (withTwoRoots running)
    s.engine.takenRequest 9 = some ⟨1, .leave⟩ ∧ (s.store.node 9).state = .joined ∧ s.store.Good (s.store.leaveItems 9) ∧
      (s.store.record 1).state.isLive = true ∧ (s.store.record 1).kind = .child ∧ (s.store.record 1).grantee = 9 ∧
      (s.store.record 1).owner ≠ 9 ∧
      (∀ p, (s.store.record p).state.isLive = true → 1 ∉ (s.store.record p).children ∨ ¬HasRole (s.store.record p) 9) ∧
      (∀ p, 1 ∈ (s.store.record p).children → ∀ g, p ∉ (s.store.record g).children) ∧
      (s.store.node (s.store.record 1).owner).state ≠ .absent ∧
      ¬HasRole (s.store.record 0) 9 ∧ (s.store.record 0).state ≠ .closed ∧
      ((after (.leave 9) s).store.record 0).state = (s.store.record 0).state ∧
      (after (.leave 9) s).links[(9 : Node)].cached = some ⟨1, 0x07, .accepted, .left 2⟩ := by decide +kernel

theorem test_witness_LeaveEmptiesNode_dropped :
    (let t := after (.leave 4) (withRequest 4 1 .leave (withClosed 0 0x80 (joined 9 (joined 4 config))))
     t.store.record 95 = LeaseRecord.cleared 3 ∧ t.port.flags = EventFlag.closeDropped.bit) ∧
    (let t := after (.leave 4) (withRequest 4 1 .leave (withClosed 0x80 0 (joined 9 (joined 4 config))))
     t.store.record 95 = LeaseRecord.cleared 3 ∧ t.port.flags = 0) := by decide +kernel

theorem test_witness_PollTakesLowestSet :
    (let s := withRequest 4 1 .poll (joined 4 config)
     s.engine.takenRequest 4 = some ⟨1, .poll⟩ ∧ s.control.device ≠ .init ∧ s.store.Joined 4 ∧
      (∀ k, (s.store.record k).check = 0) ∧ s.store.hasNoticeFor 4 = false) ∧
    (let s := withRequest 4 1 .poll (withClosed 0x80 0 (joined 4 config))
     (∀ k : Handle, k ≤ 95 → (s.store.record k).check = 0) ∧
      (∀ k : Handle, k < 95 → (s.store.record k).ownerNoticesFor 4 = 0 ∧ (s.store.record k).granteeNoticesFor 4 = 0) ∧
      (s.store.record 95).ownerNoticesFor 4 ≠ 0) ∧
    (let s := withRequest 9 1 .poll (withClosed 0 0x80 (joined 9 config))
     (∀ k : Handle, k < 95 → (s.store.record k).ownerNoticesFor 9 = 0 ∧ (s.store.record k).granteeNoticesFor 9 = 0) ∧
      (s.store.record 95).ownerNoticesFor 9 = 0 ∧ (s.store.record 95).granteeNoticesFor 9 ≠ 0) := by decide +kernel

/-- The engine's sweep pending with an abandonment count. -/
def sweeping (count : Nat) (s : State) : State := withEngine (fun e => { e with sweep := some count }) s

/-- HALT as the integrity mode. -/
def halting (s : State) : State := { s with control := { s.control with integrityMode := .halt } }

theorem test_witness_ClosingDoesWhatItSays :
    ((withRoot running).store.record 0).isOccupyingRoot = true ∧
    ((withRoot running).store.cell 0 2).parityOk = true ∧
    (((withRecord 0 { heldRoot with state := .waiting } running).store.record 0).state.isQueued = true) ∧
    ((withRoot running).store.record 0).children = [] ∧ ((withRoot running).store.record 0).parent ≠ some 1 ∧
    (11 : Node) ≠ ((withRoot running).store.record 0).owner ∧
    ((withChild running).store.record 1).kind = .child ∧ ((withChild running).store.record 1).parent = some 0 ∧
    1 ∈ (withGrandchild running).store.liveChildren 0 ∧ 3 ∈ (withGrandchild running).store.liveChildren 1 := by
  decide +kernel

theorem test_witness_SweepDroppedReturnedOrWithdrawn :
    (∀ s ∈ [config, frozen, { running with seq := { running.seq with state := .priming } }],
      (sweeping 0 s).engine.taking = some (.sweep 0) ∧
        ¬(s.control.device = .run ∧ (s.seq.state = .running ∨ s.seq.state = .stopping))) ∧
    (∀ k ∈ [0, 2, 3], (damaged (sweeping k running)).engine.taking = some (.sweep k)) ∧
    (damaged running).sweepFailure = some (.record 5) ∧
    (damaged running).control.integrityMode = .quarantine ∧ (halting (damaged running)).control.integrityMode = .halt ∧
    running.control.device = .run ∧ running.seq.state = .running := by decide +kernel

theorem test_witness_SweepDroppedReturnedOrWithdrawn_items :
    (running.sweepFailure = none ∧ (config.store.record 95).check = 0) ∧
    (let s := withBadNode 4 (withRecord 0 { heldRoot with term := 1 } (withRoot running))
     s.sweepFailure = some (.node 4)) ∧
    ((withBadNode 4 (withRoot running)).sweepFailure = none) ∧
    ((withCell 15 31 ⟨none, false⟩ running).sweepFailure = some (.cell 15 31) ∧
      (withCell 15 32 ⟨none, false⟩ running).sweepFailure = none) ∧
    (let s := fullQueue running
     ({ s with store := { s.store with queue := s.store.queue.set 15 ⟨0, false⟩ } } : State).sweepFailure =
      some (.queueEntry 15)) ∧
    (let s := holding (.sweep 3) (damaged running)
     s.engine.taking = some (.sweep 3) ∧ s.sweepFailure = some (.record 5) ∧ (halting s).atTaking.integrityMode = .quarantine ∧
      ({ s with control := { s.control with device := .config } } : State).atTaking.device = .run) := by decide +kernel

theorem test_witness_SweepDroppedReturnedOrWithdrawn_visits :
    (let st := (withRecord 0 { heldRoot with term := 1 } (withRoot running)).store
     (st.record 0).state.isLive = true ∧ ((visit 0 8 st (.term 0)).record 0).state = .closed ∧
      st.closingNodes 0 = visitNodes 0 8 st (.term 0)) ∧
    (let st := (withRoot running).store
     ((visit 0 8 st (.term 0)).record 0).ownerNotices ≠ (st.record 0).ownerNotices) ∧
    (let s := withRecord 1
        { LeaseRecord.cleared 1 with state := .waiting, owner := 4, frameSet := 1, waitLimit := some 2, waitAge := some 0 }
        (joined 4 running)
     (s.store.record 1).state.isQueued = true ∧ ((visit 0 8 s.store (.queueEntry 1)).record 1).state = .held) := by
  decide +kernel

theorem test_witness_SweepMakesItsStages :
    let s := sweeping 0 (withClosed 0x80 0 (withRecord 0 { heldRoot with term := 1 } (withRoot running)))
    let s := withRecord 95 { s.store.record 95 with closeAge := some 3 } s
    s.engine.taking = some (.sweep 0) ∧ s.control.device = .run ∧ s.seq.state = .running ∧
      s.sweepFailure = none ∧ (s.store.record 95).state = .closed ∧ (s.store.record 95).closeAge = some 3 ∧
      (s.store.record 95).ownerNotices ≠ 0 ∧ (s.store.record 0).state = .held ∧ (s.store.record 0).term = 1 := by
  decide +kernel

/-- A sweep in progress with one visit left to make, and the idle limit 1. -/
def visiting (v : Visit) (s : State) : State :=
  withEngine (fun e => { e with inProgress := some (.sweep ⟨s.store, [v, .clearUsed], 1, 2, false⟩) }) s

theorem test_witness_SweepVisitsClose :
    (let s := visiting (.closeAge 95) (withRecord 95
        { LeaseRecord.cleared 3 with state := .closed, closeAge := some 3, ownerNotices := 0x80 } running)
     (s.store.record 95).state = .closed ∧ (s.store.record 95).closeAge = some 3 ∧
      (.closeAge 95 : Visit) ∉ [(.clearUsed : Visit)]) ∧
    (let s := visiting (.idle 0) (withRoot running)
     (s.store.record 0).state = .held ∧ (s.store.record 0).isProtected = false ∧ (s.store.record 0).used = false ∧
      s.store.hasSuspendedAncestor 0 = false ∧ 1 ≤ (s.store.record 0).idleCount + 1) ∧
    (let s := visiting (.term 0) (withRecord 0 { heldRoot with term := 1 } (withRoot running))
     (s.store.record 0).state = .held ∧ (s.store.record 0).term = 1) ∧
    (let s := visiting (.drain 0) (withRecord 0 { heldRoot with state := .draining } (withRoot running))
     (s.store.record 0).state = .draining) := by decide +kernel

theorem test_witness_SweepVisitsClose_queueEntry :
    (let s := visiting (.queueEntry 1) (withRecord 1
        { LeaseRecord.cleared 1 with
          state := .waiting, firstSlot := some 2, frameSet := 1, waitLimit := some 255, waitAge := some 254 } (withRoot running))
     (s.store.record 1).state = .waiting ∧ (s.store.record 1).firstSlot = some 2 ∧
      s.store.fixedFits (s.store.record 1).isProtected 2 (s.store.record 1).width (s.store.record 1).frameSet = false ∧
      (s.store.record 1).waitAge = some 254 ∧ (s.store.record 1).waitLimit = some (254 + 1)) ∧
    (let s := visiting (.queueEntry 1) (withRecord 1
        { LeaseRecord.cleared 1 with state := .waiting, frameSet := 1, waitLimit := some 1, waitAge := some 0 } (narrow running))
     (s.store.record 1).firstSlot = none ∧ s.store.anySlot (s.store.record 1).width (s.store.record 1).frameSet = none ∧
      (s.store.record 1).waitAge = some 0 ∧ (s.store.record 1).waitLimit = some (0 + 1)) ∧
    (withRecord 1 { LeaseRecord.cleared 1 with state := .displaced } running).store.records[1].state = .displaced := by
  decide +kernel

theorem test_witness_SweepVisitsCountAndPlace :
    (let st := (withRecord 1 { LeaseRecord.cleared 3 with state := .closed, closeAge := some 2 } (withRoot running)).store
     (st.record 1).state = .closed ∧ (st.record 1).closeAge = some 2 ∧ (st.record 0).state ≠ .closed ∧
      (st.record 1).state ≠ .held ∧ (st.record 1).state ≠ .draining ∧ (st.record 1).state.isOccupying = false ∧
      (st.record 1).state.isQueued = false ∧ (st.record 0).state = .held ∧ (st.record 0).isProtected = false ∧
      st.hasSuspendedAncestor 0 = false ∧ (st.record 0).used = false ∧ (st.record 0).idleCount + 1 < 15 ∧
      (st.record 0).state.isOccupying = true ∧ 1 < (st.record 0).term ∧ (st.record 0).term - 1 = 8) ∧
    ((withRecord 0 { heldRoot with used := true } running).store.record 0).used = true := by decide +kernel

/-- A record waiting in the queue as record 1, in frame 0. -/
def withEntry (first : Option Slot) (limit age : Nat) (s : State) : State :=
  let s := withRecord 1 { LeaseRecord.cleared 1 with
    state := .waiting, firstSlot := first, frameSet := 1, term := 3, waitLimit := some limit, waitAge := some age } s
  { s with store := { s.store with queue := [⟨1, true⟩] } }

theorem test_witness_SweepVisitsCountAndPlace_fixed :
    let st := (withEntry (some 3) 9 0 (withRoot running)).store
    (st.record 1).state.isQueued = true ∧ (3 : Slot).val + (st.record 1).width ≤ st.frameLength ∧
      (∀ f sl, Covered (st.record 1).frameSet (3 : Slot).val (st.record 1).width f sl → st.cell f sl = ⟨none, true⟩) ∧
      (st.record 1).firstSlot = some 3 ∧ st.fence ≤ (3 : Slot).val := by decide +kernel

theorem test_witness_SweepVisitsCountAndPlace_any :
    let st := (withEntry none 9 0 { withRoot running with
      store := { (withRoot running).store with fence := 2 } }).store
    (st.record 1).state.isQueued = true ∧ (3 : Slot).val + (st.record 1).width ≤ st.frameLength ∧
      (∀ f sl, Covered (st.record 1).frameSet (3 : Slot).val (st.record 1).width f sl → st.cell f sl = ⟨none, true⟩) ∧
      (st.record 1).firstSlot = none ∧ st.fence ≤ (3 : Slot).val ∧
      ∀ k : Slot, st.fence ≤ k.val → k < 3 →
        ∃ f sl, Covered (st.record 1).frameSet k.val (st.record 1).width f sl ∧ st.cell f sl ≠ ⟨none, true⟩ := by
  decide +kernel

theorem test_witness_SweepVisitsCountAndPlace_age :
    (let st := (withEntry (some 2) 255 253 (withRoot running)).store
     (st.record 1).state.isQueued = true ∧ (st.record 1).waitAge = some 253 ∧ (st.record 1).waitLimit ≠ some (253 + 1) ∧
      (st.record 1).firstSlot = some 2 ∧
      st.fixedFits (st.record 1).isProtected 2 (st.record 1).width (st.record 1).frameSet = false) ∧
    (let st := (withEntry none 2 0 (narrow running)).store
     (st.record 1).firstSlot = none ∧ st.anySlot (st.record 1).width (st.record 1).frameSet = none ∧
      (st.record 1).waitAge = some 0 ∧ (st.record 1).waitLimit ≠ some (0 + 1)) := by decide +kernel

/-- Strikes pending for node 4. -/
def struck (count : Nat) (s : State) : State := withEngine (fun e => { e with strikes := e.strikes.set 4 count }) s

theorem test_witness_SplitOperationsAreWhole :
    (sweeping 0 (withRoot running)).sweepUnderWay.isSome = true ∧ (visiting (.idle 0) running).sweepUnderWay.isSome = true ∧
    (struck 3 (withRoot running)).strikeUnderWay.isSome = true ∧ .drainCompletion ∈
      ([.closeAgeFree 0, .idleReclaim 0, .termExpiry 0, .drainCompletion, .waitOver 0] : List Instr) := by decide +kernel

theorem test_witness_SplitOperationsAreWhole_taken :
    (∀ t : Taking, t ∈ [Taking.quarantine ⟨[], [], false⟩, .sweep 3, .planBuild ⟨0, 1⟩, .fold [⟨1, 1⟩], .strike [(4, 3)],
      .command ⟨0x03, 8⟩, .request 4 ⟨1, aClaim⟩, .auditStep, .clearStep ⟨1, true⟩] →
      (struck 3 (withRoot running)).lasts t = true) ∧
    (struck 3 (withRoot running)).engine.inProgress = none ∧
    (struck 3 (withRoot running)).engine.taking = some (.strike [(4, 3)]) := by decide +kernel

theorem test_witness_PlanBuildResolvesChains :
    let s := withEngine (fun e => { e with build := some ⟨0, 1⟩ }) (withChild { primed with seq := { primed.seq with planReady := false, next := none } })
    s.engine.taking = some (.planBuild ⟨0, 1⟩) ∧ (∀ h, (s.store.record h).check = 0) ∧
      (∀ sl, (s.store.cell 0 sl).parityOk = true) ∧ s.control.device ≠ .frozen ∧ s.seq.state = .priming ∧
      (1 : Word) = s.seq.superframe + 1 ∧ (s.store.cell 0 2).names = some 0 ∧
      (s.store.record 0).state.isGranting = true ∧ s.store.Holds 0 1 0 ∧ s.store.NoneHolds 1 0 ∧
      (s.store.record 1).state.isGranting = true ∧ (s.store.cell 0 3).names = none := by decide +kernel

/-- The build of frame 0 pending over the chain of three. -/
def building (s : State) : State := withEngine (fun e => { e with build := some ⟨0, 1⟩ }) (withGrandchild s)

/-- A record's check broken. -/
def withBadRecord (h : Handle) (s : State) : State := withRecord h { s.store.record h with check := 1 } s

theorem test_witness_PlanBuildResolvesChains_damage :
    (let s := withCell 0 2 ⟨some 0, false⟩ (building running)
     s.engine.taking = some (.planBuild ⟨0, 1⟩) ∧ (s.store.cell 0 2).parityOk = false) ∧
    (let s := withBadRecord 0 (building running)
     (s.store.cell 0 2).names = some 0 ∧ (s.store.record 0).check ≠ 0) ∧
    (let s := withBadRecord 1 (building running)
     (s.store.record 0).state.isGranting = true ∧ 1 ∈ (s.store.record 0).children ∧ (s.store.record 1).check ≠ 0) := by
  decide +kernel

theorem test_witness_PlanBuildResolvesChains_below :
    (let s := withBadRecord 3 (building running)
     (s.store.record 1).state.isGranting = true ∧ 3 ∈ (s.store.record 1).children ∧
      (s.store.record 3).check ≠ 0 ∧ (s.store.record 1).check = 0) := by decide +kernel

theorem test_witness_PlanBuildResolvesChains_three :
    (let s := building running
     s.store.Holds 0 1 0 ∧ s.store.Holds 1 3 0 ∧ (s.store.record 3).state.isGranting = true ∧
      ∀ d ∈ (s.store.record 1).children, (s.store.record d).check = 0) := by decide +kernel

theorem test_witness_PlanBuildResolvesChains_frozen :
    (let s := withRecord 0 { heldRoot with state := .suspended } (building frozen)
     (s.store.record 0).state.isGranting = false ∧ s.control.device = .frozen) := by decide +kernel

theorem test_witness_FoldCreditsChains :
    (let s := withEngine (fun e => { e with fold := some [⟨1, 1⟩] }) (withChild running)
     s.engine.taking = some (.fold [⟨1, 1⟩]) ∧ ([(⟨1, 1⟩ : Tag)].map Tag.handle).Nodup ∧
      s.store.Good (foldItems s.store [⟨1, 1⟩]) ∧ s.store.CreditedBy 1 ⟨1, 1⟩ ∧ s.store.CreditedBy 0 ⟨1, 1⟩) ∧
    (let s := damaged (withEngine (fun e => { e with fold := some [⟨5, 2⟩] }) running)
     s.store.firstFailing (foldItems s.store [⟨5, 2⟩]) = some (.record 5) ∧ s.atTaking.integrityMode = .quarantine ∧
      (halting s).atTaking.integrityMode = .halt) := by decide +kernel

theorem test_witness_FoldCreditsChains_taken :
    (let s := withEngine (fun e => { e with fold := some [⟨1, 2⟩] }) (holding (.fold [⟨1, 1⟩]) (withChild running))
     s.engine.taking = some (.fold [⟨1, 1⟩]) ∧ s.store.Good (foldItems s.store [⟨1, 1⟩]) ∧
      s.store.CreditedBy 0 ⟨1, 1⟩ ∧ (s.take (.fold [⟨1, 1⟩])).engine.fold = some [⟨1, 2⟩]) ∧
    (let s := halting (damaged (withEngine (fun e => { e with fold := some [⟨5, 3⟩] }) (holding (.fold [⟨5, 2⟩]) running)))
     s.store.firstFailing (foldItems s.store [⟨5, 2⟩]) = some (.record 5) ∧ s.atTaking.integrityMode = .quarantine ∧
      (s.take (.fold [⟨5, 2⟩])).engine.fold = some [⟨5, 3⟩]) := by
  decide +kernel

theorem test_witness_StrikesAndBarring_strikes :
    ∀ s ∈ [struck 2 (withRoot running), holding (.strike [(4, 2)]) (withRoot running)],
      s.engine.taking = some (.strike [(4, 2)]) ∧ ([((4 : Node), 2)].map Prod.fst).Nodup ∧
      ∀ t ∈ [((4 : Node), 2)], (s.store.node t.1).check = 0 ∧ (s.store.node t.1).state = .joined ∧
        (s.store.node t.1).strikes + t.2 < s.atTaking.strikeLimit := by decide +kernel

theorem test_witness_StrikesAndBarring_barring :
    (let s := withEngine (fun e => { e with inProgress := some (.strike ⟨(withRoot running).store, [(4, 3)], 3, false⟩) })
        (withRoot running)
     (s.store.node 4).state = .joined ∧ 3 ≤ (s.store.node 4).strikes + 3) ∧
    (∀ state ∈ [NodeState.joined, .barred, .absent],
      let s := withCommand 0x0B 4 (withNode 4 { NodeRecord.cleared with state := state } (withRoot config))
      s.engine.takenCommand .bar = some ⟨0x0B, 4⟩ ∧ s.control.device ≠ .init ∧ (⟨0x0B, 4⟩ : Command).node? = some 4 ∧
        (s.store.node 4).check = 0 ∧ (s.store.node 4).state = state ∧ s.store.Good (s.store.barItems 4)) := by
  decide +kernel

theorem test_witness_StrikesAndBarring_barNode :
    (∀ state ∈ [RecState.waiting, .displaced, .draining, .held, .suspended],
      let st := (withRecord 0 { heldRoot with state := state } (withRoot config)).store
      HasRole (st.record 0) 4 ∧ (st.record 0).state = state ∧ ¬HasRole (st.record 0) 9 ∧ (st.record 0).children = []) ∧
    (let st := (withChild config).store
     HasRole (st.record 1) 9 ∧ ¬HasRole (st.record 0) 9 ∧ 1 ∈ (st.record 0).children ∧ (st.record 1).state = .held) ∧
    (let st := (withChild config).store
     let st := st.putRecord 0 { st.record 0 with state := .draining }
     1 ∈ (st.record 0).children ∧ ((st.barNode 4).record 1).state = .closed ∧ 1 ∉ ((st.barNode 4).record 0).children ∧
      ((st.barNode 4).record 1).closeReason = some .cascade ∧ (st.record 1).closeReason ≠ some .cascade) ∧
    (5 : Node) ≠ 4 ∧ (config.store.record 0).state.isLive = false := by decide +kernel

theorem test_witness_QuarantineLeavesNoDamage :
    let s := withEngine (fun e => { e with quarantine := some ⟨[5], [], false⟩ }) (damaged running)
    s.engine.taking = some (.quarantine ⟨[5], [], false⟩) ∧ (s.store.record 5).check ≠ 0 := by decide +kernel

/-- An orphan of the damaged record 5, a damaged node record, a damaged cell and a damaged queue entry. -/
def manyDamaged (s : State) : State :=
  let s := withCell 0 2 ⟨none, false⟩ (withBadNode 4 (withRoot (damaged s)))
  let s := withRecord 6
    { LeaseRecord.cleared 1 with state := .held, kind := .child, owner := 4, grantee := 9, parent := some 5, depth := 1 } s
  let s := withRecord 7
    { LeaseRecord.cleared 1 with state := .waiting, owner := 4, grantee := 4, waitLimit := some 9, waitAge := some 0 } s
  { s with store := { s.store with queue := [⟨7, false⟩] } }

theorem test_witness_QuarantineLeavesNoDamage_items :
    let s := holding (.quarantine ⟨[5], [], false⟩) (manyDamaged running)
    s.engine.taking = some (.quarantine ⟨[5], [], false⟩) ∧ (s.store.record 5).check ≠ 0 ∧
      (s.store.record 6).check = 0 ∧ (s.store.record 6).state.isLive = true ∧ (s.store.record 6).parent = some 5 ∧
      (s.store.node 4).check ≠ 0 ∧ (s.store.cell 0 2).parityOk = false ∧
      (s.store.queue.any fun e => !e.parityOk) = true := by decide +kernel

theorem test_witness_QuarantineLeavesNoDamage_kept :
    let s := manyDamaged running
    s.store.QueueApart ∧ (s.store.record 0).check = 0 ∧
      (s.store.record 0).isSettled = false ∧ (s.store.record 0).state.isQueued = false ∧
      (s.store.record 0).parent = none ∧ (∀ p, (s.store.record p).check = 0 → 0 ∉ (s.store.record p).children) ∧
      (s.store.record 7).state.isQueued = true := by decide +kernel

theorem test_witness_QuarantineLeavesNoDamage_excess :
    let s : State := { running with store := { running.store with
      records := Vector.replicate 96 { LeaseRecord.cleared 1 with state := .waiting, waitLimit := some 9, waitAge := some 0 } } }
    let s := withEngine (fun e => { e with quarantine := some ⟨[], [], true⟩ }) s
    s.engine.taking = some (.quarantine ⟨[], [], true⟩) ∧ s.store.QueueApart ∧ (s.store.record 95).check = 0 ∧
      (s.store.record 95).state.isQueued = true := by decide +kernel

theorem test_witness_allGood : running.store.AllGood :=
  ⟨by decide +kernel, by decide +kernel, fun f sl => by
    show ((Vector.replicate 16 (Vector.replicate 64 Cell.cleared))[f][sl]).parityOk = true
    simp [Cell.cleared], by simp [running, config, State.reset, Store.cleared]⟩

/-- An audit running, its step pending. -/
def auditing (position restarts : Nat) (disturbed : Bool) (s : State) : State :=
  withEngine (fun e => { e with auditStep := true, audit := ⟨true, position, restarts, disturbed, 0, .none⟩ }) s

theorem test_witness_AuditStepsRun :
    (∀ s ∈ [config, auditing 0 0 false config],
      (withCommand 0x13 0 s).engine.takenCommand .audit = some ⟨0x13, 0⟩ ∧ s.control.device ≠ .init) ∧
    config.engine.audit.running = false ∧ (auditing 0 0 false config).engine.audit.running = true ∧
    (∀ k ∈ [2, 3], (auditing 50 k true config).engine.taking = some .auditStep ∧
      (auditing 50 k true config).engine.audit.disturbed = true ∧
      (auditing 50 k true config).engine.audit.restarts = k) ∧
    (∀ k ∈ [0, 95, 96, 110, 111], (auditing k 0 false config).engine.taking = some .auditStep ∧
      (auditing k 0 false config).store.Good ((auditing k 0 false config).store.auditItems k) ∧
      (auditing k 0 false config).store.auditMismatches k = []) := by decide +kernel

theorem test_witness_AuditStepsRun_mismatch :
    let s := auditing 0 0 false (withRecord 0 heldRoot config)
    s.store.Good (s.store.auditItems 0) ∧ s.store.auditMismatches 0 = [(0, 2)] ∧ s.control.integrityMode = .quarantine ∧
      s.store.Good (s.store.repairItems [(0, 2)]) ∧ s.store.losers 0 2 = [] ∧
      (halting s).control.integrityMode = .halt := by decide +kernel

theorem test_witness_AuditStepsRun_losers :
    let s := withRecord 1 heldRoot (withRecord 0 heldRoot config)
    let s := auditing 0 0 false (joined 4 s)
    s.store.Good (s.store.auditItems 0) ∧ s.store.auditMismatches 0 = [(0, 2)] ∧
      s.store.Good (s.store.repairItems [(0, 2)]) ∧ s.store.losers 0 2 = [1] ∧
      ∀ p, (1 : Handle) ∉ (s.store.record p).children := by decide +kernel

/-- A record step, a frame step and a repair that meet a failed check, and the last position. -/
theorem test_witness_AuditStepsRun_failed :
    (∀ mode ∈ [IntegrityMode.quarantine, .halt],
      let s := auditing 5 3 false (damaged { config with control := { config.control with integrityMode := mode } })
      s.engine.taking = some .auditStep ∧ s.engine.audit.disturbed = false ∧ s.atTaking.integrityMode = mode ∧
        s.store.firstFailing (s.store.auditItems 5) = some (.record 5) ∧ s.engine.audit.position < 111) ∧
    (let s := auditing 111 0 false (halting (withCell 15 63 ⟨none, false⟩ config))
     s.store.firstFailing (s.store.auditItems 111) = some (.cell 15 63) ∧ s.atTaking.integrityMode = .halt) ∧
    (let s := auditing 0 0 false (damaged (withRecord 0 heldRoot config))
     s.store.Good (s.store.auditItems 0) ∧ s.store.auditMismatches 0 = [(0, 2)] ∧
      s.atTaking.integrityMode = .quarantine ∧ s.store.firstFailing (s.store.repairItems [(0, 2)]) = some (.record 5)) := by
  decide +kernel

/-- A PLACE in flight with this image, in CONFIG with node 4's root at slot 2. -/
def placing (im : LeaseImage) (s : State) : State :=
  withCommand 0x01 0 { s with port := { s.port with writeFront := im } }

theorem test_witness_PlaceMakesProtectedRoot :
    (∀ im ∈ [(⟨4, 31, 1, false, 0x8001, 0, 0, false⟩ : LeaseImage), ⟨4, 16, 16, true, 1, 0, 7, true⟩],
      (placing im (withRoot config)).port.writeBack = im ∧ im.owner.toNat = (4 : Node).val ∧ 1 ≤ im.width.toNat ∧
        im.width.toNat ≤ 16 ∧ im.frames ≠ 0 ∧ im.term.toNat ≤ 4095) ∧
    (let s := placing ⟨4, 31, 1, false, 0x8001, 0, 0, false⟩ (withRoot config)
     s.engine.takenCommand .place = some ⟨0x01, 0⟩ ∧ s.control.device ≠ .init ∧ s.store.Joined 4 ∧ s.store.NextFree 1 ∧
      (31 : Slot).val + 1 ≤ s.store.frameLength ∧
      ∀ f sl, Covered 0x8001 31 1 f sl → s.store.cell f sl = ⟨none, true⟩) := by decide +kernel

theorem test_witness_PlaceMakesProtectedRoot_refused :
    (∀ im ∈ [(⟨12, 31, 1, false, 1, 0, 0, false⟩ : LeaseImage), ⟨4, 31, 0, false, 1, 0, 0, false⟩, ⟨4, 8, 17, false, 1, 0, 0, false⟩,
        ⟨4, 31, 2, false, 1, 0, 0, false⟩, ⟨4, 31, 1, false, 0, 0, 0, false⟩, ⟨4, 31, 1, false, 1, 4096, 0, false⟩],
      let s := placing im (withRoot config)
      s.engine.takenCommand .place = some ⟨0x01, 0⟩ ∧ s.atTaking.device ≠ .init ∧ s.port.writeBack = im ∧
        (11 < im.owner.toNat ∨ ¬(1 ≤ im.width.toNat ∧ im.width.toNat ≤ 16) ∨
          s.store.frameLength < im.firstSlot.toNat + im.width.toNat ∨ im.frames = 0 ∨ 4095 < im.term.toNat)) ∧
    (∀ state ∈ [NodeState.absent, .barred],
      let s := placing ⟨4, 31, 1, false, 1, 4095, 0, false⟩ (withNode 4 { NodeRecord.cleared with state := state } config)
      s.engine.takenCommand .place = some ⟨0x01, 0⟩ ∧ (s.store.node 4).check = 0 ∧ (s.store.node 4).state = state) ∧
    (let s := fullTable (placing ⟨4, 31, 1, false, 1, 0, 0, false⟩ (joined 4 config))
     s.engine.takenCommand .place = some ⟨0x01, 0⟩ ∧ (s.store.node 4).state = .joined ∧
      ∀ h, (s.store.record h).state ≠ .free) := by decide +kernel

theorem test_witness_PlaceMakesProtectedRoot_occupied :
    let s := placing ⟨4, 2, 1, false, 1, 4095, 0, false⟩ (withRoot config)
    s.engine.takenCommand .place = some ⟨0x01, 0⟩ ∧ (s.store.cell 0 2).names ≠ none ∧ Covered 1 2 1 0 2 ∧
      (∀ f sl, Covered 1 2 1 f sl → (s.store.cell f sl).parityOk = true) ∧
      ∀ f sl, Covered 1 2 1 f sl → ∀ v, (s.store.cell f sl).names = some v → (s.store.record v).check = 0 := by
  decide +kernel

theorem test_witness_PlaceMakesProtectedRoot_forced :
    (let s := placing ⟨4, 2, 2, true, 1, 0, 0, false⟩ (withTwoRoots config)
     s.engine.takenCommand .place = some ⟨0x01, 0⟩ ∧ s.store.NextFree 3 ∧
      [0, 2] = s.store.occupants (coverCells 1 2 2) ∧
      (∀ f sl, Covered 1 2 2 f sl → (s.store.cell f sl).parityOk = true) ∧
      (∀ v ∈ [(0 : Handle), 2], (s.store.record v).check = 0 ∧ (s.store.record v).isProtected = false ∧
        ((s.store.record v).state = .held ∨ (s.store.record v).state = .suspended)) ∧
      s.store.Good (s.store.chainItems [0, 2])) ∧
    (let s := placing ⟨4, 2, 1, true, 1, 0, 0, false⟩ (withRecord 0 { heldRoot with isProtected := true } (withRoot config))
     s.store.occupants (coverCells 1 2 1) = [0] ∧ (s.store.record 0).isProtected = true) := by decide +kernel

/-- The fence put in place. -/
def fenced (k : Nat) (s : State) : State := { s with store := { s.store with fence := k } }

theorem test_witness_SetframeAndFence :
    ((withCommand 0x02 8 running).engine.takenCommand .setframe = some ⟨0x02, 8⟩ ∧
      (withCommand 0x02 8 config).engine.takenCommand .setframe = some ⟨0x02, 8⟩ ∧
      (withCommand 0x03 64 config).engine.takenCommand .fence = some ⟨0x03, 64⟩) ∧
    (∀ v ∈ [7, 8, 64, 65, 255], (⟨0x02, BitVec.ofNat 16 v⟩ : Command).value = v) ∧
    (8 < (fenced 9 config).store.fence ∧ (∀ h, (config.store.record h).check = 0)) ∧
    (let s := withRecord 0 { heldRoot with firstSlot := some 7, width := 2 } config
     (s.store.record 0).state.isLive = true ∧ (s.store.record 0).kind = .root ∧ (s.store.record 0).firstSlot = some 7 ∧
      8 < (7 : Slot).val + (s.store.record 0).width ∧ ¬9 < (7 : Slot).val + (s.store.record 0).width) ∧
    (∀ h a, (config.store.record h).state.isLive = true → (config.store.record h).kind = .root →
      (config.store.record h).firstSlot = some a → a.val + (config.store.record h).width ≤ 8) := by decide +kernel

theorem test_witness_SetframeAndFence_fence :
    (let s := withCommand 0x03 3 (withRoot config)
     s.engine.takenCommand .fence = some ⟨0x03, 3⟩ ∧ s.store.fence < 3 ∧ (s.store.cell 0 2).names = some 0 ∧
      (s.store.record 0).isProtected = false ∧
      ∀ f (sl : Slot), s.store.fence ≤ sl.val → sl.val < 3 → sl.val < s.store.frameLength →
        (s.store.cell f sl).parityOk = true ∧ ∀ v, (s.store.cell f sl).names = some v → (s.store.record v).check = 0) ∧
    (let s := withCommand 0x03 3 (withRecord 0 { heldRoot with isProtected := true } (withRoot config))
     s.engine.takenCommand .fence = some ⟨0x03, 3⟩ ∧ s.store.fence < 3 ∧ (s.store.cell 0 2).names = some 0 ∧
      (s.store.record 0).isProtected = true ∧ 3 ≤ (fenced 3 s).store.fence) := by decide +kernel

theorem test_witness_AmendAndRevoke :
    (∀ state ∈ [RecState.waiting, .held, .suspended, .draining, .displaced, .closed],
      let s := withCommand 0x05 0x100 (withRecord 0 { heldRoot with state := state } (withRoot config))
      s.engine.takenCommand .revoke = some ⟨0x05, 0x100⟩ ∧ s.control.device ≠ .init ∧
        s.store.Names (⟨0x05, 0x100⟩ : Command).tag 0 ∧ (s.store.record 0).state = state ∧
        s.store.Good (s.store.closeItems 0)) ∧
    (let s := withCommand 0x05 0x100 config
     (s.store.record 0).state = .free ∧ (s.store.record 0).check = 0) ∧
    (let s := withCommand 0x05 0x200 (withRoot config)
     s.engine.takenCommand .revoke = some ⟨0x05, 0x200⟩ ∧
      (s.store.record 0).generation ≠ (⟨0x05, 0x200⟩ : Command).tag.generation) ∧
    (let s := withCommand 0x04 0x100 { (withRoot config) with
        port := { config.port with writeFront := ⟨0, 0, 0, false, 0, 4095, 3, true⟩ } }
     s.engine.takenCommand .amend = some ⟨0x04, 0x100⟩ ∧ s.store.Names (⟨0x04, 0x100⟩ : Command).tag 0 ∧
      s.port.writeBack = ⟨0, 0, 0, false, 0, 4095, 3, true⟩ ∧ s.store.TermAllowed (s.store.record 0) 4095) := by
  decide +kernel

theorem test_witness_AmendAndRevoke_refused :
    (∀ im ∈ [(⟨0, 0, 0, false, 0, 9, 4, true⟩ : LeaseImage), ⟨0, 0, 0, false, 0, 4096, 3, true⟩, ⟨0, 0, 0, false, 0, 0, 3, true⟩],
      let s := withCommand 0x04 0x100 { (withRoot config) with port := { config.port with writeFront := im } }
      s.engine.takenCommand .amend = some ⟨0x04, 0x100⟩ ∧ s.store.Names (⟨0x04, 0x100⟩ : Command).tag 0 ∧
        s.port.writeBack = im ∧ (s.store.record 0).state = .held ∧
        (3 < im.rank.toNat ∨ 4095 < im.term.toNat ∨ (im.term = 0 ∧ (s.store.record 0).isProtected = false))) ∧
    (let im : LeaseImage := ⟨0, 0, 0, false, 0, 10, 3, true⟩
     let s := withCommand 0x04 0x101 { (withChild config) with port := { config.port with writeFront := im } }
     s.engine.takenCommand .amend = some ⟨0x04, 0x101⟩ ∧ s.store.Names (⟨0x04, 0x101⟩ : Command).tag 1 ∧
      s.port.writeBack = im ∧ (s.store.record 1).kind = .child ∧ (s.store.record 1).parent = some 0 ∧
      (s.store.record 0).term = 9 ∧ (s.store.record 0).check = 0) := by decide +kernel

/-- A good CORRUPT record named with its generation by AMEND, REVOKE, SUSPEND and RESUME. -/
theorem test_witness_tagCommands_corrupt :
    ∀ code ∈ [0x04, 0x05, 0x06, 0x07].map (BitVec.ofNat 8),
      let c : Command := ⟨code, 0x100⟩
      let s := withCommand code 0x100 (withRecord 0 { LeaseRecord.cleared 1 with state := .corrupt } config)
      s.engine.taking = some (.command c) ∧ s.atTaking.device ≠ .init ∧ c.tag.handle.toNat = (0 : Handle).val ∧
        (s.store.record 0).check = 0 ∧ (s.store.record 0).state = .corrupt ∧
        (s.store.record 0).generation = c.tag.generation ∧ (after (commandRow c) s).port.resultOutcome = .wrongState := by
  decide +kernel

theorem test_witness_SuspendResumeUnbarAndNotices_suspend :
    (∀ state ∈ [RecState.held, .suspended, .waiting, .closed],
      let s := withCommand 0x06 0x100 (withRecord 0 { heldRoot with state := state } (withRoot frozen))
      s.engine.takenCommand .suspend = some ⟨0x06, 0x100⟩ ∧ s.control.device ≠ .init ∧
        s.store.Names (⟨0x06, 0x100⟩ : Command).tag 0 ∧ (s.store.record 0).state = state ∧
        s.store.Good (s.store.partyItems 0)) ∧
    (∀ reasons ∈ [(⟨true, false, false⟩ : Reasons), ⟨true, true, false⟩, ⟨true, false, true⟩, ⟨false, true, false⟩],
      let s := withCommand 0x07 0x100 (withRecord 0 { heldRoot with state := .suspended, reasons := reasons } (withRoot frozen))
      s.engine.takenCommand .resume = some ⟨0x07, 0x100⟩ ∧ s.store.Names (⟨0x07, 0x100⟩ : Command).tag 0 ∧
        (s.store.record 0).state = .suspended ∧ (s.store.record 0).reasons = reasons ∧
        s.store.Good (s.store.partyItems 0)) := by decide +kernel

theorem test_witness_DiscardFreesRecord :
    (∀ state ∈ [RecState.closed, .held],
      let s := withCommand 0x08 0x100 (withRecord 0 { heldRoot with state := state } config)
      s.engine.takenCommand .discard = some ⟨0x08, 0x100⟩ ∧ s.control.device ≠ .init ∧ s.control.device ≠ .frozen ∧
        s.store.Names (⟨0x08, 0x100⟩ : Command).tag 0 ∧ (s.store.record 0).state = state) ∧
    (let s := withCommand 0x08 5 (damaged frozen)
     s.engine.takenCommand .discard = some ⟨0x08, 5⟩ ∧ s.control.device = .frozen ∧ (s.store.record 5).check ≠ 0 ∧
      (∀ k, k ≠ 5 → (s.store.record k).check = 0) ∧ (∀ n, (s.store.node n).check = 0)) ∧
    (let s := withCommand 0x08 0 (withRecord 0 { LeaseRecord.cleared 1 with state := .corrupt } config)
     s.engine.takenCommand .discard = some ⟨0x08, 0⟩ ∧ (s.store.record 0).state = .corrupt) ∧
    (let s := withCommand 0x08 0x100 (withRoot frozen)
     s.engine.takenCommand .discard = some ⟨0x08, 0x100⟩ ∧ (s.store.record 0).generation = 1 ∧
      (⟨0x08, 0x100⟩ : Command).tag.generation = 1 ∧ (s.store.record 0).state ≠ .free) := by decide +kernel

theorem test_witness_FetchesFillReadWindow :
    (∀ v ∈ [95, 96], (withCommand 0x09 (BitVec.ofNat 16 v) config).engine.takenCommand .fetch =
        some ⟨0x09, BitVec.ofNat 16 v⟩ ∧ (⟨0x09, BitVec.ofNat 16 v⟩ : Command).value = v) ∧
    (let s := withCommand 0x09 0 (withChild config)
     s.engine.takenCommand .fetch = some ⟨0x09, 0⟩ ∧ (s.store.record 0).check = 0 ∧
      ∀ k ∈ (s.store.record 0).children, (s.store.record k).check = 0) ∧
    (let s := withCommand 0x0A 15 (fullQueue config)
     s.engine.takenCommand .fetchq = some ⟨0x0A, 15⟩ ∧ s.store.queue[15]? = some ⟨0, true⟩ ∧
      (s.store.record 0).check = 0 ∧ s.store.queue.length ≤ 16) ∧
    (∀ v ∈ [11, 12, 15], (withCommand 0x0E (BitVec.ofNat 16 v) config).engine.takenCommand .fetchnode =
        some ⟨0x0E, BitVec.ofNat 16 v⟩) ∧
    (⟨0x0E, 11⟩ : Command).node? = some 11 ∧ (⟨0x0E, 12⟩ : Command).node? = none ∧ (config.store.node 11).check = 0 := by
  decide +kernel

theorem test_witness_SuspendResumeUnbarAndNotices_unbar :
    (∀ state ∈ [NodeState.barred, .joined, .absent],
      let s := withCommand 0x0C 4 (withNode 4 { NodeRecord.cleared with state := state, strikes := 3 }
        (withRecord 0 { heldRoot with state := .suspended, reasons := ⟨false, true, false⟩ } config))
      s.engine.takenCommand .unbar = some ⟨0x0C, 4⟩ ∧ s.control.device ≠ .init ∧ (⟨0x0C, 4⟩ : Command).node? = some 4 ∧
        (s.store.node 4).check = 0 ∧ (s.store.node 4).state = state ∧ (∀ h, (s.store.record h).check = 0) ∧
        (∀ m, (s.store.node m).check = 0) ∧ heldBack (s.store.record 0) 4 = true ∧ (unbarredReasons (s.store.record 0) 4).isEmpty = true ∧
        heldBack (s.store.record 1) 4 = false) ∧
    (let r : LeaseRecord := { heldRoot with state := .suspended, reasons := ⟨true, true, false⟩ }
     heldBack r 4 = true ∧ (unbarredReasons r 4).isEmpty = false) := by decide +kernel

theorem test_witness_SetnodeWritesThreeValues :
    ((withCommand 0x0D 0 State.reset).engine.takenCommand .setnode = some ⟨0x0D, 0⟩ ∧ State.reset.control.device = .init) ∧
    ((withCommand 0x0D 0x10B config).engine.takenCommand .setnode = some ⟨0x0D, 0x10B⟩ ∧ config.control.device ≠ .init) ∧
    (withCommand 0x0D 0x11B config).engine.takenCommand .setnode = some ⟨0x0D, 0x11B⟩ ∧
    (withCommand 0x0D 0x0C config).engine.takenCommand .setnode = some ⟨0x0D, 0x0C⟩ ∧
    ((0x10B : Word).extractLsb' 0 4).toNat = (11 : Node).val ∧ ((0x10B : Word).extractLsb' 4 5).toNat = 16 ∧
    ((0x11B : Word).extractLsb' 0 4).toNat = (11 : Node).val ∧ ((0x11B : Word).extractLsb' 4 5).toNat = 17 ∧
    11 < ((0x0C : Word).extractLsb' 0 4).toNat ∧ (config.store.node 11).check = 0 ∧
    ((withNode 11 { NodeRecord.cleared with check := 1 } config).store.node 11).check ≠ 0 := by decide +kernel

theorem test_witness_StartStopThaw :
    (∀ s ∈ [config, running, frozen, primed, { frozen with seq := { frozen.seq with state := .priming } },
        { running with seq := { running.seq with state := .stopping } }],
      (withCommand 0x0F 0 s).engine.takenCommand .start = some ⟨0x0F, 0⟩ ∧
        (withCommand 0x10 0 s).engine.takenCommand .stop = some ⟨0x10, 0⟩ ∧
        (withCommand 0x11 0 s).engine.takenCommand .thaw = some ⟨0x11, 0⟩) ∧
    config.control.device = .config ∧ config.seq.state = .stopped ∧ running.control.device = .run ∧
    running.seq.state = .running ∧ frozen.control.device = .frozen ∧ frozen.seq.state ≠ .stopped ∧
    primed.control.device = .run ∧ primed.seq.state = .priming := by decide +kernel

theorem test_witness_CompletionAtThePort :
    config.port.waiting = none ∧
    (∀ code ∈ [0x01, 0x04, 0x0F].map (BitVec.ofNat 8),
      ({ config with port := { config.port with waiting := some ⟨code, 7⟩ } } : State).port.waiting = some ⟨code, 7⟩) := by
  decide +kernel

/-- A command of this code and argument meets damage over this state and is abandoned. -/
def faults (code : Byte) (arg : Word) (s : State) : Bool :=
  let s := withCommand code arg s
  decide (s.engine.taking = some (.command ⟨code, arg⟩) ∧ (Command.mk code arg).actsAtTaking = false ∧
    s.atTaking.device ≠ .init ∧ (after (commandRow ⟨code, arg⟩) s).port.resultOutcome = .fault)

theorem test_witness_CompletionAtThePort_records :
    (∀ code ∈ [0x04, 0x05, 0x06, 0x07, 0x08, 0x09].map (BitVec.ofNat 8), faults code 0x205 (damaged running) = true) ∧
    ((damaged running).store.record 5).check ≠ 0 ∧ ((damaged running).store.record 5).state ≠ .corrupt ∧
    (⟨0x09, 0x205⟩ : Command).tag.handle.toNat = (5 : Handle).val ∧
    (let s := withBadRecord 1 (withChild config)
     (s.store.record 0).children.find? (fun d => decide ((s.store.record d).check ≠ 0)) = some 1 ∧
      (s.store.record 0).check = 0 ∧ faults 0x09 0x100 s = true) ∧
    (let s := damaged config
     faults 0x02 8 s = true ∧ (s.store.record 5).check ≠ 0 ∧ (∀ k : Handle, k < 5 → (s.store.record k).check = 0) ∧
      s.store.fence ≤ 8) := by decide +kernel

theorem test_witness_CompletionAtThePort_others :
    (∀ c ∈ [(0x0B, 4), (0x0C, 4), (0x0E, 4), (0x0D, 0x104)].map fun c => Command.mk (BitVec.ofNat 8 c.1) (BitVec.ofNat 16 c.2),
      faults c.code c.arg (withBadNode 4 config) = true ∧ (c.arg.extractLsb' 0 4).toNat = (4 : Node).val) ∧
    ((0x104 : Word).extractLsb' 4 5).toNat = 16 ∧
    (let s := withBadNode 4 { config with port := { config.port with writeFront := ⟨4, 31, 1, false, 1, 4095, 0, false⟩ } }
     faults 0x01 0 s = true ∧ (withCommand 0x01 0 s).port.writeBack = ⟨4, 31, 1, false, 1, 4095, 0, false⟩) ∧
    (∀ e ∈ [(⟨5, false⟩ : QueueEntry), ⟨5, true⟩],
      let s := damaged { config with store := { config.store with queue := [e] } }
      s.store.queue[0]? = some e ∧ faults 0x0A 0 s = true) ∧
    (let s := withCell 15 31 ⟨none, false⟩ config
     faults 0x03 32 s = true ∧ s.store.fence ≤ 31 ∧ 31 < s.store.frameLength ∧ (s.store.cell 15 31).parityOk = false) := by
  decide +kernel

theorem test_witness_CommandWordSubmits :
    (config.resetAsserted = false ∧ config.engage.port.inFlight = none ∧ config.engage.port.waiting = none) ∧
    (0xFF01 : Word).extractLsb' 0 8 = 0x01 ∧ (0x04 : Word).extractLsb' 0 8 = 0x04 ∧
    (0xFF00 : Word).extractLsb' 0 8 ≠ 0x01 ∧ (0xFF00 : Word).extractLsb' 0 8 ≠ 0x04 ∧
    ((withCommand 0x03 0 config).engage.port.inFlight ≠ none ∧ (withCommand 0x03 0 config).engage.port.waiting = none) ∧
    (let s := after (.commandWordWrite 0x10) (withCommand 0x03 0 config)
     s.resetAsserted = false ∧ s.engage.port.inFlight ≠ none ∧ s.engage.port.waiting ≠ none) ∧
    (withCommand 0x0F 0 config).engage.port.inFlight = none := by decide +kernel

theorem test_witness_EnableMaskAndSint : config.resetAsserted = false := by decide

theorem test_witness_WritesActAtOnce :
    config.resetAsserted = false ∧ (0x80 : Word).getLsbD 7 = true ∧ (0x7F : Word).getLsbD 7 = false ∧
    (∀ a ∈ [0x03, 0x07, 0x1F, 0x25, 0x3F].map (BitVec.ofNat 6),
      a ∉ [0x00, 0x01, 0x02, 0x05, 0x06, 0x08, 0x09, 0x0A, 0x0B, 0x0C, 0x0D, 0x14, 0x1B, 0x20, 0x21,
        0x22, 0x23, 0x24].map (BitVec.ofNat 6)) := by decide +kernel

theorem test_witness_WritesActAtOnce_configuration :
    config.resetAsserted = false ∧ config.control.device = .config ∧ State.reset.resetAsserted = false ∧
    State.reset.control.device = .init ∧ running.resetAsserted = false ∧ running.control.device ≠ .config ∧
    frozen.control.device ≠ .init := by decide +kernel

theorem test_witness_WritesActAtOnce_engage :
    (let s := withRequest 4 1 .status frozen
     s.engage.control.device = .frozen ∧ s.engage.engine.inProgress.isSome = true) ∧
    (let s := withCommand 0x0F 0 config
     s.engage.control.device = .run ∧ s.control.device = .config) ∧
    State.reset.engage.control.device = .init := by decide +kernel

theorem test_witness_OutsideEventsAct_damage :
    (Damage.record 0 { LeaseRecord.cleared 1 with check := 1 }).wellFormed = true ∧
    (Damage.node 0 { NodeRecord.cleared with check := 1 }).wellFormed = true ∧
    (Damage.cell 15 63 ⟨some 95, false⟩).wellFormed = true ∧ (Damage.queueEntry 15 ⟨95, false⟩).wellFormed = true ∧
    15 < (fullQueue config).store.queue.length := by decide +kernel

theorem test_witness_RegisterWindowReads :
    ({ config with resetAsserted := true } : State).resetAsserted = true ∧ config.resetAsserted = false ∧
    config.engage.monitor.violation = none ∧ config.engage.control.integrity = none ∧
    (withCommand 0x0F 0 config).readWord 0x03 = 0x010F ∧
    (let s : State := { config with
        monitor := { config.monitor with violation := some ⟨65535, 15, 31, none, some 11, true⟩ }
        control := { config.control with integrity := some ⟨.cell 15 63, .request 0x0A, true⟩ } }
     s.resetAsserted = false ∧ s.engage.monitor.violation = some ⟨65535, 15, 31, none, some 11, true⟩ ∧
      s.engage.control.integrity = some ⟨.cell 15 63, .request 0x0A, true⟩ ∧ s.readWord 0x13 = 0x0B0F ∧
      s.readWord 0x18 = 0x23 ∧ s.readWord 0x1A = 0x000A) := by decide +kernel

theorem test_witness_EveryStepKeepsConsistency : ∃ t, State.reset.Consistent ∧ step State.reset = .next t :=
  ⟨_, by constructor <;> first | decide +kernel | (intro _ _ h; cases h), rfl⟩

theorem test_witness_EveryStepKeepsRanges : ∃ t, State.reset.InRange ∧ step State.reset = .next t :=
  ⟨_, by constructor <;> first | decide +kernel | (intro _ _ h; cases h), rfl⟩

theorem test_witness_EveryStepKeepsSlotsMatched :
    ∃ t, State.reset.Consistent ∧ State.reset.SlotsMatch ∧ step State.reset = .next t := by
  refine ⟨_, by constructor <;> first | decide +kernel | (intro _ _ h; cases h), ⟨by decide, ?_, ?_, ?_, ?_, ?_, fun _ _ h => (by cases h)⟩, rfl⟩
  · intro c h
    cases h
  · intro c h
    cases h
  · intro p h keep
    cases h
    cases keep
  · intro n p h
    revert h
    simp [State.reset, Engine.atReset]
  · intro n q h
    revert h
    simp [State.reset, Link.atReset]

/-! A state outside the clear that meets the invariants of the store: node 4's root with its child. -/

/-- That state. -/
def sound : State := withNode 4 { NodeRecord.cleared with state := .joined, liveOwned := 2 } (withChild running)

theorem test_sound_consistent : sound.Consistent := by constructor <;> first | decide +kernel | (intro _ _ h; cases h)

theorem test_sound_noDamageNext : sound.NoDamageNext := by
  intro d h
  cases h

theorem test_sound_cell : ∀ f sl, sound.store.cell f sl = if f = 0 ∧ sl = 2 then ⟨some 0, true⟩ else ⟨none, true⟩ := by
  decide +kernel

theorem test_sound_names (f : Frame) (sl : Slot) (h : Handle) :
    (sound.store.cell f sl).names = some h ↔ f = 0 ∧ sl = 2 ∧ h = 0 := by
  rw [test_sound_cell]
  split
  · rename_i c
    simp [c.1, c.2, eq_comm]
  · rename_i c
    simp only [reduceCtorEq, false_iff]
    exact fun x => c ⟨x.1, x.2.1⟩

theorem test_sound_root : ∀ h, (sound.store.record h).isOccupyingRoot = decide (h = 0) := by decide +kernel

theorem test_sound_covers : ∀ f sl, (sound.store.record 0).covers f sl = decide (f = 0 ∧ sl = 2) := by decide +kernel

theorem test_sound_store : sound.StoreSound where
  good := ⟨by decide +kernel, by decide +kernel, fun f sl => by rw [test_sound_cell]; split <;> rfl, by
    intro e he
    cases he⟩
  cleared := ⟨fun p hp => (by cases hp), fun p hp => (by cases hp), fun p hp => (by cases hp)⟩
  reasons := by decide +kernel
  roots := by decide +kernel
  grantees := by decide +kernel
  named := by
    intro _ f sl h hn
    rw [test_sound_root, ((test_sound_names f sl h).mp hn).2.2]
    rfl

theorem test_witness_EveryStepKeepsCells : ∃ t, sound.Consistent ∧ sound.NoDamageNext ∧ sound.CellsAgree ∧
    step sound = .next t := by
  refine ⟨_, test_sound_consistent, test_sound_noDamageNext, ⟨test_sound_store, ?_, by decide +kernel, ?_⟩, rfl⟩
  · intro _ f sl h
    rw [test_sound_names, test_sound_root]
    by_cases h0 : h = 0
    · subst h0
      simp [test_sound_covers]
    · simp [h0]
  · intro _ f sl h _ below
    exact absurd below (Nat.not_lt_zero _)

theorem test_witness_EveryStepKeepsQueueLaw : ∃ t, sound.Consistent ∧ sound.NoDamageNext ∧ sound.QueueAgrees ∧
    step sound = .next t :=
  ⟨_, test_sound_consistent, test_sound_noDamageNext,
    ⟨test_sound_store, by decide +kernel, by decide +kernel, by decide +kernel, by decide +kernel⟩, rfl⟩

theorem test_witness_EveryStepKeepsChains : ∃ t, sound.Consistent ∧ sound.NoDamageNext ∧ sound.ChainsAgree ∧
    step sound = .next t := by
  refine ⟨_, test_sound_consistent, test_sound_noDamageNext,
    ⟨test_sound_store, by decide +kernel, by decide +kernel, by decide +kernel, by decide +kernel, ?_,
      by decide +kernel, by decide +kernel⟩, rfl⟩
  intro _ h live kind
  have h1 : ∀ h, (sound.store.record h).state.isLive = true → (sound.store.record h).kind = .child → h = 1 := by
    decide +kernel
  cases h1 h live kind
  exact ⟨0, by decide +kernel, ⟨by decide +kernel, by decide +kernel, by decide +kernel, by decide +kernel,
    by decide +kernel⟩⟩

theorem test_witness_EveryStepKeepsLawEight : ∃ t, sound.Consistent ∧ sound.NoDamageNext ∧ sound.AbsentAgrees ∧
    step sound = .next t :=
  ⟨_, test_sound_consistent, test_sound_noDamageNext, ⟨test_sound_store, by decide +kernel, by decide +kernel⟩, rfl⟩

theorem test_witness_EveryStepKeepsLawTen : ∃ t, sound.Consistent ∧ sound.NoDamageNext ∧ sound.AttentionAgrees ∧
    step sound = .next t :=
  ⟨_, test_sound_consistent, test_sound_noDamageNext,
    ⟨test_sound_store.cleared, fun _ => by decide +kernel, fun p hp => (by cases hp)⟩, rfl⟩

end Sys2Proof.Tests
end

