-- ==== Sys2Proof/Proofs/Fetches.lean ====
section
/-! PROOFS. The fetches fill the read window (R68, R157, R175, R176). -/

namespace Sys2Proof.Machine

/-- Reading succeeds when no item of the list is damaged. -/
theorem readItems_of_good {code : Type} (st : Store) (items : List Item) (good : st.Good items) :
    (readItems st items : Except (Stop code) Unit) = .ok () :=
  (readItems_eq_ok st items).mpr good

/-- The command the engine takes next carries the name it is asked for by. -/
theorem Engine.name?_of_takenCommand {e : Engine} {name : CommandName} {c : Command}
    (h : e.takenCommand name = some c) : c.name? = some name := by
  unfold Engine.takenCommand at h
  split at h
  · split at h
    · rename_i named
      cases h
      exact named
    · cases h
  · cases h

/-- Outside INIT the device state refuses SETFRAME alone of the commands that do not act at their taking. -/
theorem State.commandRefusal_eq_none {d : DeviceState} {c : Command} (init : d ≠ .init)
    (other : c.name? ≠ some .setframe) : State.commandRefusal d c = none := by
  cases d <;> simp_all [State.commandRefusal]

/-- A command other than SETFRAME, taken outside INIT, completes by its operation on the store (R108, R180). -/
theorem State.performCommand_of_taken {s : State} {name : CommandName} {c : Command} (operation : Store → CommandResult)
    (taken : s.engine.takenCommand name = some c) (running : s.atTaking.device ≠ .init) (other : name ≠ .setframe) :
    s.performCommand c operation = s.takeCommand.finishCommand s.atTaking.integrityMode c (operation s.store) := by
  have named := Engine.name?_of_takenCommand taken
  have allowed := State.commandRefusal_eq_none (c := c) running (by simp [named, other])
  simp [State.performCommand, allowed]

/-- A command that leaves the store as it is completes at the port alone. -/
theorem State.finishCommand_of_unchanged (s : State) (mode : IntegrityMode) (c : Command) (d : CommandDone)
    (same : d.store = s.store) (bars : d.barred = false) :
    s.finishCommand mode c (.ok d) = s.completeCommand c .accepted
      (d.handle.elim c.namedField fun h => BitVec.ofNat 16 h.val) d.image := by
  cases handle : d.handle <;> simp [State.finishCommand, same, bars, State.raiseIf, handle]

/-- The handle of a raw tag is the number in its handle byte. -/
theorem RawTag.handle?_eq_some {t : RawTag} {h : Handle} (number : t.handle.toNat = h.val) : t.handle? = some h := by
  unfold RawTag.handle?
  rw [dif_pos (number ▸ h.isLt)]
  exact congrArg some (Fin.ext number)

/-- A number above 95 is no handle. -/
theorem RawTag.handle?_eq_none {t : RawTag} (above : 95 < t.handle.toNat) : t.handle? = none := by
  unfold RawTag.handle?
  exact dif_neg (by omega)

/-- FETCH above handle 95 is refused RANGE (R176). -/
theorem fetchOperation_of_above {c : Command} (st : Store) (above : 95 < c.value) :
    fetchOperation c.tag st = .error (.refused .range) := by
  simp [fetchOperation, RawTag.handle?_eq_none (t := c.tag) above, orRange]
  rfl

/-- FETCH reads the record and its listed children, and gives the record's image (R176). -/
theorem fetchOperation_of_good {c : Command} {st : Store} {h : Handle} (number : c.value = h.val)
    (good : (st.record h).check = 0) (listed : ∀ k ∈ (st.record h).children, (st.record k).check = 0) :
    fetchOperation c.tag st = .ok { store := st, handle := some h, image := some (recordImage st h) } := by
  have read : st.Good (.record h :: (st.record h).children.map .record) := by
    simpa [Store.Good, Store.fails, good] using listed
  simp [fetchOperation, RawTag.handle?_eq_some (t := c.tag) number, orRange, bind, Except.bind,
    readItems_of_good st _ read]
  rfl

/-- FETCHQ at a position that holds no entry is refused RANGE (R68). -/
theorem fetchqOperation_of_above {st : Store} {position : Nat} (above : st.queue.length ≤ position) :
    fetchqOperation position st = .error (.refused .range) := by
  simp [fetchqOperation, List.getElem?_eq_none above, orRange]
  rfl

/-- FETCHQ reads the entry and its record, and gives the queue-entry image (R68). -/
theorem fetchqOperation_of_good {st : Store} {position : Nat} {e : QueueEntry} (entry : st.queue[position]? = some e)
    (parity : e.parityOk = true) (good : (st.record e.handle).check = 0) :
    fetchqOperation position st =
      .ok { store := st, handle := some e.handle, image := some (queueImage st e.handle) } := by
  have read : st.Good [.queueEntry position, .record e.handle] := by
    simp [Store.Good, Store.fails, entry, parity, good]
  simp [fetchqOperation, entry, orRange, bind, Except.bind, readItems_of_good st _ read]
  rfl

/-- FETCHNODE of a number above 11 is refused RANGE (R157). -/
theorem fetchnodeOperation_of_above {c : Command} (st : Store) (above : c.node? = none) :
    fetchnodeOperation c st = .error (.refused .range) := by
  simp [fetchnodeOperation, above, orRange]
  rfl

/-- FETCHNODE reads the node record, and gives its image (R157). -/
theorem fetchnodeOperation_of_good {c : Command} {st : Store} {n : Node} (node : c.node? = some n)
    (good : (st.node n).check = 0) :
    fetchnodeOperation c st = .ok { store := st, image := some (nodeImage st n) } := by
  have read : st.Good [.node n] := by simp [Store.Good, Store.fails, good]
  simp [fetchnodeOperation, node, orRange, bind, Except.bind, readItems_of_good st _ read]
  rfl

/-- Settles O45: each fetch passes the device-state check, and its operation gives the image or refuses RANGE. -/
theorem fetchesFillReadWindow : Obligations.FetchesFillReadWindow := by
  intro s c running
  refine ⟨fun taken => ?_, fun taken => ?_, fun taken => ?_⟩
  · have named := Engine.name?_of_takenCommand taken
    have performed : exec .fetch s = .next (s.takeCommand.finishCommand s.atTaking.integrityMode c
        (fetchOperation c.tag s.store)) := by
      simp [exec, execFetch, taken, State.performCommand_of_taken _ taken running]
    rw [performed]
    refine ⟨fun above => ?_, fun h number good listed => ?_⟩
    · have field : c.namedField = 0 := by
        simp [Command.namedField, named, RawTag.handle?_eq_none (t := c.tag) above]
      rw [fetchOperation_of_above _ above, State.finishCommand_refused, field]
    · rw [fetchOperation_of_good number good listed, State.finishCommand_of_unchanged _ _ _ _ rfl rfl]
      rfl
  · have named := Engine.name?_of_takenCommand taken
    have performed : exec .fetchq s = .next (s.takeCommand.finishCommand s.atTaking.integrityMode c
        (fetchqOperation c.value s.store)) := by
      simp [exec, execFetchq, taken, State.performCommand_of_taken _ taken running]
    rw [performed]
    refine ⟨fun above => ?_, fun e entry parity good => ?_⟩
    · have field : c.namedField = 0 := by simp [Command.namedField, named]
      rw [fetchqOperation_of_above above, State.finishCommand_refused, field]
    · rw [fetchqOperation_of_good entry parity good, State.finishCommand_of_unchanged _ _ _ _ rfl rfl]
      rfl
  · have named := Engine.name?_of_takenCommand taken
    have performed : exec .fetchnode s = .next (s.takeCommand.finishCommand s.atTaking.integrityMode c
        (fetchnodeOperation c s.store)) := by
      simp [exec, execFetchnode, taken, State.performCommand_of_taken _ taken running]
    rw [performed]
    refine ⟨fun above => ?_, fun n node good => ?_⟩
    · have field : c.namedField = 0 := by simp [Command.namedField, named, above]
      rw [fetchnodeOperation_of_above _ above, State.finishCommand_refused, field]
    · have field : c.namedField = BitVec.ofNat 16 n.val := by simp [Command.namedField, named, node]
      rw [fetchnodeOperation_of_good node good, State.finishCommand_of_unchanged _ _ _ _ rfl rfl, ← field]
      rfl

end Sys2Proof.Machine
end

