-- ==== Sys2Proof/Proofs/Closings.lean ====
section
/-! PROOFS. What one closing does to records, node records, cells and queue, and what a closing with its cascade keeps (R9, R10). -/

namespace Sys2Proof.Machine

namespace Store

/-! The two halves of a closing, record by record. -/

/-- A record after steps 1 to 3 of R9: reason and close age set, and the wait fields of a queued one gone. -/
def entered (why : CloseReason) (r : LeaseRecord) : LeaseRecord :=
  { r with
    closeReason := some why
    closeAge := some 0
    waitLimit := if r.state.isQueued then none else r.waitLimit
    waitAge := if r.state.isQueued then none else r.waitAge }

/-- Step 4 of R9: a child leaves its parent's list, and no other. -/
theorem record_leaveParent (st : Store) (h k : Handle) :
    (st.leaveParent h).record k =
      if (st.record h).parent = some k then
        withChildren (st.record k) ((st.record k).children.filter fun c => decide (c ≠ h))
      else st.record k := by
  unfold leaveParent
  cases hp : (st.record h).parent with
  | none => simp
  | some p =>
    by_cases hk : k = p
    · subst hk; simp [withChildren]
    · simp [record_modifyRecord, hk, Ne.symm hk]

@[simp] theorem node_leaveParent (st : Store) (h : Handle) (n : Node) : (st.leaveParent h).node n = st.node n := by
  unfold leaveParent; split <;> rfl

@[simp] theorem cell_leaveParent (st : Store) (h : Handle) (f : Frame) (sl : Slot) :
    (st.leaveParent h).cell f sl = st.cell f sl := by
  unfold leaveParent; split <;> rfl

/-- Steps 1 to 4 of R9 touch the record itself and, for a child, its parent's list. -/
theorem record_closeEntry (st : Store) (why : CloseReason) (h k : Handle) :
    (st.closeEntry why h).record k =
      let r := if k = h then entered why (st.record k) else st.record k
      if (st.record h).kind = .child ∧ (st.record h).parent = some k then
        withChildren r (r.children.filter fun c => decide (c ≠ h))
      else r := by
  unfold closeEntry
  by_cases hq : (st.record h).state.isQueued <;> by_cases ho : (st.record h).isOccupyingRoot <;>
    by_cases hc : (st.record h).kind = .child <;> by_cases hk : k = h <;>
    simp [hq, ho, hc, hk, record_leaveParent, record_modifyRecord, entered]

/-- The same, read as at most another children list, from which the record alone can be missing. -/
theorem record_closeEntry_withChildren (st : Store) (why : CloseReason) (h k : Handle) :
    ∃ cs, (st.closeEntry why h).record k =
      withChildren (if k = h then entered why (st.record k) else st.record k) cs ∧
      ∀ d ∈ (st.record k).children, d ∈ cs ∨ d = h := by
  have list : (if k = h then entered why (st.record k) else st.record k).children = (st.record k).children := by
    split <;> rfl
  by_cases leaves : (st.record h).kind = .child ∧ (st.record h).parent = some k
  · refine ⟨(st.record k).children.filter fun c => decide (c ≠ h), ?_, fun d hd => ?_⟩
    · rw [record_closeEntry]
      simp [leaves, list]
    · by_cases hdh : d = h
      · exact .inr hdh
      · exact .inl (by simp [hd, hdh])
  · refine ⟨(st.record k).children, ?_, fun d hd => .inl hd⟩
    rw [record_closeEntry, ← list]
    simp [leaves, withChildren]

@[simp] theorem node_closeEntry (st : Store) (why : CloseReason) (h : Handle) (n : Node) :
    (st.closeEntry why h).node n = st.node n := by
  unfold closeEntry
  by_cases hq : (st.record h).state.isQueued <;> by_cases ho : (st.record h).isOccupyingRoot <;>
    by_cases hc : (st.record h).kind = .child <;> simp [hq, ho, hc]

/-- Step 2 of R9: the cells of an occupying root become empty. -/
theorem cell_closeEntry (st : Store) (why : CloseReason) (h : Handle) (f : Frame) (sl : Slot) :
    (st.closeEntry why h).cell f sl =
      if (st.record h).isOccupyingRoot then (st.emptyCellsOf h).cell f sl else st.cell f sl := by
  unfold closeEntry
  by_cases hq : (st.record h).state.isQueued <;> by_cases ho : (st.record h).isOccupyingRoot <;>
    by_cases hc : (st.record h).kind = .child <;> simp [hq, ho, hc] <;> rfl

/-- A notice to the parties touches one record's notice sets. -/
theorem record_postParties (st : Store) (h k : Handle) (kind : NoticeKind) :
    (st.postParties h kind).record k = if k = h then st.posted (st.record k) kind else st.record k := by
  by_cases hk : k = h
  · subst hk
    have kept : ((st.postOwner k kind).record k).kind = (st.record k).kind ∧
        ((st.postOwner k kind).record k).grantee = (st.record k).grantee ∧
        ((st.postOwner k kind).record k).granteeNotices = (st.record k).granteeNotices := by
      rw [record_postOwner]; split <;> exact ⟨rfl, rfl, rfl⟩
    rw [if_pos rfl, postParties, record_postGrantee, kept.1, kept.2.1, kept.2.2, record_postOwner]
    unfold posted
    split_ifs <;> simp_all
  · simp [postParties, record_postGrantee, record_postOwner, hk]

@[simp] theorem node_postParties (st : Store) (h : Handle) (kind : NoticeKind) (n : Node) :
    (st.postParties h kind).node n = st.node n := by simp [postParties]

@[simp] theorem cell_postParties (st : Store) (h : Handle) (kind : NoticeKind) (f : Frame) (sl : Slot) :
    (st.postParties h kind).cell f sl = st.cell f sl := by simp [postParties]

/-- Steps 6 to 8 of R9 touch the record alone: CLOSED without suspension reasons, CLOSED posted. -/
theorem record_closeExit (st : Store) (h k : Handle) :
    (st.closeExit h).record k =
      if k = h then st.posted { st.record k with reasons := Reasons.empty, state := .closed } .closed
      else st.record k := by
  by_cases hk : k = h
  · subst hk
    simp [closeExit, countDown, record_postParties, posted]
  · simp [closeExit, countDown, record_postParties, record_modifyRecord, hk]

/-- A closing changes one node record, the owner's count in it (R7). -/
theorem node_closeExit (st : Store) (h : Handle) (n : Node) :
    ∃ count, (st.closeExit h).node n = { st.node n with liveOwned := count } := by
  by_cases hn : n = (st.record h).owner
  · exact ⟨(st.node n).liveOwned - 1, by simp [closeExit, countDown, node_modifyNode, hn]⟩
  · exact ⟨(st.node n).liveOwned, by simp [closeExit, countDown, node_modifyNode, hn]⟩

@[simp] theorem cell_closeExit (st : Store) (h : Handle) (f : Frame) (sl : Slot) :
    (st.closeExit h).cell f sl = st.cell f sl := by simp [closeExit, countDown]

end Store

/-! What a closing with its cascade can do: a relation that holds of every part of it. -/

/-- A record closed with a reason: what R9 leaves of it. -/
structure ClosedFrom (why : CloseReason) (r r' : LeaseRecord) : Prop where
  state : r'.state = .closed
  reason : r'.closeReason = some why
  reasons : r'.reasons = Reasons.empty
  kind : r'.kind = r.kind
  owner : r'.owner = r.owner
  grantee : r'.grantee = r.grantee
  check : r'.check = r.check

/-- The record stands CLOSED with the reason. -/
abbrev Store.IsClosed (st : Store) (why : CloseReason) (h : Handle) : Prop :=
  (st.record h).state = .closed ∧ (st.record h).closeReason = some why

/-- From one store to the other, records have closed, each with its reason, but for those to keep; every other record has at most lost closed children from its list, node records have at most another count, cells have at most become empty, and the queue has lost entries of closed records only. -/
structure Closes (why : Handle → CloseReason) (keep : List Handle) (st st' : Store) : Prop where
  record : ∀ k, (∃ cs, st'.record k = withChildren (st.record k) cs) ∨
    (k ∉ keep ∧ ClosedFrom (why k) (st.record k) (st'.record k))
  children : ∀ k, ∀ d ∈ (st.record k).children, d ∈ (st'.record k).children ∨ st'.IsClosed (why d) d
  node : ∀ n, ∃ count, st'.node n = { st.node n with liveOwned := count }
  cell : ∀ f sl, st'.cell f sl = st.cell f sl ∨ st'.cell f sl = Cell.cleared
  queue : st'.queue.Sublist st.queue
  waiting : ∀ e ∈ st.queue, e ∈ st'.queue ∨ st'.IsClosed (why e.handle) e.handle

namespace Closes

variable {why : Handle → CloseReason} {keep : List Handle} {st st' st'' : Store}

theorem refl (why : Handle → CloseReason) (keep : List Handle) (st : Store) : Closes why keep st st where
  record k := .inl ⟨(st.record k).children, rfl⟩
  children _ _ hd := .inl hd
  node n := ⟨(st.node n).liveOwned, rfl⟩
  cell _ _ := .inl rfl
  queue := .refl _
  waiting _ he := .inl he

/-- A record that must stay has at most another children list. -/
theorem kept (c : Closes why keep st st') {k : Handle} (hk : k ∈ keep) :
    ∃ cs, st'.record k = withChildren (st.record k) cs :=
  (c.record k).resolve_right fun h => h.1 hk

/-- What has closed stays closed, with its reason. -/
theorem isClosed (c : Closes why keep st st') {k : Handle} (h : st.IsClosed (why k) k) : st'.IsClosed (why k) k := by
  obtain ⟨cs, hk⟩ | ⟨-, hk⟩ := c.record k
  · simpa [Store.IsClosed, hk, withChildren] using h
  · exact ⟨hk.state, hk.reason⟩

theorem trans (c : Closes why keep st st') (d : Closes why keep st' st'') : Closes why keep st st'' where
  record k := by
    obtain ⟨cs, hk⟩ | ⟨stay, hk⟩ := c.record k <;> obtain ⟨cs', hk'⟩ | ⟨stay', hk'⟩ := d.record k
    · exact .inl ⟨cs', by rw [hk', hk]⟩
    · refine .inr ⟨stay', ?_⟩
      simp only [hk, withChildren] at hk'
      exact ⟨hk'.state, hk'.reason, hk'.reasons, hk'.kind, hk'.owner, hk'.grantee, hk'.check⟩
    · refine .inr ⟨stay, ?_⟩
      rw [hk']
      exact ⟨hk.state, hk.reason, hk.reasons, hk.kind, hk.owner, hk.grantee, hk.check⟩
    · exact .inr ⟨stay', hk'.state, hk'.reason, hk'.reasons, hk'.kind.trans hk.kind, hk'.owner.trans hk.owner,
        hk'.grantee.trans hk.grantee, hk'.check.trans hk.check⟩
  children k x hx := (c.children k x hx).elim (d.children k x) fun h => .inr (d.isClosed h)
  node n := by
    obtain ⟨a, ha⟩ := c.node n
    obtain ⟨b, hb⟩ := d.node n
    exact ⟨b, by rw [hb, ha]⟩
  cell f sl := (d.cell f sl).elim (fun h => (c.cell f sl).imp h.trans h.trans) .inr
  queue := d.queue.trans c.queue
  waiting e he := (c.waiting e he).elim (d.waiting e) fun h => .inr (d.isClosed h)

/-- Closings one after another. -/
theorem foldl {step : Store → Handle → Store} (targets : List Handle)
    (each : ∀ st, ∀ c ∈ targets, Closes why keep st (step st c)) (st : Store) :
    Closes why keep st (targets.foldl step st) := by
  induction targets generalizing st with
  | nil => exact refl why keep st
  | cons c rest ih =>
    exact (each st c (by simp)).trans (ih (fun st d hd => each st d (by simp [hd])) _)

/-- What one of several closings brings about, and no closing undoes, holds after them all. -/
theorem foldl_reaches {step : Store → Handle → Store} {P : Store → Prop} {targets : List Handle} {c : Handle}
    (target : c ∈ targets) (each : ∀ st, ∀ c ∈ targets, Closes why keep st (step st c))
    (stable : ∀ {st st' : Store}, Closes why keep st st' → P st → P st')
    (reaches : ∀ mid, Closes why keep st mid → P (step mid c)) : P (targets.foldl step st) := by
  obtain ⟨before, after, rfl⟩ := List.append_of_mem target
  rw [List.foldl_append, List.foldl_cons]
  have first := foldl before (fun st d hd => each st d (by simp [hd])) st
  exact stable (foldl after (fun st d hd => each st d (by simp [hd])) _) (reaches _ first)

end Closes

/-- The reasons of a closing: the record's own, and CASCADE for those below it (R10). -/
def reasonsOf (why : CloseReason) (h : Handle) : Handle → CloseReason := Function.update (fun _ => .cascade) h why

@[simp] theorem reasonsOf_self (why : CloseReason) (h : Handle) : reasonsOf why h h = why := by simp [reasonsOf]

theorem reasonsOf_ne (why : CloseReason) {h k : Handle} (hk : k ≠ h) : reasonsOf why h k = .cascade := by
  simp [reasonsOf, hk]

@[simp] theorem reasonsOf_cascade (h : Handle) : reasonsOf .cascade h = fun _ => .cascade :=
  Function.update_eq_self h _

namespace Store

/-- A record whose closing has begun is CLOSED with its reason at the closing's end. -/
theorem isClosed_of_entry_exit {why : CloseReason} {h : Handle} {closing : List Handle} {st mid : Store}
    (cascade : Closes (fun _ => .cascade) closing (st.closeEntry why h) mid) (here : h ∈ closing) :
    (mid.closeExit h).IsClosed why h := by
  obtain ⟨cs, hmid⟩ := cascade.kept here
  obtain ⟨cs', hentry, -⟩ := record_closeEntry_withChildren st why h h
  simp [IsClosed, record_closeExit, hmid, hentry, posted, withChildren, entered]

/-- Steps 1 to 4, then a cascade that keeps the record, then steps 6 to 8: a closing of the record. -/
theorem closes_of_entry_exit {why : CloseReason} {h : Handle} {closing keep : List Handle} {st mid : Store}
    (cascade : Closes (fun _ => .cascade) closing (st.closeEntry why h) mid) (here : h ∈ closing)
    (stays : ∀ k ∈ keep, k ∈ closing ∧ k ≠ h) : Closes (reasonsOf why h) keep st (mid.closeExit h) := by
  have entry := record_closeEntry_withChildren st why h
  have closed : (mid.closeExit h).IsClosed why h := isClosed_of_entry_exit cascade here
  have lifts : ∀ {k}, mid.IsClosed .cascade k → (mid.closeExit h).IsClosed (reasonsOf why h k) k := by
    intro k hk
    by_cases hkh : k = h
    · subst hkh; simpa using closed
    · simpa [Store.IsClosed, record_closeExit, hkh, reasonsOf_ne] using hk
  refine ⟨fun k => ?_, fun k d hd => ?_, fun n => ?_, fun f sl => ?_, ?_, fun e he => ?_⟩
  · obtain ⟨cs, hentry, -⟩ := entry k
    by_cases hkh : k = h
    · subst hkh
      refine .inr ⟨fun hk => (stays k hk).2 rfl, ?_⟩
      obtain ⟨cs', hmid⟩ := cascade.kept here
      rw [record_closeExit, if_pos rfl, hmid, hentry, if_pos rfl, reasonsOf_self]
      exact ⟨rfl, rfl, rfl, rfl, rfl, rfl, rfl⟩
    · rw [record_closeExit, if_neg hkh, reasonsOf_ne why hkh]
      rw [if_neg hkh] at hentry
      obtain ⟨cs', hmid⟩ | ⟨stay, hmid⟩ := cascade.record k
      · exact .inl ⟨cs', by rw [hmid, hentry]⟩
      · rw [hentry] at hmid
        exact .inr ⟨fun hk => stay (stays k hk).1,
          hmid.state, hmid.reason, hmid.reasons, hmid.kind, hmid.owner, hmid.grantee, hmid.check⟩
  · obtain ⟨cs, hentry, hcs⟩ := entry k
    have list : ((mid.closeExit h).record k).children = (mid.record k).children := by
      rw [record_closeExit]; split <;> rfl
    rw [list]
    obtain hd | rfl := hcs d hd
    · exact (cascade.children k d (by rw [hentry]; exact hd)).imp id lifts
    · exact .inr (by simpa using closed)
  · obtain ⟨a, ha⟩ := cascade.node n
    obtain ⟨b, hb⟩ := node_closeExit mid h n
    exact ⟨b, by rw [hb, ha, node_closeEntry]⟩
  · have first : (st.closeEntry why h).cell f sl = st.cell f sl ∨ (st.closeEntry why h).cell f sl = Cell.cleared := by
      rw [cell_closeEntry, cell_emptyCellsOf]
      split
      · split
        · exact .inr rfl
        · exact .inl rfl
      · exact .inl rfl
    rw [cell_closeExit]
    exact (cascade.cell f sl).elim (fun hc => first.imp hc.trans hc.trans) .inr
  · rw [queue_closeExit]
    refine cascade.queue.trans ?_
    rw [queue_closeEntry]
    split
    · exact List.filter_sublist
    · exact .refl _
  · rw [queue_closeExit]
    by_cases heh : e.handle = h
    · exact .inr (by rw [heh]; simpa using closed)
    · have first : e ∈ (st.closeEntry why h).queue := by
        rw [queue_closeEntry]
        split
        · exact mem_dropFromQueue.mpr ⟨he, heh⟩
        · exact he
      exact (cascade.waiting e first).imp id lifts

/-- A closing with its cascade closes the record with its reason, and others with CASCADE (R9, R10). -/
theorem closes_closeLevels (levels : Nat) (closing : List Handle) (why : CloseReason) (h : Handle) (st : Store)
    (here : h ∈ closing) (keep : List Handle) (stays : ∀ k ∈ keep, k ∈ closing ∧ k ≠ h) :
    Closes (reasonsOf why h) keep st (closeLevels levels closing why h st) := by
  induction levels generalizing closing why h st keep with
  | zero => exact closes_of_entry_exit (Closes.refl _ _ _) here stays
  | succ levels ih =>
    refine closes_of_entry_exit (Closes.foldl _ (fun st c hc => ?_) _) here stays
    have apart : c ∉ closing := by simpa using (List.mem_filter.mp hc).2
    simpa using ih (c :: closing) .cascade c st (by simp) closing fun k hk => ⟨by simp [hk], fun e => apart (e ▸ hk)⟩

/-- A child's closing within its parent's keeps every record whose closing has begun. -/
theorem closes_cascade (levels : Nat) (closing : List Handle) (c : Handle) (st : Store) (apart : c ∉ closing) :
    Closes (fun _ => .cascade) closing st (closeLevels levels (c :: closing) .cascade c st) := by
  simpa using closes_closeLevels levels (c :: closing) .cascade c st (by simp) closing
    fun k hk => ⟨by simp [hk], fun e => apart (e ▸ hk)⟩

/-- The children of a record that its closing goes on to are outside those whose closing has begun. -/
theorem closes_targets (levels : Nat) (closing : List Handle) (h : Handle) (st : Store) :
    Closes (fun _ => .cascade) closing st
      (((st.liveChildren h).filter fun c => decide (c ∉ closing)).foldl
        (fun st c => closeLevels levels (c :: closing) .cascade c st) st) :=
  Closes.foldl _ (fun st c hc => closes_cascade levels closing c st (by simpa using (List.mem_filter.mp hc).2)) st

/-- A closing leaves its record CLOSED with the reason. -/
theorem isClosed_closeLevels (levels : Nat) (closing : List Handle) (why : CloseReason) (h : Handle) (st : Store)
    (here : h ∈ closing) : (closeLevels levels closing why h st).IsClosed why h := by
  cases levels with
  | zero => exact isClosed_of_entry_exit (Closes.refl _ _ _) here
  | succ levels => exact isClosed_of_entry_exit (closes_targets levels closing h _) here

/-- A closing from its first call (R9). -/
theorem closes_close (st : Store) (why : CloseReason) (h : Handle) : Closes (reasonsOf why h) [] st (st.close why h) :=
  closes_closeLevels 2 [h] why h st (by simp) [] (by simp)

theorem isClosed_close (st : Store) (why : CloseReason) (h : Handle) : (st.close why h).IsClosed why h :=
  isClosed_closeLevels 2 [h] why h st (by simp)

/-- Closing the descendants keeps the record itself (R55). -/
theorem closes_closeDescendants (st : Store) (h : Handle) :
    Closes (fun _ => .cascade) [h] st (st.closeDescendants h) :=
  Closes.foldl _ (fun st c hc => closes_cascade 1 [h] c st (by simpa using (List.mem_filter.mp hc).2)) st

/-! Which records a closing reaches. -/

/-- A live child outside those whose closing has begun closes with its parent (R10). -/
theorem isClosed_child_closeLevels (levels : Nat) (closing : List Handle) (why : CloseReason) (h d : Handle) (st : Store)
    (here : h ∈ closing) (child : d ∈ st.liveChildren h) (apart : d ∉ closing) :
    (closeLevels (levels + 1) closing why h st).IsClosed .cascade d := by
  have hdh : d ≠ h := fun e => apart (e ▸ here)
  obtain ⟨listed, live⟩ := List.mem_filter.mp child
  obtain ⟨cs, hentry, hcs⟩ := record_closeEntry_withChildren st why h h
  obtain ⟨cs', hentry', -⟩ := record_closeEntry_withChildren st why h d
  have target : d ∈ ((st.closeEntry why h).liveChildren h).filter fun c => decide (c ∉ closing) := by
    have still : d ∈ ((st.closeEntry why h).record h).children := by
      rw [hentry]
      exact (hcs d listed).resolve_right hdh
    have lives : ((st.closeEntry why h).record d).state.isLive && decide (((st.closeEntry why h).record d).check = 0) := by
      rw [hentry', if_neg hdh]
      exact live
    exact List.mem_filter.mpr ⟨List.mem_filter.mpr ⟨still, lives⟩, by simpa using apart⟩
  have closed := Closes.foldl_reaches (why := fun _ => .cascade) (keep := closing)
    (step := fun st c => closeLevels levels (c :: closing) .cascade c st) (P := fun st => st.IsClosed .cascade d) target
    (fun st c hc => closes_cascade levels closing c st (by simpa using (List.mem_filter.mp hc).2))
    (fun c hp => c.isClosed hp) (st := st.closeEntry why h)
    (fun mid _ => isClosed_closeLevels levels (d :: closing) .cascade d mid (by simp))
  simpa [closeLevels, IsClosed, record_closeExit, hdh] using closed

/-- Closing the descendants closes the live children. -/
theorem isClosed_child_closeDescendants {st : Store} {h c : Handle} (child : c ∈ st.liveChildren h) (hch : c ≠ h) :
    (st.closeDescendants h).IsClosed .cascade c :=
  Closes.foldl_reaches (why := fun _ => .cascade) (keep := [h]) (P := fun st => st.IsClosed .cascade c)
    (List.mem_filter.mpr ⟨child, by simpa using hch⟩)
    (fun st c hc => closes_cascade 1 [h] c st (by simpa using (List.mem_filter.mp hc).2))
    (fun k hp => k.isClosed hp) (fun mid _ => isClosed_closeLevels 1 [c, h] .cascade c mid (by simp))

/-- Closing the descendants closes the live children of the live children. -/
theorem isClosed_grandchild_closeDescendants {st : Store} {h c d : Handle} (child : c ∈ st.liveChildren h) (hch : c ≠ h)
    (grandchild : d ∈ st.liveChildren c) (hdh : d ≠ h) (hdc : d ≠ c) :
    (st.closeDescendants h).IsClosed .cascade d := by
  refine Closes.foldl_reaches (why := fun _ => .cascade) (keep := [h]) (P := fun st => st.IsClosed .cascade d)
    (List.mem_filter.mpr ⟨child, by simpa using hch⟩)
    (fun st c hc => closes_cascade 1 [h] c st (by simpa using (List.mem_filter.mp hc).2))
    (fun k hp => k.isClosed hp) (fun mid reached => ?_)
  by_cases closed : mid.IsClosed .cascade d
  · exact (closes_cascade 1 [h] c mid (by simpa using hch)).isClosed closed
  · obtain ⟨listed, live⟩ := List.mem_filter.mp grandchild
    have still := (reached.children c d listed).resolve_right closed
    have kept := (reached.record d).resolve_right fun k => closed ⟨k.2.state, k.2.reason⟩
    obtain ⟨cs, hd⟩ := kept
    refine isClosed_child_closeLevels 0 [c, h] .cascade c d mid (by simp) ?_ (by simp [hdc, hdh])
    exact List.mem_filter.mpr ⟨still, by rw [hd]; exact live⟩

end Store

end Sys2Proof.Machine
end

