-- ==== Sys2Proof/Proofs/Displacement.lean ====
section
/-! PROOFS. Displacement, victim by victim, and the claim that displaces (R53 to R58). -/

namespace Sys2Proof.Machine

/-! Cells that a placement names. -/

theorem mem_allHandles (h : Handle) : h ∈ allHandles := List.mem_finRange h

theorem nodup_allHandles : allHandles.Nodup := List.nodup_finRange 96

/-- The cells of a rectangle of the slot map (R28, R34). -/
theorem mem_coverCells {frames : FrameSet} {first width : Nat} {f : Frame} {sl : Slot} :
    (f, sl) ∈ coverCells frames first width ↔ Covered frames first width f sl := by
  simp [coverCells, allFrames, allSlots, Covered]

namespace Store

/-- The distinct records that the cells name (R43, R53). -/
theorem mem_occupants {st : Store} {cells : List (Frame × Slot)} {v : Handle} :
    v ∈ st.occupants cells ↔ ∃ f sl, (f, sl) ∈ cells ∧ (st.cell f sl).names = some v := by
  simp [occupants, allHandles]

/-- The records that the cells of a rectangle name. -/
theorem mem_occupants_coverCells {st : Store} {frames : FrameSet} {first width : Nat} {v : Handle} :
    v ∈ st.occupants (coverCells frames first width) ↔
      ∃ f sl, Covered frames first width f sl ∧ (st.cell f sl).names = some v := by
  simp [mem_occupants, mem_coverCells]

/-- Cells that are empty or name the one record, which some cell names, have it as their only occupant. -/
theorem occupants_eq_singleton {st : Store} {frames : FrameSet} {first width : Nat} {v : Handle}
    (cells : ∀ f sl, Covered frames first width f sl → st.cell f sl = ⟨none, true⟩ ∨ st.cell f sl = ⟨some v, true⟩)
    (held : ∃ f sl, Covered frames first width f sl ∧ (st.cell f sl).names = some v) :
    st.occupants (coverCells frames first width) = [v] := by
  have named : ∀ k, (∃ f sl, Covered frames first width f sl ∧ (st.cell f sl).names = some k) ↔ k = v := by
    refine fun k => ⟨fun ⟨f, sl, covered, names⟩ => ?_, fun e => e ▸ held⟩
    obtain empty | full := cells f sl covered
    · simp [empty] at names
    · simpa [full, eq_comm] using names
  have filtered : st.occupants (coverCells frames first width) = allHandles.filter (· = v) :=
    List.filter_congr fun k _ => by
      rw [Bool.eq_iff_iff, decide_eq_true_iff, ← named k]
      simp [mem_coverCells]
  rw [filtered, List.filter_eq, List.count_eq_one_of_mem nodup_allHandles (mem_allHandles v)]
  rfl

/-- Naming cells changes cells only. -/
theorem writeCells_same (h : Handle) (cells : List (Frame × Slot)) (st : Store) :
    (∀ k, (st.writeCells h cells).record k = st.record k) ∧ (∀ n, (st.writeCells h cells).node n = st.node n) ∧
      (st.writeCells h cells).queue = st.queue := by
  induction cells generalizing st with
  | nil => exact ⟨fun _ => rfl, fun _ => rfl, rfl⟩
  | cons c rest ih => exact ih (st.putCell c.1 c.2 ⟨some h, true⟩)

/-- Each cell of the list names the record, and every other cell is as it was (R29). -/
theorem cell_writeCells (h : Handle) (cells : List (Frame × Slot)) (st : Store) (f : Frame) (sl : Slot) :
    (st.writeCells h cells).cell f sl = if (f, sl) ∈ cells then ⟨some h, true⟩ else st.cell f sl := by
  induction cells generalizing st with
  | nil => simp [writeCells]
  | cons c rest ih =>
    have := ih (st.putCell c.1 c.2 ⟨some h, true⟩)
    rw [writeCells, List.foldl_cons, ← writeCells, this, cell_putCell]
    by_cases hr : (f, sl) ∈ rest
    · simp [hr]
    · simp [hr, Prod.ext_iff]

theorem record_occupy (st : Store) (h k : Handle) (r : LeaseRecord) :
    (st.occupy h r).record k = if k = h then r else st.record k := by
  rw [occupy, (writeCells_same h _ _).1, record_putRecord]

@[simp] theorem node_occupy (st : Store) (h : Handle) (r : LeaseRecord) (n : Node) :
    (st.occupy h r).node n = st.node n := by
  rw [occupy, (writeCells_same h _ _).2.1, node_putRecord]

@[simp] theorem queue_occupy (st : Store) (h : Handle) (r : LeaseRecord) : (st.occupy h r).queue = st.queue := by
  rw [occupy, (writeCells_same h _ _).2.2, queue_putRecord]

theorem cell_occupy (st : Store) (h : Handle) (r : LeaseRecord) (f : Frame) (sl : Slot) :
    (st.occupy h r).cell f sl = if (f, sl) ∈ recordCells r then ⟨some h, true⟩ else st.cell f sl := by
  rw [occupy, cell_writeCells, cell_putRecord]

@[simp] theorem node_joinQueue (st : Store) (h : Handle) (n : Node) : (st.joinQueue h).node n = st.node n := rfl

@[simp] theorem cell_joinQueue (st : Store) (h : Handle) (f : Frame) (sl : Slot) :
    (st.joinQueue h).cell f sl = st.cell f sl := rfl

/-! One victim. -/

/-- What a victim gives up, whatever becomes of it: its chain, its cells, its suspension and its use (steps 1 to 3 of R55). -/
def yielded (st : Store) (v : Handle) : Store :=
  ((st.closeDescendants v).emptyCellsOf v).modifyRecord v fun r =>
    { r with reasons := Reasons.empty, used := false, idleCount := 0 }

theorem record_yielded_ne (st : Store) {v k : Handle} (hk : k ≠ v) :
    (st.yielded v).record k = (st.closeDescendants v).record k := by
  simp [yielded, record_modifyRecord, hk]

theorem record_yielded_self (st : Store) (v : Handle) :
    (st.yielded v).record v =
      { (st.closeDescendants v).record v with reasons := Reasons.empty, used := false, idleCount := 0 } := by
  simp [yielded]

@[simp] theorem queue_yielded (st : Store) (v : Handle) : (st.yielded v).queue = (st.closeDescendants v).queue := rfl

@[simp] theorem node_yielded (st : Store) (v : Handle) (n : Node) :
    (st.yielded v).node n = (st.closeDescendants v).node n := rfl

/-- A victim's cells are empty; a cell with bad parity stays as it is (log 11). -/
theorem cell_yielded (st : Store) (v : Handle) (f : Frame) (sl : Slot) :
    ((st.yielded v).cell f sl).names ≠ some v ∨ ((st.yielded v).cell f sl).parityOk = false := by
  simp only [yielded, cell_modifyRecord, cell_emptyCellsOf]
  split
  · exact .inl (by simp [Cell.cleared])
  · rename_i other
    by_cases parity : ((st.closeDescendants v).cell f sl).parityOk = true
    · exact .inl fun named => other ⟨parity, named⟩
    · exact .inr (by simpa using parity)

/-- Closing its descendants leaves a record's owner and the owner's state. -/
theorem owner_closeDescendants (st : Store) (v : Handle) :
    ((st.closeDescendants v).record v).owner = (st.record v).owner ∧
      ∀ n, ((st.closeDescendants v).node n).state = (st.node n).state := by
  have closes := st.closes_closeDescendants v
  obtain ⟨cs, hv⟩ := closes.kept (k := v) (by simp)
  refine ⟨by rw [hv], fun n => ?_⟩
  obtain ⟨count, hn⟩ := closes.node n
  rw [hn]

/-- A victim that waits: DISPLACED at the queue's tail, with its notice (R56). -/
def waitsDisplaced (st : Store) (wait : Nat) (v : Handle) : Store :=
  ((st.modifyRecord v fun r => { r with state := .displaced, waitLimit := some wait, waitAge := some 0 }).joinQueue
    v).postOwner v .displaced

/-- A victim gives up what it holds; then it closes BARRED, waits, or closes LOST (R55 to R57). -/
theorem displaceVictim_eq (wait : Nat) (st : Store) (v : Handle) :
    displaceVictim wait st v =
      if (st.node (st.record v).owner).state = .barred then (st.yielded v).close .barred v
      else if (st.closeDescendants v).queue.length < 16 then (st.yielded v).waitsDisplaced wait v
      else (st.yielded v).close .lost v := by
  obtain ⟨owner, state⟩ := st.owner_closeDescendants v
  have owner' : ((st.yielded v).record v).owner = (st.record v).owner := by rw [record_yielded_self]; exact owner
  have state' : ∀ n, ((st.yielded v).node n).state = (st.node n).state := state
  rw [← owner', ← state']
  unfold displaceVictim
  simp only [queueHasRoom, decide_eq_true_eq]
  rfl

/-- What has closed below a victim stays closed through the rest of its displacement. -/
theorem isClosed_displaceVictim (wait : Nat) {st : Store} {v k : Handle} (hk : k ≠ v)
    (closed : (st.closeDescendants v).IsClosed .cascade k) : (displaceVictim wait st v).IsClosed .cascade k := by
  have first : (st.yielded v).IsClosed .cascade k := by simpa [IsClosed, record_yielded_ne st hk] using closed
  have closing : ∀ why, ((st.yielded v).close why v).IsClosed .cascade k := fun why => by
    have := ((st.yielded v).closes_close why v).isClosed (k := k) (by simpa [reasonsOf_ne why hk] using first)
    simpa [reasonsOf_ne why hk] using this
  rw [displaceVictim_eq]
  split
  · exact closing .barred
  · split
    · simpa [waitsDisplaced, IsClosed, record_postOwner, record_modifyRecord, hk] using first
    · exact closing .lost

/-- After its displacement a victim has no good cell. -/
theorem cell_displaceVictim (wait : Nat) (st : Store) (v : Handle) (f : Frame) (sl : Slot) :
    ((displaceVictim wait st v).cell f sl).names ≠ some v ∨ ((displaceVictim wait st v).cell f sl).parityOk = false := by
  have closing : ∀ why, (((st.yielded v).close why v).cell f sl).names ≠ some v ∨
      (((st.yielded v).close why v).cell f sl).parityOk = false := fun why => by
    obtain same | empty := ((st.yielded v).closes_close why v).cell f sl
    · rw [same]; exact st.cell_yielded v f sl
    · exact .inl (by simp [empty, Cell.cleared])
  rw [displaceVictim_eq]
  split
  · exact closing .barred
  · split
    · simpa [waitsDisplaced] using st.cell_yielded v f sl
    · exact closing .lost

/-- A victim that waits keeps its other fields, and its owner is told unless it is ABSENT (R56). -/
theorem record_displaceVictim_of_room (wait : Nat) {st : Store} {v : Handle}
    (owner : (st.node (st.record v).owner).state ≠ .barred) (room : (st.closeDescendants v).queue.length < 16) :
    (displaceVictim wait st v).record v =
      { (st.closeDescendants v).record v with
        state := .displaced
        reasons := Reasons.empty
        used := false
        idleCount := 0
        waitLimit := some wait
        waitAge := some 0
        ownerNotices :=
          if (st.node (st.record v).owner).state = .absent then (st.record v).ownerNotices
          else (st.record v).ownerNotices ||| NoticeKind.displaced.bit } := by
  obtain ⟨cs, hv⟩ := (st.closes_closeDescendants v).kept (k := v) (by simp)
  have notices : ((st.closeDescendants v).record v).ownerNotices = (st.record v).ownerNotices := by rw [hv]
  have state := (st.owner_closeDescendants v).2 (st.record v).owner
  have parties : ((st.closeDescendants v).record v).owner = (st.record v).owner := (st.owner_closeDescendants v).1
  rw [displaceVictim_eq, if_neg owner, if_pos room, waitsDisplaced, record_postOwner]
  simp only [record_joinQueue, record_modifyRecord_self, record_yielded_self, parties, notices]
  have node : (((st.yielded v).modifyRecord v fun r =>
      { r with state := .displaced, waitLimit := some wait, waitAge := some 0 }).joinQueue v).node
        (st.record v).owner = (st.closeDescendants v).node (st.record v).owner := rfl
  rw [node, state]
  by_cases absent : (st.node (st.record v).owner).state = .absent
  · simp [absent, ← notices]
  · simp [absent]

/-- A victim that waits joins the queue at the tail (R47, R56). -/
theorem queue_displaceVictim_of_room (wait : Nat) {st : Store} {v : Handle}
    (owner : (st.node (st.record v).owner).state ≠ .barred) (room : (st.closeDescendants v).queue.length < 16) :
    (displaceVictim wait st v).queue = (st.closeDescendants v).queue ++ [⟨v, true⟩] := by
  rw [displaceVictim_eq, if_neg owner, if_pos room]
  simp [waitsDisplaced]

/-- A record that lists no child has no descendants to close. -/
theorem closeDescendants_of_childless {st : Store} {v : Handle} (childless : (st.record v).children = []) :
    st.closeDescendants v = st := by
  simp [closeDescendants, liveChildren, childless]

end Store

/-! The claim that displaces. -/

/-- The slot of a byte that stands for one. -/
theorem slotOf?_val (first : Slot) : slotOf? first.val = some first := by simp [slotOf?]

/-- A first slot below 64 is no ANY claim's. -/
theorem claimTargetOrRange_of_slot {a : ClaimArgs} {first : Slot} (slot : a.firstSlot.toNat = first.val) :
    claimTargetOrRange a = .ok (some first) := by
  have fixed : a.firstSlot ≠ 255#8 := by
    intro e
    rw [e] at slot
    have := first.isLt
    simp at slot
    omega
  simp [claimTargetOrRange, claimTarget, fixed, slot, slotOf?_val]

/-- A JOINED requester with a good record passes. -/
theorem joinedRequester_of_joined {st : Store} {n : Node} (joined : st.Joined n) : joinedRequester st n = .ok () := by
  have read : st.Good [.node n] := by simp [Store.Good, Store.fails, joined.1]
  simp [joinedRequester, readItems_of_good st _ read, bind, Except.bind, joined.2]
  rfl

/-- The lowest FREE record is the one allocated, if it is good (R6). -/
theorem allocate_of_nextFree {code : Type} {st : Store} {h : Handle} (refusal : code) (next : st.NextFree h) :
    allocate st refusal = .ok h := by
  obtain ⟨isFree, good, lowest⟩ := next
  have found : st.lowestFree = some h := by
    unfold Store.lowestFree allHandles
    rw [List.find?_eq_some_iff_getElem]
    refine ⟨by simpa using isFree, h.val, by simp, by simp, fun j hj => ?_⟩
    simpa using lowest ⟨j, hj.trans h.isLt⟩ hj
  have read : st.Good [.record h] := by simp [Store.Good, Store.fails, good]
  simp [allocate, found, readItems_of_good st _ read, bind, Except.bind]
  rfl

/-- A fixed claim that passes R37's checks goes on to its placement. -/
theorem claimOperation_of_passes {s : State} {n : Node} {a : ClaimArgs} {h : Handle} {first : Slot} (wait : Nat)
    (passes : ClaimPasses s n a h) (slot : a.firstSlot.toNat = first.val) (fence : s.store.fence ≤ first.val)
    (fits : first.val + a.width.toNat ≤ s.store.frameLength) :
    claimOperation n a wait s.store = claimFixed s.store n a wait h first := by
  simp only [claimOperation, joinedRequester_of_joined passes.node, claimTargetOrRange_of_slot slot,
    allocate_of_nextFree _ passes.record, bind, Except.bind, endsInFrame, aboveFence, passes.width, passes.frames,
    passes.term, passes.rank, passes.quota, fence, fits, decide_true, need_true, ne_eq, not_false_eq_true, and_self]

/-- A fixed claim over the cells of weaker leases displaces them all and is placed (R53, R58). -/
theorem claimFixed_of_displaceable {st : Store} {n : Node} {a : ClaimArgs} {wait : Nat} {h : Handle} {first : Slot}
    (occupied : st.occupants (coverCells a.frames first.val a.width.toNat) ≠ [])
    (parity : ∀ f sl, Covered a.frames first.val a.width.toNat f sl → (st.cell f sl).parityOk = true)
    (weaker : ∀ v ∈ st.occupants (coverCells a.frames first.val a.width.toNat),
      (st.record v).check = 0 ∧ (st.record v).isProtected = false ∧ (st.record v).yields = true ∧
        ((st.record v).state = .held ∨ (st.record v).state = .suspended) ∧ (st.record v).rank < a.rank.toNat)
    (chains : st.Good (st.chainItems (st.occupants (coverCells a.frames first.val a.width.toNat)))) :
    claimFixed st n a wait h first =
      .ok (claimPlaced (st.displaceAll wait (st.occupants (coverCells a.frames first.val a.width.toNat))).settle n a h
        (st.record h).allocated first) := by
  obtain ⟨v, hv⟩ := List.exists_mem_of_ne_nil _ occupied
  have cells : st.Good (Store.cellItems (coverCells a.frames first.val a.width.toNat)) := by
    intro i hi
    obtain ⟨⟨f, sl⟩, hc, rfl⟩ := List.mem_map.mp hi
    simpa [Store.fails] using parity f sl (mem_coverCells.mp hc)
  have notEmpty : st.cellsEmpty (coverCells a.frames first.val a.width.toNat) = false := by
    obtain ⟨f, sl, hc, named⟩ := Store.mem_occupants.mp hv
    exact List.all_eq_false.mpr ⟨(f, sl), hc, by simp [named]⟩
  have victims : st.Good ((st.occupants (coverCells a.frames first.val a.width.toNat)).map .record) := by
    intro i hi
    obtain ⟨v, hv, rfl⟩ := List.mem_map.mp hi
    simp [Store.fails, (weaker v hv).1]
  have all : ((st.occupants (coverCells a.frames first.val a.width.toNat)).all fun v =>
      displaceable a.rank.toNat (st.record v)) = true := by
    rw [List.all_eq_true]
    intro v hv
    obtain ⟨-, unprotected, yields, state, rank⟩ := weaker v hv
    simp [displaceable, unprotected, yields, state, rank]
  simp only [claimFixed, readItems_of_good st _ cells, readItems_of_good st _ victims, readItems_of_good st _ chains,
    notEmpty, all, bind, Except.bind, Bool.false_eq_true, if_false, if_true]
  rfl

/-- A node request taken in RUN completes by its operation on the store (R108, R158). -/
theorem State.performRequest_of_run {s : State} {n : Node} {p : Posted} (operation : Store → RequestResult)
    (run : s.atTaking.device = .run) :
    s.performRequest n p operation = (s.takeRequest n).finishRequest s.atTaking.integrityMode n p (operation s.store) := by
  simp [State.performRequest, run, State.deviceRefusal]

/-- A fixed claim over the cells of weaker leases, from its taking to its response. -/
theorem exec_claim_of_displaceable {s : State} {n : Node} {seq : SeqNo} {a : ClaimArgs} {h : Handle} {first : Slot}
    (taken : s.engine.takenRequest n = some ⟨seq, .claim a⟩) (passes : ClaimPasses s n a h)
    (slot : a.firstSlot.toNat = first.val) (fence : s.store.fence ≤ first.val)
    (fits : first.val + a.width.toNat ≤ s.store.frameLength)
    (occupied : s.store.occupants (coverCells a.frames first.val a.width.toNat) ≠ [])
    (parity : ∀ f sl, Covered a.frames first.val a.width.toNat f sl → (s.store.cell f sl).parityOk = true)
    (weaker : ∀ v ∈ s.store.occupants (coverCells a.frames first.val a.width.toNat),
      (s.store.record v).check = 0 ∧ (s.store.record v).isProtected = false ∧ (s.store.record v).yields = true ∧
        ((s.store.record v).state = .held ∨ (s.store.record v).state = .suspended) ∧
        (s.store.record v).rank < a.rank.toNat)
    (chains : s.store.Good (s.store.chainItems (s.store.occupants (coverCells a.frames first.val a.width.toNat)))) :
    exec (.claim n) s = .next (((s.takeRequest n).commit
        ((((s.store.occupants (coverCells a.frames first.val a.width.toNat)).foldl
            (Store.displaceVictim s.atTaking.reinstatementWait) s.store).settle.occupy h
          { claimedContents s.store n a h with state := .held, firstSlot := some first }).countUp n)).answer n
      ⟨seq, .claim a⟩ .accepted (.claimed ⟨h, (s.store.record h).generation + 1⟩ first.val)) := by
  have performed : exec (.claim n) s =
      .next (s.performRequest n ⟨seq, .claim a⟩ (claimOperation n a s.atTaking.reinstatementWait)) := by
    simp [exec, execClaim, taken]
  rw [performed, State.performRequest_of_run _ passes.device, claimOperation_of_passes _ passes slot fence fits,
    claimFixed_of_displaceable occupied parity weaker chains]
  rfl

/-- A claim over one childless weaker lease: every field of what it leaves (R55, R56, R58). -/
theorem exec_claim_of_childless {s : State} {n : Node} {seq : SeqNo} {a : ClaimArgs} {h v : Handle} {first : Slot}
    (taken : s.engine.takenRequest n = some ⟨seq, .claim a⟩) (passes : ClaimPasses s n a h)
    (slot : a.firstSlot.toNat = first.val) (fence : s.store.fence ≤ first.val)
    (fits : first.val + a.width.toNat ≤ s.store.frameLength)
    (cells : ∀ f sl, Covered a.frames first.val a.width.toNat f sl →
      s.store.cell f sl = ⟨none, true⟩ ∨ s.store.cell f sl = ⟨some v, true⟩)
    (held : ∃ f sl, Covered a.frames first.val a.width.toNat f sl ∧ (s.store.cell f sl).names = some v)
    (good : (s.store.record v).check = 0) (unprotected : (s.store.record v).isProtected = false)
    (yields : (s.store.record v).yields = true)
    (state : (s.store.record v).state = .held ∨ (s.store.record v).state = .suspended)
    (rank : (s.store.record v).rank < a.rank.toNat) (childless : (s.store.record v).children = [])
    (chains : s.store.Good (s.store.chainItems [v]))
    (owner : (s.store.node (s.store.record v).owner).state ≠ .barred) (room : s.store.queue.length < 16) :
    ∃ st,
      exec (.claim n) s = .next (((s.takeRequest n).commit st).answer n ⟨seq, .claim a⟩ .accepted
        (.claimed ⟨h, (s.store.record h).generation + 1⟩ first.val)) ∧
      st.record h = { claimedContents s.store n a h with state := .held, firstSlot := some first } ∧
      st.record v = { s.store.record v with
        state := .displaced
        reasons := Reasons.empty
        used := false
        idleCount := 0
        waitLimit := some s.atTaking.reinstatementWait
        waitAge := some 0
        ownerNotices :=
          if (s.store.node (s.store.record v).owner).state = .absent then (s.store.record v).ownerNotices
          else (s.store.record v).ownerNotices ||| NoticeKind.displaced.bit } ∧
      st.queue = s.store.queue ++ [⟨v, true⟩] ∧
      (∀ f sl, (st.cell f sl).names ≠ some v ∨ (st.cell f sl).parityOk = false) ∧
      (∀ f sl, Covered a.frames first.val a.width.toNat f sl → st.cell f sl = ⟨some h, true⟩) := by
  have only : s.store.occupants (coverCells a.frames first.val a.width.toNat) = [v] :=
    Store.occupants_eq_singleton cells held
  have hv : h ≠ v := fun e => by
    have isFree := passes.record.1
    rw [e] at isFree
    simp [isFree] at state
  have noneBelow := Store.closeDescendants_of_childless childless
  have roomBelow : (s.store.closeDescendants v).queue.length < 16 := by rw [noneBelow]; exact room
  have victim := Store.record_displaceVictim_of_room s.atTaking.reinstatementWait owner roomBelow
  have queue := Store.queue_displaceVictim_of_room s.atTaking.reinstatementWait owner roomBelow
  rw [noneBelow] at victim queue
  refine ⟨_, exec_claim_of_displaceable taken passes slot fence fits (by simp [only]) (fun f sl covered => ?_)
    (by simpa [only] using ⟨good, unprotected, yields, state, rank⟩) (by rw [only]; exact chains), ?_, ?_, ?_, ?_, ?_⟩
  · obtain empty | full := cells f sl covered <;> simp [*]
  · simp [Store.countUp, Store.record_occupy]
  · simp only [Store.countUp, Store.record_modifyNode, Store.record_occupy, Ne.symm hv, if_false, Store.record_settle,
      only, List.foldl_cons, List.foldl_nil, victim]
    rfl
  · simp [Store.countUp, only, queue]
  · intro f sl
    simp only [Store.countUp, Store.cell_modifyNode, Store.cell_occupy, Store.cell_settle, only, List.foldl_cons,
      List.foldl_nil]
    split
    · exact .inl (by simpa using hv)
    · exact Store.cell_displaceVictim _ _ _ f sl
  · intro f sl covered
    have here : (f, sl) ∈ recordCells { claimedContents s.store n a h with state := .held, firstSlot := some first } :=
      mem_coverCells.mpr covered
    simp [Store.countUp, Store.cell_occupy, here]

/-- Settles O23: the claim by its checks and its placement, each victim by the branches of its displacement. -/
theorem claimDisplacesWeakerLease : Obligations.ClaimDisplacesWeakerLease := by
  refine ⟨?_, fun st wait v => ⟨st.cell_displaceVictim wait v, fun c child hcv => ?_, fun barred => ?_, fun owner =>
    ⟨fun full => ?_, fun room => ?_⟩⟩, ?_⟩
  · rintro s n seq a h first _ taken passes slot fence fits rfl occupied parity weaker chains
    exact ⟨fun v => Store.mem_occupants_coverCells,
      exec_claim_of_displaceable taken passes slot fence fits occupied parity weaker chains⟩
  · obtain ⟨closed, reason⟩ :=
      Store.isClosed_displaceVictim wait hcv (Store.isClosed_child_closeDescendants child hcv)
    exact ⟨closed, reason, fun d grandchild hdv hdc => Store.isClosed_displaceVictim wait hdv
      (Store.isClosed_grandchild_closeDescendants child hcv grandchild hdv hdc)⟩
  · rw [Store.displaceVictim_eq, if_pos barred]
    exact (st.yielded v).isClosed_close .barred v
  · rw [Store.displaceVictim_eq, if_neg owner, if_neg (by omega)]
    exact (st.yielded v).isClosed_close .lost v
  · exact ⟨Store.queue_displaceVictim_of_room wait owner room, Store.record_displaceVictim_of_room wait owner room⟩
  · intro s n seq a h v first taken passes slot fence fits cells held good unprotected yields state rank childless
      chains owner room
    exact exec_claim_of_childless taken passes slot fence fits cells held good unprotected yields state rank childless
      chains owner room

end Sys2Proof.Machine
end

