-- ==== Sys2Proof/Proofs/Ties.lean ====
section
/-! PROOFS. Law 3 of the store alone, and that closings, settling, posting and displacement keep it (R46 to R50, R55 to R57). -/

namespace Sys2Proof.Machine

/-- What the invariants of the store say of one record: it is good, only a SUSPENDED one has suspension reasons, only a root waits in the queue, a root's grantee is its owner, and only a queued one has wait fields. -/
structure SoundRecord (r : LeaseRecord) : Prop where
  good : r.check = 0
  reasons : r.reasons.isEmpty = false → r.state = .suspended
  root : r.state.isQueued = true → r.kind = .root
  grantee : r.kind = .root → r.grantee = r.owner
  limit : r.waitLimit.isSome = true → r.state.isQueued = true
  age : r.waitAge.isSome = true → r.state.isQueued = true

/-- The handles that the queue's entries name, from the head. -/
abbrev Store.waiting (st : Store) : List Handle := st.queue.map QueueEntry.handle

/-- What holds of the store at every moment, within a closing too: no item is damaged, cells name occupying roots only, and the queue names queued records only, each once. -/
structure Store.Tied (st : Store) : Prop where
  records : ∀ h, SoundRecord (st.record h)
  nodes : ∀ n, (st.node n).check = 0
  cells : ∀ f sl, (st.cell f sl).parityOk = true
  entries : ∀ e ∈ st.queue, e.parityOk = true
  named : ∀ f sl h, (st.cell f sl).names = some h → (st.record h).isOccupyingRoot = true
  length : st.queue.length ≤ 16
  once : st.waiting.Nodup
  queued : ∀ h ∈ st.waiting, (st.record h).state.isQueued = true

/-- Law 3 of the store, between operations: every queued record has its entry, a wait limit and a wait age as well. -/
structure Store.QueueLaw (st : Store) : Prop extends st.Tied where
  waits : ∀ h, (st.record h).state.isQueued = true →
    h ∈ st.waiting ∧ (st.record h).waitLimit.isSome = true ∧ (st.record h).waitAge.isSome = true

/-! Records that follow one another. -/

/-- A change of a record that leaves its entry, its cells and its wait fields their meaning. -/
structure Follows (r r' : LeaseRecord) : Prop where
  sound : SoundRecord r'
  occupies : r.isOccupyingRoot = true → r'.isOccupyingRoot = true
  queued : r'.state.isQueued = r.state.isQueued
  limit : r.state.isQueued = true → r'.waitLimit.isSome = r.waitLimit.isSome
  age : r.state.isQueued = true → r'.waitAge.isSome = r.waitAge.isSome

/-- A record whose state, kind, parties, reasons, wait fields and check stay follows from itself. -/
theorem Follows.of_same {r r' : LeaseRecord} (s : SoundRecord r) (state : r'.state = r.state) (kind : r'.kind = r.kind)
    (owner : r'.owner = r.owner) (grantee : r'.grantee = r.grantee) (reasons : r'.reasons = r.reasons)
    (limit : r'.waitLimit.isSome = r.waitLimit.isSome) (age : r'.waitAge.isSome = r.waitAge.isSome)
    (check : r'.check = r.check) : Follows r r' where
  sound :=
    { good := check.trans s.good
      reasons := by rw [reasons, state]; exact s.reasons
      root := by rw [state, kind]; exact s.root
      grantee := by rw [kind, grantee, owner]; exact s.grantee
      limit := by rw [limit, state]; exact s.limit
      age := by rw [age, state]; exact s.age }
  occupies h := by simpa [LeaseRecord.isOccupyingRoot, kind, state] using h
  queued := by rw [state]
  limit _ := limit
  age _ := age

theorem Follows.refl {r : LeaseRecord} (s : SoundRecord r) : Follows r r := .of_same s rfl rfl rfl rfl rfl rfl rfl rfl

/-- A queued record is not among the occupying ones. -/
theorem isOccupyingRoot_of_queued {r : LeaseRecord} (h : r.state.isQueued = true) : r.isOccupyingRoot = false := by
  unfold LeaseRecord.isOccupyingRoot
  cases hs : r.state <;> simp_all [RecState.isQueued, RecState.isOccupying]

/-- An occupying root is a root that does not wait in the queue. -/
theorem kind_of_isOccupyingRoot {r : LeaseRecord} (h : r.isOccupyingRoot = true) :
    r.kind = .root ∧ r.state.isQueued = false := by
  refine ⟨by simp_all [LeaseRecord.isOccupyingRoot], ?_⟩
  cases hq : r.state.isQueued with
  | false => rfl
  | true => simp [isOccupyingRoot_of_queued hq] at h

/-- A sound record outside the queue has no wait fields. -/
theorem SoundRecord.unlimited {r : LeaseRecord} (s : SoundRecord r) (h : r.state.isQueued = false) :
    r.waitLimit = none ∧ r.waitAge = none := by
  constructor
  · cases hl : r.waitLimit with
    | none => rfl
    | some n => simpa [h] using s.limit (by simp [hl])
  · cases ha : r.waitAge with
    | none => rfl
    | some n => simpa [h] using s.age (by simp [ha])

/-- A FREE record is sound. -/
theorem soundRecord_cleared (generation : BitVec 8) : SoundRecord (LeaseRecord.cleared generation) where
  good := rfl
  reasons h := by simp [LeaseRecord.cleared, Reasons.isEmpty] at h
  root h := by simp [LeaseRecord.cleared, RecState.isQueued] at h
  grantee _ := rfl
  limit h := by simp [LeaseRecord.cleared] at h
  age h := by simp [LeaseRecord.cleared] at h

/-- A record that neither occupies nor waits can become FREE. -/
theorem Follows.cleared {r : LeaseRecord} (generation : BitVec 8) (idle : r.isOccupyingRoot = false)
    (queued : r.state.isQueued = false) : Follows r (LeaseRecord.cleared generation) where
  sound := soundRecord_cleared generation
  occupies h := by simp [idle] at h
  queued := by rw [queued]; rfl
  limit h := by simp [queued] at h
  age h := by simp [queued] at h

/-- A CLOSED record can become FREE. -/
theorem Follows.cleared_of_closed {r : LeaseRecord} (generation : BitVec 8) (closed : r.state = .closed) :
    Follows r (LeaseRecord.cleared generation) :=
  .cleared generation (by simp [LeaseRecord.isOccupyingRoot, closed, RecState.isOccupying])
    (by simp [closed, RecState.isQueued])

theorem SoundRecord.withChildren {r : LeaseRecord} (s : SoundRecord r) (cs : List Handle) :
    SoundRecord (withChildren r cs) := ⟨s.good, s.reasons, s.root, s.grantee, s.limit, s.age⟩

namespace Store

/-! Changes that enter nothing in the queue. -/

/-- The store stays tied where the queue and the cells only lose, and what they still name keeps its standing. -/
theorem Tied.shrink {st st' : Store} (t : st.Tied) (records : ∀ h, SoundRecord (st'.record h))
    (nodes : ∀ n, (st'.node n).check = (st.node n).check)
    (cells : ∀ f sl, st'.cell f sl = st.cell f sl ∨ st'.cell f sl = Cell.cleared) (queue : st'.queue.Sublist st.queue)
    (named : ∀ f sl h, (st'.cell f sl).names = some h → (st.record h).isOccupyingRoot = true →
      (st'.record h).isOccupyingRoot = true)
    (queued : ∀ h ∈ st'.waiting, (st.record h).state.isQueued = true → (st'.record h).state.isQueued = true) :
    st'.Tied where
  records := records
  nodes n := (nodes n).trans (t.nodes n)
  cells f sl := by
    obtain same | empty := cells f sl
    · rw [same]; exact t.cells f sl
    · rw [empty]; rfl
  entries e he := t.entries e (queue.subset he)
  named f sl h names := by
    refine named f sl h names ?_
    obtain same | empty := cells f sl
    · exact t.named f sl h (same ▸ names)
    · simp [empty, Cell.cleared] at names
  length := queue.length_le.trans t.length
  once := (queue.map QueueEntry.handle).nodup t.once
  queued h hh := queued h hh (t.queued h ((queue.map QueueEntry.handle).subset hh))

/-- Law 3 goes on where every record follows from what it was, and the queue stays. -/
theorem QueueLaw.of_follows {st st' : Store} (l : st.QueueLaw) (records : ∀ h, Follows (st.record h) (st'.record h))
    (nodes : ∀ n, (st'.node n).check = (st.node n).check)
    (cells : ∀ f sl, st'.cell f sl = st.cell f sl ∨ st'.cell f sl = Cell.cleared) (queue : st'.queue = st.queue) :
    st'.QueueLaw where
  toTied := l.toTied.shrink (fun h => (records h).sound) nodes cells (by rw [queue])
    (fun _ _ h _ occupies => (records h).occupies occupies) (fun h _ q => (records h).queued.trans q)
  waits h hq := by
    rw [(records h).queued] at hq
    obtain ⟨here, limit, age⟩ := l.waits h hq
    exact ⟨by rw [waiting, queue]; exact here, ((records h).limit hq).trans limit, ((records h).age hq).trans age⟩

/-- One record changed to one that follows from it. -/
theorem QueueLaw.modifyRecord {st : Store} (l : st.QueueLaw) {h : Handle} {g : LeaseRecord → LeaseRecord}
    (follows : Follows (st.record h) (g (st.record h))) : (st.modifyRecord h g).QueueLaw := by
  refine l.of_follows (fun k => ?_) (fun _ => rfl) (fun _ _ => .inl rfl) rfl
  rw [record_modifyRecord]
  split
  · rename_i hk; subst hk; exact follows
  · exact .refl (l.records k)

/-- The same, where a whole record is put in place. -/
theorem QueueLaw.putRecord {st : Store} (l : st.QueueLaw) {h : Handle} {r : LeaseRecord}
    (follows : Follows (st.record h) r) : (st.putRecord h r).QueueLaw := l.modifyRecord (g := fun _ => r) follows

/-- A node record changed without its check. -/
theorem QueueLaw.modifyNode {st : Store} (l : st.QueueLaw) (n : Node) {g : NodeRecord → NodeRecord}
    (check : ∀ r, (g r).check = r.check) : (st.modifyNode n g).QueueLaw := by
  refine l.of_follows (fun k => .refl (l.records k)) (fun m => ?_) (fun _ _ => .inl rfl) rfl
  rw [node_modifyNode]
  split
  · exact check _
  · rfl

theorem QueueLaw.countUp {st : Store} (l : st.QueueLaw) (n : Node) : (st.countUp n).QueueLaw :=
  l.modifyNode n fun _ => rfl

theorem QueueLaw.emptyCellsOf {st : Store} (l : st.QueueLaw) (h : Handle) : (st.emptyCellsOf h).QueueLaw := by
  refine l.of_follows (fun k => .refl (l.records k)) (fun _ => rfl) (fun f sl => ?_) rfl
  rw [cell_emptyCellsOf]
  split
  · exact .inr rfl
  · exact .inl rfl

/-- Notices are no matter of Law 3. -/
theorem QueueLaw.postParties {st : Store} (l : st.QueueLaw) (h : Handle) (k : NoticeKind) :
    (st.postParties h k).QueueLaw := by
  refine l.of_follows (fun c => ?_) (fun n => by simp) (fun f sl => .inl (by simp)) (by simp)
  rw [record_postParties]
  split
  · exact .of_same (l.records c) rfl rfl rfl rfl rfl rfl rfl rfl
  · exact .refl (l.records c)

theorem QueueLaw.postOwner {st : Store} (l : st.QueueLaw) (h : Handle) (k : NoticeKind) :
    (st.postOwner h k).QueueLaw := by
  unfold Store.postOwner
  split
  · exact l
  · exact l.modifyRecord (.of_same (l.records h) rfl rfl rfl rfl rfl rfl rfl rfl)

theorem QueueLaw.postGrantee {st : Store} (l : st.QueueLaw) (h : Handle) (k : NoticeKind) :
    (st.postGrantee h k).QueueLaw := by
  unfold Store.postGrantee
  split
  · exact l
  · exact l.modifyRecord (.of_same (l.records h) rfl rfl rfl rfl rfl rfl rfl rfl)

/-- What has no notice left to tell becomes FREE (R11). -/
theorem QueueLaw.settle {st : Store} (l : st.QueueLaw) : st.settle.QueueLaw := by
  refine l.of_follows (fun k => ?_) (fun _ => rfl) (fun _ _ => .inl rfl) rfl
  rw [record_settle]
  split
  · rename_i settled
    exact .cleared_of_closed _ (of_decide_eq_true settled).1
  · exact .refl (l.records k)

/-- A CLOSED record becomes FREE. -/
theorem QueueLaw.free {st : Store} (l : st.QueueLaw) {h : Handle} (closed : (st.record h).state = .closed) :
    (st.free h).QueueLaw := l.modifyRecord (.cleared_of_closed _ closed)

/-- Cells named for an occupying root (R29). -/
theorem QueueLaw.writeCells {st : Store} (l : st.QueueLaw) {h : Handle} (cells : List (Frame × Slot))
    (occupies : (st.record h).isOccupyingRoot = true) : (st.writeCells h cells).QueueLaw := by
  obtain ⟨record, node, queue⟩ := writeCells_same h cells st
  have cell := cell_writeCells h cells st
  refine { records := fun k => record k ▸ l.records k, nodes := fun n => node n ▸ l.nodes n, cells := fun f sl => ?_,
           entries := queue ▸ l.entries, named := fun f sl k names => ?_, length := queue ▸ l.length,
           once := by rw [waiting, queue]; exact l.once, queued := fun k hk => ?_, waits := fun k hk => ?_ }
  · rw [cell]
    split
    · rfl
    · exact l.cells f sl
  · rw [cell] at names
    rw [record]
    split at names
    · cases names; exact occupies
    · exact l.named f sl k names
  · rw [waiting, queue] at hk
    rw [record]
    exact l.queued k hk
  · rw [record] at hk ⊢
    rw [waiting, queue]
    exact l.waits k hk

/-- A record outside the queue becomes an occupying root over its cells (R29). -/
theorem QueueLaw.occupy {st : Store} (l : st.QueueLaw) {h : Handle} {r : LeaseRecord}
    (absent : (st.record h).state.isQueued = false) (sound : SoundRecord r) (occupies : r.isOccupyingRoot = true) :
    (st.occupy h r).QueueLaw := by
  have follows : Follows (st.record h) r :=
    { sound := sound
      occupies := fun _ => occupies
      queued := (kind_of_isOccupyingRoot occupies).2.trans absent.symm
      limit := fun q => by simp [absent] at q
      age := fun q => by simp [absent] at q }
  exact (l.putRecord follows).writeCells _ (by simpa using occupies)

/-! Entering and leaving the queue. -/

/-- A record that no cell names joins the queue at the tail, with a wait limit and a wait age (R47, R50, R56). -/
theorem QueueLaw.join {st : Store} (l : st.QueueLaw) {h : Handle} {r : LeaseRecord}
    (absent : (st.record h).state.isQueued = false) (unnamed : ∀ f sl, (st.cell f sl).names ≠ some h)
    (sound : SoundRecord r) (queued : r.state.isQueued = true) (limit : r.waitLimit.isSome = true)
    (age : r.waitAge.isSome = true) (room : st.queue.length < 16) : ((st.putRecord h r).joinQueue h).QueueLaw := by
  have record : ∀ k, ((st.putRecord h r).joinQueue h).record k = if k = h then r else st.record k :=
    fun k => record_putRecord st h k r
  have waiting : ((st.putRecord h r).joinQueue h).waiting = st.waiting ++ [h] := by simp [Store.waiting]
  have outside : h ∉ st.waiting := fun hh => by simp [l.queued h hh] at absent
  refine { records := fun k => ?_, nodes := l.nodes, cells := l.cells, entries := fun e he => ?_,
           named := fun f sl k names => ?_, length := ?_, once := ?_, queued := fun k hk => ?_, waits := fun k hk => ?_ }
  · rw [record]
    split
    · exact sound
    · exact l.records k
  · obtain he | he := List.mem_append.mp he
    · exact l.entries e he
    · rw [List.mem_singleton.mp he]
  · rw [record, if_neg fun e : k = h => unnamed f sl (e ▸ names)]
    exact l.named f sl k names
  · simpa using room
  · rw [waiting]
    exact l.once.append (List.nodup_singleton h) (by simpa using outside)
  · rw [record]
    split
    · exact queued
    · rw [waiting] at hk
      rename_i other
      exact l.queued k (by simpa [other] using hk)
  · rw [record] at hk ⊢
    rw [waiting]
    split at hk
    · rename_i here
      simp [here, limit, age]
    · rename_i other
      obtain ⟨here, limit, age⟩ := l.waits k hk
      simp [other, here, limit, age]

/-- A queued record leaves the queue for a state outside it (R48, R64, R65). -/
theorem QueueLaw.leave {st : Store} (l : st.QueueLaw) {h : Handle} {r : LeaseRecord} (sound : SoundRecord r)
    (outside : r.state.isQueued = false) (occupies : (st.record h).isOccupyingRoot = true → r.isOccupyingRoot = true) :
    ((st.dropFromQueue h).putRecord h r).QueueLaw := by
  have record : ∀ k, ((st.dropFromQueue h).putRecord h r).record k = if k = h then r else st.record k :=
    fun k => record_putRecord (st.dropFromQueue h) h k r
  have remain : ∀ k, k ∈ ((st.dropFromQueue h).putRecord h r).waiting ↔ k ∈ st.waiting ∧ k ≠ h := by
    intro k
    simp only [waiting, List.mem_map, queue_putRecord, mem_dropFromQueue]
    constructor
    · rintro ⟨e, ⟨he, ne⟩, rfl⟩
      exact ⟨⟨e, he, rfl⟩, ne⟩
    · rintro ⟨⟨e, he, rfl⟩, ne⟩
      exact ⟨e, ⟨he, ne⟩, rfl⟩
  refine { toTied := l.toTied.shrink (fun k => ?_) (fun _ => rfl) (fun _ _ => .inl rfl) List.filter_sublist
             (fun f sl k _ hk => ?_) (fun k hk q => ?_), waits := fun k hk => ?_ }
  · rw [record]
    split
    · exact sound
    · exact l.records k
  · rw [record]
    split
    · rename_i here; subst here; exact occupies hk
    · exact hk
  · rw [record, if_neg ((remain k).mp hk).2]
    exact q
  · rw [record] at hk ⊢
    split at hk
    · simp [outside] at hk
    · rename_i other
      rw [if_neg other]
      obtain ⟨here, waits⟩ := l.waits k hk
      exact ⟨(remain k).mpr ⟨here, other⟩, waits⟩

/-! Closings. -/

/-- Nothing refers to the record: no entry, no cell, and it has no wait fields. -/
structure Loose (st : Store) (h : Handle) : Prop where
  entry : h ∉ st.waiting
  unnamed : ∀ f sl, (st.cell f sl).names ≠ some h
  limit : (st.record h).waitLimit = none
  age : (st.record h).waitAge = none

/-- A closing of other records leaves a record loose. -/
theorem Loose.closes {why : Handle → CloseReason} {keep : List Handle} {st st' : Store} {h : Handle} (l : st.Loose h)
    (c : Closes why keep st st') (here : h ∈ keep) : st'.Loose h := by
  obtain ⟨cs, hr⟩ := c.kept here
  refine ⟨fun hw => l.entry ((c.queue.map QueueEntry.handle).subset hw), fun f sl names => ?_, by rw [hr]; exact l.limit,
    by rw [hr]; exact l.age⟩
  obtain same | empty := c.cell f sl
  · exact l.unnamed f sl (same ▸ names)
  · simp [empty, Cell.cleared] at names

/-- Steps 1 to 4 of R9 keep the store tied and leave the record loose. -/
theorem Tied.closeEntry {st : Store} (t : st.Tied) (why : CloseReason) (h : Handle) :
    (st.closeEntry why h).Tied ∧ (st.closeEntry why h).Loose h := by
  have record : ∀ k, ∃ cs, (st.closeEntry why h).record k =
      withChildren (if k = h then entered why (st.record k) else st.record k) cs := fun k =>
    (record_closeEntry_withChildren st why h k).imp fun _ hk => hk.1
  have same : ∀ k, ((st.closeEntry why h).record k).kind = (st.record k).kind ∧
      ((st.closeEntry why h).record k).state = (st.record k).state := by
    intro k
    obtain ⟨cs, hk⟩ := record k
    rw [hk]
    split <;> exact ⟨rfl, rfl⟩
  have cell : ∀ f sl, (st.closeEntry why h).cell f sl = st.cell f sl ∨ (st.closeEntry why h).cell f sl = Cell.cleared := by
    intro f sl
    rw [cell_closeEntry, cell_emptyCellsOf]
    split_ifs
    · exact .inr rfl
    · exact .inl rfl
    · exact .inl rfl
  have queue : (st.closeEntry why h).queue.Sublist st.queue := by
    rw [queue_closeEntry]
    split
    · exact List.filter_sublist
    · exact .refl _
  constructor
  · refine t.shrink (fun k => ?_) (fun n => by simp) cell queue (fun f sl k _ hk => ?_) (fun k _ hk => ?_)
    · obtain ⟨cs, hk⟩ := record k
      have s := t.records k
      rw [hk]
      refine SoundRecord.withChildren ?_ cs
      split
      · refine ⟨s.good, s.reasons, s.root, s.grantee, fun hl => ?_, fun ha => ?_⟩
        · by_cases q : (st.record k).state.isQueued = true
          · exact q
          · exact s.limit (by simpa [entered, q] using hl)
        · by_cases q : (st.record k).state.isQueued = true
          · exact q
          · exact s.age (by simpa [entered, q] using ha)
      · exact s
    · simpa [LeaseRecord.isOccupyingRoot, same k] using hk
    · rw [(same k).2]; exact hk
  · obtain ⟨cs, hk⟩ := record h
    have gone : (entered why (st.record h)).waitLimit = none ∧ (entered why (st.record h)).waitAge = none := by
      by_cases q : (st.record h).state.isQueued = true
      · simp [entered, q]
      · simpa [entered, q] using (t.records h).unlimited (by simpa using q)
    refine ⟨fun hw => ?_, fun f sl names => ?_, by rw [hk, if_pos rfl]; exact gone.1, by rw [hk, if_pos rfl]; exact gone.2⟩
    · have q := t.queued h ((queue.map QueueEntry.handle).subset hw)
      rw [waiting, queue_closeEntry, if_pos q] at hw
      obtain ⟨e, he, rfl⟩ := List.mem_map.mp hw
      exact (mem_dropFromQueue.mp he).2 rfl
    · rw [cell_closeEntry, cell_emptyCellsOf] at names
      split_ifs at names with occupies emptied
      · simp [Cell.cleared] at names
      · exact emptied ⟨t.cells f sl, names⟩
      · exact occupies (t.named f sl h names)

/-- Steps 6 to 8 of R9 keep the store tied once nothing refers to the record. -/
theorem Tied.closeExit {st : Store} {h : Handle} (t : st.Tied) (l : st.Loose h) : (st.closeExit h).Tied := by
  refine t.shrink (fun k => ?_) (fun n => ?_) (fun f sl => .inl (by simp)) (by simp) (fun f sl k names hk => ?_)
    (fun k hw hk => ?_)
  · rw [record_closeExit]
    split
    · rename_i here
      subst here
      have s := t.records k
      refine ⟨s.good, fun hr => by simp [posted, Reasons.empty, Reasons.isEmpty] at hr, fun hq => ?_, s.grantee,
        fun hl => ?_, fun ha => ?_⟩
      · simp [posted, RecState.isQueued] at hq
      · simp [posted, l.limit] at hl
      · simp [posted, l.age] at ha
    · exact t.records k
  · obtain ⟨count, hn⟩ := node_closeExit st h n
    rw [hn]
  · have other : k ≠ h := fun e => l.unnamed f sl (by rw [← e]; simpa using names)
    rw [record_closeExit, if_neg other]
    exact hk
  · have other : k ≠ h := fun e => l.entry (by rw [← e]; simpa [waiting] using hw)
    rw [record_closeExit, if_neg other]
    exact hk

/-- A closing with its cascade keeps the store tied. -/
theorem Tied.closeLevels {st : Store} (t : st.Tied) (levels : Nat) (closing : List Handle) (why : CloseReason) (h : Handle)
    (here : h ∈ closing) : (closeLevels levels closing why h st).Tied := by
  induction levels generalizing closing why h st with
  | zero => exact (t.closeEntry why h).1.closeExit (t.closeEntry why h).2
  | succ levels ih =>
    have cascade := (t.closeEntry why h).2.closes (closes_targets levels closing h _) here
    refine Tied.closeExit (List.foldlRecOn _ _ (t.closeEntry why h).1 fun mid hm c _ => ?_) cascade
    exact ih hm (c :: closing) .cascade c (by simp)

/-- Law 3 after closings that kept the store tied: a record that still waits was not closed. -/
theorem QueueLaw.of_closes {why : Handle → CloseReason} {keep : List Handle} {st st' : Store} (l : st.QueueLaw)
    (c : Closes why keep st st') (t : st'.Tied) : st'.QueueLaw where
  toTied := t
  waits h hq := by
    have notClosed : (st'.record h).state ≠ .closed := fun hc => by simp [hc, RecState.isQueued] at hq
    obtain ⟨cs, hr⟩ := (c.record h).resolve_right fun k => notClosed k.2.state
    rw [hr] at hq ⊢
    obtain ⟨entry, waits⟩ := l.waits h hq
    obtain ⟨e, he, rfl⟩ := List.mem_map.mp entry
    exact ⟨List.mem_map_of_mem ((c.waiting e he).resolve_right fun k => notClosed k.1), waits⟩

/-- A closing keeps Law 3 (R9, R48). -/
theorem QueueLaw.close {st : Store} (l : st.QueueLaw) (why : CloseReason) (h : Handle) : (st.close why h).QueueLaw :=
  l.of_closes (st.closes_close why h) (l.toTied.closeLevels 2 [h] why h (by simp))

/-- Closing the descendants keeps Law 3. -/
theorem QueueLaw.closeDescendants {st : Store} (l : st.QueueLaw) (h : Handle) : (st.closeDescendants h).QueueLaw :=
  l.of_closes (st.closes_closeDescendants h)
    (List.foldlRecOn _ _ l.toTied fun _ hm c _ => hm.closeLevels 1 [c, h] .cascade c (by simp))

/-! Displacement. -/

theorem QueueLaw.yielded {st : Store} (l : st.QueueLaw) (v : Handle) : (st.yielded v).QueueLaw := by
  have l' := (l.closeDescendants v).emptyCellsOf v
  have s := l'.records v
  refine l'.modifyRecord ⟨⟨s.good, fun h => ?_, s.root, s.grantee, s.limit, s.age⟩, id, rfl, fun _ => rfl, fun _ => rfl⟩
  simp [Reasons.empty, Reasons.isEmpty] at h

/-- A victim that holds a root outside the queue is displaced within Law 3 (R55 to R57). -/
theorem QueueLaw.displaceVictim {st : Store} (l : st.QueueLaw) (wait : Nat) {v : Handle}
    (root : (st.record v).kind = .root) (absent : (st.record v).state.isQueued = false) :
    (displaceVictim wait st v).QueueLaw := by
  have l' := l.yielded v
  rw [displaceVictim_eq]
  split
  · exact l'.close .barred v
  · split
    · rename_i room
      obtain ⟨cs, hv⟩ := (st.closes_closeDescendants v).kept (k := v) (by simp)
      have s := l'.records v
      have kind : ((st.yielded v).record v).kind = .root := by rw [record_yielded_self, hv]; exact root
      have outside : ((st.yielded v).record v).state.isQueued = false := by rw [record_yielded_self, hv]; exact absent
      have unnamed : ∀ f sl, ((st.yielded v).cell f sl).names ≠ some v := fun f sl =>
        (st.cell_yielded v f sl).resolve_right (by simp [l'.cells f sl])
      refine (l'.join outside unnamed (r := { (st.yielded v).record v with
        state := .displaced, waitLimit := some wait, waitAge := some 0 }) ⟨s.good, fun hr => ?_, fun _ => kind, s.grantee,
          fun _ => rfl, fun _ => rfl⟩ rfl rfl rfl room).postOwner v .displaced
      rw [record_yielded_self] at hr
      simp [Reasons.empty, Reasons.isEmpty] at hr
    · exact l'.close .lost v

/-- A displacement puts no other record in the queue, and changes no other's kind. -/
theorem others_displaceVictim (wait : Nat) (st : Store) {v k : Handle} (hk : k ≠ v) :
    ((displaceVictim wait st v).record k).kind = (st.record k).kind ∧
      ((st.record k).state.isQueued = false → ((displaceVictim wait st v).record k).state.isQueued = false) := by
  have closing : ∀ {why keep} {a b : Store}, Closes why keep a b → (b.record k).kind = (a.record k).kind ∧
      ((a.record k).state.isQueued = false → (b.record k).state.isQueued = false) := by
    intro why keep a b c
    obtain ⟨cs, hr⟩ | ⟨-, hr⟩ := c.record k
    · rw [hr]; exact ⟨rfl, id⟩
    · exact ⟨hr.kind, fun _ => by simp [hr.state, RecState.isQueued]⟩
  have first : ((st.yielded v).record k).kind = (st.record k).kind ∧
      ((st.record k).state.isQueued = false → ((st.yielded v).record k).state.isQueued = false) := by
    rw [record_yielded_ne st hk]
    exact closing (st.closes_closeDescendants v)
  have closes : ∀ why, (((st.yielded v).close why v).record k).kind = (st.record k).kind ∧
      ((st.record k).state.isQueued = false → (((st.yielded v).close why v).record k).state.isQueued = false) := by
    intro why
    have second := closing ((st.yielded v).closes_close why v)
    exact ⟨second.1.trans first.1, fun h => second.2 (first.2 h)⟩
  rw [displaceVictim_eq]
  split
  · exact closes .barred
  · split
    · simpa [waitsDisplaced, record_postOwner, record_modifyRecord, hk] using first
    · exact closes .lost

/-- Victims that are roots outside the queue are displaced one after another within Law 3, and nothing else enters the queue. -/
theorem QueueLaw.displaceAll (wait : Nat) (victims : List Handle) (once : victims.Nodup) {st : Store} (l : st.QueueLaw)
    (roots : ∀ v ∈ victims, (st.record v).kind = .root ∧ (st.record v).state.isQueued = false) :
    (st.displaceAll wait victims).QueueLaw ∧ ∀ k, k ∉ victims → (st.record k).state.isQueued = false →
      ((st.displaceAll wait victims).record k).state.isQueued = false := by
  induction victims generalizing st with
  | nil => exact ⟨l, fun _ _ h => h⟩
  | cons v rest ih =>
    obtain ⟨apart, once⟩ := List.nodup_cons.mp once
    obtain ⟨root, absent⟩ := roots v (by simp)
    obtain ⟨law, others⟩ := ih once (l.displaceVictim wait root absent) fun k hk => by
      have other : k ≠ v := fun e => apart (e ▸ hk)
      obtain ⟨kind, queued⟩ := others_displaceVictim wait st other
      obtain ⟨root, absent⟩ := roots k (by simp [hk])
      exact ⟨kind.trans root, queued absent⟩
    refine ⟨law, fun k hk absent => ?_⟩
    obtain ⟨hkv, hk⟩ := not_or.mp (mt List.mem_cons.mpr hk)
    exact others k hk ((others_displaceVictim wait st hkv).2 absent)

end Store

end Sys2Proof.Machine
end

