-- ==== Sys2Proof/Proofs/QueueOps.lean ====
section
/-! PROOFS. Every operation on the store that passes its checks keeps Law 3. -/

namespace Sys2Proof.Machine

/-! What an operation that goes through has passed. -/

/-- A sequence goes through where its first part does, and the rest after it. -/
theorem bind_eq_ok {ε α β : Type} {x : Except ε α} {f : α → Except ε β} {b : β} :
    (x >>= f) = .ok b ↔ ∃ a, x = .ok a ∧ f a = .ok b := by
  cases x <;> simp [bind, Except.bind]

theorem pure_eq_ok {ε α : Type} {a b : α} : (pure a : Except ε α) = .ok b ↔ a = b := by
  simp [pure, Except.pure]

/-- A check passes exactly when its condition holds. -/
theorem need_eq_ok {code : Type} {condition : Bool} {c : code} {u : Unit} :
    need condition c = .ok u ↔ condition = true := by
  cases condition <;> simp [need]

/-- The record that is allocated was FREE (R6). -/
theorem free_of_allocate {code : Type} {st : Store} {refusal : code} {h : Handle}
    (allocated : allocate st refusal = .ok h) : (st.record h).state = .free := by
  unfold allocate at allocated
  cases found : st.lowestFree with
  | none => simp [found] at allocated
  | some k =>
    simp only [found, bind_eq_ok, pure_eq_ok] at allocated
    obtain ⟨-, -, rfl⟩ := allocated
    simpa using List.find?_some found

/-- A record that is neither occupying nor queued stands outside the queue. -/
theorem isQueued_of_free {r : LeaseRecord} (isFree : r.state = .free) : r.state.isQueued = false := by
  simp [isFree, RecState.isQueued]

/-! Records that enter a state outside the queue. -/

/-- A record becomes SUSPENDED, or stays so, with other reasons, from an occupying state. -/
theorem Follows.suspend {r : LeaseRecord} (s : SoundRecord r) (occupying : r.state.isOccupying = true) (reasons : Reasons) :
    Follows r { r with state := .suspended, reasons := reasons } := by
  have absent : r.state.isQueued = false := by cases hs : r.state <;> simp_all [RecState.isQueued, RecState.isOccupying]
  obtain ⟨limit, age⟩ := s.unlimited absent
  exact { sound := { good := s.good, reasons := fun _ => rfl, root := fun q => by simp [RecState.isQueued] at q,
                     grantee := s.grantee, limit := fun q => by simp [limit] at q, age := fun q => by simp [age] at q }
          occupies := fun h => by simp_all [LeaseRecord.isOccupyingRoot, RecState.isOccupying]
          queued := by rw [absent]; rfl
          limit := fun _ => rfl
          age := fun _ => rfl }

/-- An occupying record without suspension reasons becomes HELD or DRAINING. -/
theorem Follows.grant {r : LeaseRecord} (s : SoundRecord r) (occupying : r.state.isOccupying = true) {state : RecState}
    (granting : state.isGranting = true) {reasons : Reasons} (none_left : reasons.isEmpty = true) :
    Follows r { r with state := state, reasons := reasons } := by
  have absent : r.state.isQueued = false := by cases hs : r.state <;> simp_all [RecState.isQueued, RecState.isOccupying]
  have outside : state.isQueued = false := by cases state <;> simp_all [RecState.isQueued, RecState.isGranting]
  have occupies : state.isOccupying = true := by cases state <;> simp_all [RecState.isOccupying, RecState.isGranting]
  obtain ⟨limit, age⟩ := s.unlimited absent
  exact { sound := { good := s.good, reasons := fun h => by simp [none_left] at h, root := fun q => by simp [outside] at q,
                     grantee := s.grantee, limit := fun q => by simp [limit] at q, age := fun q => by simp [age] at q }
          occupies := fun h => by simp_all [LeaseRecord.isOccupyingRoot]
          queued := by rw [absent]; exact outside
          limit := fun _ => rfl
          age := fun _ => rfl }

/-- A state other than SUSPENDED has no suspension reasons. -/
theorem SoundRecord.isEmpty_reasons {r : LeaseRecord} (s : SoundRecord r) (other : r.state ≠ .suspended) :
    r.reasons.isEmpty = true := by
  cases h : r.reasons.isEmpty with
  | true => rfl
  | false => exact absurd (s.reasons h) other

namespace Store

/-! Changes over all records, and of no record. -/

/-- Every record changed to one that follows from it. -/
theorem QueueLaw.mapRecords {st : Store} (l : st.QueueLaw) {g : LeaseRecord → LeaseRecord}
    (follows : ∀ r, SoundRecord r → Follows r (g r)) :
    ({ st with records := st.records.map g } : Store).QueueLaw := by
  refine l.of_follows (fun h => ?_) (fun _ => rfl) (fun _ _ => .inl rfl) rfl
  have : ({ st with records := st.records.map g } : Store).record h = g (st.record h) := by simp [record]
  rw [this]
  exact follows _ (l.records h)

/-- Fence and frame length are no matter of Law 3. -/
theorem QueueLaw.withLimits {st : Store} (l : st.QueueLaw) (fence frameLength : Nat) :
    ({ st with fence := fence, frameLength := frameLength } : Store).QueueLaw :=
  l.of_follows (fun h => .refl (l.records h)) (fun _ => rfl) (fun _ _ => .inl rfl) rfl

/-- The counts set anew (R192). -/
theorem QueueLaw.recount {st : Store} (l : st.QueueLaw) : st.recount.QueueLaw := by
  refine l.of_follows (fun h => .refl (l.records h)) (fun n => ?_) (fun _ _ => .inl rfl) rfl
  simp [Store.recount, node]

/-- Operations on one handle after another. -/
theorem QueueLaw.foldl {α : Type} {step : Store → α → Store} (targets : List α) {st : Store} (l : st.QueueLaw)
    (each : ∀ st, ∀ c ∈ targets, Store.QueueLaw st → (step st c).QueueLaw) : (targets.foldl step st).QueueLaw :=
  List.foldlRecOn (motive := Store.QueueLaw) targets step l fun st hst c hc => each st c hc hst

/-! CLAIM and PLACE (R38, R39, R43, R44, R50, R58). -/

/-- The occupants of cells are displaced within Law 3, and a FREE record stays outside the queue. -/
theorem QueueLaw.displaceOccupants {st : Store} (l : st.QueueLaw) (wait : Nat) (cells : List (Frame × Slot)) :
    (st.displaceAll wait (st.occupants cells)).settle.QueueLaw ∧ ∀ h, (st.record h).state = .free →
      ((st.displaceAll wait (st.occupants cells)).settle.record h).state.isQueued = false := by
  have occupying : ∀ v ∈ st.occupants cells, (st.record v).isOccupyingRoot = true := by
    intro v hv
    obtain ⟨f, sl, -, named⟩ := mem_occupants.mp hv
    exact l.named f sl v named
  obtain ⟨law, others⟩ := l.displaceAll wait (st.occupants cells) (nodup_allHandles.filter _)
    fun v hv => kind_of_isOccupyingRoot (occupying v hv)
  refine ⟨law.settle, fun h isFree => ?_⟩
  have outside : h ∉ st.occupants cells := fun hv => by
    have := occupying h hv
    simp [LeaseRecord.isOccupyingRoot, isFree, RecState.isOccupying] at this
  rw [record_settle]
  split
  · rfl
  · exact others h outside (isQueued_of_free isFree)

/-- A claim placed on a record outside the queue (R39). -/
theorem QueueLaw.claimPlaced {st : Store} (l : st.QueueLaw) (n : Node) (args : ClaimArgs) {h : Handle} (old : LeaseRecord)
    (first : Slot) (absent : (st.record h).state.isQueued = false) :
    (claimPlaced st n args h old.allocated first).store.QueueLaw :=
  (l.occupy absent ⟨rfl, fun h => Bool.noConfusion h, fun _ => rfl, fun _ => rfl, fun h => Bool.noConfusion h,
    fun h => Bool.noConfusion h⟩ rfl).countUp n

/-- A claim that waits joins the queue (R50). -/
theorem QueueLaw.claimWaits {st : Store} (l : st.QueueLaw) {n : Node} {args : ClaimArgs} {h : Handle} {old : LeaseRecord}
    {first : Option Slot} {d : RequestDone} (isFree : (st.record h).state = .free)
    (done : claimWaits st n args h old.allocated first = .ok d) : d.store.QueueLaw := by
  unfold Machine.claimWaits at done
  split at done
  · cases done
  · split at done
    · rename_i room
      cases done
      have unnamed : ∀ f sl, (st.cell f sl).names ≠ some h := fun f sl names => by
        have := l.named f sl h names
        simp [LeaseRecord.isOccupyingRoot, isFree, RecState.isOccupying] at this
      exact (l.join (isQueued_of_free isFree) unnamed ⟨rfl, fun h => Bool.noConfusion h, fun _ => rfl, fun _ => rfl,
        fun _ => rfl, fun _ => rfl⟩ rfl rfl rfl (of_decide_eq_true room)).countUp n
    · cases done

theorem QueueLaw.claimFixed {st : Store} (l : st.QueueLaw) {n : Node} {args : ClaimArgs} {wait : Nat} {h : Handle}
    {first : Slot} {d : RequestDone} (isFree : (st.record h).state = .free)
    (done : claimFixed st n args wait h first = .ok d) : d.store.QueueLaw := by
  simp only [Machine.claimFixed, bind_eq_ok] at done
  obtain ⟨-, -, done⟩ := done
  split at done
  · cases done
    exact l.claimPlaced n args _ first (isQueued_of_free isFree)
  · simp only [bind_eq_ok] at done
    obtain ⟨-, -, done⟩ := done
    split at done
    · simp only [bind_eq_ok] at done
      obtain ⟨-, -, done⟩ := done
      cases done
      obtain ⟨law, absent⟩ := l.displaceOccupants wait (coverCells args.frames first.val args.width.toNat)
      exact law.claimPlaced n args _ first (absent h isFree)
    · exact l.claimWaits isFree done

theorem QueueLaw.claimAny {st : Store} (l : st.QueueLaw) {n : Node} {args : ClaimArgs} {h : Handle} {d : RequestDone}
    (isFree : (st.record h).state = .free) (done : claimAny st n args h = .ok d) : d.store.QueueLaw := by
  simp only [Machine.claimAny, bind_eq_ok] at done
  obtain ⟨-, -, done⟩ := done
  split at done
  · cases done
    exact l.claimPlaced n args _ _ (isQueued_of_free isFree)
  · exact l.claimWaits isFree done

theorem QueueLaw.claimOperation {st : Store} (l : st.QueueLaw) {n : Node} {args : ClaimArgs} {wait : Nat} {d : RequestDone}
    (done : claimOperation n args wait st = .ok d) : d.store.QueueLaw := by
  simp only [Machine.claimOperation, bind_eq_ok] at done
  obtain ⟨-, -, target, -, -, -, -, -, -, -, -, -, -, -, -, -, -, -, -, -, h, allocated, done⟩ := done
  have isFree := free_of_allocate allocated
  split at done
  · exact l.claimFixed isFree done
  · exact l.claimAny isFree done

theorem QueueLaw.placeOperation {st : Store} (l : st.QueueLaw) {im : LeaseImage} {wait : Nat} {d : CommandDone}
    (done : placeOperation im wait st = .ok d) : d.store.QueueLaw := by
  simp only [Machine.placeOperation, bind_eq_ok] at done
  obtain ⟨n, -, -, -, -, -, first, -, -, -, -, -, -, -, h, allocated, -, -, -, -, done⟩ := done
  have isFree := free_of_allocate allocated
  have placed : ∀ {st : Store} (old : LeaseRecord), st.QueueLaw → (st.record h).state.isQueued = false →
      (placeDone st n first im h old.allocated).store.QueueLaw := fun _ l absent =>
    (l.occupy absent ⟨rfl, fun h => Bool.noConfusion h, fun _ => rfl, fun _ => rfl, fun h => Bool.noConfusion h,
      fun h => Bool.noConfusion h⟩ rfl).countUp n
  split at done
  · cases done
    exact placed _ l (isQueued_of_free isFree)
  · simp only [bind_eq_ok] at done
    obtain ⟨-, -, -, -, -, -, done⟩ := done
    cases done
    obtain ⟨law, absent⟩ := l.displaceOccupants wait (coverCells im.frames first.val im.width.toNat)
    exact placed _ law (absent h isFree)

/-! The other node requests. -/

theorem QueueLaw.renewOperation {st : Store} (l : st.QueueLaw) {n : Node} {t : RawTag} {term : Word} {d : RequestDone}
    (done : renewOperation n t term st = .ok d) : d.store.QueueLaw := by
  simp only [Machine.renewOperation, bind_eq_ok] at done
  obtain ⟨-, -, -, -, h, -, -, -, -, -, -, -, -, -, -, -, done⟩ := done
  cases done
  dsimp only
  refine l.modifyRecord ?_
  exact .of_same (l.records h) rfl rfl rfl rfl rfl rfl rfl rfl

theorem QueueLaw.releaseOperation {st : Store} (l : st.QueueLaw) {n : Node} {t : RawTag} {d : RequestDone}
    (done : releaseOperation n t st = .ok d) : d.store.QueueLaw := by
  simp only [Machine.releaseOperation, bind_eq_ok] at done
  obtain ⟨-, -, h, -, -, -, -, -, -, -, done⟩ := done
  have s := l.records h
  cases state : (st.record h).state <;> simp only [state, bind_eq_ok, pure_eq_ok] at done
  case waiting | displaced | suspended =>
    obtain ⟨-, -, rfl⟩ := done
    exact (l.close .released h).settle
  case held =>
    subst done
    dsimp only
    refine l.modifyRecord ?_
    exact .grant s (by simp [state, RecState.isOccupying]) rfl (s.isEmpty_reasons (by simp [state]))
  case draining | free | closed | corrupt =>
    subst done
    exact l

theorem QueueLaw.subletOperation {st : Store} (l : st.QueueLaw) {n : Node} {t : RawTag} {target : Byte} {frames : FrameSet}
    {term : Word} {d : RequestDone} (done : subletOperation n t target frames term st = .ok d) : d.store.QueueLaw := by
  simp only [Machine.subletOperation, bind_eq_ok] at done
  obtain ⟨-, -, p, -, -, -, -, -, -, -, -, -, -, -, -, -, m, -, -, -, -, -, -, -, -, -, h, allocated, done⟩ := done
  cases done
  have isFree := free_of_allocate allocated
  have made : Follows (st.record h) (childRecord (st.record h).allocated (st.record p) p n m frames term.toNat) :=
    { sound := ⟨rfl, fun h => Bool.noConfusion h, fun h => Bool.noConfusion h, fun h => Kind.noConfusion h,
        fun h => Bool.noConfusion h, fun h => Bool.noConfusion h⟩
      occupies := fun h => by simp [LeaseRecord.isOccupyingRoot, isFree, RecState.isOccupying] at h
      queued := (isQueued_of_free isFree).symm
      limit := fun q => by simp [isQueued_of_free isFree] at q
      age := fun q => by simp [isQueued_of_free isFree] at q }
  have l' := l.putRecord made
  exact ((l'.modifyRecord (.of_same (l'.records p) rfl rfl rfl rfl rfl rfl rfl rfl)).countUp n).postGrantee h .granted

theorem QueueLaw.recallOperation {st : Store} (l : st.QueueLaw) {n : Node} {t : RawTag} {d : RequestDone}
    (done : recallOperation n t st = .ok d) : d.store.QueueLaw := by
  simp only [Machine.recallOperation, bind_eq_ok] at done
  obtain ⟨-, -, h, -, -, -, -, -, -, -, done⟩ := done
  cases done
  exact (l.close .recalled h).settle

theorem QueueLaw.joinOperation {st : Store} (l : st.QueueLaw) {n : Node} {d : RequestDone}
    (done : joinOperation n st = .ok d) : d.store.QueueLaw := by
  simp only [Machine.joinOperation, bind_eq_ok] at done
  obtain ⟨-, -, -, -, done⟩ := done
  cases done
  dsimp only
  split
  · exact l
  · exact l.modifyNode n fun _ => rfl

/-- A LEAVE's closings, one after another (step 2 of R161). -/
theorem QueueLaw.closeEach {st : Store} (l : st.QueueLaw) (why : CloseReason) (hs : List Handle) :
    (Store.closeEach why hs st).1.QueueLaw :=
  List.foldlRecOn (motive := fun a : Store × Nat => a.1.QueueLaw) hs _ l fun a ha h _ => by
    split
    · exact ha.close why h
    · exact ha

theorem QueueLaw.leaveNode {st : Store} (l : st.QueueLaw) (n : Node) : (leaveNode st n).store.QueueLaw := by
  have absent : (st.modifyNode n fun r => { r with state := .absent }).QueueLaw := l.modifyNode n fun _ => rfl
  have dropped : ((Store.closeEach .left (st.leaving n) (st.modifyNode n fun r => { r with state := .absent })).1.dropNoticesOf
      n).QueueLaw :=
    (absent.closeEach .left (st.leaving n)).mapRecords fun r s => .of_same s rfl rfl rfl rfl rfl rfl rfl rfl
  have freed := dropped.mapRecords (g := fun r =>
    if r.state = .closed ∧ r.owner = n then LeaseRecord.cleared r.generation else r) fun r s => by
      split
      · rename_i closed; exact .cleared_of_closed _ closed.1
      · exact .refl s
  exact freed.settle.modifyNode n (g := fun r => { r with liveOwned := 0 }) fun _ => rfl

theorem QueueLaw.leaveOperation {st : Store} (l : st.QueueLaw) {n : Node} {d : RequestDone}
    (done : leaveOperation n st = .ok d) : d.store.QueueLaw := by
  simp only [Machine.leaveOperation, bind_eq_ok] at done
  obtain ⟨-, -, done⟩ := done
  cases state : (st.node n).state <;> simp only [state, bind_eq_ok, pure_eq_ok, reduceCtorEq] at done
  case absent | invalid => subst done; exact l
  case joined =>
    obtain ⟨-, -, rfl⟩ := done
    exact l.leaveNode n

theorem Follows.afterPoll {r : LeaseRecord} (s : SoundRecord r) (role : Role) : Follows r (afterPoll r role) := by
  cases role <;> dsimp only [Machine.afterPoll] <;> split
  case owner.isTrue settled | grantee.isTrue settled => exact .cleared_of_closed _ (of_decide_eq_true settled).1
  case owner.isFalse | grantee.isFalse => exact .of_same s rfl rfl rfl rfl rfl rfl rfl rfl

theorem QueueLaw.pollOperation {st : Store} (l : st.QueueLaw) {n : Node} {d : RequestDone}
    (done : pollOperation n st = .ok d) : d.store.QueueLaw := by
  simp only [Machine.pollOperation, bind_eq_ok] at done
  obtain ⟨-, -, found, -, done⟩ := done
  cases found with
  | none => cases done; exact l
  | some h =>
    cases done
    dsimp only
    refine l.modifyRecord ?_
    exact Follows.afterPoll (l.records h) _

theorem QueueLaw.queryOperation {st : Store} (l : st.QueueLaw) {n : Node} {t : RawTag} {d : RequestDone}
    (done : queryOperation n t st = .ok d) : d.store.QueueLaw := by
  simp only [Machine.queryOperation, bind_eq_ok] at done
  obtain ⟨-, -, h, -, -, -, done⟩ := done
  cases done
  exact l

theorem QueueLaw.statusOperation {st : Store} (l : st.QueueLaw) {n : Node} {superframe : Word} {d : RequestDone}
    (done : statusOperation n superframe st = .ok d) : d.store.QueueLaw := by
  simp only [Machine.statusOperation, bind_eq_ok] at done
  obtain ⟨-, -, done⟩ := done
  cases done
  exact l

/-! The other commands. -/

theorem QueueLaw.setframeOperation {st : Store} (l : st.QueueLaw) {value : Nat} {d : CommandDone}
    (done : setframeOperation value st = .ok d) : d.store.QueueLaw := by
  simp only [Machine.setframeOperation, bind_eq_ok] at done
  obtain ⟨-, -, -, -, -, -, -, -, done⟩ := done
  cases done
  exact l.withLimits st.fence value

theorem QueueLaw.fenceOperation {st : Store} (l : st.QueueLaw) {value : Nat} {d : CommandDone}
    (done : fenceOperation value st = .ok d) : d.store.QueueLaw := by
  simp only [Machine.fenceOperation, bind_eq_ok] at done
  obtain ⟨-, -, done⟩ := done
  split at done
  · cases done
    exact l.withLimits value st.frameLength
  · simp only [bind_eq_ok] at done
    obtain ⟨-, -, -, -, -, -, done⟩ := done
    cases done
    exact l.withLimits value st.frameLength

theorem QueueLaw.amendOperation {st : Store} (l : st.QueueLaw) {t : RawTag} {im : LeaseImage} {d : CommandDone}
    (done : amendOperation t im st = .ok d) : d.store.QueueLaw := by
  simp only [Machine.amendOperation, bind_eq_ok] at done
  obtain ⟨h, -, -, -, -, -, -, -, -, -, -, -, -, -, done⟩ := done
  cases done
  refine l.modifyRecord ?_
  unfold amendedRecord
  split <;> exact .of_same (l.records h) rfl rfl rfl rfl rfl rfl rfl rfl

theorem QueueLaw.revokeOperation {st : Store} (l : st.QueueLaw) {t : RawTag} {d : CommandDone}
    (done : revokeOperation t st = .ok d) : d.store.QueueLaw := by
  simp only [Machine.revokeOperation, bind_eq_ok] at done
  obtain ⟨h, -, -, -, -, -, done⟩ := done
  cases done
  exact (l.close .revoked h).settle

theorem QueueLaw.suspendOperation {st : Store} (l : st.QueueLaw) {t : RawTag} {d : CommandDone}
    (done : suspendOperation t st = .ok d) : d.store.QueueLaw := by
  simp only [Machine.suspendOperation, bind_eq_ok, need_eq_ok, decide_eq_true_eq] at done
  obtain ⟨h, -, -, state, -, -, done⟩ := done
  cases done
  have occupying : (st.record h).state.isOccupying = true := by
    obtain state | state := state <;> simp [state, RecState.isOccupying]
  have l' := l.modifyRecord (Follows.suspend (l.records h) occupying
    { (st.record h).reasons with supervisor := true }) (g := fun r =>
      { r with state := .suspended, reasons := { r.reasons with supervisor := true } })
  dsimp only [suspendRecord]
  split
  · exact l'.postParties h .suspended
  · exact l'

/-- A SUSPENDED record's reasons are lowered within Law 3 (R24, R144). -/
theorem QueueLaw.lowerReasons {st : Store} (l : st.QueueLaw) {h : Handle} (suspended : (st.record h).state = .suspended)
    (reasons : Reasons) : (lowerReasons st h reasons).QueueLaw := by
  have occupying : (st.record h).state.isOccupying = true := by simp [suspended, RecState.isOccupying]
  unfold Machine.lowerReasons
  split
  · rename_i none_left
    exact (l.modifyRecord (g := fun r => { r with reasons := reasons, state := .held })
      (Follows.grant (l.records h) occupying rfl none_left)).postParties h .resumed
  · refine l.modifyRecord ?_
    have := Follows.suspend (l.records h) occupying reasons
    rwa [← suspended] at this

theorem QueueLaw.resumeOperation {st : Store} (l : st.QueueLaw) {t : RawTag} {d : CommandDone}
    (done : resumeOperation t st = .ok d) : d.store.QueueLaw := by
  simp only [Machine.resumeOperation, bind_eq_ok, need_eq_ok, Bool.and_eq_true, decide_eq_true_eq] at done
  obtain ⟨h, -, -, ⟨suspended, -⟩, -, -, done⟩ := done
  cases done
  exact l.lowerReasons suspended _

theorem QueueLaw.fetchOperation {st : Store} (l : st.QueueLaw) {t : RawTag} {d : CommandDone}
    (done : fetchOperation t st = .ok d) : d.store.QueueLaw := by
  simp only [Machine.fetchOperation, bind_eq_ok] at done
  obtain ⟨h, -, -, -, done⟩ := done
  cases done
  exact l

theorem QueueLaw.fetchqOperation {st : Store} (l : st.QueueLaw) {position : Nat} {d : CommandDone}
    (done : fetchqOperation position st = .ok d) : d.store.QueueLaw := by
  simp only [Machine.fetchqOperation, bind_eq_ok] at done
  obtain ⟨e, -, -, -, done⟩ := done
  cases done
  exact l

theorem QueueLaw.fetchnodeOperation {st : Store} (l : st.QueueLaw) {c : Command} {d : CommandDone}
    (done : fetchnodeOperation c st = .ok d) : d.store.QueueLaw := by
  simp only [Machine.fetchnodeOperation, bind_eq_ok] at done
  obtain ⟨n, -, -, -, done⟩ := done
  cases done
  exact l

theorem QueueLaw.setnodeOperation {st : Store} (l : st.QueueLaw) {c : Command} {d : CommandDone}
    (done : setnodeOperation c st = .ok d) : d.store.QueueLaw := by
  simp only [Machine.setnodeOperation, bind_eq_ok] at done
  obtain ⟨n, -, -, -, -, -, done⟩ := done
  cases done
  dsimp only
  refine l.modifyNode n ?_
  exact fun _ => rfl

/-! Strikes, BAR and UNBAR (R140, R141, R144). -/

theorem QueueLaw.barRecord {st : Store} (l : st.QueueLaw) (n : Node) (h : Handle) : (barRecord n st h).QueueLaw := by
  have suspends : (st.record h).state.isOccupying = true →
      Follows (st.record h) { st.record h with state := .suspended, reasons := barredReasons (st.record h) n } :=
    fun occupying => .suspend (l.records h) occupying _
  cases state : (st.record h).state <;> simp only [Machine.barRecord, state]
  case waiting | displaced | draining => exact l.close .barred h
  case held =>
    refine QueueLaw.postParties (l.modifyRecord ?_) h .suspended
    exact suspends (by rw [state]; rfl)
  case suspended =>
    refine l.modifyRecord ?_
    rw [← state] at suspends
    exact suspends (by rw [state]; rfl)
  case free | closed | corrupt => exact l

theorem QueueLaw.barNode {st : Store} (l : st.QueueLaw) (n : Node) : (st.barNode n).QueueLaw := by
  have l' : (st.modifyNode n fun r => { r with state := .barred }).QueueLaw := l.modifyNode n fun _ => rfl
  exact l'.foldl _ fun _ h _ l => l.barRecord n h

theorem QueueLaw.strikeNode {st : Store} (l : st.QueueLaw) (limit : Nat) (n : Node) (count : Nat) :
    (st.strikeNode limit n count).QueueLaw := by
  unfold Store.strikeNode
  split
  · have l' : (st.modifyNode n fun r => { r with strikes := (applyStrikes limit count (st.node n).strikes).1 }).QueueLaw :=
      l.modifyNode n fun _ => rfl
    dsimp only
    split
    · exact l'.barNode n
    · exact l'
  · exact l

theorem QueueLaw.barOperation {st : Store} (l : st.QueueLaw) {c : Command} {d : CommandDone}
    (done : barOperation c st = .ok d) : d.store.QueueLaw := by
  simp only [Machine.barOperation, bind_eq_ok] at done
  obtain ⟨n, -, -, -, done⟩ := done
  cases state : (st.node n).state <;> simp only [state, bind_eq_ok, pure_eq_ok, reduceCtorEq] at done
  case barred => subst done; exact l
  case joined =>
    obtain ⟨-, -, rfl⟩ := done
    exact (l.barNode n).settle

/-- Lowering one record's reasons leaves every other record as it is. -/
theorem record_lowerReasons_ne (st : Store) {h k : Handle} (reasons : Reasons) (hk : k ≠ h) :
    (lowerReasons st h reasons).record k = st.record k := by
  unfold lowerReasons
  split <;> simp [record_postParties, record_modifyRecord, hk]

/-- SUSPENDED records' reasons are lowered one after another. -/
theorem QueueLaw.lowerAll {st : Store} (l : st.QueueLaw) (reasons : LeaseRecord → Reasons) (hs : List Handle)
    (once : hs.Nodup) (suspended : ∀ h ∈ hs, (st.record h).state = .suspended) :
    (hs.foldl (fun st h => Machine.lowerReasons st h (reasons (st.record h))) st).QueueLaw := by
  induction hs generalizing st with
  | nil => exact l
  | cons h rest ih =>
    obtain ⟨apart, once⟩ := List.nodup_cons.mp once
    refine ih (l.lowerReasons (suspended h (by simp)) _) once fun k hk => ?_
    rw [record_lowerReasons_ne st _ fun e : k = h => apart (e ▸ hk)]
    exact suspended k (by simp [hk])

theorem QueueLaw.unbarOperation {st : Store} (l : st.QueueLaw) {c : Command} {d : CommandDone}
    (done : unbarOperation c st = .ok d) : d.store.QueueLaw := by
  simp only [Machine.unbarOperation, bind_eq_ok] at done
  obtain ⟨n, -, -, -, -, -, -, -, done⟩ := done
  cases done
  have l' : (st.modifyNode n fun r => { r with state := .joined, strikes := 0 }).QueueLaw := l.modifyNode n fun _ => rfl
  refine l'.lowerAll (unbarredReasons · n) (st.heldBackBy n) (nodup_allHandles.filter _) fun h hh => ?_
  have held : heldBack (st.record h) n = true := (List.mem_filter.mp hh).2
  refine (l.records h).reasons ?_
  cases hr : (st.record h).reasons with
  | mk supervisor ownerBarred granteeBarred =>
    simp only [heldBack, hr, Bool.or_eq_true, Bool.and_eq_true] at held
    obtain ⟨barred, -⟩ | ⟨barred, -⟩ := held <;> simp [Reasons.isEmpty, barred]

/-! DISCARD (R25, R196). -/

/-- What refers to a record, but for the live children's own closings: its cells, its entry, its place in lists (R192). -/
def detached (st : Store) (h : Handle) : Store :=
  { (st.emptyCellsOf h).dropFromQueue h with
    records := st.records.map fun r =>
      if r.check = 0 then { r with children := r.children.filter fun c => decide (c ≠ h) } else r }

theorem record_detached (st : Store) (h k : Handle) :
    ∃ cs, (st.detached h).record k = withChildren (st.record k) cs := by
  have : (st.detached h).record k = if (st.record k).check = 0 then
      withChildren (st.record k) ((st.record k).children.filter fun c => decide (c ≠ h)) else st.record k := by
    simp [detached, record]
  rw [this]
  split
  · exact ⟨_, rfl⟩
  · exact ⟨(st.record k).children, rfl⟩

theorem mem_queue_detached {st : Store} {h : Handle} {e : QueueEntry} :
    e ∈ (st.detached h).queue ↔ e ∈ st.queue ∧ e.handle ≠ h := mem_dropFromQueue (st := st.emptyCellsOf h)

/-- A detached record has no cell. -/
theorem cell_detached (st : Store) (h : Handle) (f : Frame) (sl : Slot) :
    (st.detached h).cell f sl = (st.emptyCellsOf h).cell f sl := rfl

theorem QueueLaw.tied_detached {st : Store} (l : st.QueueLaw) (h : Handle) : (st.detached h).Tied := by
  refine l.toTied.shrink (fun k => ?_) (fun _ => rfl) (fun f sl => ?_) List.filter_sublist (fun f sl k _ hk => ?_)
    (fun k _ hk => ?_)
  · obtain ⟨cs, hr⟩ := st.record_detached h k
    rw [hr]
    exact (l.records k).withChildren cs
  · rw [cell_detached, cell_emptyCellsOf]
    split
    · exact .inr rfl
    · exact .inl rfl
  · obtain ⟨cs, hr⟩ := st.record_detached h k
    rw [hr]
    exact hk
  · obtain ⟨cs, hr⟩ := st.record_detached h k
    rw [hr]
    exact hk

/-- Isolating a record in an undamaged store detaches it and closes its orphans (R192). -/
theorem closes_isolate {st : Store} (l : st.QueueLaw) (h : Handle) :
    Closes (fun _ => .cascade) [] (st.detached h) (st.isolate h false) ∧ (st.isolate h false).Tied := by
  have each : ∀ (mid : Store) (k : Handle),
      Closes (fun _ => .cascade) [] mid (if (mid.record k).state.isLive then mid.close .cascade k else mid) := by
    intro mid k
    split
    · simpa using mid.closes_close .cascade k
    · exact .refl _ _ _
  refine ⟨Closes.foldl _ (fun mid k _ => each mid k) _, List.foldlRecOn _ _ (l.tied_detached h) fun mid hm k _ => ?_⟩
  split
  · exact hm.closeLevels 2 [k] .cascade k (by simp)
  · exact hm

/-- A record that has been isolated can become FREE, whatever its state was (R196). -/
theorem QueueLaw.free_isolate {st : Store} (l : st.QueueLaw) (h : Handle) : ((st.isolate h false).free h).QueueLaw := by
  obtain ⟨closes, tied⟩ := closes_isolate l h
  have record : ∀ k, ((st.isolate h false).free h).record k =
      if k = h then LeaseRecord.cleared ((st.isolate h false).record k).generation else (st.isolate h false).record k :=
    fun k => record_modifyRecord _ h k _
  have unnamed : ∀ f sl, ((st.isolate h false).cell f sl).names ≠ some h := by
    intro f sl names
    obtain same | empty := closes.cell f sl
    · rw [same, cell_detached, cell_emptyCellsOf] at names
      split at names
      · simp [Cell.cleared] at names
      · rename_i other; exact other ⟨l.cells f sl, names⟩
    · simp [empty, Cell.cleared] at names
  have absent : h ∉ (st.isolate h false).waiting := by
    intro hw
    obtain ⟨e, he, named⟩ := List.mem_map.mp hw
    exact (mem_queue_detached.mp (closes.queue.subset he)).2 named
  refine { toTied := tied.shrink (fun k => ?_) (fun _ => rfl) (fun _ _ => .inl rfl) (.refl _) (fun f sl k names hk => ?_)
             (fun k hw hk => ?_), waits := fun k hk => ?_ }
  · rw [record]
    split
    · exact soundRecord_cleared _
    · exact tied.records k
  · rw [record, if_neg fun e : k = h => unnamed f sl (e ▸ names)]
    exact hk
  · rw [record, if_neg fun e : k = h => absent (e ▸ hw)]
    exact hk
  · by_cases here : k = h
    · rw [record, if_pos here] at hk
      exact Bool.noConfusion hk
    · rw [record, if_neg here] at hk ⊢
      have notClosed : ((st.isolate h false).record k).state ≠ .closed := fun hc => by simp [hc, RecState.isQueued] at hk
      obtain ⟨cs, kept⟩ := (closes.record k).resolve_right fun c => notClosed c.2.state
      obtain ⟨cs', before⟩ := st.record_detached h k
      rw [kept, before] at hk ⊢
      obtain ⟨entry, waits⟩ := l.waits k hk
      obtain ⟨e, he, rfl⟩ := List.mem_map.mp entry
      have still := (closes.waiting e (mem_queue_detached.mpr ⟨he, here⟩)).resolve_right fun c => notClosed c.1
      exact ⟨List.mem_map_of_mem still, waits⟩

theorem QueueLaw.discarded {st : Store} (l : st.QueueLaw) (h : Handle) : (st.discarded h).QueueLaw := by
  dsimp only [Store.discarded]
  split
  · exact (l.free_isolate h).recount.settle
  · exact (l.free_isolate h).settle

theorem QueueLaw.discardOperation {st : Store} (l : st.QueueLaw) {device : DeviceState} {t : RawTag} {d : CommandDone}
    (done : discardOperation device t st = .ok d) : d.store.QueueLaw := by
  cases named : t.handle? <;> simp only [Machine.discardOperation, named, reduceCtorEq] at done
  split at done
  · simp only [discardWhole, bind_eq_ok] at done
    obtain ⟨-, -, -, -, done⟩ := done
    cases done
    exact l.discarded _
  · simp only [bind_eq_ok, need_eq_ok, decide_eq_true_eq] at done
    obtain ⟨h, -, -, closed, done⟩ := done
    cases done
    exact l.free closed

/-! The sweep's visits (R104). -/

theorem QueueLaw.visitCloseAge {st : Store} (l : st.QueueLaw) (h : Handle) : (visitCloseAge st h).QueueLaw := by
  dsimp only [Machine.visitCloseAge]
  split
  · rename_i closed
    split
    · exact l.free closed
    · refine l.modifyRecord ?_
      exact .of_same (l.records h) rfl rfl rfl rfl rfl rfl rfl rfl
  · exact l

theorem QueueLaw.visitIdle {st : Store} (l : st.QueueLaw) (limit : Nat) (h : Handle) : (visitIdle limit st h).QueueLaw := by
  have counted : (st.modifyRecord h fun r => { r with idleCount := min (r.idleCount + 1) 15 }).QueueLaw :=
    l.modifyRecord (.of_same (l.records h) rfl rfl rfl rfl rfl rfl rfl rfl)
  dsimp only [Machine.visitIdle]
  split
  · split
    · refine l.modifyRecord ?_
      exact .of_same (l.records h) rfl rfl rfl rfl rfl rfl rfl rfl
    · split
      · exact counted.close .idle h
      · exact counted
  · exact l

theorem QueueLaw.visitTerm {st : Store} (l : st.QueueLaw) (warning : Nat) (h : Handle) :
    (visitTerm warning st h).QueueLaw := by
  have counted : (st.modifyRecord h fun r => { r with term := r.term - 1 }).QueueLaw :=
    l.modifyRecord (.of_same (l.records h) rfl rfl rfl rfl rfl rfl rfl rfl)
  dsimp only [Machine.visitTerm]
  split
  · split
    · exact counted.close .expired h
    · split
      · exact counted.postParties h .expiring
      · exact counted
  · exact l

theorem QueueLaw.visitDrain {st : Store} (l : st.QueueLaw) (h : Handle) : (visitDrain st h).QueueLaw := by
  unfold Machine.visitDrain
  split
  · exact l.close .released h
  · exact l

/-- A queued record is placed: it leaves the queue and occupies its cells (R64, R65). -/
theorem QueueLaw.placeEntry {st : Store} (l : st.QueueLaw) {h : Handle} (queued : (st.record h).state.isQueued = true)
    (first : Slot) (k : NoticeKind) : (placeEntry st h first k).QueueLaw := by
  have s := l.records h
  have root := s.root queued
  have sound : SoundRecord { st.record h with state := .held, firstSlot := some first, waitLimit := none, waitAge := none } :=
    { good := s.good
      reasons := fun hr => by
        have := s.reasons hr
        simp [this, RecState.isQueued] at queued
      root := fun _ => root
      grantee := s.grantee
      limit := fun q => Bool.noConfusion q
      age := fun q => Bool.noConfusion q }
  have occupies : LeaseRecord.isOccupyingRoot
      { st.record h with state := .held, firstSlot := some first, waitLimit := none, waitAge := none } = true := by
    simp [LeaseRecord.isOccupyingRoot, root, RecState.isOccupying]
  exact ((l.leave sound rfl fun _ => occupies).writeCells _ (by simpa using occupies)).postOwner h k

theorem QueueLaw.ageEntry {st : Store} (l : st.QueueLaw) {h : Handle} (queued : (st.record h).state.isQueued = true) :
    (ageEntry st h).QueueLaw := by
  have aged : (st.modifyRecord h fun r => { r with waitAge := some (min (r.waitAge.getD 0 + 1) 255) }).QueueLaw :=
    l.modifyRecord (.of_same (l.records h) rfl rfl rfl rfl rfl rfl (l.waits h queued).2.2.symm rfl)
  dsimp only [Machine.ageEntry]
  split
  · exact aged.close _ h
  · exact aged

theorem QueueLaw.visitEntry {st : Store} (l : st.QueueLaw) (h : Handle) : (visitEntry st h).QueueLaw := by
  dsimp only [Machine.visitEntry]
  split
  · rename_i queued
    split
    · exact l.placeEntry queued _ _
    · exact l.ageEntry queued
  · exact l

/-- Every visit of a sweep keeps Law 3, whatever the store it finds (R104). -/
theorem QueueLaw.visit {st : Store} (l : st.QueueLaw) (idleLimit warning : Nat) (v : Visit) :
    (visit idleLimit warning st v).QueueLaw := by
  cases v with
  | closeAge h => exact l.visitCloseAge h
  | idle h => exact l.visitIdle idleLimit h
  | term h => exact l.visitTerm warning h
  | drain h => exact l.visitDrain h
  | queueEntry h => exact l.visitEntry h
  | clearUsed => exact l.mapRecords fun _ s => .of_same s rfl rfl rfl rfl rfl rfl rfl rfl

theorem QueueLaw.makeVisits {st : Store} (l : st.QueueLaw) (p : SweepProgress) (visits : List Visit) :
    (State.makeVisits p st visits).1.QueueLaw :=
  List.foldlRecOn (motive := fun a : Store × Bool => a.1.QueueLaw) visits _ l fun _ ha v _ => ha.visit _ _ v

theorem QueueLaw.treatNodes {st : Store} (l : st.QueueLaw) (p : StrikeProgress) (todo : List (Node × Nat)) :
    (State.treatNodes p st todo).1.QueueLaw :=
  List.foldlRecOn (motive := fun a : Store × Bool => a.1.QueueLaw) todo _ l fun _ ha t _ => ha.strikeNode _ t.1 t.2

/-! Fold, quarantine and audit (R85, R191, R194, R198). -/

theorem QueueLaw.foldTag {st : Store} (l : st.QueueLaw) (t : Tag) : (foldTag st t).QueueLaw := by
  unfold Machine.foldTag
  split
  · refine l.foldl _ fun mid h _ lm => lm.modifyRecord ?_
    exact .of_same (lm.records h) rfl rfl rfl rfl rfl rfl rfl rfl
  · exact l

/-- A queue rebuilt under Law 3 closes nothing: the queued records have room (R194). -/
theorem QueueLaw.rebuildQueue {st : Store} (l : st.QueueLaw) : st.rebuildQueue.QueueLaw := by
  have mem : ∀ h, h ∈ allHandles.filter (fun h => (st.record h).state.isQueued) ↔ (st.record h).state.isQueued = true :=
    fun h => by simp [mem_allHandles]
  have once : (allHandles.filter fun h => (st.record h).state.isQueued).Nodup := nodup_allHandles.filter _
  have room : (allHandles.filter fun h => (st.record h).state.isQueued).length ≤ 16 := by
    have entered : (allHandles.filter fun h => (st.record h).state.isQueued) ⊆ st.waiting :=
      fun h hh => (l.waits h ((mem h).mp hh)).1
    have := (once.subperm entered).length_le
    rw [List.length_map] at this
    exact this.trans l.length
  have rebuilt : st.rebuildQueue = { st with queue :=
      (allHandles.filter fun h => (st.record h).state.isQueued).map fun h => ⟨h, true⟩ } := by
    simp only [Store.rebuildQueue, Config.queueRoom, List.take_of_length_le room, List.drop_eq_nil_of_le room,
      List.foldl_nil]
  have waiting : st.rebuildQueue.waiting = allHandles.filter fun h => (st.record h).state.isQueued := by
    rw [rebuilt]
    simp [Store.waiting, Function.comp_def]
  have record : ∀ h, st.rebuildQueue.record h = st.record h := fun h => by rw [rebuilt]; rfl
  refine { records := fun h => record h ▸ l.records h, nodes := fun n => by rw [rebuilt]; exact l.nodes n,
           cells := fun f sl => by rw [rebuilt]; exact l.cells f sl, entries := ?_, named := fun f sl h names => ?_,
           length := ?_, once := waiting ▸ once, queued := fun h hh => ?_, waits := fun h hq => ?_ }
  · rw [rebuilt]
    intro e he
    obtain ⟨h, -, rfl⟩ := List.mem_map.mp he
    rfl
  · rw [record]
    rw [rebuilt] at names
    exact l.named f sl h names
  · rw [rebuilt]
    simpa using room
  · rw [waiting, mem] at hh
    rw [record]
    exact hh
  · rw [record] at hq ⊢
    rw [waiting, mem]
    exact ⟨hq, (l.waits h hq).2⟩

/-- A quarantine of an undamaged store at most rebuilds the queue (R191). -/
theorem QueueLaw.quarantined {st : Store} (l : st.QueueLaw) (queueMark : Bool) : (st.quarantined queueMark).QueueLaw := by
  have records : (allHandles.filter fun h => st.fails (.record h)) = [] := by
    simp [Store.fails, (l.records _).good]
  have nodes : (allNodes.filter fun n => st.fails (.node n)) = [] := by simp [Store.fails, l.nodes]
  have cells : (allFrames.flatMap fun f => (allSlots.filter fun s => st.fails (.cell f s)).map fun s => (f, s)) = [] := by
    simp [Store.fails, l.cells]
  simp only [Store.quarantined, records, nodes, cells, List.foldl_nil, List.isEmpty_nil, if_true]
  split
  · exact l.rebuildQueue.settle
  · exact l.settle

/-- A rewritten cell names an occupying root, or none (R194). -/
theorem QueueLaw.rewriteCell {st : Store} (l : st.QueueLaw) (f : Frame) (s : Slot) : (st.rewriteCell f s).QueueLaw := by
  have cell : ∀ g u, (st.rewriteCell f s).cell g u = if g = f ∧ u = s then
      ⟨if s.val < st.frameLength then st.coverer f s else none, true⟩ else st.cell g u := fun g u => cell_putCell st f g s u _
  refine { records := l.records, nodes := l.nodes, cells := fun g u => ?_, entries := l.entries,
           named := fun g u h names => ?_, length := l.length, once := l.once, queued := l.queued, waits := l.waits }
  · rw [cell]
    split
    · rfl
    · exact l.cells g u
  · rw [cell] at names
    split_ifs at names
    · have found := List.find?_some names
      rw [Bool.and_eq_true] at found
      exact found.1
    · exact l.named g u h names

theorem QueueLaw.repairCell {st : Store} (l : st.QueueLaw) (c : Frame × Slot) : (st.repairCell c).QueueLaw :=
  (l.rewriteCell c.1 c.2).foldl _ fun mid h _ lm => by
    split
    · exact lm.close .lost h
    · exact lm

end Store

end Sys2Proof.Machine
end

