-- ==== Sys2Proof/Proofs/QueueSteps.lean ====
section
/-! PROOFS. Every step that takes no damage keeps Law 3 (R46): what leaves the store and the clear alone, what changes the store within the law, and the clear itself. -/

namespace Sys2Proof.Machine

/-! The running clear under the shared updates of the state. -/

namespace State

@[simp] theorem clearStep_postQuarantine (s : State) (i : Item) :
    (s.postQuarantine i).engine.clearStep = s.engine.clearStep := rfl

@[simp] theorem clearStep_failedCheck (s : State) (mode : IntegrityMode) (o : OpKind) (i : Item) :
    (s.failedCheck mode o i).engine.clearStep = s.engine.clearStep := by
  cases mode with
  | quarantine => rw [failedCheck_quarantine]; simp
  | halt => rw [failedCheck_halt]; split <;> simp

@[simp] theorem store_commit (s : State) (new : Store) : (s.commit new).store = new := by simp [commit]

@[simp] theorem clearStep_commit (s : State) (new : Store) : (s.commit new).engine.clearStep = s.engine.clearStep := by
  unfold commit markDisturbed
  split <;> rfl

@[simp] theorem clearStep_completeCommand (s : State) (c : Command) (o : CmdOutcome) (h : Word)
    (im : Option (Vector Word 16)) : (s.completeCommand c o h im).engine.clearStep = s.engine.clearStep := by
  rw [(completeCommand_engine s c o h im).1]
  cases s.port.waiting <;> rfl

@[simp] theorem clearStep_take (s : State) (t : Taking) : (s.take t).engine.clearStep = s.engine.clearStep := by
  unfold take
  split
  · rfl
  · cases t <;> rfl

@[simp] theorem clearStep_takeRequest (s : State) (n : Node) : (s.takeRequest n).engine.clearStep = s.engine.clearStep := rfl

@[simp] theorem clearStep_takeCommand (s : State) : s.takeCommand.engine.clearStep = s.engine.clearStep := rfl

@[simp] theorem clearStep_takeAuditStep (s : State) : s.takeAuditStep.engine.clearStep = s.engine.clearStep := rfl

@[simp] theorem clearStep_endAudit (s : State) (r : AuditResult) :
    (s.endAudit r).engine.clearStep = s.engine.clearStep := rfl

@[simp] theorem clearStep_enter (s : State) (t : Taking) : (s.enter t).engine.clearStep = s.engine.clearStep := by
  cases t <;> rfl

@[simp] theorem clearStep_enterSweep (s : State) : s.enterSweep.engine.clearStep = s.engine.clearStep := by
  unfold enterSweep; split <;> simp

@[simp] theorem clearStep_enterStrikes (s : State) : s.enterStrikes.engine.clearStep = s.engine.clearStep := by
  unfold enterStrikes; split <;> simp

@[simp] theorem clearStep_latchViolation (s : State) (g t : Option Node) :
    (s.latchViolation g t).engine.clearStep = s.engine.clearStep := by simp

@[simp] theorem clearStep_endSlot (s : State) : s.endSlot.engine.clearStep = s.engine.clearStep := by
  unfold endSlot judgeSlot
  repeat' split
  all_goals simp [postStrike]

@[simp] theorem clearStep_endFrame (s : State) : s.endFrame.engine.clearStep = s.engine.clearStep := by
  unfold endFrame; split <;> rfl

@[simp] theorem clearStep_startFrame (s : State) : s.startFrame.engine.clearStep = s.engine.clearStep := by
  unfold startFrame
  split
  · unfold postSweep; split <;> simp [postBuild]
  all_goals rfl

@[simp] theorem store_advanceAudit (s : State) : s.advanceAudit.store = s.store := by
  unfold advanceAudit; split <;> rfl

@[simp] theorem clearStep_advanceAudit (s : State) : s.advanceAudit.engine.clearStep = s.engine.clearStep := by
  unfold advanceAudit; split <;> rfl

@[simp] theorem store_countMismatches (s : State) (n : Nat) : (s.countMismatches n).store = s.store := rfl

@[simp] theorem clearStep_countMismatches (s : State) (n : Nat) :
    (s.countMismatches n).engine.clearStep = s.engine.clearStep := rfl

@[simp] theorem store_reports (s : State) (op : OpKind) (items : List Item) : (s.reports op items).store = s.store := by
  induction items generalizing s with
  | nil => rfl
  | cons i rest ih => exact (ih (s.report op i)).trans (store_report s op i)

@[simp] theorem engine_reports (s : State) (op : OpKind) (items : List Item) :
    (s.reports op items).engine = s.engine := by
  induction items generalizing s with
  | nil => rfl
  | cons i rest ih => exact (ih (s.report op i)).trans (engine_report s op i)

@[simp] theorem store_failedChecks (s : State) (mode : IntegrityMode) (op : OpKind) (items : List Item) :
    (s.failedChecks mode op items).store = s.store := by
  induction items generalizing s with
  | nil => rfl
  | cons i rest ih => exact (ih (s.failedCheck mode op i)).trans (store_failedCheck s mode op i)

@[simp] theorem clearStep_failedChecks (s : State) (mode : IntegrityMode) (op : OpKind) (items : List Item) :
    (s.failedChecks mode op items).engine.clearStep = s.engine.clearStep := by
  induction items generalizing s with
  | nil => rfl
  | cons i rest ih => exact (ih (s.failedCheck mode op i)).trans (clearStep_failedCheck s mode op i)

end State

/-! States between which the store stays, and the clear, unless one is posted from its first step. -/

/-- The store is as it was, and so is a running clear, or a clear is posted that has not written yet (R112, R186). -/
def State.Unmoved (s t : State) : Prop :=
  t.store = s.store ∧ (t.engine.clearStep = s.engine.clearStep ∨ ∃ keep, t.engine.clearStep = some ⟨1, keep⟩)

namespace State.Unmoved

variable {s t u : State}

theorem of_eq (store : t.store = s.store) (clear : t.engine.clearStep = s.engine.clearStep) : s.Unmoved t :=
  ⟨store, .inl clear⟩

theorem refl (s : State) : s.Unmoved s := .of_eq rfl rfl

theorem trans (a : s.Unmoved t) (b : t.Unmoved u) : s.Unmoved u :=
  ⟨b.1.trans a.1, b.2.elim (fun hb => a.2.imp hb.trans fun ⟨keep, ha⟩ => ⟨keep, hb.trans ha⟩) .inr⟩

end State.Unmoved

namespace State

theorem unmoved_refuseCommand (s : State) (c : Command) (o : CmdOutcome) : s.Unmoved (s.refuseCommand c o) :=
  .of_eq (by simp [refuseCommand]) (by simp [refuseCommand])

theorem unmoved_acceptCommand (s : State) (c : Command) : s.Unmoved (s.acceptCommand c) :=
  .of_eq (by simp) (by simp [acceptCommand])

/-- The five commands that act at their taking leave the store alone; CLEARTABLE posts the clear (R181, R186). -/
theorem unmoved_startOrdered (s : State) (c : Command) : s.Unmoved (s.startOrdered c) := by
  unfold startOrdered
  split
  · exact .trans (.of_eq rfl rfl) (s.takeCommand.startSequencer.unmoved_acceptCommand c)
  · exact s.unmoved_refuseCommand c _

theorem unmoved_stopOrdered (s : State) (c : Command) : s.Unmoved (s.stopOrdered c) := by
  unfold stopOrdered
  split
  · refine .trans (.of_eq ?_ ?_) (s.takeCommand.stopTaken.unmoved_acceptCommand c)
    · unfold stopTaken
      repeat' split
      all_goals rfl
    · rw [(stopTaken_engine s.takeCommand).1]; rfl
  · exact s.unmoved_refuseCommand c _

theorem unmoved_thawOrdered (s : State) (c : Command) : s.Unmoved (s.thawOrdered c) := by
  unfold thawOrdered
  split
  · refine .trans (.of_eq ?_ ?_) (s.takeCommand.thawDevice.unmoved_acceptCommand c) <;>
      (dsimp only [thawDevice]; split <;> rfl)
  · exact s.unmoved_refuseCommand c _

theorem unmoved_cleartableOrdered (s : State) (c : Command) : s.Unmoved (s.cleartableOrdered c) := by
  unfold cleartableOrdered
  split
  · refine ⟨?_, .inr ⟨true, rfl⟩⟩
    dsimp only [beginClear]
    split <;> rfl
  · exact s.unmoved_refuseCommand c _

theorem unmoved_auditOrdered (s : State) (c : Command) : s.Unmoved (s.auditOrdered c) := by
  unfold auditOrdered
  split
  · exact .trans (.of_eq rfl rfl) (s.takeCommand.beginAudit.unmoved_acceptCommand c)
  · exact s.unmoved_refuseCommand c _

theorem unmoved_ordered? {s done : State} {c : Command} (h : s.ordered? c = some done) : s.Unmoved done := by
  unfold ordered? at h
  split at h <;> cases h
  · exact s.unmoved_startOrdered c
  · exact s.unmoved_stopOrdered c
  · exact s.unmoved_thawOrdered c
  · exact s.unmoved_cleartableOrdered c
  · exact s.unmoved_auditOrdered c

/-- What completes at its taking leaves the store alone (R108). -/
theorem unmoved_atOnce? {s done : State} {t : Taking} (h : s.atOnce? t = some done) : s.Unmoved done := by
  cases t with
  | fold tags =>
    cases tags with
    | nil => cases h; exact .of_eq (by simp) (by simp)
    | cons => cases h
  | sweep count =>
    simp only [atOnce?] at h
    split at h <;> cases h
    exact .of_eq (by simp [dropSweep]) (by simp [dropSweep])
  | command c =>
    simp only [atOnce?] at h
    split at h
    · rename_i ordered
      cases h
      exact unmoved_ordered? ordered
    · obtain ⟨o, -, rfl⟩ := Option.map_eq_some_iff.mp h
      exact s.unmoved_refuseCommand c o
  | request n p =>
    obtain ⟨code, -, rfl⟩ := Option.map_eq_some_iff.mp h
    exact .of_eq rfl rfl
  | auditStep =>
    simp only [atOnce?] at h
    split at h <;> cases h
    exact .of_eq rfl rfl
  | quarantine | planBuild | strike | clearStep => cases h

/-- The engine's takings leave the store to the operations' own steps (R90, R94). -/
theorem unmoved_engage (s : State) : s.Unmoved s.engage := by
  have upTo : ∀ k (s : State), s.Unmoved (engageUpTo k s) := by
    intro k
    induction k with
    | zero => exact Unmoved.refl
    | succ k ih =>
      intro s
      rw [engageUpTo]
      split
      · split
        · rename_i done taken
          exact (unmoved_atOnce? taken).trans (ih done)
        · exact .of_eq (by simp) (by simp)
      · exact .refl s
  exact upTo 18 s

/-! Ticks. -/

theorem unmoved_endLastSlot (s : State) : s.Unmoved s.endLastSlot :=
  .trans (.of_eq (by simp) (by simp)) (.trans s.endSlot.unmoved_engage (.of_eq (by simp [endLastSlot]) (by simp [endLastSlot])))

theorem unmoved_advanceSequencer (s : State) : s.Unmoved s.advanceSequencer := by
  unfold advanceSequencer
  split
  · exact .of_eq (by simp) (by simp)
  · split
    · exact s.unmoved_endLastSlot.trans (.of_eq (by simp) (by simp))
    · exact s.unmoved_endLastSlot.trans (.trans s.endLastSlot.unmoved_engage (.of_eq (by simp) (by simp)))

theorem unmoved_beginRunning (s : State) : s.Unmoved s.beginRunning := .of_eq (by simp [beginRunning]) (by simp [beginRunning])

theorem unmoved_tick (s : State) : s.Unmoved s.tick := by
  have first : s.Unmoved s.tickTimer := .of_eq (by simp) (by simp)
  unfold tick
  split
  · exact first.trans s.tickTimer.unmoved_advanceSequencer
  · exact first.trans s.tickTimer.unmoved_advanceSequencer
  all_goals
    split
    · exact first.trans s.tickTimer.unmoved_beginRunning
    · exact first

theorem unmoved_clkPeriod (s : State) : s.Unmoved s.clkPeriod := by
  unfold clkPeriod
  split
  · exact .refl s
  · split
    · exact .of_eq rfl rfl
    · exact s.unmoved_tick

/-! Links. -/

theorem unmoved_modifyLink (s : State) (n : Node) (f : Link → Link) : s.Unmoved (s.modifyLink n f) := .of_eq rfl rfl

theorem unmoved_goodFrame (s : State) (n : Node) (g : GoodFrame) : s.Unmoved (s.goodFrame n g) := by
  refine s.unmoved_engage.trans ?_
  dsimp only [goodFrame]
  repeat' split
  all_goals exact .of_eq rfl rfl

theorem unmoved_frameArrival (s : State) (n : Node) (bytes : List Byte) : s.Unmoved (s.frameArrival n bytes) := by
  unfold frameArrival
  split
  · exact s.unmoved_goodFrame n _
  · exact .refl s

theorem unmoved_appendByte (s : State) (n : Node) (bytes : List Byte) : s.Unmoved (s.appendByte n bytes) := by
  unfold appendByte
  split
  · exact (s.unmoved_modifyLink n _).trans (unmoved_frameArrival _ n bytes)
  · repeat' split
    all_goals exact .of_eq rfl rfl

theorem unmoved_receiveByte (s : State) (n : Node) (b : Byte) : s.Unmoved (s.receiveByte n b) := by
  unfold receiveByte
  split
  · split <;> exact .of_eq rfl rfl
  · exact s.unmoved_appendByte n _
  · exact .refl s

/-! The port. -/

theorem unmoved_portWrite (s : State) {effect : State → State} (moves : ∀ s : State, s.Unmoved (effect s)) :
    s.Unmoved (s.portWrite effect) := by
  unfold portWrite
  split
  · exact .refl s
  · exact moves s

theorem unmoved_clearFlags (s : State) (v : Word) : s.Unmoved (s.clearFlags v) := s.unmoved_engage.trans (.of_eq rfl rfl)

theorem unmoved_clearWriteIgnored (s : State) (v : Word) : s.Unmoved (s.clearWriteIgnored v) := by
  unfold clearWriteIgnored
  split <;> exact .of_eq rfl rfl

theorem unmoved_writeConfiguration (s : State) (w : ConfigWord) (v : Word) : s.Unmoved (s.writeConfiguration w v) := by
  refine s.unmoved_engage.trans ?_
  dsimp only [writeConfiguration]
  split <;> exact .of_eq rfl rfl

theorem unmoved_writeCommand (s : State) (v : Word) : s.Unmoved (s.writeCommand v) := by
  refine s.unmoved_engage.trans ?_
  dsimp only [writeCommand, submit]
  split <;> exact .of_eq rfl rfl

theorem unmoved_writeFrontWord (s : State) (address : BitVec 6) (v : Word) : s.Unmoved (s.writeFrontWord address v) :=
  s.unmoved_engage.trans (.of_eq rfl rfl)

theorem unmoved_writeWord (s : State) (address : BitVec 6) (v : Word) : s.Unmoved (s.writeWord address v) := by
  unfold writeWord
  split
  case h_1 => exact s.unmoved_clearWriteIgnored v
  case h_2 => exact s.unmoved_writeCommand v
  case h_4 => exact s.unmoved_clearFlags v
  case h_6 | h_7 | h_8 | h_9 | h_10 | h_11 => exact s.unmoved_writeConfiguration _ v
  case h_14 | h_15 | h_16 | h_17 | h_18 => exact s.unmoved_writeFrontWord address v
  all_goals exact .of_eq rfl rfl

end State

/-! The engine beside a clear. -/

namespace State

/-- While a clear runs, the engine has nothing in progress and takes nothing but clear steps, commands and node requests (R109). -/
theorem Consistent.besideClear_of_taking {s : State} (c : s.Consistent) (running : s.engine.clearStep.isSome = true)
    {t : Taking} (taking : s.engine.taking = some t) (k : Conditions) : (InProgress.taken t k).besideClear = true := by
  obtain ⟨quarantine, sweep, build, fold, strikes, audit, progress⟩ := c.alone running
  unfold Engine.taking at taking
  split at taking
  · rename_i inProgress
    cases taking
    have := progress _ inProgress
    cases t <;> simp_all [InProgress.besideClear]
  · cases taking
  · cases taking
  · have idle : s.engine.strikePending = false := by simp [Engine.strikePending, strikes]
    simp only [Engine.highestPlace, quarantine, sweep, build, fold, idle, audit, Bool.false_eq_true, if_false] at taking
    split at taking
    · cases taking; rfl
    · split at taking
      · cases taking; rfl
      · split at taking <;> cases taking
        rfl

/-- An operation of the engine's own is taken only while no clear runs. -/
theorem Consistent.clearStep_of_taking {s : State} (c : s.Consistent) {t : Taking} (taking : s.engine.taking = some t)
    (own : (InProgress.taken t s.conditions).besideClear = false) : s.engine.clearStep = none := by
  cases running : s.engine.clearStep with
  | none => rfl
  | some p => simp [c.besideClear_of_taking (by simp [running]) taking s.conditions] at own

/-- A sweep or a strike operation is within its visits only while no clear runs. -/
theorem Consistent.clearStep_of_inProgress {s : State} (c : s.Consistent) {p : InProgress}
    (progress : s.engine.inProgress = some p) (own : p.besideClear = false) : s.engine.clearStep = none := by
  cases running : s.engine.clearStep with
  | none => rfl
  | some q =>
    obtain ⟨-, -, -, -, -, -, beside⟩ := c.alone (by simp [running])
    simp [beside p progress] at own

/-- While a clear runs, whatever is taken found INIT (R108, R109). -/
theorem Consistent.device_of_clearing {s : State} (c : s.Consistent) (running : s.engine.clearStep.isSome = true) :
    s.atTaking.device = .init := by
  have device := c.clearing running
  unfold atTaking
  split
  · rename_i t k progress
    obtain same | ⟨other, -⟩ := c.found t k progress
    · exact same.trans device
    · simp [device] at other
  all_goals exact device

/-- A clear step that is taken is the pending one (R109). -/
theorem Consistent.clearStep_of_step {s : State} (c : s.Consistent) {p : ClearProgress}
    (taking : s.engine.taking = some (.clearStep p)) : s.engine.clearStep = some p := by
  unfold Engine.taking at taking
  split at taking
  · rename_i k progress
    cases taking
    exact (c.steps _ _ progress).1 p rfl
  · cases taking
  · cases taking
  · unfold Engine.highestPlace at taking
    repeat' split at taking
    all_goals cases taking
    assumption

end State

/-! Steps that change the store within Law 3. -/

/-- What a step does to the store is no matter of Law 3, or keeps it while no clear runs. -/
def State.KeepsLaw (s t : State) : Prop :=
  s.Unmoved t ∨ (s.engine.clearStep = none ∧ t.engine.clearStep = none ∧ (s.store.QueueLaw → t.store.QueueLaw))

theorem State.KeepsLaw.of_law {s t : State} (clear : s.engine.clearStep = none)
    (same : t.engine.clearStep = s.engine.clearStep) (law : s.store.QueueLaw → t.store.QueueLaw) : s.KeepsLaw t :=
  .inr ⟨clear, same.trans clear, law⟩

/-- What leaves the store and the clear as they are may come before. -/
theorem State.KeepsLaw.after {s u t : State} (store : u.store = s.store)
    (clear : u.engine.clearStep = s.engine.clearStep) (keeps : u.KeepsLaw t) : s.KeepsLaw t := by
  unfold State.KeepsLaw at keeps
  rw [store, clear] at keeps
  exact keeps.imp (State.Unmoved.trans (.of_eq store clear)) id

theorem State.KeepsLaw.refl (s : State) : s.KeepsLaw s := .inl (.refl s)

namespace State

/-- A node request keeps Law 3 where its operation does; while a clear runs it is refused (R108). -/
theorem keepsLaw_performRequest {s : State} (n : Node) (p : Posted) (operation : Store → RequestResult)
    (init : s.engine.clearStep.isSome = true → s.atTaking.device = .init)
    (law : ∀ d, operation s.store = .ok d → s.store.QueueLaw → d.store.QueueLaw) :
    s.KeepsLaw (s.performRequest n p operation) := by
  unfold performRequest
  split
  · exact .inl (.of_eq rfl rfl)
  · rename_i passes
    cases done : operation s.store with
    | ok d =>
      have clear : s.engine.clearStep = none := by
        cases running : s.engine.clearStep with
        | none => rfl
        | some q => simp [init (by simp [running]), deviceRefusal] at passes
      exact .of_law clear (by simp [finishRequest]) fun l => by simpa [finishRequest] using law d done l
    | error stop =>
      cases stop with
      | refused code => exact .inl (.of_eq rfl rfl)
      | failed i => exact .inl (.of_eq (by simp) (by simp))

/-- A command keeps Law 3 where its operation does; while a clear runs it is refused (R108). -/
theorem keepsLaw_performCommand {s : State} (c : Command) (operation : Store → CommandResult)
    (init : s.engine.clearStep.isSome = true → s.atTaking.device = .init)
    (law : ∀ d, operation s.store = .ok d → s.store.QueueLaw → d.store.QueueLaw) :
    s.KeepsLaw (s.performCommand c operation) := by
  unfold performCommand
  split
  · exact .inl (.of_eq (by simp) (by simp))
  · rename_i passes
    cases done : operation s.store with
    | ok d =>
      have clear : s.engine.clearStep = none := by
        cases running : s.engine.clearStep with
        | none => rfl
        | some q => simp [init (by simp [running]), commandRefusal] at passes
      exact .of_law clear (by simp [finishCommand]) fun l => by simpa [finishCommand] using law d done l
    | error stop =>
      cases stop with
      | refused o => exact .inl (.of_eq (by simp) (by simp))
      | failed i => exact .inl (.of_eq (by simp) (by simp))

/-! Sweep and strikes. -/

theorem keepsLaw_finishSweep {s : State} (clear : s.engine.clearStep = none) (p : SweepProgress) :
    s.KeepsLaw (s.finishSweep p) :=
  .of_law clear (by simp [finishSweep, completeSweep]) fun l => by
    simpa [finishSweep, completeSweep] using (l.makeVisits p p.todo).settle

theorem unmoved_abandonSweep (s : State) (mode : IntegrityMode) (count : Nat) (i : Item) :
    s.Unmoved (s.abandonSweep mode count i) := by
  cases mode <;> dsimp only [abandonSweep]
  · split <;> exact .of_eq (by simp) (by simp)
  · exact .of_eq (by simp) (by simp)

theorem keepsLaw_performSweep {s : State} (clear : s.engine.clearStep = none) (count : Nat) :
    s.KeepsLaw (s.performSweep count) := by
  unfold performSweep
  split
  · split
    · exact .inl (.trans (.of_eq (by simp) (by simp)) (unmoved_abandonSweep _ _ _ _))
    · exact .after (by simp) (by simp) (keepsLaw_finishSweep (s := s.take (.sweep count)) (by simpa using clear) _)
  · exact .inl (.of_eq (by simp [dropSweep]) (by simp [dropSweep]))

/-- A sweep under way found no clear running. -/
theorem Consistent.clearStep_of_sweep {s : State} (c : s.Consistent) {p : SweepProgress}
    (underWay : s.sweepUnderWay = some p) : s.engine.clearStep = none := by
  unfold sweepUnderWay at underWay
  split at underWay
  · rename_i progress
    exact c.clearStep_of_inProgress progress rfl
  all_goals
    split at underWay
    · rename_i taking
      exact c.clearStep_of_taking taking rfl
    · cases underWay

theorem keepsLaw_sweepThrough {s : State} (c : s.Consistent) (mine : Visit → Bool) (fires : SweepProgress → Store → Bool) :
    s.KeepsLaw (s.sweepThrough mine fires) := by
  unfold sweepThrough
  split
  · exact .refl s
  · rename_i p underWay
    dsimp only
    split
    · exact .refl s
    · exact .of_law (c.clearStep_of_sweep underWay) (by simp) fun l => (l.makeVisits p _).makeVisits _ _

theorem keepsLaw_finishStrikes {s : State} (clear : s.engine.clearStep = none) (p : StrikeProgress) :
    s.KeepsLaw (s.finishStrikes p) :=
  .of_law clear (by simp [finishStrikes]) fun l => by
    simpa [finishStrikes] using (l.treatNodes p p.todo).settle

theorem keepsLaw_performStrikes {s : State} (clear : s.engine.clearStep = none) (todo : List (Node × Nat)) :
    s.KeepsLaw (s.performStrikes todo) := by
  unfold performStrikes
  split
  · refine .inl ?_
    unfold abandonStrikes
    split <;> exact .of_eq (by simp [returnStrikes]) (by simp [returnStrikes])
  · exact .after (by simp) (by simp) (keepsLaw_finishStrikes (s := s.take (.strike todo)) (by simpa using clear) _)

theorem Consistent.clearStep_of_strikes {s : State} (c : s.Consistent) {p : StrikeProgress}
    (underWay : s.strikeUnderWay = some p) : s.engine.clearStep = none := by
  unfold strikeUnderWay at underWay
  split at underWay
  · rename_i progress
    exact c.clearStep_of_inProgress progress rfl
  all_goals
    split at underWay
    · rename_i taking
      exact c.clearStep_of_taking taking rfl
    · cases underWay

/-! Audit steps. -/

theorem unmoved_abandonAuditStep (s : State) (mode : IntegrityMode) (i : Item) : s.Unmoved (s.abandonAuditStep mode i) := by
  unfold abandonAuditStep
  split <;> exact .of_eq (by simp [postAuditStep]) (by simp [postAuditStep])

theorem keepsLaw_performAuditStep {s : State} (clear : s.engine.clearStep = none) (mode : IntegrityMode) :
    s.KeepsLaw (s.performAuditStep mode) := by
  dsimp only [performAuditStep]
  split
  · exact .inl (s.unmoved_abandonAuditStep mode _)
  · split
    · exact .inl (.of_eq (by simp) (by simp))
    · split
      · exact .inl (s.unmoved_abandonAuditStep mode _)
      · refine .of_law clear (by simp) fun l => ?_
        have repaired := l.foldl (step := Store.repairCell) (s.store.auditMismatches s.engine.audit.position)
          fun _ c _ l => l.repairCell c
        simpa using repaired.settle

end State

/-! Node requests and commands by their operations. -/

/-- A node request's operation on the store, with what it found at its taking (R158). -/
def requestOperation (n : Node) (k : Conditions) : Request → Store → RequestResult
  | .claim args => claimOperation n args k.reinstatementWait
  | .renew t term => renewOperation n t term
  | .release t => releaseOperation n t
  | .sublet t target frames term => subletOperation n t target frames term
  | .recall t => recallOperation n t
  | .join => joinOperation n
  | .leave => leaveOperation n
  | .poll => pollOperation n
  | .query t => queryOperation n t
  | .status => statusOperation n k.superframe

/-- Every node request that goes through keeps Law 3. -/
theorem Store.QueueLaw.requestOperation {st : Store} (l : st.QueueLaw) {n : Node} {k : Conditions} {r : Request}
    {d : RequestDone} (done : requestOperation n k r st = .ok d) : d.store.QueueLaw :=
  match r with
  | .claim _ => l.claimOperation done
  | .renew _ _ => l.renewOperation done
  | .release _ => l.releaseOperation done
  | .sublet _ _ _ _ => l.subletOperation done
  | .recall _ => l.recallOperation done
  | .join => l.joinOperation done
  | .leave => l.leaveOperation done
  | .poll => l.pollOperation done
  | .query _ => l.queryOperation done
  | .status => l.statusOperation done

/-- A command's operation on the store; the five that act at their taking have none (R180, R181). -/
def commandOperation (s : State) (c : Command) : CommandName → Store → CommandResult
  | .place => placeOperation s.port.writeBack s.atTaking.reinstatementWait
  | .setframe => setframeOperation c.value
  | .fence => fenceOperation c.value
  | .amend => amendOperation c.tag s.port.writeBack
  | .revoke => revokeOperation c.tag
  | .suspend => suspendOperation c.tag
  | .resume => resumeOperation c.tag
  | .discard => discardOperation s.atTaking.device c.tag
  | .fetch => fetchOperation c.tag
  | .fetchq => fetchqOperation c.value
  | .bar => barOperation c
  | .unbar => unbarOperation c
  | .setnode => setnodeOperation c
  | .fetchnode => fetchnodeOperation c
  | .start | .stop | .thaw | .cleartable | .audit => fun _ => .error (.refused .unknown)

/-- Every command that goes through keeps Law 3. -/
theorem Store.QueueLaw.commandOperation {st : Store} (l : st.QueueLaw) {s : State} {c : Command} {name : CommandName}
    {d : CommandDone} (done : commandOperation s c name st = .ok d) : d.store.QueueLaw :=
  match name with
  | .place => l.placeOperation done
  | .setframe => l.setframeOperation done
  | .fence => l.fenceOperation done
  | .amend => l.amendOperation done
  | .revoke => l.revokeOperation done
  | .suspend => l.suspendOperation done
  | .resume => l.resumeOperation done
  | .discard => l.discardOperation done
  | .fetch => l.fetchOperation done
  | .fetchq => l.fetchqOperation done
  | .bar => l.barOperation done
  | .unbar => l.unbarOperation done
  | .setnode => l.setnodeOperation done
  | .fetchnode => l.fetchnodeOperation done
  | .start | .stop | .thaw | .cleartable | .audit => nomatch done

namespace State

theorem keepsLaw_request {s : State} (c : s.Consistent) (n : Node) (p : Posted) :
    s.KeepsLaw (s.performRequest n p (requestOperation n s.atTaking p.request)) :=
  keepsLaw_performRequest n p _ c.device_of_clearing fun _ done l => l.requestOperation done

/-- A command's row: the taken command of its name, performed. -/
def performTaken (name : CommandName) (s : State) : Host.Outcome State Fault Refusal :=
  match s.engine.takenCommand name with
  | some c => .next (s.performCommand c (commandOperation s c name))
  | none => .next s

theorem keepsLaw_performTaken {s t : State} (c : s.Consistent) (name : CommandName)
    (done : performTaken name s = .next t) : s.KeepsLaw t := by
  unfold performTaken at done
  split at done <;> cases done
  · exact keepsLaw_performCommand _ _ c.device_of_clearing fun _ done l => l.commandOperation done
  · exact .refl _

/-- The row of a command that acts at its taking (R181, R186). -/
def performOrdered (name : CommandName) (act : State → Command → State) (s : State) : Host.Outcome State Fault Refusal :=
  match s.engine.takenCommand name with
  | some c => .next (act s c)
  | none => .next s

theorem keepsLaw_performOrdered {s t : State} {name : CommandName} {act : State → Command → State}
    (moves : ∀ s c, State.Unmoved s (act s c)) (done : performOrdered name act s = .next t) : s.KeepsLaw t := by
  unfold performOrdered at done
  split at done <;> cases done
  · exact .inl (moves s _)
  · exact .refl _

/-- A report leaves what the operation found at its taking. -/
theorem device_atTaking_report (s : State) (o : OpKind) (i : Item) :
    (s.report o i).atTaking.device = s.atTaking.device := by
  obtain ⟨r, flags, he⟩ := s.report_eq o i
  rw [he]
  cases progress : s.engine.inProgress with
  | none => simp [atTaking, progress, conditions]
  | some p => cases p <;> simp [atTaking, progress, conditions]

/-- DISCARD reports a damaged record before it is performed (R196). -/
theorem keepsLaw_discard {s t : State} (c : s.Consistent) (done : execDiscard s = .next t) : s.KeepsLaw t := by
  unfold execDiscard at done
  split at done <;> cases done
  · rename_i command _
    have reported : (s.reportDiscarded command).store = s.store ∧ (s.reportDiscarded command).engine = s.engine ∧
        (s.reportDiscarded command).atTaking.device = s.atTaking.device := by
      unfold reportDiscarded
      repeat' split
      · exact ⟨rfl, rfl, rfl⟩
      · exact ⟨by simp, by simp, s.device_atTaking_report _ _⟩
      · exact ⟨rfl, rfl, rfl⟩
    obtain ⟨store, engine, device⟩ := reported
    refine .after store (by rw [engine]) (keepsLaw_performCommand command _ ?_ fun _ done l => l.discardOperation done)
    rw [engine, device]
    exact c.device_of_clearing
  · exact .refl _

end State

/-! The rows, one by one. -/

/-- A row that is not damage and not a clear step's: it leaves the store and the clear alone, or keeps Law 3 while no clear runs. -/
theorem keepsLaw_exec {s t : State} (c : s.Consistent) (i : Instr) (undamaged : ∀ d, i ≠ .itemDamaged d)
    (other : i ≠ .initClearStep) (done : exec i s = .next t) : s.KeepsLaw t := by
  cases i <;> simp only [exec] at done
  case itemDamaged d => exact absurd rfl (undamaged d)
  case initClearStep => exact absurd rfl other
  case deviceReset => cases done; exact .inl ⟨rfl, .inr ⟨false, rfl⟩⟩
  case resetRelease =>
    cases done
    unfold State.releaseReset
    split <;> exact .inl (.of_eq rfl rfl)
  case slotStart =>
    unfold execSlotStart at done
    split at done
    · cases done; exact .refl _
    · dsimp only at done
      split at done <;> cases done
      · exact .inl s.unmoved_engage
      · exact .inl (s.unmoved_engage.trans s.engage.unmoved_tick)
  case firstFrameStart =>
    dsimp only [execFirstFrameStart] at done
    split at done <;> cases done
    · exact .inl (s.unmoved_engage.trans (.trans (.of_eq (by simp) (by simp)) s.engage.tickTimer.unmoved_beginRunning))
    · exact .inl s.unmoved_engage
  case linkFrameArrival n bytes =>
    unfold execLinkFrameArrival at done
    split at done <;> cases done
    · exact .inl ((s.unmoved_modifyLink n _).trans (State.unmoved_frameArrival _ n bytes))
    · exact .refl _
  case linkByteReceived n b =>
    cases done
    exact .inl ((s.unmoved_modifyLink n _).trans (State.unmoved_receiveByte _ n b))
  case partialFrameTimeout n => cases done; exact .inl (s.unmoved_modifyLink n _)
  case lineBreakBegin n | lineBreakEnd n | responseSent n =>
    cases done
    exact .inl (s.unmoved_engage.trans (s.engage.unmoved_modifyLink n _))
  case talkSenseCodePresented code =>
    cases done
    unfold State.hearCode
    split <;> exact .inl (.of_eq rfl rfl)
  case eventFlagClear v => cases done; exact .inl (s.unmoved_portWrite fun s => s.unmoved_clearFlags v)
  case enableMaskWrite v => cases done; exact .inl (s.unmoved_portWrite fun _ => .of_eq rfl rfl)
  case writeIgnoredClear v => cases done; exact .inl (s.unmoved_portWrite fun s => s.unmoved_clearWriteIgnored v)
  case configurationWrite w v => cases done; exact .inl (s.unmoved_portWrite fun s => s.unmoved_writeConfiguration w v)
  case violationClear v => cases done; exact .inl (s.unmoved_portWrite fun _ => .of_eq rfl rfl)
  case integrityClear v => cases done; exact .inl (s.unmoved_portWrite fun _ => .of_eq rfl rfl)
  case registerWrite address v => cases done; exact .inl (s.unmoved_portWrite fun s => s.unmoved_writeWord address v)
  case commandWordWrite v => cases done; exact .inl (s.unmoved_portWrite fun s => s.unmoved_writeCommand v)
  case sweep =>
    unfold execSweep at done
    split at done <;> cases done
    · rename_i p progress
      exact State.keepsLaw_finishSweep (c.clearStep_of_inProgress progress rfl) p
    · rename_i count taking _
      exact State.keepsLaw_performSweep (c.clearStep_of_taking taking rfl) count
    · exact .refl _
  case closeAgeFree h | idleReclaim h | termExpiry h | waitOver h => cases done; exact State.keepsLaw_sweepThrough c _ _
  case drainCompletion => cases done; exact State.keepsLaw_sweepThrough c _ _
  case sweepWithdrawn =>
    unfold execSweepWithdrawn at done
    split at done
    · rename_i count taking
      split at done <;> cases done
      · exact State.keepsLaw_performSweep (c.clearStep_of_taking taking rfl) count
      · exact .refl _
    · cases done; exact .refl _
  case planBuild =>
    unfold execPlanBuild at done
    split at done <;> cases done
    · unfold State.deliverPlan
      split <;> exact .inl (.of_eq (by simp) (by simp))
    · exact .refl _
  case fold =>
    unfold execFold at done
    split at done
    · rename_i tags taking
      split at done <;> cases done
      · refine .of_law (c.clearStep_of_taking taking rfl) (by simp) fun l => ?_
        simpa using l.foldl (tagsByHandle tags) fun _ t _ l => l.foldTag t
      · unfold State.abandonFold
        split <;> exact .inl (.of_eq (by simp [State.returnFold]) (by simp [State.returnFold]))
    · cases done; exact .refl _
  case strike =>
    unfold execStrike at done
    split at done <;> cases done
    · rename_i p progress
      exact State.keepsLaw_finishStrikes (c.clearStep_of_inProgress progress rfl) p
    · rename_i todo taking _
      exact State.keepsLaw_performStrikes (c.clearStep_of_taking taking rfl) todo
    · exact .refl _
  case barring n =>
    unfold execBarring at done
    split at done
    · cases done; exact .refl _
    · rename_i p underWay
      dsimp only at done
      split at done
      · cases done; exact .refl _
      · split at done <;> cases done
        · exact .of_law (c.clearStep_of_strikes underWay) (by simp) fun l => (l.treatNodes p _).strikeNode _ _ _
        · exact .refl _
  case quarantine =>
    unfold execQuarantine at done
    split at done <;> cases done
    · rename_i q taking
      refine .of_law (c.clearStep_of_taking taking rfl) (by simp) fun l => ?_
      simpa using l.quarantined q.queueMark
    · exact .refl _
  case auditStep =>
    unfold execAuditStep at done
    split at done
    · rename_i taking
      have clear := c.clearStep_of_taking taking rfl
      split at done
      · cases done; exact .inl (.of_eq rfl rfl)
      · split at done <;> cases done
        · exact .after rfl rfl (State.keepsLaw_performAuditStep (s := s.takeAuditStep.restartAudit) clear _)
        · exact .after rfl rfl (State.keepsLaw_performAuditStep (s := s.takeAuditStep) clear _)
    · cases done; exact .refl _
  case auditInconclusive =>
    unfold execAuditInconclusive at done
    split at done
    · split at done <;> cases done
      · exact .inl (.of_eq rfl rfl)
      · exact .refl _
    · cases done; exact .refl _
  case start => exact State.keepsLaw_performOrdered (name := .start) State.unmoved_startOrdered done
  case stop => exact State.keepsLaw_performOrdered (name := .stop) State.unmoved_stopOrdered done
  case thaw => exact State.keepsLaw_performOrdered (name := .thaw) State.unmoved_thawOrdered done
  case cleartable => exact State.keepsLaw_performOrdered (name := .cleartable) State.unmoved_cleartableOrdered done
  case audit => exact State.keepsLaw_performOrdered (name := .audit) State.unmoved_auditOrdered done
  case discard => exact State.keepsLaw_discard c done
  case place => exact State.keepsLaw_performTaken c .place done
  case setframe => exact State.keepsLaw_performTaken c .setframe done
  case fence => exact State.keepsLaw_performTaken c .fence done
  case amend => exact State.keepsLaw_performTaken c .amend done
  case revoke => exact State.keepsLaw_performTaken c .revoke done
  case suspend => exact State.keepsLaw_performTaken c .suspend done
  case resume => exact State.keepsLaw_performTaken c .resume done
  case fetch => exact State.keepsLaw_performTaken c .fetch done
  case fetchq => exact State.keepsLaw_performTaken c .fetchq done
  case bar => exact State.keepsLaw_performTaken c .bar done
  case unbar => exact State.keepsLaw_performTaken c .unbar done
  case setnode => exact State.keepsLaw_performTaken c .setnode done
  case fetchnode => exact State.keepsLaw_performTaken c .fetchnode done
  case unknownCommand =>
    unfold execUnknownCommand at done
    split at done
    · split at done <;> cases done
      · exact State.keepsLaw_performCommand _ _ c.device_of_clearing fun _ done => nomatch done
      · exact .refl _
    · cases done; exact .refl _
  -- What is left are the ten node requests.
  all_goals
    rename_i n
    simp only [execClaim, execRenew, execRelease, execSublet, execRecall, execJoin, execLeave, execPoll, execQuery,
      execStatus] at done
    split at done <;> cases done
    · exact State.keepsLaw_request c n _
    · exact .refl _

/-! The invariant and Law 3 of the store. -/

/-- What QueueAgrees says of the store at every moment, a running clear's too. -/
structure Store.Plain (st : Store) : Prop where
  good : st.AllGood
  reasons : ∀ h, (st.record h).reasons.isEmpty = false → (st.record h).state = .suspended
  roots : ∀ h, (st.record h).state.isQueued = true → (st.record h).kind = .root
  grantees : ∀ h, (st.record h).kind = .root → (st.record h).grantee = (st.record h).owner

namespace State

theorem StoreSound.plain {s : State} (a : s.StoreSound) : s.store.Plain := ⟨a.good, a.reasons, a.roots, a.grantees⟩

/-- While no clear runs, the invariant is Law 3 of the store. -/
theorem QueueAgrees.law {s : State} (a : s.QueueAgrees) (clear : s.engine.clearStep = none) : s.store.QueueLaw := by
  obtain ⟨records, nodes, cells, entries⟩ := a.good
  have waits := a.waits clear
  have lawThree : ∀ h, h ∈ s.store.waiting ↔ (s.store.record h).state.isQueued = true := by
    intro h
    rw [a.lawThree clear h]
    cases (s.store.record h).state <;> simp [RecState.isQueued]
  exact {
    records := fun h => ⟨records h, a.reasons h, a.roots h, a.grantees h, fun l => (waits h).1 ▸ l, fun l => (waits h).2 ▸ l⟩
    nodes := nodes
    cells := cells
    entries := entries
    named := a.named clear
    length := a.length clear
    once := a.once clear
    queued := fun h => (lawThree h).mp
    waits := fun h q => ⟨(lawThree h).mpr q, (waits h).1.trans q, (waits h).2.trans q⟩ }

/-- Law 3 of the store gives the invariant while no clear runs. -/
theorem queueAgrees_of_law {s : State} (clear : s.engine.clearStep = none) (l : s.store.QueueLaw) : s.QueueAgrees where
  good := ⟨fun h => (l.records h).good, l.nodes, l.cells, l.entries⟩
  cleared := by constructor <;> (intro p hp; simp [clear] at hp)
  reasons h := (l.records h).reasons
  roots h := (l.records h).root
  grantees h := (l.records h).grantee
  named _ := l.named
  length _ := l.length
  once _ := l.once
  lawThree _ h := by
    have : h ∈ s.store.waiting ↔ (s.store.record h).state.isQueued = true := ⟨l.queued h, fun q => (l.waits h q).1⟩
    rw [this]
    cases (s.store.record h).state <;> simp [RecState.isQueued]
  waits _ h := by
    cases q : (s.store.record h).state.isQueued with
    | true => exact (l.waits h q).2
    | false => simp [(l.records h).unlimited q]

/-- While a clear runs, only what holds at every moment and what the clear has written is asked. -/
theorem queueAgrees_of_clearing {s : State} (running : s.engine.clearStep ≠ none) (plain : s.store.Plain)
    (cleared : s.ClearedSoFar) : s.QueueAgrees where
  good := plain.good
  cleared := cleared
  reasons := plain.reasons
  roots := plain.roots
  grantees := plain.grantees
  named clear := absurd clear running
  length clear := absurd clear running
  once clear := absurd clear running
  lawThree clear := absurd clear running
  waits clear := absurd clear running

/-- A clear that begins has written nothing. -/
theorem clearedSoFar_of_first {s : State} {keep : Bool} (first : s.engine.clearStep = some ⟨1, keep⟩) : s.ClearedSoFar := by
  have step_eq : ∀ p, s.engine.clearStep = some p → p.step = 1 := fun p running => by
    rw [first] at running
    cases running
    rfl
  exact {
    records := fun p running _ below => by have := step_eq p running; omega
    nodes := fun p running _ below => by have := step_eq p running; omega
    cells := fun p running _ _ below => by have := step_eq p running; omega }

/-- What leaves the store and the clear alone keeps the invariant. -/
theorem QueueAgrees.of_unmoved {s t : State} (a : s.QueueAgrees) (u : s.Unmoved t) : t.QueueAgrees := by
  obtain ⟨store, same | ⟨keep, first⟩⟩ := u
  · cases clear : s.engine.clearStep with
    | none => exact queueAgrees_of_law (same.trans clear) (store ▸ a.law clear)
    | some p =>
      refine queueAgrees_of_clearing (by simp [same, clear]) (store ▸ a.plain) ?_
      constructor <;> rw [same, store]
      · exact a.cleared.records
      · exact a.cleared.nodes
      · exact a.cleared.cells
  · exact queueAgrees_of_clearing (by simp [first]) (store ▸ a.plain) (clearedSoFar_of_first first)

theorem QueueAgrees.of_keepsLaw {s t : State} (a : s.QueueAgrees) (k : s.KeepsLaw t) : t.QueueAgrees := by
  obtain unmoved | ⟨clear, clear', law⟩ := k
  · exact a.of_unmoved unmoved
  · exact queueAgrees_of_law clear' (law (a.law clear))

end State

/-! The clear's own steps (R185). -/

namespace Store

/-- Steps 13 to 108 each clear one record. -/
theorem record_clearPart (keep : Bool) (step : Nat) (st : Store) (h : Handle) :
    (clearPart keep step st).record h =
      if h.val + 13 = step then clearedRecord keep (st.record h) else st.record h := by
  unfold clearPart
  split
  · have off : ¬ h.val + 13 = step := by omega
    rw [if_neg off]
    split <;> rfl
  split
  · rw [record_modifyRecord]
    exact if_congr (by rw [Fin.ext_iff]; dsimp only; omega) rfl rfl
  · have off : ¬ h.val + 13 = step := by omega
    rw [if_neg off]
    repeat' split
    all_goals rfl

/-- Steps 1 to 12 each clear one node record. -/
theorem node_clearPart (keep : Bool) (step : Nat) (st : Store) (n : Node) :
    (clearPart keep step st).node n =
      if step ≤ 12 ∧ n.val = step - 1 then clearedNode keep (st.node n) else st.node n := by
  unfold clearPart
  split
  · rename_i early
    have number : nodeOf? (step - 1) = some ⟨step - 1, by omega⟩ := by simp [nodeOf?, show step - 1 < 12 by omega]
    rw [number]
    dsimp only
    rw [node_modifyNode]
    exact if_congr (by rw [Fin.ext_iff]; simp [early]) rfl rfl
  · rename_i late
    have off : ¬ (step ≤ 12 ∧ n.val = step - 1) := fun e => late e.1
    rw [if_neg off]
    repeat' split
    all_goals rfl

/-- Steps 109 to 124 each empty one frame's cells. -/
theorem cell_clearPart (keep : Bool) (step : Nat) (st : Store) (f : Frame) (sl : Slot) :
    (clearPart keep step st).cell f sl = if f.val + 109 = step then Cell.cleared else st.cell f sl := by
  unfold clearPart
  split
  · have off : ¬ f.val + 109 = step := by omega
    rw [if_neg off]
    split <;> rfl
  split
  · have off : ¬ f.val + 109 = step := by omega
    rw [if_neg off]
    rfl
  split
  · simp only [cell, Fin.getElem_fin, Vector.getElem_set]
    by_cases here : f.val + 109 = step
    · simp [here, show step - 109 = f.val by omega]
    · simp [here, show ¬ step - 109 = f.val by omega]
  · have off : ¬ f.val + 109 = step := by omega
    rw [if_neg off]
    split <;> rfl

/-- Step 125 empties the queue. -/
theorem queue_clearPart (keep : Bool) (step : Nat) (st : Store) :
    (clearPart keep step st).queue = if 125 ≤ step then [] else st.queue := by
  unfold clearPart
  split
  · have off : ¬ 125 ≤ step := by omega
    rw [if_neg off]
    split <;> rfl
  split
  · have off : ¬ 125 ≤ step := by omega
    rw [if_neg off]
    rfl
  split
  · have off : ¬ 125 ≤ step := by omega
    rw [if_neg off]
  · have on : 125 ≤ step := by omega
    rw [if_pos on]
    split <;> rfl

/-- A clear step leaves nothing damaged. -/
theorem Plain.clearPart {st : Store} (plain : st.Plain) (keep : Bool) (step : Nat) : (clearPart keep step st).Plain := by
  obtain ⟨records, nodes, cells, entries⟩ := plain.good
  refine ⟨⟨fun h => ?_, fun n => ?_, fun f sl => ?_, fun e he => ?_⟩, fun h => ?_, fun h => ?_, fun h => ?_⟩
  · rw [record_clearPart]
    split
    · rfl
    · exact records h
  · rw [node_clearPart]
    split
    · cases keep <;> rfl
    · exact nodes n
  · rw [cell_clearPart]
    split
    · rfl
    · exact cells f sl
  · rw [queue_clearPart] at he
    split at he
    · cases he
    · exact entries e he
  · rw [record_clearPart]
    split
    · exact (soundRecord_cleared _).reasons
    · exact plain.reasons h
  · rw [record_clearPart]
    split
    · exact (soundRecord_cleared _).root
    · exact plain.roots h
  · rw [record_clearPart]
    split
    · exact (soundRecord_cleared _).grantee
    · exact plain.grantees h

end Store

namespace State

/-- After a clear step, the part it was about is cleared too. -/
theorem QueueAgrees.after_clearPart {s : State} (a : s.QueueAgrees) {p : ClearProgress}
    (running : s.engine.clearStep = some p) :
    (∀ h : Handle, h.val + 13 < p.step + 1 → (clearPart p.keep p.step s.store).record h =
      LeaseRecord.cleared ((clearPart p.keep p.step s.store).record h).generation) ∧
    (∀ n : Node, n.val + 1 < p.step + 1 → ((clearPart p.keep p.step s.store).node n).liveOwned = 0) ∧
    (∀ (f : Frame) (sl : Slot), f.val + 109 < p.step + 1 →
      (clearPart p.keep p.step s.store).cell f sl = ⟨none, true⟩) := by
  refine ⟨fun h below => ?_, fun n below => ?_, fun f sl below => ?_⟩
  · rw [Store.record_clearPart]
    split
    · rfl
    · exact a.cleared.records p running h (by omega)
  · rw [Store.node_clearPart]
    split
    · cases p.keep <;> rfl
    · exact a.cleared.nodes p running n (by omega)
  · rw [Store.cell_clearPart]
    split
    · rfl
    · exact a.cleared.cells p running f sl (by omega)

/-- The last clear step leaves an empty store, which has Law 3. -/
theorem QueueAgrees.law_of_last {s : State} (a : s.QueueAgrees) {p : ClearProgress}
    (running : s.engine.clearStep = some p) (last : 125 ≤ p.step) :
    (clearPart p.keep p.step s.store).QueueLaw := by
  obtain ⟨records, -, cells⟩ := a.after_clearPart running
  obtain ⟨good, -⟩ := a.plain.clearPart p.keep p.step
  have record : ∀ h : Handle, (clearPart p.keep p.step s.store).record h =
      LeaseRecord.cleared ((clearPart p.keep p.step s.store).record h).generation := fun h =>
    records h (by have := h.isLt; omega)
  have cell : ∀ (f : Frame) (sl : Slot), (clearPart p.keep p.step s.store).cell f sl = ⟨none, true⟩ := fun f sl =>
    cells f sl (by have := f.isLt; omega)
  have queue : (clearPart p.keep p.step s.store).queue = [] := by rw [Store.queue_clearPart, if_pos last]
  exact {
    records := fun h => record h ▸ soundRecord_cleared _
    nodes := good.2.1
    cells := good.2.2.1
    entries := good.2.2.2
    named := fun f sl h names => by simp [cell] at names
    length := by simp [queue]
    once := by simp [Store.waiting, queue]
    queued := fun h hh => by simp [Store.waiting, queue] at hh
    waits := fun h q => by
      rw [record h] at q
      exact Bool.noConfusion q }

theorem store_endClear (s : State) (keep : Bool) : (s.endClear keep).store = s.store := by
  unfold endClear
  dsimp only
  split
  · rw [store_acceptCommand]
  all_goals rfl

theorem clearStep_endClear (s : State) (keep : Bool) : (s.endClear keep).engine.clearStep = s.engine.clearStep := by
  unfold endClear
  dsimp only
  split
  · exact clearStep_completeCommand _ _ _ _ _
  all_goals rfl

/-- A clear step keeps the invariant; the last one ends the clear on an empty store (R185). -/
theorem QueueAgrees.after_clearStep {s t : State} (c : s.Consistent) (a : s.QueueAgrees)
    (done : execInitClearStep s = .next t) : t.QueueAgrees := by
  unfold execInitClearStep at done
  split at done
  · rename_i p taking
    have running := c.clearStep_of_step taking
    dsimp only at done
    split at done <;> cases done
    · obtain ⟨records, nodes, cells⟩ := a.after_clearPart running
      refine queueAgrees_of_clearing (by simp) (a.plain.clearPart p.keep p.step) ⟨?_, ?_, ?_⟩ <;>
        (intro q hq; cases hq; assumption)
    · rename_i last
      have law := a.law_of_last running (by simpa [Config.clearSteps] using last)
      refine queueAgrees_of_law ?_ ?_
      · rw [clearStep_endClear]
      · rw [store_endClear]
        exact law
  · cases done
    exact a

/-- Whatever is performed keeps the invariant; only damage to an item would break it. -/
theorem QueueAgrees.after_exec {s t : State} (a : s.QueueAgrees) (c : s.Consistent) {i : Instr}
    (undamaged : ∀ d, i ≠ .itemDamaged d) (done : exec i s = .next t) : t.QueueAgrees := by
  by_cases clears : i = .initClearStep
  · subst clears
    exact a.after_clearStep c done
  · exact a.of_keepsLaw (keepsLaw_exec c i undamaged clears done)

theorem Consistent.withPending {s : State} (c : s.Consistent) (rest : List Instr) :
    ({ s with pending := rest } : State).Consistent := by
  cases c
  constructor <;> assumption

end State

/-! The step. -/

theorem commandRow_ne_itemDamaged (c : Command) (d : Damage) : commandRow c ≠ .itemDamaged d := by
  unfold commandRow
  split <;> exact nofun

theorem takingRow_ne_itemDamaged (t : Taking) (d : Damage) : takingRow t ≠ .itemDamaged d := by
  cases t with
  | command c => exact commandRow_ne_itemDamaged c d
  | request n p =>
    show requestRow n p.request ≠ _
    cases p.request <;> exact nofun
  | _ => exact nofun

/-- The engine's own work damages nothing. -/
theorem engineRow_ne_itemDamaged {e : Engine} {i : Instr} (row : engineRow e = some i) (d : Damage) :
    i ≠ .itemDamaged d := by
  unfold engineRow at row
  split at row
  · cases row; exact nofun
  · cases row; exact nofun
  · cases row; exact takingRow_ne_itemDamaged _ d
  · obtain ⟨taking, -, rfl⟩ := Option.map_eq_some_iff.mp row
    exact takingRow_ne_itemDamaged taking d

/-- A step is the front command's row, the engine's next row, or a CLK period. -/
theorem step_next_cases {s t : State} (done : step s = .next t) :
    (∃ i rest, s.pending = i :: rest ∧ exec i { s with pending := rest } = .next t) ∨
      (∃ i, engineRow s.engine = some i ∧ exec i s = .next t) ∨ t = s.clkPeriod := by
  unfold step at done
  split at done
  · rename_i i rest front
    exact .inl ⟨i, rest, front, done⟩
  · unfold idleStep at done
    split at done
    · rename_i i row
      exact .inr (.inl ⟨i, row, done⟩)
    · cases done
      exact .inr (.inr rfl)

/-- Settles O57: a step is one row or one CLK period; each leaves the store and the clear alone, or changes the store within Law 3, or is a step of the clear, which ends on an empty queue. -/
theorem everyStepKeepsQueueLaw : Obligations.EveryStepKeepsQueueLaw := by
  unfold Obligations.EveryStepKeepsQueueLaw
  intro s t c noDamage a done
  obtain ⟨i, rest, front, done⟩ | ⟨i, row, done⟩ | rfl := step_next_cases done
  · have undamaged : ∀ d, i ≠ .itemDamaged d := fun d here => noDamage d (by rw [front, here]; rfl)
    exact State.QueueAgrees.after_exec (s := { s with pending := rest }) (a.of_unmoved (.of_eq rfl rfl)) (c.withPending rest) undamaged done
  · exact a.after_exec c (engineRow_ne_itemDamaged row) done
  · exact a.of_unmoved s.unmoved_clkPeriod

end Sys2Proof.Machine
end
